-- ==== Sys2Proof/Word.lean ====
section
/-! DEFINITION. The word types of QDMC: what the spec treats as bits (00_scope.md R11). -/

namespace Sys2Proof

/-- A 64-bit command word (30_encoding.md R150). -/
abbrev Command := BitVec 64

/-- A 16-bit operand field FA, FB or FC of format R (30_encoding.md R152). -/
abbrev Field := BitVec 16

/-- A 32-bit word of the host port and of the CSR space (20_memory.md R100, R103). -/
abbrev Word32 := BitVec 32

/-- The container of a coefficient cell of P, G or SQ: cells are M_MAX bits wide and M_MAX ≤ 16
(00_scope.md R9, log entry 1). Field elements of GF(2^m) (R19) use it too. -/
abbrev Elem := BitVec 16

/-- The container of a POS entry: entries are POS_W = M_MAX + 1 bits wide and M_MAX ≤ 16
(00_scope.md R9, log entry 1). -/
abbrev PosEntry := BitVec 17

/-- The container of a block storage word: words are TB = 2^T_MAX bits wide and T_MAX ≤ 8
(00_scope.md R9, R12, log entry 1). -/
abbrev Block := BitVec 256

end Sys2Proof
end

