-- ==== Sys2Proof/Config.lean ====
section
/-! DEFINITION. What an implementation fixes: the synthesis parameters of 00_scope.md R9, the
identification values of 10_state.md R60, and the free values the spec leaves open. -/

namespace Sys2Proof

/-- The synthesis parameters a configuration of QDMC fixes (00_scope.md R9). NPREG is fixed at 8. -/
structure Params where
  /-- T_MAX, the largest log2 block size. -/
  tMax : Nat
  /-- M_MAX, the largest field extension degree. -/
  mMax : Nat
  /-- BMEM_AW, the block-memory address width. -/
  bmemAw : Nat
  /-- CQ_DEPTH, the command FIFO depth in commands. -/
  cqDepth : Nat
  deriving DecidableEq, Repr

/-- The reference values of 00_scope.md R9. -/
def Params.reference : Params := { tMax := 6, mMax := 16, bmemAw := 16, cqDepth := 16 }

/-- The constraints of 00_scope.md R9 on the synthesis parameters. -/
abbrev Params.Legal (p : Params) : Prop :=
  p.tMax ≤ 8 ∧ p.tMax < p.mMax ∧ p.mMax ≤ 16 ∧ p.bmemAw ≤ 16 ∧ 1 ≤ p.cqDepth ∧ p.cqDepth ≤ 255

/-- TB = 2^T_MAX, the width in bits of one block storage word (00_scope.md R9). -/
def Params.tb (p : Params) : Nat := 2 ^ p.tMax

/-- PLEN = 2·TB, the coefficient slots of a polynomial register (00_scope.md R9). -/
def Params.plen (p : Params) : Nat := 2 * p.tb

/-- GLEN = TB + 1, the coefficient slots of G (00_scope.md R9). -/
def Params.glen (p : Params) : Nat := p.tb + 1

/-- POS_W = M_MAX + 1, the width of a POS entry (00_scope.md R9). -/
def Params.posW (p : Params) : Nat := p.mMax + 1

/-- The number of POS entries, 2^M_MAX (10_state.md R51). -/
def Params.posLen (p : Params) : Nat := 2 ^ p.mMax

/-- The number of BMEM words, 2^BMEM_AW (20_memory.md R101). -/
def Params.bmemLen (p : Params) : Nat := 2 ^ p.bmemAw

/-- LANES = max(1, TB / 32), the port lanes of a BMEM word (20_memory.md R104). -/
def Params.lanes (p : Params) : Nat := max 1 (p.tb / 32)

/-- NPREG, fixed at 8 (00_scope.md R9). -/
def Config.nPreg : Nat := 8

/-- The ID register, the ASCII bytes "QDMC" (10_state.md R60). -/
def Config.idValue : Word32 := 0x51444D43#32

/-- The VERSION register, spec edition 1.0 (10_state.md R60). -/
def Config.versionValue : Word32 := 0x00010000#32

/-- FREE VALUE: what the n-th host read of an undefined cell returns, before it is cut to the cell's
width (20_memory.md R109, 93_implementation_defined.md I2; log entry 4). -/
opaque Config.freeRead : Nat → Word32

/-- FREE VALUE: which of the outcomes 44_decoder.md R340 allows the n-th decoder command takes when the
field polynomial is reducible: 0 raises DECODE_FAIL 1, 1 raises DECODE_FAIL 2, another value writes free
values (log entry 5). -/
opaque Config.freeOutcome : Nat → BitVec 2

/-- FREE VALUE: coefficient k of the d-th destination polynomial of the n-th decoder command when the
field polynomial is reducible (44_decoder.md R340; log entry 5). -/
opaque Config.freeCoeff : Nat → Nat → Nat → Elem

/-- FREE VALUE: block k of the error vector that the n-th decoder command writes when the field
polynomial is reducible (44_decoder.md R340; log entry 5). -/
opaque Config.freeBlock : Nat → Nat → Block

end Sys2Proof
end

