-- ==== Sys2Proof/Syntax.lean ====
section
/-! DEFINITION. The commands of QDMC: one constructor per row of spec/opcode_table.json
(30_encoding.md R157, R164), with the operand fields the row names. -/

namespace Sys2Proof

/-- The field ids of 30_encoding.md R155: 1 = FA, 2 = FB, 3 = FC, 4 = FD, 5 = Z or the high bits of
IMM. -/
inductive FieldId where
  | fa
  | fb
  | fc
  | fd
  | zImm
  deriving DecidableEq, Repr

/-- What a 16-bit operand field holds, as far as the operand checks of 30_encoding.md R154 and R155
tell kinds apart. -/
inductive FieldKind where
  /-- A field marked "0" in R164. -/
  | reserved
  /-- A block address, a slot value, a CSR number or a field element: every value passes the operand
  check. -/
  | free
  /-- The index of a P register. -/
  | preg
  /-- A count or a stride, at least 1. -/
  | positive
  /-- A coefficient slot index, below PLEN. -/
  | slot
  /-- A row of SQ, below TB. -/
  | sqRow
  deriving DecidableEq, Repr

/-- One command (30_encoding.md R164); operands in the order of R164's "syntax" column. -/
inductive Instr where
  /-- `NOP` (45_control.md R401). -/
  | nop
  /-- `SYNC` (45_control.md R402). -/
  | sync
  /-- `CSRW csr, imm32` (45_control.md R403). -/
  | csrw (csr : Field) (imm : Word32)
  /-- `POSSET x, imm17` (45_control.md R404). -/
  | posset (x : Field) (imm : PosEntry)
  /-- `DYMUL d, a, b` (40_dyadic.md R200). -/
  | dymul (d a b : Field)
  /-- `DYADD d, a, b` (40_dyadic.md R201). -/
  | dyadd (d a b : Field)
  /-- `DYREG a` (40_dyadic.md R202). -/
  | dyreg (a : Field)
  /-- `DYINV d, a` (40_dyadic.md R203). -/
  | dyinv (d a : Field)
  /-- `BCOPY d, s, count` (40_dyadic.md R204). -/
  | bcopy (d s count : Field)
  /-- `MATVEC d, M, v` (42_matvec.md R281). -/
  | matvec (d mat v : Field)
  /-- `GAUSS base` (41_eliminator.md R251). -/
  | gauss (base : Field)
  /-- `COT2P Pd, base, stride` (43_poly_transfer.md R300). -/
  | cot2p (pd base stride : Field)
  /-- `P2COT base, Ps, stride` (43_poly_transfer.md R301). -/
  | p2cot (base ps stride : Field)
  /-- `PINV Pd, Ps` (44_decoder.md R341). -/
  | pinv (pd ps : Field)
  /-- `PADDX Pd, Ps` (44_decoder.md R342). -/
  | paddx (pd ps : Field)
  /-- `PSQRT Pd, Ps` (44_decoder.md R343). -/
  | psqrt (pd ps : Field)
  /-- `PFRAC Pa, Pb, Ps` (44_decoder.md R344). -/
  | pfrac (pa pb ps : Field)
  /-- `PLOC Pd, Pa, Pb` (44_decoder.md R345). -/
  | ploc (pd pa pb : Field)
  /-- `ROOTS e, Ps` (44_decoder.md R346). -/
  | roots (e ps : Field)
  /-- `CORRECT d, c, e` (44_decoder.md R347). -/
  | correct (d c e : Field)
  /-- `DECODE e, s` (44_decoder.md R349). -/
  | decode (e s : Field)
  /-- `PCLR Pd` (43_poly_transfer.md R302). -/
  | pclr (pd : Field)
  /-- `PMOV Pd, Ps` (43_poly_transfer.md R303). -/
  | pmov (pd ps : Field)
  /-- `PSETC Pd, k, value` (43_poly_transfer.md R304). -/
  | psetc (pd k value : Field)
  /-- `GSET Ps` (43_poly_transfer.md R305). -/
  | gset (ps : Field)
  /-- `SQSET i, Ps` (43_poly_transfer.md R306). -/
  | sqset (i ps : Field)
  deriving DecidableEq, Repr

end Sys2Proof
end

