-- ==== Sys2Proof/WellFormed.lean ====
section
/-! DEFINITION. Which commands are well formed: every operand field holds a legal value
(30_encoding.md R154). A command that is not well formed still has a meaning: it raises BAD_OPERAND. -/

namespace Sys2Proof

/-- A field that names one of P0..P7. -/
abbrev isPreg (v : Field) : Prop := v.toNat < Config.nPreg

/-- The operand fields of a command all hold legal values (30_encoding.md R154, R164). The CSR number of
CSRW and the field element of POSSET are checked when the command runs (CSR_ACCESS, ADDR_RANGE). -/
abbrev Instr.WellFormed (p : Params) : Instr → Prop
  | .posset _ imm => imm.toNat < 2 ^ p.posW
  | .bcopy _ _ count => 1 ≤ count.toNat
  | .cot2p pd _ stride => isPreg pd ∧ 1 ≤ stride.toNat
  | .p2cot _ ps stride => isPreg ps ∧ 1 ≤ stride.toNat
  | .pinv pd ps => isPreg pd ∧ isPreg ps
  | .paddx pd ps => isPreg pd ∧ isPreg ps
  | .psqrt pd ps => isPreg pd ∧ isPreg ps
  | .pfrac pa pb ps => isPreg pa ∧ isPreg pb ∧ isPreg ps ∧ pa ≠ pb
  | .ploc pd pa pb => isPreg pd ∧ isPreg pa ∧ isPreg pb
  | .roots _ ps => isPreg ps
  | .pclr pd => isPreg pd
  | .pmov pd ps => isPreg pd ∧ isPreg ps
  | .psetc pd k _ => isPreg pd ∧ k.toNat < p.plen
  | .gset ps => isPreg ps
  | .sqset i ps => i.toNat < p.tb ∧ isPreg ps
  | .nop => True
  | .sync => True
  | .csrw _ _ => True
  | .dymul _ _ _ => True
  | .dyadd _ _ _ => True
  | .dyreg _ => True
  | .dyinv _ _ => True
  | .matvec _ _ _ => True
  | .gauss _ => True
  | .correct _ _ _ => True
  | .decode _ _ => True

end Sys2Proof
end

