-- ==== Sys2Proof/Decode.lean ====
section
/-! DEFINITION. The decoder (30_encoding.md R152 to R160), total on every 64-bit word and rejecting by
name, and the encoder (R152, R153, R161). -/

namespace Sys2Proof

/-! ### Fields of a command word -/

/-- Bits 63:56, the opcode (30_encoding.md R152, R153). -/
def opcOf (w : Command) : BitVec 8 := w.extractLsb' 56 8

/-- Bits 55:40, operand A. -/
def faOf (w : Command) : Field := w.extractLsb' 40 16

/-- Bits 39:24, operand B of format R. -/
def fbOf (w : Command) : Field := w.extractLsb' 24 16

/-- Bits 23:8, operand C of format R. -/
def fcOf (w : Command) : Field := w.extractLsb' 8 16

/-- Bits 7:0, the reserved field FD of format R. -/
def fdOf (w : Command) : BitVec 8 := w.extractLsb' 0 8

/-- Bits 39:32, the reserved field Z of format I (30_encoding.md R153). -/
def zOf (w : Command) : BitVec 8 := w.extractLsb' 32 8

/-- Bits 31:0, the immediate of format I. -/
def immOf (w : Command) : Word32 := w.extractLsb' 0 32

/-! ### Operand checks -/

/-- The number 30_encoding.md R155 gives a field. -/
def FieldId.code : FieldId → Nat
  | .fa => 1
  | .fb => 2
  | .fc => 3
  | .fd => 4
  | .zImm => 5

/-- The operand check of one 16-bit field (30_encoding.md R154, R155, R160 step 2). -/
def FieldKind.legal (p : Params) (k : FieldKind) (v : Field) : Bool :=
  match k with
  | .reserved => v == 0#16
  | .free => true
  | .preg => decide (v.toNat < Config.nPreg)
  | .positive => decide (1 ≤ v.toNat)
  | .slot => decide (v.toNat < p.plen)
  | .sqRow => decide (v.toNat < p.tb)

/-- The first failing field of a list of checks in field order (60_exceptions.md R503). -/
def firstBad : List (FieldId × Bool) → Option FieldId
  | [] => none
  | (f, ok) :: rest => if ok then firstBad rest else some f

/-! ### The opcode map -/

/-- One row of the operand table for a command in format R (30_encoding.md R157, R164). -/
structure RowR where
  opc : BitVec 8
  fa : FieldKind
  fb : FieldKind
  fc : FieldKind
  build : Field → Field → Field → Instr

/-- The 24 commands in format R (30_encoding.md R157, R164). -/
def rowsR : List RowR :=
  [ ⟨0x00#8, .reserved, .reserved, .reserved, fun _ _ _ => .nop⟩,
    ⟨0x01#8, .reserved, .reserved, .reserved, fun _ _ _ => .sync⟩,
    ⟨0x10#8, .free, .free, .free, fun d a b => .dymul d a b⟩,
    ⟨0x11#8, .free, .free, .free, fun d a b => .dyadd d a b⟩,
    ⟨0x12#8, .reserved, .free, .reserved, fun _ a _ => .dyreg a⟩,
    ⟨0x13#8, .free, .free, .reserved, fun d a _ => .dyinv d a⟩,
    ⟨0x14#8, .free, .free, .positive, fun d s count => .bcopy d s count⟩,
    ⟨0x20#8, .free, .free, .free, fun d mat v => .matvec d mat v⟩,
    ⟨0x21#8, .free, .reserved, .reserved, fun base _ _ => .gauss base⟩,
    ⟨0x30#8, .preg, .free, .positive, fun pd base stride => .cot2p pd base stride⟩,
    ⟨0x31#8, .free, .preg, .positive, fun base ps stride => .p2cot base ps stride⟩,
    ⟨0x32#8, .preg, .preg, .reserved, fun pd ps _ => .pinv pd ps⟩,
    ⟨0x33#8, .preg, .preg, .reserved, fun pd ps _ => .paddx pd ps⟩,
    ⟨0x34#8, .preg, .preg, .reserved, fun pd ps _ => .psqrt pd ps⟩,
    ⟨0x35#8, .preg, .preg, .preg, fun pa pb ps => .pfrac pa pb ps⟩,
    ⟨0x36#8, .preg, .preg, .preg, fun pd pa pb => .ploc pd pa pb⟩,
    ⟨0x37#8, .free, .preg, .reserved, fun e ps _ => .roots e ps⟩,
    ⟨0x38#8, .free, .free, .free, fun d c e => .correct d c e⟩,
    ⟨0x39#8, .free, .free, .reserved, fun e s _ => .decode e s⟩,
    ⟨0x3A#8, .preg, .reserved, .reserved, fun pd _ _ => .pclr pd⟩,
    ⟨0x3B#8, .preg, .preg, .reserved, fun pd ps _ => .pmov pd ps⟩,
    ⟨0x3C#8, .preg, .slot, .free, fun pd k value => .psetc pd k value⟩,
    ⟨0x3D#8, .reserved, .preg, .reserved, fun _ ps _ => .gset ps⟩,
    ⟨0x3E#8, .sqRow, .preg, .reserved, fun i ps _ => .sqset i ps⟩ ]

/-- The opcodes of the two commands in format I (30_encoding.md R157). -/
def opcCsrw : BitVec 8 := 0x02#8
/-- See `opcCsrw`. -/
def opcPosset : BitVec 8 := 0x03#8

/-! ### Decoding -/

/-- Why a word is no command: what the sequencer raises for it (30_encoding.md R155, R158). -/
inductive Reject where
  /-- The opcode is not in R157: ILLEGAL_OPCODE with the opcode as info, whatever the other bits hold. -/
  | illegalOpcode (opc : BitVec 8)
  /-- A reserved field is nonzero: BAD_OPERAND with the first failing operand field, R160 step 2. -/
  | badOperand (f : FieldId)
  deriving DecidableEq, Repr

/-- A field of kind `k` does not break the rule that reserved fields are 0 (30_encoding.md R155). -/
def FieldKind.clear (k : FieldKind) (v : Field) : Bool :=
  match k with
  | .reserved => v == 0#16
  | .free => true
  | .preg => true
  | .positive => true
  | .slot => true
  | .sqRow => true

/-- A word of format R under its row. A word whose reserved fields are 0 is the row's command, whatever
its operands (the command's own meaning checks those); any other word is rejected, and the field reported
is the first that fails R160 step 2 in the order FA, FB, FC, FD. -/
def decodeR (p : Params) (r : RowR) (w : Command) : Except Reject Instr :=
  if r.fa.clear (faOf w) && r.fb.clear (fbOf w) && r.fc.clear (fcOf w) && (fdOf w == 0#8) then
    .ok (r.build (faOf w) (fbOf w) (fcOf w))
  else
    .error (.badOperand ((firstBad [(.fa, r.fa.legal p (faOf w)), (.fb, r.fb.legal p (fbOf w)),
      (.fc, r.fc.legal p (fcOf w)), (.fd, fdOf w == 0#8)]).getD .fd))

/-- A CSRW word (30_encoding.md R153, R164): Z is reserved. -/
def decodeCsrw (w : Command) : Except Reject Instr :=
  if zOf w == 0#8 then .ok (.csrw (faOf w) (immOf w)) else .error (.badOperand .zImm)

/-- A POSSET word (30_encoding.md R153, R155, R164): Z and the bits of IMM at POS_W and above are
reserved. -/
def decodePosset (p : Params) (w : Command) : Except Reject Instr :=
  if zOf w == 0#8 && decide ((immOf w).toNat < 2 ^ p.posW) && decide ((immOf w).toNat < 2 ^ 17) then
    .ok (.posset (faOf w) ((immOf w).setWidth 17))
  else .error (.badOperand .zImm)

/-- The command a 64-bit word stands for (30_encoding.md R157): the opcode alone selects it. -/
def decode (p : Params) (w : Command) : Except Reject Instr :=
  if opcOf w = opcCsrw then decodeCsrw w
  else if opcOf w = opcPosset then decodePosset p w
  else match rowsR.find? (fun r => r.opc == opcOf w) with
    | some r => decodeR p r w
    | none => .error (.illegalOpcode (opcOf w))

/-! ### Encoding -/

/-- `word = OPC<<56 | FA<<40 | FB<<24 | FC<<8 | FD` with FD = 0 (30_encoding.md R152). -/
def wordR (opc : BitVec 8) (fa fb fc : Field) : Command :=
  (opc.setWidth 64 <<< 56) ||| (fa.setWidth 64 <<< 40) ||| (fb.setWidth 64 <<< 24) |||
    (fc.setWidth 64 <<< 8)

/-- `word = OPC<<56 | FA<<40 | Z<<32 | IMM` with Z = 0 (30_encoding.md R153). -/
def wordI (opc : BitVec 8) (fa : Field) (imm : Word32) : Command :=
  (opc.setWidth 64 <<< 56) ||| (fa.setWidth 64 <<< 40) ||| imm.setWidth 64

/-- The word of a command (30_encoding.md R157, R161, R164): every field not written is 0. -/
def encode : Instr → Command
  | .nop => wordR 0x00#8 0 0 0
  | .sync => wordR 0x01#8 0 0 0
  | .csrw csr imm => wordI 0x02#8 csr imm
  | .posset x imm => wordI 0x03#8 x (imm.setWidth 32)
  | .dymul d a b => wordR 0x10#8 d a b
  | .dyadd d a b => wordR 0x11#8 d a b
  | .dyreg a => wordR 0x12#8 0 a 0
  | .dyinv d a => wordR 0x13#8 d a 0
  | .bcopy d s count => wordR 0x14#8 d s count
  | .matvec d mat v => wordR 0x20#8 d mat v
  | .gauss base => wordR 0x21#8 base 0 0
  | .cot2p pd base stride => wordR 0x30#8 pd base stride
  | .p2cot base ps stride => wordR 0x31#8 base ps stride
  | .pinv pd ps => wordR 0x32#8 pd ps 0
  | .paddx pd ps => wordR 0x33#8 pd ps 0
  | .psqrt pd ps => wordR 0x34#8 pd ps 0
  | .pfrac pa pb ps => wordR 0x35#8 pa pb ps
  | .ploc pd pa pb => wordR 0x36#8 pd pa pb
  | .roots e ps => wordR 0x37#8 e ps 0
  | .correct d c e => wordR 0x38#8 d c e
  | .decode e s => wordR 0x39#8 e s 0
  | .pclr pd => wordR 0x3A#8 pd 0 0
  | .pmov pd ps => wordR 0x3B#8 pd ps 0
  | .psetc pd k value => wordR 0x3C#8 pd k value
  | .gset ps => wordR 0x3D#8 0 ps 0
  | .sqset i ps => wordR 0x3E#8 i ps 0

/-! ### The host's table words -/

/-- The command the decoder reads, in the reference configuration, from the table word `w` of `nbits`
bits: a command is one 64-bit word whose low half is CMD_LO and whose high half is CMD_HI
(30_encoding.md R151), and every bit above `nbits` is 0. -/
def decodeTableWord (nbits w : Nat) : Option Instr :=
  match decode Params.reference (BitVec.ofNat 64 (w % 2 ^ nbits)) with
  | .ok i => some i
  | .error _ => none

end Sys2Proof
end

