-- ==== Sys2Proof/Machine/Bits.lean ====
section
/-! DEFINITION. Bit-field helpers (00_scope.md R11): keeping the low bits of a word, building a word from
its bits, and the XOR and the count of a family of bits. -/

namespace Sys2Proof.Machine

/-- Bits k−1..0 of `v`, zeros above (00_scope.md R11: `v[k−1:0]`). -/
def lowBits {w : Nat} (k : Nat) (v : BitVec w) : BitVec w := BitVec.ofNat w (v.toNat % 2 ^ k)

/-- The word whose bit i is `f i` for i < n, and 0 above. -/
def bitsOf (w : Nat) : Nat → (Nat → Bool) → BitVec w
  | 0, _ => 0
  | n + 1, f => bitsOf w n f ||| BitVec.ofNat w ((f n).toNat <<< n)

/-- XOR over i in [0, n) of `f i`. -/
def xorSum : Nat → (Nat → Bool) → Bool
  | 0, _ => false
  | n + 1, f => xor (xorSum n f) (f n)

/-- The number of i in [0, n) with `f i`. -/
def countOf : Nat → (Nat → Bool) → Nat
  | 0, _ => 0
  | n + 1, f => countOf n f + (f n).toNat

/-- `f 0, f 1, .., f (n − 1)`. -/
def tabulate {α : Type} (n : Nat) (f : Nat → α) : List α := (List.range n).map f

end Sys2Proof.Machine
end

