-- ==== Sys2Proof/Machine/Galois.lean ====
section
/-! DEFINITION. The field GF(2^m) in the polynomial basis modulo the field polynomial F
(00_scope.md R19). The formulas are total for every F of degree m. -/

namespace Sys2Proof.Machine

/-- The extension degree m and the field polynomial F (00_scope.md R10, R19). -/
structure Gf where
  m : Nat
  f : BitVec 17
  deriving DecidableEq, Repr

/-- The carry-less product of a and b, the low n bits of b taking part: XOR over i < n with b[i] = 1 of
a << i (00_scope.md R19). -/
def clmul (a b : Elem) : Nat → BitVec 32
  | 0 => 0
  | n + 1 => clmul a b n ^^^ (if b.getLsbD n then a.setWidth 32 <<< n else 0)

/-- Reduction modulo F of bits m + n − 1 .. m, from the top down: where bit m + k is 1, F << k is
subtracted. -/
def reduceBits (k : Gf) : Nat → BitVec 32 → BitVec 32
  | 0, v => v
  | n + 1, v =>
    reduceBits k n (if v.getLsbD (k.m + n) then v ^^^ (k.f.setWidth 32 <<< n) else v)

/-- `fmul(a, b)`: the carry-less product of a and b reduced modulo F (00_scope.md R19). -/
def fmul (k : Gf) (a b : Elem) : Elem := (reduceBits k k.m (clmul a b k.m)).setWidth 16

/-- Square and multiply over the low n bits of e, see `fpow`. -/
def fpowBits (k : Gf) (a : Elem) (e : Nat) : Nat → Elem
  | 0 => 1
  | n + 1 =>
    let h := fpowBits k a e n
    let sq := fmul k h h
    if e.testBit (16 - n) then fmul k sq a else sq

/-- `fpow(a, e)`, repeated fmul with `fpow(a, 0) = 1` (00_scope.md R19), for exponents below 2^17,
computed by squaring from the exponent's top bit down (log entry 11). -/
def fpow (k : Gf) (a : Elem) (e : Nat) : Elem := fpowBits k a e 17

/-- `finv(a) = fpow(a, 2^m − 2)` and `finv(0) = 0`, also for m = 1 (00_scope.md R19; log entry 12). -/
def finv (k : Gf) (a : Elem) : Elem := if a = 0 then 0 else fpow k a (2 ^ k.m - 2)

/-- `fsqrt(a) = fpow(a, 2^(m−1))` (00_scope.md R19). -/
def fsqrt (k : Gf) (a : Elem) : Elem := fpow k a (2 ^ (k.m - 1))

/-- The remainder of a binary polynomial v by a binary polynomial d of degree e: where bit e + k of v is
1, d << k is subtracted, from k = n − 1 down. -/
def gf2Mod (d e : Nat) : Nat → Nat → Nat
  | 0, v => v
  | n + 1, v => gf2Mod d e n (if v.testBit (e + n) then v ^^^ (d <<< n) else v)

/-- F is irreducible over GF(2) (44_decoder.md R340): no binary polynomial of degree 1 to m/2 divides it
(log entry 15). -/
def Gf.irreducible (k : Gf) : Bool :=
  (List.range (2 ^ (k.m / 2 + 1))).all fun d => d < 2 || gf2Mod d d.log2 17 k.f.toNat != 0

end Sys2Proof.Machine
end

