-- ==== Sys2Proof/Machine/State.lean ====
section
/-! DEFINITION. The architectural state of QDMC (10_state.md), the reasons a step can stop, and the
state after reset. -/

namespace Sys2Proof.Machine

/-- The cell spaces a command reads (20_memory.md R100). -/
inductive Space where
  | p
  | g
  | sq
  | pos
  | bmem
  deriving DecidableEq, Repr

/-- Why the MODEL stops. The machine's own faults (60_exceptions.md R501) are next states. -/
inductive Fault where
  /-- Raised by a command that reads a cell no one has written since reset: 10_state.md R46 and
  20_memory.md R126 require a model to report it, "never as a value". `index` is the cell's key in its
  space. SAFE: the model stops where hardware would go on with an arbitrary value (log entry 2). -/
  | undefinedRead (space : Space) (index : Nat)
  deriving DecidableEq, Repr

/-- Why the model has no meaning for a command. -/
inductive Refusal where
  /-- An instruction of the table that has no meaning yet; no arm of `exec` answers it. SAFE. -/
  | notModelled (mnemonic : String)
  deriving DecidableEq, Repr

/-- The six fault causes of 60_exceptions.md R501. -/
inductive Cause where
  | illegalOpcode
  | badOperand
  | csrAccess
  | badConfig
  | addrRange
  | decodeFail
  deriving DecidableEq, Repr

/-- A sparse cell space: pairs of a cell's key and its value, keys strictly rising; a key that is not
listed holds no defined value (10_state.md R70, log entry 2). -/
abbrev Cells (α : Type) := List (Nat × α)

/-- A BMEM word (20_memory.md R101): its bits, and which of its 32-bit port lanes have been written since
reset (R108; log entry 3). Bits of unwritten lanes are held as 0 and never read. -/
structure BWord where
  bits : Block
  lanes : BitVec 8
  deriving DecidableEq, Repr

/-- The block memory BMEM, keyed by block index (10_state.md R53). -/
abbrev Memory := Cells BWord

/-- The sticky bits of STATUS (10_state.md R65); BUSY and CQ_LEVEL are computed. -/
structure Status where
  err : Bool
  finished : Bool
  mark : Bool
  ovf : Bool
  hostErr : Bool
  deriving DecidableEq, Repr

/-- The error record registers (10_state.md R67). -/
structure ErrRec where
  cause : BitVec 4
  info : Word32
  cmdLo : Word32
  cmdHi : Word32
  index : Word32
  deriving DecidableEq, Repr

/-- The configuration registers' stored bits (10_state.md R63). -/
structure ConfigRegs where
  m : BitVec 5
  t : BitVec 4
  nb : BitVec 16
  fpoly : BitVec 17
  mvRows : BitVec 16
  mvCols : BitVec 16
  mvRs : BitVec 16
  mvCs : BitVec 16
  deriving DecidableEq, Repr

/-- FLAGS (10_state.md R59). -/
structure FlagBits where
  reg : Bool
  sing : Bool
  deriving DecidableEq, Repr

/-- One event of the total order of 20_memory.md R120 (log entry 6). -/
inductive Event where
  /-- A read transaction of the host port: byte address, byte enables (R103). -/
  | read (addr : Word32) (be : BitVec 4)
  /-- A write transaction of the host port: byte address, write data, byte enables (R103). -/
  | write (addr : Word32) (data : Word32) (be : BitVec 4)
  /-- The reset input RST (70_reset_and_hazards.md R600). -/
  | rst
  /-- The sequencer takes its turn (45_control.md R400). -/
  | sequencer
  deriving DecidableEq, Repr

/-- The state of QDMC (10_state.md), plain data. -/
structure State where
  /-- The synthesis parameters, which PARAMS reads (10_state.md R60, 00_scope.md R9; log entry 1). -/
  params : Params
  /-- CTRL.EN (10_state.md R62). -/
  ctrlEn : Bool
  /-- STATUS, the sticky bits (10_state.md R65). -/
  status : Status
  /-- IE, bits 5:1 (10_state.md R66): bit k of the field is IE bit k + 1. -/
  ie : BitVec 5
  /-- CMD_LO (10_state.md R57). -/
  cmdLo : Word32
  /-- CMD_COUNT (10_state.md R55). -/
  cmdCount : Word32
  /-- ERR_CAUSE, ERR_INFO, ERR_CMD_LO, ERR_CMD_HI, ERR_INDEX (10_state.md R67). -/
  errRec : ErrRec
  /-- CFG_M to MV_CS (10_state.md R63). -/
  cfg : ConfigRegs
  /-- FLAGS (10_state.md R59). -/
  flags : FlagBits
  /-- The command FIFO, head first (10_state.md R56). -/
  fifo : List Command
  /-- P0..P7 (10_state.md R41, R42): slot k of register i has key 512·i + k. -/
  p : Cells Elem
  /-- G (10_state.md R47): slot k has key k. -/
  g : Cells Elem
  /-- SQ (10_state.md R49): slot k of row i has key 256·i + k. -/
  sq : Cells Elem
  /-- POS (10_state.md R51): entry x has key x. -/
  pos : Cells PosEntry
  /-- BMEM (20_memory.md R101): block a has key a. -/
  bmem : Memory
  /-- MODEL FIELD: the events still to come, first first (20_memory.md R120; log entry 6). -/
  agenda : List Event
  /-- MODEL FIELD: the data the last host read returned (20_memory.md R103; log entry 8). -/
  rdata : Word32
  /-- MODEL FIELD: how many free values have been drawn (log entry 9). -/
  draws : Nat
  deriving DecidableEq, Repr

/-- The state after a reset of the configuration `p` (10_state.md R70): configuration, control and
status 0, the FIFO empty, and no cell of P, G, SQ, POS or BMEM defined. -/
def State.resetWith (p : Params) : State where
  params := p
  ctrlEn := false
  status := { err := false, finished := false, mark := false, ovf := false, hostErr := false }
  ie := 0
  cmdLo := 0
  cmdCount := 0
  errRec := { cause := 0, info := 0, cmdLo := 0, cmdHi := 0, index := 0 }
  cfg := { m := 0, t := 0, nb := 0, fpoly := 0, mvRows := 0, mvCols := 0, mvRs := 0, mvCs := 0 }
  flags := { reg := false, sing := false }
  fifo := []
  p := []
  g := []
  sq := []
  pos := []
  bmem := []
  agenda := []
  rdata := 0
  draws := 0

/-- The machine right after reset, in the reference configuration (10_state.md R70, 00_scope.md R9). -/
def State.reset : State := State.resetWith Params.reference

end Sys2Proof.Machine
end

