-- ==== Sys2Proof/Machine/Ops.lean ====
section
/-! DEFINITION. The named operations over memory and registers, and how a command ends: retiring,
taking a fault, and the host's return from a fault. -/

namespace Sys2Proof.Machine

/-! ### Sparse cell spaces -/

/-- The value of the cell with key `k`; none when no one has written it since reset. -/
def cellGet {α : Type} : Cells α → Nat → Option α
  | [], _ => none
  | (j, v) :: rest, k => if j = k then some v else cellGet rest k

/-- The cells `lo, lo + 1, ..` with the given values. -/
def numbered {α : Type} : Nat → List α → Cells α
  | _, [] => []
  | lo, v :: vs => (lo, v) :: numbered (lo + 1) vs

/-- Writes the given values to the cells `lo, lo + 1, ..` and leaves every other cell alone. -/
def cellPut {α : Type} (c : Cells α) (lo : Nat) (vs : List α) : Cells α :=
  c.filter (fun e => decide (e.1 < lo)) ++ numbered lo vs ++
    c.filter (fun e => decide (lo + vs.length ≤ e.1))

/-- The canonical form of a cell space: keys strictly rising. (A key that is not listed holds no value, so
no entry equals what an unlisted key reads as.) -/
abbrev sortedKeys {α : Type} (c : Cells α) : Prop := (c.map Prod.fst).Pairwise (· < ·)

/-- The key of slot k of P register i. -/
def pKey (i k : Nat) : Nat := 512 * i + k

/-- The key of slot k of SQ row i. -/
def sqKey (i k : Nat) : Nat := 256 * i + k

/-! ### Runtime parameters -/

/-- m = CFG_M (00_scope.md R10). -/
def State.m (s : State) : Nat := s.cfg.m.toNat

/-- T = CFG_T (00_scope.md R10). -/
def State.logT (s : State) : Nat := s.cfg.t.toNat

/-- t = 2^T, the block size (00_scope.md R10). -/
def State.t (s : State) : Nat := 2 ^ s.logT

/-- n = 2^m, the field size (00_scope.md R10). -/
def State.n (s : State) : Nat := 2 ^ s.m

/-- NB = CFG_NB (00_scope.md R10). -/
def State.nb (s : State) : Nat := s.cfg.nb.toNat

/-- The field of CFG_M and CFG_FPOLY (00_scope.md R19). -/
def State.gf (s : State) : Gf := { m := s.m, f := s.cfg.fpoly }

/-- The plain size (NB − m)·t in bits (00_scope.md R8). -/
def State.plainBits (s : State) : Nat := (s.nb - s.m) * s.t

/-- The cipher size NB·t in bits (00_scope.md R8). -/
def State.cipherBits (s : State) : Nat := s.nb * s.t

/-- Configuration validity (10_state.md R64). -/
abbrev State.Cfgv (s : State) : Prop :=
  1 ≤ s.m ∧ s.m ≤ s.params.mMax ∧ s.logT ≤ s.params.tMax ∧ s.logT < s.m ∧
    s.cfg.fpoly.getLsbD s.m = true ∧ s.cfg.fpoly >>> (s.m + 1) = 0

/-! ### BMEM -/

/-- All port lanes of a BMEM word (20_memory.md R104, R108). -/
def allLanes (p : Params) : BitVec 8 := BitVec.ofNat 8 (2 ^ p.lanes - 1)

/-- The port lanes that bits [t−1:0] of a BMEM word reach (00_scope.md R12, 20_memory.md R108). -/
def lanesUsed (t : Nat) : BitVec 8 := BitVec.ofNat 8 (2 ^ max 1 (t / 32) - 1)

/-- A word whose lanes in `need` have all been written (log entry 3). -/
def BWord.holds (w : BWord) (need : BitVec 8) : Bool := w.lanes &&& need == need

/-- `B(a)` (00_scope.md R12, R14): bits [t−1:0] of block a; none when some of them have not been written
since reset (20_memory.md R126). -/
def State.block (s : State) (a : Nat) : Option Block :=
  match cellGet s.bmem a with
  | none => none
  | some w => if w.holds (lanesUsed s.t) then some (lowBits s.t w.bits) else none

/-- The whole TB-bit word of block a (40_dyadic.md R204); none when some of it has not been written since
reset. -/
def State.blockWord (s : State) (a : Nat) : Option Block :=
  match cellGet s.bmem a with
  | none => none
  | some w => if w.holds (allLanes s.params) then some w.bits else none

/-- `MemWrite(a, k, v)` (00_scope.md R12, R14): t-bit blocks to a, a + 1, .., bits TB−1..t zero. -/
def State.putBlocks (s : State) (a : Nat) (vs : List Block) : State :=
  { s with bmem := cellPut s.bmem a (vs.map fun v => ⟨lowBits s.t v, allLanes s.params⟩) }

/-- `B(a) <- v` (00_scope.md R14). -/
def State.putBlock (s : State) (a : Nat) (v : Block) : State := s.putBlocks a [v]

/-- Whole TB-bit words to a, a + 1, .. (40_dyadic.md R204). -/
def State.putWords (s : State) (a : Nat) (vs : List Block) : State :=
  { s with bmem := cellPut s.bmem a (vs.map fun v => ⟨v, allLanes s.params⟩) }

/-- Blocks to a, a + stride, a + 2·stride, .. (43_poly_transfer.md R301). -/
def State.putStrided (s : State) (a stride : Nat) : List Block → State
  | [] => s
  | v :: vs => (s.putBlock a v).putStrided (a + stride) stride vs

/-- The canonical form of one BMEM word: a lane is written, no lane is one the configuration lacks, and no
bit stands at TB or above or outside the written lanes. -/
def BWord.wf (p : Params) (w : BWord) : Bool :=
  w.lanes != 0 && w.lanes &&& allLanes p == w.lanes && lowBits p.tb w.bits == w.bits &&
    (List.range 8).all fun l => w.lanes.getLsbD l || w.bits.extractLsb' (32 * l) 32 == 0

/-- The canonical form of BMEM: keys strictly rising and in range, every word in its own. -/
def Memory.wf (p : Params) (mem : Memory) : Bool :=
  decide (sortedKeys mem) && mem.all fun e => decide (e.1 < p.bmemLen) && e.2.wf p

/-! ### P, G, SQ and POS -/

/-- P[i].c[k], all bits (10_state.md R42); none when not written since reset. -/
def State.pSlot (s : State) (i k : Nat) : Option Elem := cellGet s.p (pKey i k)

/-- G.c[k] (10_state.md R47). -/
def State.gSlot (s : State) (k : Nat) : Option Elem := cellGet s.g k

/-- SQ[i].c[k] (10_state.md R49). -/
def State.sqSlot (s : State) (i k : Nat) : Option Elem := cellGet s.sq (sqKey i k)

/-- POS[x] (10_state.md R51). -/
def State.posEntry (s : State) (x : Nat) : Option PosEntry := cellGet s.pos x

/-- Raw coefficients to slots k, k + 1, .. of P[i]. -/
def State.putSlots (s : State) (i k : Nat) (vs : List Elem) : State :=
  { s with p := cellPut s.p (pKey i k) vs }

/-- `P[i] <- p` (10_state.md R45): slot k gets the m-bit element p_k zero-extended, for every k in
[0, PLEN). -/
def State.putPoly (s : State) (i : Nat) (p : List Elem) : State :=
  s.putSlots i 0 (tabulate s.params.plen fun k => lowBits s.m (p.getD k 0))

/-- Raw coefficients to slots 0, 1, .. of G. -/
def State.putG (s : State) (vs : List Elem) : State := { s with g := cellPut s.g 0 vs }

/-- Raw coefficients to slots 0, 1, .. of row i of SQ. -/
def State.putSqRow (s : State) (i : Nat) (vs : List Elem) : State :=
  { s with sq := cellPut s.sq (sqKey i 0) vs }

/-- POS[x] <- v. -/
def State.putPos (s : State) (x : Nat) (v : PosEntry) : State := { s with pos := cellPut s.pos x [v] }

/-! ### Configuration registers -/

/-- Whether CSR k is one of the nine registers CSRW may write, 0x020 to 0x028 (10_state.md R61). -/
def isConfigCsr (k : Nat) : Bool := decide (0x020 ≤ k) && decide (k ≤ 0x028)

/-- `CSR[k] <- v` for a configuration register or FLAGS: the low bits are stored, the rest of the write is
ignored (10_state.md R59, R63, R68). -/
def State.putConfig (s : State) (k : Nat) (v : Word32) : State :=
  if k = 0x020 then { s with cfg := { s.cfg with m := v.setWidth 5 } }
  else if k = 0x021 then { s with cfg := { s.cfg with t := v.setWidth 4 } }
  else if k = 0x022 then { s with cfg := { s.cfg with nb := v.setWidth 16 } }
  else if k = 0x023 then { s with cfg := { s.cfg with fpoly := v.setWidth 17 } }
  else if k = 0x024 then { s with cfg := { s.cfg with mvRows := v.setWidth 16 } }
  else if k = 0x025 then { s with cfg := { s.cfg with mvCols := v.setWidth 16 } }
  else if k = 0x026 then { s with cfg := { s.cfg with mvRs := v.setWidth 16 } }
  else if k = 0x027 then { s with cfg := { s.cfg with mvCs := v.setWidth 16 } }
  else if k = 0x028 then { s with flags := { reg := v.getLsbD 0, sing := v.getLsbD 1 } }
  else s

/-! ### The sequencer's condition -/

/-- STATUS.BUSY = CTRL.EN & ~STATUS.ERR & (CQ_LEVEL ≠ 0) (10_state.md R58). -/
def State.busy (s : State) : Bool := s.ctrlEn && !s.status.err && !s.fifo.isEmpty

/-! ### How a command ends -/

/-- Why a command's rule ends before its writes. -/
inductive Stop where
  /-- `raise Fault(CAUSE, info)` (00_scope.md R14, 60_exceptions.md R505). -/
  | raise (c : Cause) (info : Word32)
  /-- The same, chosen by a free value (44_decoder.md R340): the value counts as drawn. -/
  | freeRaise (c : Cause) (info : Word32)
  /-- The model stops (10_state.md R46, 20_memory.md R126). -/
  | stuck (f : Fault)
  deriving DecidableEq, Repr

/-- What a command's rule computes: a result, or why it ends early. -/
abbrev Run (α : Type) := Except Stop α

/-- The code of a cause in ERR_CAUSE (60_exceptions.md R501). -/
def Cause.code : Cause → BitVec 4
  | .illegalOpcode => 1
  | .badOperand => 2
  | .csrAccess => 3
  | .badConfig => 4
  | .addrRange => 5
  | .decodeFail => 6

/-- TAKING A FAULT (60_exceptions.md R505, R506; 45_control.md R400): cause, info, the faulting word `w`
and CMD_COUNT are recorded and STATUS.ERR is set, which halts the sequencer; nothing else changes. -/
def State.takeFault (s : State) (c : Cause) (info : Word32) (w : Command) : State :=
  { s with
    errRec :=
      { cause := c.code, info := info, cmdLo := w.setWidth 32, cmdHi := (w >>> 32).setWidth 32,
        index := s.cmdCount }
    status := { s.status with err := true } }

/-- A host write of `v` to STATUS (10_state.md R65): every sticky bit written 1 is cleared. Clearing ERR
is THE RETURN FROM A FAULT (60_exceptions.md R508): there is no state to restore, and the error record
keeps its values. -/
def State.clearStatus (s : State) (v : Word32) : State :=
  { s with
    status :=
      { err := s.status.err && !v.getLsbD 1
        finished := s.status.finished && !v.getLsbD 2
        mark := s.status.mark && !v.getLsbD 3
        ovf := s.status.ovf && !v.getLsbD 4
        hostErr := s.status.hostErr && !v.getLsbD 5 } }

/-- A command retires (45_control.md R400, 10_state.md R55): CMD_COUNT counts it modulo 2^32, and DONE is
set when the FIFO is then empty. -/
def State.retire (s : State) : State :=
  { s with
    cmdCount := s.cmdCount + 1
    status := { s.status with finished := s.status.finished || s.fifo.isEmpty } }

/-- One free value has been drawn (log entry 9). -/
def State.drawn (s : State) : State := { s with draws := s.draws + 1 }

/-- The end of command `i`, started in `s` (its word already removed from the FIFO), whose rule gave `r`
(45_control.md R400): it retires, or its fault is taken with no other change to `s`, or the model
stops. The word recorded is the command's own encoding, the only word that decodes to it. -/
def commit (i : Instr) (s : State) (r : Run State) : Host.Outcome State Fault Refusal :=
  match r with
  | .ok s' => .next s'.retire
  | .error (.raise c info) => .next (s.takeFault c info (encode i))
  | .error (.freeRaise c info) => .next (s.drawn.takeFault c info (encode i))
  | .error (.stuck f) => .fault f

end Sys2Proof.Machine
end

