-- ==== Sys2Proof/Machine/Poly.lean ====
section
/-! DEFINITION. Polynomials over GF(2^m) (00_scope.md R20) and the steps of the Patterson decoder built
on them (44_decoder.md R341 to R346), as functions. -/

namespace Sys2Proof.Machine

/-- A polynomial: its coefficients from x^0 up; zeros may stand at the end (00_scope.md R20). -/
abbrev Poly := List Elem

/-- p_k, the coefficient of x^k. -/
def pcoeff (p : Poly) (k : Nat) : Elem := p.getD k 0

/-- p without zeros at the end. -/
def pnorm : Poly → Poly
  | [] => []
  | a :: p =>
    match pnorm p with
    | [] => if a = 0 then [] else [a]
    | b :: q => a :: b :: q

/-- deg(p) + 1: the number of coefficients up to the last nonzero one. -/
def psize (p : Poly) : Nat := (pnorm p).length

/-- deg(p), with deg(0) = −1 (00_scope.md R20). -/
def pdeg (p : Poly) : Int := (psize p : Int) - 1

/-- p = 0. -/
def pzero (p : Poly) : Bool := psize p == 0

/-- lc(p) = p_deg(p) (00_scope.md R20). -/
def plead (p : Poly) : Elem := pcoeff p (psize p - 1)

/-- Coefficient-wise fadd (00_scope.md R20). -/
def padd : Poly → Poly → Poly
  | [], q => q
  | p, [] => p
  | a :: p, b :: q => (a ^^^ b) :: padd p q

/-- c·p. -/
def pscale (k : Gf) (c : Elem) (p : Poly) : Poly := p.map (fmul k c)

/-- The convolution product with fmul and fadd (00_scope.md R20). -/
def pmul (k : Gf) : Poly → Poly → Poly
  | [], _ => []
  | a :: p, q => padd (pscale k a q) (0 :: pmul k p q)

/-- The long division of `a` by `b` of degree `d` whose leading coefficient has the inverse `li`, by
Horner's scheme: quotient and remainder of a0 + x·a come from those of a. -/
def pdivAux (k : Gf) (b : Poly) (d : Nat) (li : Elem) : Poly → Poly × Poly
  | [] => ([], [])
  | a0 :: a =>
    let qr := pdivAux k b d li a
    let r := a0 :: qr.2
    let c := fmul k (pcoeff r d) li
    (c :: qr.1, (padd r (pscale k c b)).take d)

/-- `divmod(a, b)` for b ≠ 0: the (q, r) with a = q·b + r and deg r < deg b, using finv(lc(b))
(00_scope.md R20). -/
def pdivmod (k : Gf) (a b : Poly) : Poly × Poly :=
  pdivAux k (pnorm b) (psize b - 1) (finv k (plead b)) a

/-- `a mod b` (00_scope.md R20). -/
def pmod (k : Gf) (a b : Poly) : Poly := (pdivmod k a b).2

/-- `monic(p) = p·finv(lc(p))` for p ≠ 0, and `monic(0) = 0` (00_scope.md R20). -/
def pmonic (k : Gf) (p : Poly) : Poly := if pzero p then [] else pscale k (finv k (plead p)) p

/-- `psq(p)`: coefficient 2i is fmul(p_i, p_i), odd coefficients are 0 (00_scope.md R20). -/
def psq (k : Gf) : Poly → Poly
  | [] => []
  | a :: p => fmul k a a :: 0 :: psq k p

/-- Horner evaluation (00_scope.md R20). -/
def peval (k : Gf) : Poly → Elem → Elem
  | [], _ => 0
  | a :: p, x => a ^^^ fmul k (peval k p x) x

/-! ### The decoder's steps -/

/-- The extended Euclid loop of PINV (44_decoder.md R341): while deg r1 > 0. The degree of r1 falls every
time, so `n` = its size at the start is enough. Answers the last (r1, u1). -/
def invLoop (k : Gf) : Nat → Poly → Poly → Poly → Poly → Poly × Poly
  | 0, _, r1, _, u1 => (r1, u1)
  | n + 1, r0, r1, u0, u1 =>
    if 0 < pdeg r1 then
      let qr := pdivmod k r0 r1
      invLoop k n r1 qr.2 u1 (padd u0 (pmul k qr.1 u1))
    else (r1, u1)

/-- PINV: the inverse of `p` modulo `g`, none when gcd(p mod g, g) is not 1 (44_decoder.md R341). -/
def pinvMod (k : Gf) (g p : Poly) : Option Poly :=
  let s := pmod k p g
  if pzero s then none
  else
    let ru := invLoop k (psize s) g s [] [1]
    if pzero ru.1 then none
    else some (pmod k (pscale k (finv k (pcoeff ru.1 0)) ru.2) g)

/-- PADDX: p + x (44_decoder.md R342). -/
def paddX (p : Poly) : Poly := padd p [0, 1]

/-- PSQRT: Σ over i < t of fsqrt(v_i)·SQ[i] with v = p mod g (44_decoder.md R343). -/
def psqrtMod (k : Gf) (t : Nat) (g : Poly) (sq : List Poly) (p : Poly) : Poly :=
  let v := pmod k p g
  (List.range t).foldl (fun r i => padd r (pscale k (fsqrt k (pcoeff v i)) (sq.getD i []))) []

/-- The half extended Euclid loop of PFRAC (44_decoder.md R344): while deg rc > d. The degree of rc falls
every time, so `n` = its size at the start is enough. Answers the last (rc, bc). -/
def fracLoop (k : Gf) (g : Poly) (d : Nat) : Nat → Poly → Poly → Poly → Poly → Poly × Poly
  | 0, _, rc, _, bc => (rc, bc)
  | n + 1, rp, rc, bp, bc =>
    if (d : Int) < pdeg rc then
      let qr := pdivmod k rp rc
      fracLoop k g d n rc qr.2 bc (pmod k (padd (pmul k qr.1 bc) bp) g)
    else (rc, bc)

/-- PFRAC: (a, b) with a ≡ b·τ (mod g) and small degrees (44_decoder.md R344). -/
def pfracMod (k : Gf) (t : Nat) (g tau : Poly) : Poly × Poly :=
  let rc := pmod k tau g
  fracLoop k g (t / 2) (psize rc) (pmonic k g) rc [] [1]

/-- PLOC: σ = monic(psq(a) + x·psq(b)), coefficients 0..t−1 of a and b taking part
(44_decoder.md R345). -/
def locator (k : Gf) (t : Nat) (a b : Poly) : Poly :=
  pmonic k (padd (psq k (a.take t)) (0 :: psq k (b.take t)))

/-- ev[x]: the field element with bit pattern x is a root of σ (44_decoder.md R346). -/
def isRoot (k : Gf) (sigma : Poly) (x : Nat) : Bool := peval k sigma (BitVec.ofNat 16 x) == 0

/-- σ splits into deg σ distinct linear factors: popcount(ev) = deg σ (44_decoder.md R346). -/
def splits (k : Gf) (sigma : Poly) : Bool :=
  (countOf (2 ^ k.m) (isRoot k sigma) : Int) == pdeg sigma

end Sys2Proof.Machine
end

