-- ==== Sys2Proof/Machine/Operands.lean ====
section
/-! DEFINITION. The checks a command makes before it reads or writes any state (30_encoding.md R160), and
the reads of its operands (00_scope.md R14). A read of a cell no one has written since reset stops the
model (10_state.md R46, 20_memory.md R126). -/

namespace Sys2Proof.Machine

/-! ### Checks, in the order of 30_encoding.md R160 -/

/-- `raise Fault(c, info)` unless `ok`. -/
def require (ok : Bool) (c : Cause) (info : Word32) : Run Unit :=
  if ok then .ok () else .error (.raise c info)

/-- Step 2: the operand fields in field order, each against its kind (30_encoding.md R154); BAD_OPERAND
with the first failing field's id. (A word with a nonzero reserved field decodes to no command.) -/
def checkOperands (s : State) (fields : List (FieldId × FieldKind × Field)) : Run Unit :=
  match firstBad (fields.map fun e => (e.1, e.2.1.legal s.params e.2.2)) with
  | none => .ok ()
  | some f => .error (.raise .badOperand (BitVec.ofNat 32 f.code))

/-- Step 4: CFGV, BAD_CONFIG info 1 (10_state.md R64). -/
def checkCfgv (s : State) : Run Unit := require (decide s.Cfgv) .badConfig 1

/-- Step 5: the region of field `f` whose highest block is `last`; ADDR_RANGE with the field id
(20_memory.md R102). -/
def checkRegion (s : State) (f : FieldId) (last : Nat) : Run Unit :=
  require (decide (last < s.params.bmemLen)) .addrRange (BitVec.ofNat 32 f.code)

/-! ### Reads -/

/-- The value of a cell; a cell that holds no defined value stops the model, as 10_state.md R46, 20_memory.md
R126 and 70_reset_and_hazards.md R603 order (93_implementation_defined.md I1; log entry 2). Which cell the stop
names when several are undefined is the model's choice (log entry 20). -/
def readCell {α : Type} (space : Space) (index : Nat) (v : Option α) : Run α :=
  match v with
  | some x => .ok x
  | none => .error (.stuck (.undefinedRead space index))

/-- `f k, f (k + 1), .., f (k + n − 1)`, read in that order. -/
def collectFrom {α : Type} (f : Nat → Run α) (k : Nat) : Nat → Run (List α)
  | 0 => .ok []
  | n + 1 => do
    let v ← f k
    let vs ← collectFrom f (k + 1) n
    return v :: vs

/-- `f 0, .., f (n − 1)`, read in that order. -/
def collect {α : Type} (n : Nat) (f : Nat → Run α) : Run (List α) := collectFrom f 0 n

/-- `B(a)` (00_scope.md R14). -/
def readBlock (s : State) (a : Nat) : Run Block := readCell .bmem a (s.block a)

/-- `MemRead(a, n)` (00_scope.md R14). -/
def readBlocks (s : State) (a n : Nat) : Run (List Block) := collect n fun i => readBlock s (a + i)

/-- Slots 0 .. n−1 of P[i], all bits: a raw read (10_state.md R44). -/
def readSlots (s : State) (i n : Nat) : Run (List Elem) :=
  collect n fun k => readCell .p (pKey i k) (s.pSlot i k)

/-- Slots 0 .. n−1 of P[i], each masked to m bits (10_state.md R44). -/
def readPolyTo (s : State) (i n : Nat) : Run Poly := do
  let vs ← readSlots s i n
  return vs.map (lowBits s.m)

/-- `P[i]` as a polynomial: all PLEN slots masked to m bits (10_state.md R44). -/
def readPoly (s : State) (i : Nat) : Run Poly := readPolyTo s i s.params.plen

/-- G as a polynomial: slots 0 .. t masked to m bits (10_state.md R47). -/
def readG (s : State) : Run Poly := do
  let vs ← collect (s.t + 1) fun k => readCell .g k (s.gSlot k)
  return vs.map (lowBits s.m)

/-- SQ[i] as a polynomial: slots 0 .. t−1 masked to m bits (10_state.md R49). -/
def readSqRow (s : State) (i : Nat) : Run Poly := do
  let vs ← collect s.t fun k => readCell .sq (sqKey i k) (s.sqSlot i k)
  return vs.map (lowBits s.m)

/-- SQ[0] .. SQ[t−1] (10_state.md R49). -/
def readSq (s : State) : Run (List Poly) := collect s.t (readSqRow s)

/-- POS[x] (10_state.md R51). -/
def readPos (s : State) (x : Nat) : Run Nat := do
  let v ← readCell .pos x (s.posEntry x)
  return v.toNat

/-- Step 4, last: G.c[t][m−1:0] ≠ 0, BAD_CONFIG info 4 (10_state.md R48). -/
def checkGoppa (s : State) : Run Unit := do
  let lead ← readCell .g s.t (s.gSlot s.t)
  require (lowBits s.m lead != 0) .badConfig 4

end Sys2Proof.Machine
end

