-- ==== Sys2Proof/Machine/Control.lean ====
section
/-! DEFINITION. The control commands (45_control.md): NOP, SYNC, CSRW, POSSET. -/

namespace Sys2Proof.Machine

/-- NOP (45_control.md R401): nothing is done; the command retires. -/
def ruleNop (s : State) : Run State :=
  .ok s

/-- The command NOP: its rule, then how it ends (45_control.md R400). -/
def execNop (s : State) : Host.Outcome State Fault Refusal :=
  commit .nop s (ruleNop s)

/-- SYNC (45_control.md R402): `STATUS.MARK <- 1`. -/
def ruleSync (s : State) : Run State :=
  .ok { s with status := { s.status with mark := true } }

/-- The command SYNC: its rule, then how it ends (45_control.md R400). -/
def execSync (s : State) : Host.Outcome State Fault Refusal :=
  commit .sync s (ruleSync s)

/-- CSRW (45_control.md R403): writes one of the CSRs 0x020 to 0x028, or raises CSR_ACCESS. -/
def ruleCsrw (csr : Field) (imm : Word32) (s : State) : Run State := do
  require (isConfigCsr csr.toNat) .csrAccess (csr.setWidth 32)
  return s.putConfig csr.toNat imm

/-- The command CSRW: its rule, then how it ends (45_control.md R400). -/
def execCsrw (csr : Field) (imm : Word32) (s : State) : Host.Outcome State Fault Refusal :=
  commit (.csrw csr imm) s (ruleCsrw csr imm s)

/-- POSSET (45_control.md R404): `POS[x] <- IMM[POS_W−1:0]`. -/
def rulePosset (x : Field) (imm : PosEntry) (s : State) : Run State := do
  require (decide (imm.toNat < 2 ^ s.params.posW)) .badOperand (BitVec.ofNat 32 FieldId.zImm.code)
  require (decide (x.toNat < s.params.posLen)) .addrRange (BitVec.ofNat 32 FieldId.fa.code)
  return s.putPos x.toNat imm

/-- The command POSSET: its rule, then how it ends (45_control.md R400). -/
def execPosset (x : Field) (imm : PosEntry) (s : State) : Host.Outcome State Fault Refusal :=
  commit (.posset x imm) s (rulePosset x imm s)

end Sys2Proof.Machine
end

