-- ==== Sys2Proof/Machine/Transfer.lean ====
section
/-! DEFINITION. The cotrace conversions and the polynomial register transfers (43_poly_transfer.md):
COT2P, P2COT, PCLR, PMOV, PSETC, GSET, SQSET. -/

namespace Sys2Proof.Machine

/-- Element j of a polynomial rebuilt from sub-blocks: Σ over i < m of s_i[j] << i (00_scope.md R21). -/
def planeElem (m : Nat) (planes : List Block) (j : Nat) : Elem :=
  bitsOf 16 m fun i => (planes.getD i 0).getLsbD j

/-- The t elements rebuilt from m sub-blocks (00_scope.md R21, 43_poly_transfer.md R300). -/
def ofPlanes (m t : Nat) (planes : List Block) : Poly := tabulate t (planeElem m planes)

/-- The m sub-blocks of t elements: bit j of sub-block i is bit i of e_j (00_scope.md R21,
43_poly_transfer.md R301). -/
def toPlanes (m t : Nat) (e : Poly) : List Block :=
  tabulate m fun i => bitsOf 256 t fun j => (pcoeff e j).getLsbD i

/-- COT2P (43_poly_transfer.md R300): the m bit planes at base, base + stride, .. become the coefficients
of Pd. -/
def ruleCot2p (pd base stride : Field) (s : State) : Run State := do
  checkOperands s [(.fa, .preg, pd), (.fc, .positive, stride)]
  checkCfgv s
  checkRegion s .fb (base.toNat + (s.m - 1) * stride.toNat)
  let planes ← collect s.m fun i => readBlock s (base.toNat + i * stride.toNat)
  return s.putPoly pd.toNat (ofPlanes s.m s.t planes)

/-- The command COT2P: its rule, then how it ends (45_control.md R400). -/
def execCot2p (pd base stride : Field) (s : State) : Host.Outcome State Fault Refusal :=
  commit (.cot2p pd base stride) s (ruleCot2p pd base stride s)

/-- P2COT (43_poly_transfer.md R301): the coefficients 0 .. t−1 of Ps become m bit planes at base,
base + stride, .. -/
def ruleP2cot (base ps stride : Field) (s : State) : Run State := do
  checkOperands s [(.fb, .preg, ps), (.fc, .positive, stride)]
  checkCfgv s
  checkRegion s .fa (base.toNat + (s.m - 1) * stride.toNat)
  let e ← readPolyTo s ps.toNat s.t
  return s.putStrided base.toNat stride.toNat (toPlanes s.m s.t e)

/-- The command P2COT: its rule, then how it ends (45_control.md R400). -/
def execP2cot (base ps stride : Field) (s : State) : Host.Outcome State Fault Refusal :=
  commit (.p2cot base ps stride) s (ruleP2cot base ps stride s)

/-- PCLR (43_poly_transfer.md R302): `P[Pd] <- 0`, all PLEN slots. -/
def rulePclr (pd : Field) (s : State) : Run State := do
  checkOperands s [(.fa, .preg, pd)]
  return s.putPoly pd.toNat []

/-- The command PCLR: its rule, then how it ends (45_control.md R400). -/
def execPclr (pd : Field) (s : State) : Host.Outcome State Fault Refusal :=
  commit (.pclr pd) s (rulePclr pd s)

/-- PMOV (43_poly_transfer.md R303): all slots of Ps, unmasked, to Pd. -/
def rulePmov (pd ps : Field) (s : State) : Run State := do
  checkOperands s [(.fa, .preg, pd), (.fb, .preg, ps)]
  let vs ← readSlots s ps.toNat s.params.plen
  return s.putSlots pd.toNat 0 vs

/-- The command PMOV: its rule, then how it ends (45_control.md R400). -/
def execPmov (pd ps : Field) (s : State) : Host.Outcome State Fault Refusal :=
  commit (.pmov pd ps) s (rulePmov pd ps s)

/-- PSETC (43_poly_transfer.md R304): `P[Pd].c[k] <- FC[M_MAX−1:0]`. -/
def rulePsetc (pd k value : Field) (s : State) : Run State := do
  checkOperands s [(.fa, .preg, pd), (.fb, .slot, k)]
  return s.putSlots pd.toNat k.toNat [lowBits s.params.mMax value]

/-- The command PSETC: its rule, then how it ends (45_control.md R400). -/
def execPsetc (pd k value : Field) (s : State) : Host.Outcome State Fault Refusal :=
  commit (.psetc pd k value) s (rulePsetc pd k value s)

/-- GSET (43_poly_transfer.md R305): slots 0 .. TB of Ps, unmasked, to G. -/
def ruleGset (ps : Field) (s : State) : Run State := do
  checkOperands s [(.fb, .preg, ps)]
  let vs ← readSlots s ps.toNat s.params.glen
  return s.putG vs

/-- The command GSET: its rule, then how it ends (45_control.md R400). -/
def execGset (ps : Field) (s : State) : Host.Outcome State Fault Refusal :=
  commit (.gset ps) s (ruleGset ps s)

/-- SQSET (43_poly_transfer.md R306): slots 0 .. TB−1 of Ps, unmasked, to row i of SQ. -/
def ruleSqset (i ps : Field) (s : State) : Run State := do
  checkOperands s [(.fa, .sqRow, i), (.fb, .preg, ps)]
  let vs ← readSlots s ps.toNat s.params.tb
  return s.putSqRow i.toNat vs

/-- The command SQSET: its rule, then how it ends (45_control.md R400). -/
def execSqset (i ps : Field) (s : State) : Host.Outcome State Fault Refusal :=
  commit (.sqset i ps) s (ruleSqset i ps s)

end Sys2Proof.Machine
end

