-- ==== Sys2Proof/Machine/Decoder.lean ====
section
/-! DEFINITION. The error-locator decoder, root finding and correction (44_decoder.md): PINV, PADDX,
PSQRT, PFRAC, PLOC, ROOTS, CORRECT, DECODE. -/

namespace Sys2Proof.Machine

/-! ### The unspecified results under a reducible field polynomial -/

/-- 44_decoder.md R340: when CFG_FPOLY is irreducible the rule's own result `exact`; when it is reducible
any outcome the rule allows, chosen by a free value: DECODE_FAIL 1, DECODE_FAIL 2, or `write`, which
writes free values to the command's destinations only (log entry 5). -/
def underField (s : State) (write : State) (exact : Run State) : Run State :=
  if s.gf.irreducible then exact
  else if Config.freeOutcome s.draws = 0 then .error (.freeRaise .decodeFail 1)
  else if Config.freeOutcome s.draws = 1 then .error (.freeRaise .decodeFail 2)
  else .ok write.drawn

/-- The free polynomial for destination d of the current command. -/
def freePoly (s : State) (d : Nat) : Poly := tabulate s.params.plen (Config.freeCoeff s.draws d)

/-- The free blocks of an error vector written by the current command. -/
def freeVector (s : State) : List Block := tabulate (s.n / s.t) (Config.freeBlock s.draws)

/-! ### The locator steps -/

/-- PINV (44_decoder.md R341): the inverse of P[Ps] modulo G, or DECODE_FAIL 1. -/
def rulePinv (pd ps : Field) (s : State) : Run State := do
  checkOperands s [(.fa, .preg, pd), (.fb, .preg, ps)]
  checkCfgv s
  checkGoppa s
  let p ← readPoly s ps.toNat
  let g ← readG s
  underField s (s.putPoly pd.toNat (freePoly s 0)) <|
    match pinvMod s.gf g p with
    | none => .error (.raise .decodeFail 1)
    | some u => .ok (s.putPoly pd.toNat u)

/-- The command PINV: its rule, then how it ends (45_control.md R400). -/
def execPinv (pd ps : Field) (s : State) : Host.Outcome State Fault Refusal :=
  commit (.pinv pd ps) s (rulePinv pd ps s)

/-- PADDX (44_decoder.md R342): `P[Pd] <- P[Ps] + x`. -/
def rulePaddx (pd ps : Field) (s : State) : Run State := do
  checkOperands s [(.fa, .preg, pd), (.fb, .preg, ps)]
  checkCfgv s
  let p ← readPoly s ps.toNat
  return s.putPoly pd.toNat (paddX p)

/-- The command PADDX: its rule, then how it ends (45_control.md R400). -/
def execPaddx (pd ps : Field) (s : State) : Host.Outcome State Fault Refusal :=
  commit (.paddx pd ps) s (rulePaddx pd ps s)

/-- PSQRT (44_decoder.md R343): the square root of P[Ps] modulo G that SQ gives. -/
def rulePsqrt (pd ps : Field) (s : State) : Run State := do
  checkOperands s [(.fa, .preg, pd), (.fb, .preg, ps)]
  checkCfgv s
  checkGoppa s
  let p ← readPoly s ps.toNat
  let g ← readG s
  let sq ← readSq s
  underField s (s.putPoly pd.toNat (freePoly s 0)) <|
    .ok (s.putPoly pd.toNat (psqrtMod s.gf s.t g sq p))

/-- The command PSQRT: its rule, then how it ends (45_control.md R400). -/
def execPsqrt (pd ps : Field) (s : State) : Host.Outcome State Fault Refusal :=
  commit (.psqrt pd ps) s (rulePsqrt pd ps s)

/-- PFRAC (44_decoder.md R344): a and b with a ≡ b·P[Ps] modulo G, to Pa and Pb. Ps is read before the slots of G
below t (the model's choice, log entry 20). -/
def rulePfrac (pa pb ps : Field) (s : State) : Run State := do
  checkOperands s [(.fa, .preg, pa), (.fb, .preg, pb), (.fc, .preg, ps)]
  require (pa != pb) .badOperand (BitVec.ofNat 32 FieldId.fb.code)
  checkCfgv s
  checkGoppa s
  let p ← readPoly s ps.toNat
  let g ← readG s
  underField s ((s.putPoly pa.toNat (freePoly s 0)).putPoly pb.toNat (freePoly s 1)) <|
    let ab := pfracMod s.gf s.t g p
    .ok ((s.putPoly pa.toNat ab.1).putPoly pb.toNat ab.2)

/-- The command PFRAC: its rule, then how it ends (45_control.md R400). -/
def execPfrac (pa pb ps : Field) (s : State) : Host.Outcome State Fault Refusal :=
  commit (.pfrac pa pb ps) s (rulePfrac pa pb ps s)

/-- PLOC (44_decoder.md R345): `P[Pd] <- monic(a² + x·b²)` from slots 0 .. t−1 of Pa and Pb. -/
def rulePloc (pd pa pb : Field) (s : State) : Run State := do
  checkOperands s [(.fa, .preg, pd), (.fb, .preg, pa), (.fc, .preg, pb)]
  checkCfgv s
  let a ← readPolyTo s pa.toNat s.t
  let b ← readPolyTo s pb.toNat s.t
  return s.putPoly pd.toNat (locator s.gf s.t a b)

/-- The command PLOC: its rule, then how it ends (45_control.md R400). -/
def execPloc (pd pa pb : Field) (s : State) : Host.Outcome State Fault Refusal :=
  commit (.ploc pd pa pb) s (rulePloc pd pa pb s)

/-! ### Root finding -/

/-- The n-bit vector of the roots of σ as n/t blocks: bit j of block b is ev[b·t + j]
(44_decoder.md R346). -/
def rootBlocks (s : State) (sigma : Poly) : List Block :=
  tabulate (s.n / s.t) fun b => bitsOf 256 s.t fun j => isRoot s.gf sigma (b * s.t + j)

/-- The root vector of σ, or DECODE_FAIL 2 when σ does not split into deg σ distinct roots
(44_decoder.md R346). -/
def rootVector (s : State) (sigma : Poly) : Run (List Block) := do
  require (splits s.gf sigma) .decodeFail 2
  return rootBlocks s sigma

/-- ROOTS (44_decoder.md R346): the root vector of P[Ps] to e, e + 1, .. -/
def ruleRoots (e ps : Field) (s : State) : Run State := do
  checkOperands s [(.fb, .preg, ps)]
  checkCfgv s
  checkRegion s .fa (e.toNat + s.n / s.t - 1)
  let sigma ← readPoly s ps.toNat
  let ev ← rootVector s sigma
  return s.putBlocks e.toNat ev

/-- The command ROOTS: its rule, then how it ends (45_control.md R400). -/
def execRoots (e ps : Field) (s : State) : Host.Outcome State Fault Refusal :=
  commit (.roots e ps) s (ruleRoots e ps s)

/-! ### Correction -/

/-- Bit p of a bit-vector in t-bit blocks (00_scope.md R13). -/
def vectorBit (t : Nat) (v : List Block) (p : Nat) : Bool := (v.getD (p / t) 0).getLsbD (p % t)

/-- Bit p of a bit-vector in t-bit blocks flipped (00_scope.md R13). -/
def flipBit (t : Nat) (v : List Block) (p : Nat) : List Block :=
  v.set (p / t) ((v.getD (p / t) 0) ^^^ BitVec.ofNat 256 (1 <<< (p % t)))

/-- Pass 1 of CORRECT (44_decoder.md R347) over the elements `xs` in that order: the POS values of the set
ones, or DECODE_FAIL 3 | (x << 16) at the first that is not below the cipher size. -/
def errorPositions (s : State) (ev : List Block) : List Nat → Run (List Nat)
  | [] => .ok []
  | x :: xs =>
    if vectorBit s.t ev x then do
      let v ← readPos s x
      require (decide (v < s.cipherBits)) .decodeFail (BitVec.ofNat 32 (3 + x * 65536))
      let vs ← errorPositions s ev xs
      return v :: vs
    else errorPositions s ev xs

/-- Pass 2 of CORRECT (44_decoder.md R347): the positions inside the plaintext are flipped, the others
ignored. -/
def applyErrors (t plain : Nat) (w : List Block) (ps : List Nat) : List Block :=
  ps.foldl (fun w p => if p < plain then flipBit t w p else w) w

/-- CORRECT (44_decoder.md R347): the plaintext part of the ciphertext at c, with the bits flipped that
POS gives for the set bits of the error vector at e, to d. -/
def ruleCorrect (d c e : Field) (s : State) : Run State := do
  checkCfgv s
  require (decide (s.m ≤ s.nb ∧ s.cipherBits ≤ s.n / 2)) .badConfig 2
  require (decide (s.m < s.nb → d.toNat + s.nb - s.m - 1 < s.params.bmemLen)) .addrRange
    (BitVec.ofNat 32 FieldId.fa.code)
  checkRegion s .fb (c.toNat + s.nb - 1)
  checkRegion s .fc (e.toNat + s.n / s.t - 1)
  let ev ← readBlocks s e.toNat (s.n / s.t)
  let w ← readBlocks s c.toNat (s.nb - s.m)
  let ps ← errorPositions s ev (List.range s.n)
  return s.putBlocks d.toNat (applyErrors s.t s.plainBits w ps)

/-- The command CORRECT: its rule, then how it ends (45_control.md R400). -/
def execCorrect (d c e : Field) (s : State) : Host.Outcome State Fault Refusal :=
  commit (.correct d c e) s (ruleCorrect d c e s)

/-! ### The fused decoder -/

/-- The locator of a syndrome polynomial (44_decoder.md R348): 1 for S = 0, else the composition PINV,
PADDX, PSQRT, PFRAC, PLOC. SQ is read only after PINV has succeeded (log entry 10). -/
def locatorOf (s : State) (g syn : Poly) : Run Poly :=
  if pzero syn then .ok [1]
  else
    match pinvMod s.gf g syn with
    | none => .error (.raise .decodeFail 1)
    | some inv => do
      let sq ← readSq s
      let ab := pfracMod s.gf s.t g (psqrtMod s.gf s.t g sq (paddX inv))
      return locator s.gf s.t ab.1 ab.2

/-- G for the syndrome polynomial `syn`: the locator of S = 0 takes nothing from G (44_decoder.md R348,
R349), so G is read only for S ≠ 0 (log entry 10). -/
def readGFor (s : State) (syn : Poly) : Run Poly := if pzero syn then .ok [] else readG s

/-- DECODE (44_decoder.md R349): the error vector of the syndrome at s, to e, e + 1, .. Under a reducible F the
free outcome (R340) is taken after the syndrome and, for S ≠ 0, G have been read; that it needs no cell of SQ
then, also for S ≠ 0, is the model's choice (log entry 5). -/
def ruleDecode (e syn : Field) (s : State) : Run State := do
  checkCfgv s
  checkGoppa s
  checkRegion s .fa (e.toNat + s.n / s.t - 1)
  checkRegion s .fb (syn.toNat + s.m - 1)
  let planes ← readBlocks s syn.toNat s.m
  let g ← readGFor s (ofPlanes s.m s.t planes)
  underField s (s.putBlocks e.toNat (freeVector s)) <| do
    let sigma ← locatorOf s g (ofPlanes s.m s.t planes)
    let ev ← rootVector s sigma
    return s.putBlocks e.toNat ev

/-- The command DECODE: its rule, then how it ends (45_control.md R400). -/
def execDecode (e syn : Field) (s : State) : Host.Outcome State Fault Refusal :=
  commit (.decode e syn) s (ruleDecode e syn s)

end Sys2Proof.Machine
end

