-- ==== Sys2Proof/Machine/Dyadic.lean ====
section
/-! DEFINITION. The dyadic block unit (00_scope.md R15 to R18) and the block Gauss-Jordan elimination
built on it (41_eliminator.md R251), as functions of blocks. -/

namespace Sys2Proof.Machine

/-! ### Blocks -/

/-- `dymul(a, b)`: c[k] = XOR over i in [0, t) of a[i] & b[i XOR k] (00_scope.md R16). -/
def dymul (t : Nat) (a b : Block) : Block :=
  bitsOf 256 t fun k => xorSum t fun i => a.getLsbD i && b.getLsbD (i ^^^ k)

/-- `parity(a)`, the popcount of the t-bit block modulo 2 (00_scope.md R17); a block is regular when it
is 1 (R18). -/
def parity (t : Nat) (a : Block) : Bool := xorSum t fun i => a.getLsbD i

/-- Entry (i, j) of the dyadic matrix with signature h (00_scope.md R15). -/
def dyadicEntry (h : Block) (i j : Nat) : Bool := h.getLsbD (i ^^^ j)

/-! ### Rows of a block matrix -/

/-- A block row; a block matrix is a list of them (41_eliminator.md R250). -/
abbrev BlockRow := List Block

/-- XOR of two block rows. -/
def rowXor (x y : BlockRow) : BlockRow := List.zipWith (· ^^^ ·) x y

/-- `dymul(f, x[k])` for all k. -/
def rowScale (t : Nat) (f : Block) (x : BlockRow) : BlockRow := x.map (dymul t f)

/-- Row r of W. -/
def rowAt (w : List BlockRow) (r : Nat) : BlockRow := w.getD r []

/-- Block W[r][c]. -/
def entryAt (w : List BlockRow) (r c : Nat) : Block := (rowAt w r).getD c 0

/-- `W[r][k] <- W[r][k] ^ dymul(W[r][c], W[i][k])` for all k (41_eliminator.md R251). -/
def eliminateRow (t i c : Nat) (w : List BlockRow) (r : Nat) : List BlockRow :=
  w.set r (rowXor (rowAt w r) (rowScale t (entryAt w r c) (rowAt w i)))

/-- The smallest r in [i, m) with parity(W[r][c]) = 1 (41_eliminator.md R251). -/
def findPivot (t m i c : Nat) (w : List BlockRow) : Option Nat :=
  (List.range' i (m - i)).find? fun r => parity t (entryAt w r c)

/-- Step i of the Gaussian phase (41_eliminator.md R251); none when column c has no regular pivot. -/
def gaussStep (t m nb : Nat) (w : List BlockRow) (i : Nat) : Option (List BlockRow) :=
  let c := nb - m + i
  match findPivot t m i c w with
  | none => none
  | some j =>
    let w1 := if j = i then w else w.set i (rowXor (rowAt w i) (rowAt w j))
    let w2 := w1.set i (rowScale t (entryAt w1 i c) (rowAt w1 i))
    some ((List.range' (i + 1) (m - (i + 1))).foldl (eliminateRow t i c) w2)

/-- Step i of the Jordan phase (41_eliminator.md R251). -/
def jordanStep (t m nb : Nat) (w : List BlockRow) (i : Nat) : List BlockRow :=
  (List.range i).foldl (eliminateRow t i (nb - m + i)) w

/-- The Jordan phase: i from m − 1 down to 1 (41_eliminator.md R251). -/
def jordanPhase (t m nb : Nat) (w : List BlockRow) : List BlockRow :=
  ((List.range' 1 (m - 1)).reverse).foldl (jordanStep t m nb) w

/-- The Gaussian phase: the steps i in [0, m) in order, until one finds no pivot. -/
def gaussPhase (t m nb : Nat) (w : List BlockRow) : Option (List BlockRow) :=
  (List.range m).foldlM (gaussStep t m nb) w

/-- Block Gauss-Jordan elimination of an m × nb block matrix of t-bit blocks (41_eliminator.md R251);
none when some column has no regular pivot. -/
def gaussJordan (t m nb : Nat) (w : List BlockRow) : Option (List BlockRow) :=
  (gaussPhase t m nb w).map (jordanPhase t m nb)

end Sys2Proof.Machine
end

