-- ==== Sys2Proof/Machine/Flags.lean ====
section
/-! DEFINITION. The flag computations: FLAGS after the dyadic kernels (10_state.md R59), the STATUS word
(R65) and the interrupt output (60_exceptions.md R511). -/

namespace Sys2Proof.Machine

/-- FLAGS after DYREG, DYINV or GAUSS: REG is the outcome and SING = ~REG (10_state.md R59). -/
def State.setOutcome (s : State) (regular : Bool) : State :=
  { s with flags := { reg := regular, sing := !regular } }

/-- FLAGS as a CSR reads (10_state.md R59). -/
def State.flagsWord (s : State) : Word32 :=
  BitVec.ofNat 32 (s.flags.reg.toNat + 2 * s.flags.sing.toNat)

/-- STATUS[5:1], the sticky bits in the order of IE[5:1] (10_state.md R65, R66). -/
def State.sticky (s : State) : BitVec 5 :=
  BitVec.ofNat 5 (s.status.err.toNat + 2 * s.status.finished.toNat + 4 * s.status.mark.toNat +
    8 * s.status.ovf.toNat + 16 * s.status.hostErr.toNat)

/-- STATUS as a CSR reads: CQ_LEVEL in bits 15:8, the sticky bits in 5:1, BUSY in bit 0
(10_state.md R65). -/
def State.statusWord (s : State) : Word32 :=
  BitVec.ofNat 32 (s.busy.toNat + 2 * s.sticky.toNat + 256 * (s.fifo.length % 256))

/-- IE as a CSR reads (10_state.md R66). -/
def State.ieWord (s : State) : Word32 := BitVec.ofNat 32 (2 * s.ie.toNat)

/-- `irq = (STATUS[5:1] & IE[5:1]) != 0` (60_exceptions.md R511). -/
def State.irq (s : State) : Bool := s.sticky &&& s.ie != 0

end Sys2Proof.Machine
end

