-- ==== Sys2Proof/Machine/DyadicOps.lean ====
section
/-! DEFINITION. The dyadic block commands (40_dyadic.md): DYMUL, DYADD, DYREG, DYINV, BCOPY. -/

namespace Sys2Proof.Machine

/-- DYMUL (40_dyadic.md R200): `B(d) <- dymul(B(a), B(b))`. -/
def ruleDymul (d a b : Field) (s : State) : Run State := do
  checkCfgv s
  checkRegion s .fa d.toNat
  checkRegion s .fb a.toNat
  checkRegion s .fc b.toNat
  let x ← readBlock s a.toNat
  let y ← readBlock s b.toNat
  return s.putBlock d.toNat (dymul s.t x y)

/-- The command DYMUL: its rule, then how it ends (45_control.md R400). -/
def execDymul (d a b : Field) (s : State) : Host.Outcome State Fault Refusal :=
  commit (.dymul d a b) s (ruleDymul d a b s)

/-- DYADD (40_dyadic.md R201): `B(d) <- B(a) ^ B(b)`. -/
def ruleDyadd (d a b : Field) (s : State) : Run State := do
  checkCfgv s
  checkRegion s .fa d.toNat
  checkRegion s .fb a.toNat
  checkRegion s .fc b.toNat
  let x ← readBlock s a.toNat
  let y ← readBlock s b.toNat
  return s.putBlock d.toNat (x ^^^ y)

/-- The command DYADD: its rule, then how it ends (45_control.md R400). -/
def execDyadd (d a b : Field) (s : State) : Host.Outcome State Fault Refusal :=
  commit (.dyadd d a b) s (ruleDyadd d a b s)

/-- DYREG (40_dyadic.md R202): FLAGS tell the parity of B(a). -/
def ruleDyreg (a : Field) (s : State) : Run State := do
  checkCfgv s
  checkRegion s .fb a.toNat
  let x ← readBlock s a.toNat
  return s.setOutcome (parity s.t x)

/-- The command DYREG: its rule, then how it ends (45_control.md R400). -/
def execDyreg (a : Field) (s : State) : Host.Outcome State Fault Refusal :=
  commit (.dyreg a) s (ruleDyreg a s)

/-- DYINV (40_dyadic.md R203): FLAGS tell the parity of B(a); a regular block, its own inverse, is
written to d, a singular one leaves d alone. -/
def ruleDyinv (d a : Field) (s : State) : Run State := do
  checkCfgv s
  checkRegion s .fa d.toNat
  checkRegion s .fb a.toNat
  let x ← readBlock s a.toNat
  if parity s.t x then
    return (s.setOutcome true).putBlock d.toNat x
  else
    return s.setOutcome false

/-- The command DYINV: its rule, then how it ends (45_control.md R400). -/
def execDyinv (d a : Field) (s : State) : Host.Outcome State Fault Refusal :=
  commit (.dyinv d a) s (ruleDyinv d a s)

/-- BCOPY (40_dyadic.md R204): `count` whole words from s to d, as if through a temporary buffer. -/
def ruleBcopy (d src count : Field) (s : State) : Run State := do
  checkOperands s [(.fc, .positive, count)]
  checkRegion s .fa (d.toNat + count.toNat - 1)
  checkRegion s .fb (src.toNat + count.toNat - 1)
  let ws ← collect count.toNat fun i =>
    readCell .bmem (src.toNat + i) (s.blockWord (src.toNat + i))
  return s.putWords d.toNat ws

/-- The command BCOPY: its rule, then how it ends (45_control.md R400). -/
def execBcopy (d src count : Field) (s : State) : Host.Outcome State Fault Refusal :=
  commit (.bcopy d src count) s (ruleBcopy d src count s)

end Sys2Proof.Machine
end

