-- ==== Sys2Proof/Machine/Matrix.lean ====
section
/-! DEFINITION. The block-matrix commands: MATVEC (42_matvec.md) and GAUSS (41_eliminator.md). -/

namespace Sys2Proof.Machine

/-- The XOR over i of dymul(row[i], v[i]) (42_matvec.md R281). -/
def rowProduct (t : Nat) (row v : List Block) : Block :=
  (List.zipWith (dymul t) row v).foldl (· ^^^ ·) 0

/-- MATVEC (42_matvec.md R280, R281): block j of the result is the XOR over i of
dymul(B(M + j·RS + i·CS), B(v + i)); every read precedes every write. That the whole matrix is read before the
vector is the model's choice (log entry 20): it decides only which block the model's stop names when several
are undefined. -/
def ruleMatvec (d mat v : Field) (s : State) : Run State := do
  let r := s.cfg.mvRows.toNat
  let c := s.cfg.mvCols.toNat
  let rs := s.cfg.mvRs.toNat
  let cs := s.cfg.mvCs.toNat
  checkCfgv s
  require (decide (1 ≤ r ∧ 1 ≤ c)) .badConfig 3
  checkRegion s .fa (d.toNat + r - 1)
  checkRegion s .fb (mat.toNat + (r - 1) * rs + (c - 1) * cs)
  checkRegion s .fc (v.toNat + c - 1)
  let rows ← collect r fun j => collect c fun i => readBlock s (mat.toNat + j * rs + i * cs)
  let xs ← readBlocks s v.toNat c
  return s.putBlocks d.toNat (rows.map fun row => rowProduct s.t row xs)

/-- The command MATVEC: its rule, then how it ends (45_control.md R400). -/
def execMatvec (d mat v : Field) (s : State) : Host.Outcome State Fault Refusal :=
  commit (.matvec d mat v) s (ruleMatvec d mat v s)

/-- GAUSS (41_eliminator.md R250, R251): eliminates the m × NB block matrix stored row by row at `base`
against its last m columns. On success the matrix is written back and REG is set; when a column has no
regular pivot BMEM is unchanged and SING is set. -/
def ruleGauss (base : Field) (s : State) : Run State := do
  checkCfgv s
  require (decide (s.m ≤ s.nb)) .badConfig 2
  checkRegion s .fa (base.toNat + s.m * s.nb - 1)
  let w ← collect s.m fun j => readBlocks s (base.toNat + j * s.nb) s.nb
  match gaussJordan s.t s.m s.nb w with
  | none => return s.setOutcome false
  | some w' => return (s.setOutcome true).putBlocks base.toNat w'.flatten

/-- The command GAUSS: its rule, then how it ends (45_control.md R400). -/
def execGauss (base : Field) (s : State) : Host.Outcome State Fault Refusal :=
  commit (.gauss base) s (ruleGauss base s)

end Sys2Proof.Machine
end

