-- ==== Sys2Proof/Machine/Dispatch.lean ====
section
/-! DEFINITION. One arm per command (30_encoding.md R157). -/

namespace Sys2Proof.Machine

-- What a command does, from the state in which its word has just left the FIFO (45_control.md R400).
def exec (i : Instr) (s : State) : Host.Outcome State Fault Refusal :=
  match i with
  | .nop => Sys2Proof.Machine.execNop s
  | .sync => Sys2Proof.Machine.execSync s
  | .csrw csr imm => Sys2Proof.Machine.execCsrw csr imm s
  | .posset x imm => Sys2Proof.Machine.execPosset x imm s
  | .dymul d a b => Sys2Proof.Machine.execDymul d a b s
  | .dyadd d a b => Sys2Proof.Machine.execDyadd d a b s
  | .dyreg a => Sys2Proof.Machine.execDyreg a s
  | .dyinv d a => Sys2Proof.Machine.execDyinv d a s
  | .bcopy d src count => Sys2Proof.Machine.execBcopy d src count s
  | .matvec d mat v => Sys2Proof.Machine.execMatvec d mat v s
  | .gauss base => Sys2Proof.Machine.execGauss base s
  | .cot2p pd base stride => Sys2Proof.Machine.execCot2p pd base stride s
  | .p2cot base ps stride => Sys2Proof.Machine.execP2cot base ps stride s
  | .pinv pd ps => Sys2Proof.Machine.execPinv pd ps s
  | .paddx pd ps => Sys2Proof.Machine.execPaddx pd ps s
  | .psqrt pd ps => Sys2Proof.Machine.execPsqrt pd ps s
  | .pfrac pa pb ps => Sys2Proof.Machine.execPfrac pa pb ps s
  | .ploc pd pa pb => Sys2Proof.Machine.execPloc pd pa pb s
  | .roots e ps => Sys2Proof.Machine.execRoots e ps s
  | .correct d c e => Sys2Proof.Machine.execCorrect d c e s
  | .decode e syn => Sys2Proof.Machine.execDecode e syn s
  | .pclr pd => Sys2Proof.Machine.execPclr pd s
  | .pmov pd ps => Sys2Proof.Machine.execPmov pd ps s
  | .psetc pd k value => Sys2Proof.Machine.execPsetc pd k value s
  | .gset ps => Sys2Proof.Machine.execGset ps s
  | .sqset i2 ps => Sys2Proof.Machine.execSqset i2 ps s

end Sys2Proof.Machine
end

