-- ==== Sys2Proof/Machine/Port.lean ====
section
/-! DEFINITION. The host port (20_memory.md R103 to R114): the address map, CSR and cell accesses, and the
reset (70_reset_and_hazards.md R600, R601). Addresses are offsets from the platform's QDMC_BASE
(R118; log entry 16). -/

namespace Sys2Proof.Machine

/-! ### The address map -/

/-- What a mapped byte address names (20_memory.md R104). -/
inductive Target where
  | csr (k : Nat)
  | p (i k : Nat)
  | g (k : Nat)
  | sq (i k : Nat)
  | pos (x : Nat)
  | bmem (a l : Nat)
  deriving DecidableEq, Repr

/-- The word index of `addr` inside a window of `size` words at `base`; none outside it. -/
def windowIndex (base size addr : Nat) : Option Nat :=
  if base ≤ addr ∧ addr < base + 4 * size then some ((addr - base) / 4) else none

/-- The host address map (20_memory.md R104): the window bases are fixed, the sizes scale with the
parameters; no other address is mapped. -/
def locate (p : Params) (addr : Nat) : Option Target :=
  match windowIndex 0x00000000 0x400 addr with
  | some q => some (.csr q)
  | none =>
  match windowIndex 0x00010000 (Config.nPreg * p.plen) addr with
  | some q => some (.p (q / p.plen) (q % p.plen))
  | none =>
  match windowIndex 0x00018000 p.glen addr with
  | some q => some (.g q)
  | none =>
  match windowIndex 0x00020000 (p.tb * p.tb) addr with
  | some q => some (.sq (q / p.tb) (q % p.tb))
  | none =>
  match windowIndex 0x00080000 p.posLen addr with
  | some q => some (.pos q)
  | none =>
  match windowIndex 0x00100000 (p.bmemLen * p.lanes) addr with
  | some q => some (.bmem (q / p.lanes) (q % p.lanes))
  | none => none

/-- A transaction is well-formed when `addr[1:0] = 0` and `be = 0b1111` (20_memory.md R103). -/
def portWellFormed (addr : Word32) (be : BitVec 4) : Bool := addr.extractLsb' 0 2 == 0 && be == 0b1111#4

/-! ### CSR reads and writes -/

/-- PARAMS: T_MAX, M_MAX, BMEM_AW and CQ_DEPTH, a byte each from bit 0 (10_state.md R60). -/
def paramsWord (p : Params) : Word32 :=
  BitVec.ofNat 32 (p.tMax + 256 * p.mMax + 65536 * p.bmemAw + 16777216 * p.cqDepth)

/-- What CSR k reads (10_state.md R60 to R67); a number not listed reads 0 (R61, 20_memory.md R105). -/
def State.csrRead (s : State) (k : Nat) : Word32 :=
  if k = 0x000 then Config.idValue
  else if k = 0x001 then Config.versionValue
  else if k = 0x002 then paramsWord s.params
  else if k = 0x004 then BitVec.ofNat 32 s.ctrlEn.toNat
  else if k = 0x005 then s.statusWord
  else if k = 0x006 then s.ieWord
  else if k = 0x008 then s.cmdLo
  else if k = 0x00A then s.cmdCount
  else if k = 0x00C then s.errRec.cause.setWidth 32
  else if k = 0x00D then s.errRec.info
  else if k = 0x00E then s.errRec.cmdLo
  else if k = 0x00F then s.errRec.cmdHi
  else if k = 0x010 then s.errRec.index
  else if k = 0x020 then s.cfg.m.setWidth 32
  else if k = 0x021 then s.cfg.t.setWidth 32
  else if k = 0x022 then s.cfg.nb.setWidth 32
  else if k = 0x023 then s.cfg.fpoly.setWidth 32
  else if k = 0x024 then s.cfg.mvRows.setWidth 32
  else if k = 0x025 then s.cfg.mvCols.setWidth 32
  else if k = 0x026 then s.cfg.mvRs.setWidth 32
  else if k = 0x027 then s.cfg.mvCs.setWidth 32
  else if k = 0x028 then s.flagsWord
  else 0

/-- A RESET, by RST or CTRL.SRST (70_reset_and_hazards.md R600, R601): the whole state becomes that of
10_state.md R70. The synthesis parameters are no state of the machine; the model's own fields, the events
to come, the last read's data and the count of free values, are not reset (log entry 14). -/
def State.doReset (s : State) : State :=
  { State.resetWith s.params with agenda := s.agenda, rdata := s.rdata, draws := s.draws }

/-- A write of CTRL (10_state.md R62): SRST wins over everything else in the write; FLUSH empties the
FIFO; EN is stored. -/
def State.writeCtrl (s : State) (v : Word32) : State :=
  if v.getLsbD 2 then s.doReset
  else { s with ctrlEn := v.getLsbD 0, fifo := if v.getLsbD 1 then [] else s.fifo }

/-- A write of CMD_HI (10_state.md R57): the word (v, CMD_LO) is appended to the FIFO, or discarded and
OVF set when the FIFO is full. -/
def State.pushCommand (s : State) (v : Word32) : State :=
  if s.fifo.length < s.params.cqDepth then { s with fifo := s.fifo ++ [v ++ s.cmdLo] }
  else { s with status := { s.status with ovf := true } }

/-- STATUS.HOSTERR is set (60_exceptions.md R510). -/
def State.hostError (s : State) : State := { s with status := { s.status with hostErr := true } }

/-- A host write of `v` to CSR k (10_state.md R61 to R68, 20_memory.md R105): a configuration register or
FLAGS is refused while BUSY (R114); a write to a read-only or unlisted number is ignored. -/
def State.csrWrite (s : State) (k : Nat) (v : Word32) : State :=
  if k = 0x004 then s.writeCtrl v
  else if k = 0x005 then s.clearStatus v
  else if k = 0x006 then { s with ie := v.extractLsb' 1 5 }
  else if k = 0x008 then { s with cmdLo := v }
  else if k = 0x009 then s.pushCommand v
  else if isConfigCsr k then (if s.busy then s.hostError else s.putConfig k v)
  else s

/-! ### Cell reads and writes -/

/-- The width in bits of the cell a data-window target names (20_memory.md R106 to R109). -/
def cellWidth (p : Params) : Target → Nat
  | .csr _ => 32
  | .p _ _ => p.mMax
  | .g _ => p.mMax
  | .sq _ _ => p.mMax
  | .pos _ => p.posW
  | .bmem _ _ => min 32 p.tb

/-- The defined value of a data-window cell, zero-extended (20_memory.md R106 to R108). -/
def State.cellRead (s : State) : Target → Option Word32
  | .csr k => some (s.csrRead k)
  | .p i k => (s.pSlot i k).map (·.setWidth 32)
  | .g k => (s.gSlot k).map (·.setWidth 32)
  | .sq i k => (s.sqSlot i k).map (·.setWidth 32)
  | .pos x => (s.posEntry x).map (·.setWidth 32)
  | .bmem a l =>
    match cellGet s.bmem a with
    | none => none
    | some w => if w.lanes.getLsbD l then some (w.bits.extractLsb' (32 * l) 32) else none

/-- Lane l of a BMEM word replaced by `v`, the other lanes unchanged; with TB < 32, lane 0 is the whole
word and `v` is cut to TB bits (20_memory.md R108). -/
def BWord.putLane (p : Params) (w : BWord) (l : Nat) (v : Word32) : BWord where
  bits := lowBits p.tb (bitsOf 256 256 fun i => if i / 32 = l then v.getLsbD (i % 32) else w.bits.getLsbD i)
  lanes := w.lanes ||| BitVec.ofNat 8 (1 <<< l)

/-- A write of a data-window cell (20_memory.md R106 to R108): the cell's bits are stored, higher bits
ignored. -/
def State.cellWrite (s : State) (v : Word32) : Target → State
  | .csr k => s.csrWrite k v
  | .p i k => s.putSlots i k [lowBits s.params.mMax (v.setWidth 16)]
  | .g k => { s with g := cellPut s.g k [lowBits s.params.mMax (v.setWidth 16)] }
  | .sq i k => { s with sq := cellPut s.sq (sqKey i k) [lowBits s.params.mMax (v.setWidth 16)] }
  | .pos x => s.putPos x (lowBits s.params.posW (v.setWidth 17))
  | .bmem a l =>
    let w := (cellGet s.bmem a).getD ⟨0, 0⟩
    { s with bmem := cellPut s.bmem a [w.putLane s.params l v] }

/-! ### Transactions -/

/-- The port answers `v` to a read. -/
def State.answer (s : State) (v : Word32) : State := { s with rdata := v }

/-- A read of a cell that holds no defined value: a free value of the cell's width (20_memory.md R109;
log entry 4). -/
def State.answerFree (s : State) (width : Nat) : State :=
  (s.answer (lowBits width (Config.freeRead s.draws))).drawn

/-- One read transaction (20_memory.md R103 to R114). A malformed, unmapped or refused read sets HOSTERR
and returns 0. -/
def State.hostRead (s : State) (addr : Word32) (be : BitVec 4) : State :=
  if portWellFormed addr be then
    match locate s.params addr.toNat with
    | none => s.hostError.answer 0
    | some (.csr k) => s.answer (s.csrRead k)
    | some target =>
      if s.busy then s.hostError.answer 0
      else
        match s.cellRead target with
        | some v => s.answer v
        | none => s.answerFree (cellWidth s.params target)
  else s.hostError.answer 0

/-- One write transaction (20_memory.md R103 to R114). A malformed, unmapped or refused write sets HOSTERR
and changes nothing else. -/
def State.hostWrite (s : State) (addr data : Word32) (be : BitVec 4) : State :=
  if portWellFormed addr be then
    match locate s.params addr.toNat with
    | none => s.hostError
    | some (.csr k) => s.csrWrite k data
    | some target => if s.busy then s.hostError else s.cellWrite data target
  else s.hostError

end Sys2Proof.Machine
end

