-- ==== Sys2Proof/Machine/Sequencer.lean ====
section
/-! DEFINITION. The sequencer's turn (45_control.md R400) and the events of the machine
(20_memory.md R120). -/

namespace Sys2Proof.Machine

/-- The fault a word that is no command raises (30_encoding.md R155, R158; 60_exceptions.md R502). -/
def rejectFault : Reject → Cause × Word32
  | .illegalOpcode opc => (.illegalOpcode, opc.setWidth 32)
  | .badOperand f => (.badOperand, BitVec.ofNat 32 f.code)

/-- The word `w`, which has just left the FIFO, is run: the command it decodes to, or the fault it raises
(45_control.md R400). -/
def runWord (s : State) (w : Command) : Host.Outcome State Fault Refusal :=
  match decode s.params w with
  | .ok i => exec i s
  | .error r => .next (s.takeFault (rejectFault r).1 (rejectFault r).2 w)

/-- The sequencer's turn (45_control.md R400): while BUSY, the head of the FIFO is removed and run; when
BUSY = 0 it does nothing. -/
def sequencerTurn (s : State) : Host.Outcome State Fault Refusal :=
  if s.busy then
    match s.fifo with
    | [] => .next s
    | w :: rest => runWord { s with fifo := rest } w
  else .next s

/-- One event (20_memory.md R120; log entry 6). -/
def runEvent (s : State) : Event → Host.Outcome State Fault Refusal
  | .read addr be => .next (s.hostRead addr be)
  | .write addr data be => .next (s.hostWrite addr data be)
  | .rst => .next s.doReset
  | .sequencer => sequencerTurn s

/-- The next event of the total order happens; with none to come, the sequencer has its turn
(log entries 6 and 7). -/
def nextEvent (s : State) : Host.Outcome State Fault Refusal :=
  match s.agenda with
  | [] => sequencerTurn s
  | e :: rest => runEvent { s with agenda := rest } e

/-- The sequencer is given the next turn with the word `w` at the head of an enabled, running FIFO: the
state a host reaches that has written CTRL.EN and pushed `w` (10_state.md R57, R58; log entry 7). -/
def State.withHead (s : State) (w : Command) : State :=
  { s with
    ctrlEn := true
    status := { s.status with err := false }
    fifo := w :: s.fifo.tail
    agenda := .sequencer :: s.agenda }

end Sys2Proof.Machine
end

