-- ==== Sys2Proof/Machine/Step.lean ====
section
/-! DEFINITION. One step of the machine. -/

namespace Sys2Proof.Machine

/-- One step: one event of the total order of host transactions, resets and sequencer steps
(20_memory.md R120, 45_control.md R400). -/
def step (s : State) : Host.Outcome State Fault Refusal := nextEvent s

/-- `s` with the table word `w` of `nbits` bits where the sequencer takes its next command: at the head of
the FIFO, with the sequencer enabled, not halted and next in turn. -/
def State.withFetchWord (s : State) (nbits w : Nat) : State :=
  s.withHead (BitVec.ofNat 64 (w % 2 ^ nbits))

end Sys2Proof.Machine
end

