-- ==== Sys2Proof/Machine/Pseudo.lean ====
section
/-! DEFINITION. The assembler's side of the encoding: pseudo-commands and their expansions
(30_encoding.md R162), and the written form of a command (R161). Nothing of it is machine state. -/

namespace Sys2Proof.Machine

/-- The pseudo-commands of 30_encoding.md R162. -/
inductive Pseudo where
  /-- `CONFIG m, T, NB, F`. -/
  | config (m t nb f : Word32)
  /-- `MVDIM R, C, RS, CS`. -/
  | mvdim (r c rs cs : Word32)
  /-- `PLOADI Pd, c0, c1, .., ck`. -/
  | ploadi (pd : Field) (cs : List Field)
  /-- `CLRFLAGS`. -/
  | clrflags
  deriving DecidableEq, Repr

/-- `PSETC Pd, i, ci` for every i with ci ≠ 0, the first coefficient having index `i`. -/
def setCoefficients (pd : Field) : Nat → List Field → List Instr
  | _, [] => []
  | i, c :: cs =>
    if c = 0 then setCoefficients pd (i + 1) cs
    else .psetc pd (BitVec.ofNat 16 i) c :: setCoefficients pd (i + 1) cs

/-- The expansion of a pseudo-command (30_encoding.md R162). -/
def Pseudo.expand : Pseudo → List Instr
  | .config m t nb f => [.csrw 0x020#16 m, .csrw 0x021#16 t, .csrw 0x022#16 nb, .csrw 0x023#16 f]
  | .mvdim r c rs cs => [.csrw 0x024#16 r, .csrw 0x025#16 c, .csrw 0x026#16 rs, .csrw 0x027#16 cs]
  | .ploadi pd cs => .pclr pd :: setCoefficients pd 0 cs
  | .clrflags => [.csrw 0x028#16 0]

/-- A written operand: an unsigned decimal number, or a P register `P0` .. (30_encoding.md R161). -/
inductive AsmOperand where
  | num (v : Nat)
  | preg (v : Nat)
  deriving DecidableEq, Repr

/-- The text of an operand (30_encoding.md R161). -/
def AsmOperand.text : AsmOperand → String
  | .num v => toString v
  | .preg v => "P" ++ toString v

/-- The mnemonic and the operands of a command in the order of 30_encoding.md R164's "syntax" column. -/
def asmParts : Instr → String × List AsmOperand
  | .nop => ("NOP", [])
  | .sync => ("SYNC", [])
  | .csrw csr imm => ("CSRW", [.num csr.toNat, .num imm.toNat])
  | .posset x imm => ("POSSET", [.num x.toNat, .num imm.toNat])
  | .dymul d a b => ("DYMUL", [.num d.toNat, .num a.toNat, .num b.toNat])
  | .dyadd d a b => ("DYADD", [.num d.toNat, .num a.toNat, .num b.toNat])
  | .dyreg a => ("DYREG", [.num a.toNat])
  | .dyinv d a => ("DYINV", [.num d.toNat, .num a.toNat])
  | .bcopy d s count => ("BCOPY", [.num d.toNat, .num s.toNat, .num count.toNat])
  | .matvec d mat v => ("MATVEC", [.num d.toNat, .num mat.toNat, .num v.toNat])
  | .gauss base => ("GAUSS", [.num base.toNat])
  | .cot2p pd base stride => ("COT2P", [.preg pd.toNat, .num base.toNat, .num stride.toNat])
  | .p2cot base ps stride => ("P2COT", [.num base.toNat, .preg ps.toNat, .num stride.toNat])
  | .pinv pd ps => ("PINV", [.preg pd.toNat, .preg ps.toNat])
  | .paddx pd ps => ("PADDX", [.preg pd.toNat, .preg ps.toNat])
  | .psqrt pd ps => ("PSQRT", [.preg pd.toNat, .preg ps.toNat])
  | .pfrac pa pb ps => ("PFRAC", [.preg pa.toNat, .preg pb.toNat, .preg ps.toNat])
  | .ploc pd pa pb => ("PLOC", [.preg pd.toNat, .preg pa.toNat, .preg pb.toNat])
  | .roots e ps => ("ROOTS", [.num e.toNat, .preg ps.toNat])
  | .correct d c e => ("CORRECT", [.num d.toNat, .num c.toNat, .num e.toNat])
  | .decode e s => ("DECODE", [.num e.toNat, .num s.toNat])
  | .pclr pd => ("PCLR", [.preg pd.toNat])
  | .pmov pd ps => ("PMOV", [.preg pd.toNat, .preg ps.toNat])
  | .psetc pd k value => ("PSETC", [.preg pd.toNat, .num k.toNat, .num value.toNat])
  | .gset ps => ("GSET", [.preg ps.toNat])
  | .sqset i ps => ("SQSET", [.num i.toNat, .preg ps.toNat])

/-- Operands separated by commas. -/
def asmOperands : List AsmOperand → String
  | [] => ""
  | [o] => o.text
  | o :: os => o.text ++ ", " ++ asmOperands os

/-- The written form of a command (30_encoding.md R161); numbers in decimal. -/
def asmText (i : Instr) : String :=
  match asmParts i with
  | (name, []) => name
  | (name, os) => name ++ " " ++ asmOperands os

end Sys2Proof.Machine
end

