-- ==== Sys2Proof/Safety.lean ====
section
/-! DEFINITION. What counts as a safe run, a halted machine, the end of a run and a consistent state, in
the terms the statements use. -/

namespace Sys2Proof.Machine

/-- A step is safe when the model does not stop: no command reads an undefined cell. -/
def SafeStep (s : State) : Prop := ∃ s', step s = .next s'

/-- `n` steps from `s` are safe. -/
def SafeRun (n : Nat) (s : State) : Prop := ∃ s', Sys2Proof.core.run n s = .next s'

/-- HALTED is exactly STATUS.ERR = 1 (10_state.md R58). -/
abbrev State.Halted (s : State) : Prop := s.status.err = true

/-- A run of a command stream has ended (70_reset_and_hazards.md R612). -/
abbrev State.RunEnded (s : State) : Prop := s.status.err = true ∨ s.fifo = []

/-- A cell space of coefficients: keys strictly rising, every key one of the space's, every value within
the cell's width. -/
abbrev CellsWf {w : Nat} (c : Cells (BitVec w)) (keyOk : Nat → Prop) (width : Nat) : Prop :=
  sortedKeys c ∧ ∀ e ∈ c, keyOk e.1 ∧ e.2.toNat < 2 ^ width

/-- The consistent states: legal synthesis parameters, a FIFO within its depth, every memory in canonical
form with cells of the configured widths, and an error record that holds a cause whenever the machine is
halted. -/
structure State.Inv (s : State) : Prop where
  params : s.params.Legal
  fifo : s.fifo.length ≤ s.params.cqDepth
  cause : s.errRec.cause.toNat ≤ 6
  halted : s.status.err = true → s.errRec.cause ≠ 0
  p : CellsWf s.p (fun q => q / 512 < Config.nPreg ∧ q % 512 < s.params.plen) s.params.mMax
  g : CellsWf s.g (fun q => q < s.params.glen) s.params.mMax
  sq : CellsWf s.sq (fun q => q / 256 < s.params.tb ∧ q % 256 < s.params.tb) s.params.mMax
  pos : CellsWf s.pos (fun q => q < s.params.posLen) s.params.posW
  bmem : Memory.wf s.params s.bmem = true

/-! ### What a command needs -/

/-- Every cell of the configuration has been written since reset. -/
structure State.AllDefined (s : State) : Prop where
  p : ∀ i < Config.nPreg, ∀ k < s.params.plen, (s.pSlot i k).isSome = true
  g : ∀ k < s.params.glen, (s.gSlot k).isSome = true
  sq : ∀ i < s.params.tb, ∀ k < s.params.tb, (s.sqSlot i k).isSome = true
  pos : ∀ x < s.params.posLen, (s.posEntry x).isSome = true
  bmem : ∀ a < s.params.bmemLen, (s.blockWord a).isSome = true

/-- The commands that require CFGV (10_state.md R64): every one but NOP, SYNC, CSRW, POSSET, BCOPY, PCLR,
PMOV, PSETC, GSET and SQSET. -/
def Instr.needsCfgv : Instr → Bool
  | .nop => false
  | .sync => false
  | .csrw _ _ => false
  | .posset _ _ => false
  | .dymul _ _ _ => true
  | .dyadd _ _ _ => true
  | .dyreg _ => true
  | .dyinv _ _ => true
  | .bcopy _ _ _ => false
  | .matvec _ _ _ => true
  | .gauss _ => true
  | .cot2p _ _ _ => true
  | .p2cot _ _ _ => true
  | .pinv _ _ => true
  | .paddx _ _ => true
  | .psqrt _ _ => true
  | .pfrac _ _ _ => true
  | .ploc _ _ _ => true
  | .roots _ _ => true
  | .correct _ _ _ => true
  | .decode _ _ => true
  | .pclr _ => false
  | .pmov _ _ => false
  | .psetc _ _ _ => false
  | .gset _ => false
  | .sqset _ _ => false

/-- deg G = t (10_state.md R48): the slot t of G is written and its low m bits are not 0. -/
def State.GoppaOk (s : State) : Prop := ∃ v, s.gSlot s.t = some v ∧ lowBits s.m v ≠ 0

/-- The configuration checks of a command hold (10_state.md R48, R64; 30_encoding.md R160 step 4). -/
def Instr.ConfigOk (s : State) (i : Instr) : Prop :=
  (Instr.needsCfgv i = true → s.Cfgv) ∧
    match i with
    | .matvec _ _ _ => 1 ≤ s.cfg.mvRows.toNat ∧ 1 ≤ s.cfg.mvCols.toNat
    | .gauss _ => s.m ≤ s.nb
    | .correct _ _ _ => s.m ≤ s.nb ∧ s.cipherBits ≤ s.n / 2
    | .pinv _ _ => s.GoppaOk
    | .psqrt _ _ => s.GoppaOk
    | .pfrac _ _ _ => s.GoppaOk
    | .decode _ _ => s.GoppaOk
    | _ => True

/-- The regions of a command in field order: the field and the highest block reached (20_memory.md R102;
40_dyadic.md to 44_decoder.md). CORRECT has no region d when NB = m. -/
def Instr.regions (s : State) : Instr → List (FieldId × Nat)
  | .dymul d a b => [(.fa, d.toNat), (.fb, a.toNat), (.fc, b.toNat)]
  | .dyadd d a b => [(.fa, d.toNat), (.fb, a.toNat), (.fc, b.toNat)]
  | .dyreg a => [(.fb, a.toNat)]
  | .dyinv d a => [(.fa, d.toNat), (.fb, a.toNat)]
  | .bcopy d src count => [(.fa, d.toNat + count.toNat - 1), (.fb, src.toNat + count.toNat - 1)]
  | .matvec d mat v =>
    [(.fa, d.toNat + s.cfg.mvRows.toNat - 1),
      (.fb, mat.toNat + (s.cfg.mvRows.toNat - 1) * s.cfg.mvRs.toNat +
        (s.cfg.mvCols.toNat - 1) * s.cfg.mvCs.toNat),
      (.fc, v.toNat + s.cfg.mvCols.toNat - 1)]
  | .gauss base => [(.fa, base.toNat + s.m * s.nb - 1)]
  | .cot2p _ base stride => [(.fb, base.toNat + (s.m - 1) * stride.toNat)]
  | .p2cot base _ stride => [(.fa, base.toNat + (s.m - 1) * stride.toNat)]
  | .roots e _ => [(.fa, e.toNat + s.n / s.t - 1)]
  | .correct d c e =>
    (if s.m < s.nb then [(.fa, d.toNat + s.nb - s.m - 1)] else []) ++
      [(.fb, c.toNat + s.nb - 1), (.fc, e.toNat + s.n / s.t - 1)]
  | .decode e syn => [(.fa, e.toNat + s.n / s.t - 1), (.fb, syn.toNat + s.m - 1)]
  | _ => []

/-- Every cell the command reads holds a defined value: the blocks of its source regions (20_memory.md R126; a
block needs the port lanes of bits t − 1 to 0, BCOPY all lanes: log entry 3) and the slots it reads of P, G, SQ
and POS (10_state.md R46, R47, R49, R51). CORRECT reads POS only for the set elements. DECODE reads G below
slot t only for a syndrome that is not 0 (log entry 10), and SQ only then and with an irreducible F (log
entry 5). -/
def Instr.SourcesDefined (s : State) : Instr → Prop
  | .nop => True
  | .sync => True
  | .csrw _ _ => True
  | .posset _ _ => True
  | .dymul _ a b => (s.block a.toNat).isSome ∧ (s.block b.toNat).isSome
  | .dyadd _ a b => (s.block a.toNat).isSome ∧ (s.block b.toNat).isSome
  | .dyreg a => (s.block a.toNat).isSome
  | .dyinv _ a => (s.block a.toNat).isSome
  | .bcopy _ src count => ∀ i, i < count.toNat → (s.blockWord (src.toNat + i)).isSome
  | .matvec _ mat v =>
    (∀ j i, j < s.cfg.mvRows.toNat → i < s.cfg.mvCols.toNat →
      (s.block (mat.toNat + j * s.cfg.mvRs.toNat + i * s.cfg.mvCs.toNat)).isSome) ∧
    ∀ i, i < s.cfg.mvCols.toNat → (s.block (v.toNat + i)).isSome
  | .gauss base => ∀ j k, j < s.m → k < s.nb → (s.block (base.toNat + j * s.nb + k)).isSome
  | .cot2p _ base stride => ∀ i, i < s.m → (s.block (base.toNat + i * stride.toNat)).isSome
  | .p2cot _ ps _ => ∀ j, j < s.t → (s.pSlot ps.toNat j).isSome
  | .pinv _ ps =>
    (∀ k, k < s.params.plen → (s.pSlot ps.toNat k).isSome) ∧ ∀ k, k ≤ s.t → (s.gSlot k).isSome
  | .paddx _ ps => ∀ k, k < s.params.plen → (s.pSlot ps.toNat k).isSome
  | .psqrt _ ps =>
    (∀ k, k < s.params.plen → (s.pSlot ps.toNat k).isSome) ∧ (∀ k, k ≤ s.t → (s.gSlot k).isSome) ∧
      ∀ i k, i < s.t → k < s.t → (s.sqSlot i k).isSome
  | .pfrac _ _ ps =>
    (∀ k, k < s.params.plen → (s.pSlot ps.toNat k).isSome) ∧ ∀ k, k ≤ s.t → (s.gSlot k).isSome
  | .ploc _ pa pb => ∀ k, k < s.t → (s.pSlot pa.toNat k).isSome ∧ (s.pSlot pb.toNat k).isSome
  | .roots _ ps => ∀ k, k < s.params.plen → (s.pSlot ps.toNat k).isSome
  | .correct _ c e =>
    (∀ b, b < s.n / s.t → (s.block (e.toNat + b)).isSome) ∧
    (∀ k, k < s.nb - s.m → (s.block (c.toNat + k)).isSome) ∧
    ∀ x, x < s.n → ((s.block (e.toNat + x / s.t)).getD 0).getLsbD (x % s.t) = true → (s.posEntry x).isSome
  | .decode _ syn =>
    (∀ i, i < s.m → (s.block (syn.toNat + i)).isSome) ∧ (s.gSlot s.t).isSome ∧
    ((∃ i j, i < s.m ∧ j < s.t ∧ ((s.block (syn.toNat + i)).getD 0).getLsbD j = true) →
      (∀ k, k ≤ s.t → (s.gSlot k).isSome) ∧
      (s.gf.irreducible = true → ∀ i k, i < s.t → k < s.t → (s.sqSlot i k).isSome))
  | .pclr _ => True
  | .pmov _ ps => ∀ k, k < s.params.plen → (s.pSlot ps.toNat k).isSome
  | .psetc _ _ _ => True
  | .gset ps => ∀ k, k < s.params.glen → (s.pSlot ps.toNat k).isSome
  | .sqset _ ps => ∀ k, k < s.params.tb → (s.pSlot ps.toNat k).isSome

/-! ### The opcode map, as the statements read it -/

/-- The opcodes of 30_encoding.md R158: 0x04 to 0x0F, 0x15 to 0x1F, 0x22 to 0x2F, 0x3F and 0x40 to 0xFF. -/
def illegalOpc (k : Nat) : Bool :=
  decide (0x04 ≤ k ∧ k ≤ 0x0F) || decide (0x15 ≤ k ∧ k ≤ 0x1F) || decide (0x22 ≤ k ∧ k ≤ 0x2F) ||
    decide (0x3F ≤ k ∧ k ≤ 0xFF)

/-- What the fields FA, FB and FC of a command in format R hold, by its opcode, as 30_encoding.md R164 says
it ("0" is `reserved`); none for format I and for the illegal opcodes. -/
def operandKinds : Nat → Option (FieldKind × FieldKind × FieldKind)
  | 0x00 => some (.reserved, .reserved, .reserved)
  | 0x01 => some (.reserved, .reserved, .reserved)
  | 0x10 => some (.free, .free, .free)
  | 0x11 => some (.free, .free, .free)
  | 0x12 => some (.reserved, .free, .reserved)
  | 0x13 => some (.free, .free, .reserved)
  | 0x14 => some (.free, .free, .positive)
  | 0x20 => some (.free, .free, .free)
  | 0x21 => some (.free, .reserved, .reserved)
  | 0x30 => some (.preg, .free, .positive)
  | 0x31 => some (.free, .preg, .positive)
  | 0x32 => some (.preg, .preg, .reserved)
  | 0x33 => some (.preg, .preg, .reserved)
  | 0x34 => some (.preg, .preg, .reserved)
  | 0x35 => some (.preg, .preg, .preg)
  | 0x36 => some (.preg, .preg, .preg)
  | 0x37 => some (.free, .preg, .reserved)
  | 0x38 => some (.free, .free, .free)
  | 0x39 => some (.free, .free, .reserved)
  | 0x3A => some (.preg, .reserved, .reserved)
  | 0x3B => some (.preg, .preg, .reserved)
  | 0x3C => some (.preg, .slot, .free)
  | 0x3D => some (.reserved, .preg, .reserved)
  | 0x3E => some (.sqRow, .preg, .reserved)
  | _ => none

/-- The check of Z, and for POSSET of the bits of IMM at POS_W and above, in a word of format I
(30_encoding.md R154, R155). -/
def formatIOk (p : Params) (w : Command) : Bool :=
  zOf w == 0 && (opcOf w != 0x03#8 || decide ((immOf w).toNat < 2 ^ p.posW))

/-- The field checks of a word with a legal opcode in the order FA, FB, FC, FD, Z and IMM, each with whether
it passes (30_encoding.md R160 step 2). -/
def fieldChecks (p : Params) (w : Command) : List (FieldId × Bool) :=
  match operandKinds (opcOf w).toNat with
  | some (a, b, c) =>
    [(.fa, a.legal p (faOf w)), (.fb, b.legal p (fbOf w)), (.fc, c.legal p (fcOf w)), (.fd, fdOf w == 0)]
  | none => [(.zImm, formatIOk p w)]

/-- Every reserved field of a word with a legal opcode is 0 (30_encoding.md R155). -/
def reservedClear (p : Params) (w : Command) : Bool :=
  match operandKinds (opcOf w).toNat with
  | some (a, b, c) =>
    (a != .reserved || faOf w == 0) && (b != .reserved || fbOf w == 0) && (c != .reserved || fcOf w == 0) &&
      fdOf w == 0
  | none => formatIOk p w

/-! ### The port map, as the statements read it -/

/-- The targets a configuration has (20_memory.md R100, R104). -/
abbrev Target.Mapped (p : Params) : Target → Prop
  | .csr k => k < 0x400
  | .p i k => i < Config.nPreg ∧ k < p.plen
  | .g k => k < p.glen
  | .sq i k => i < p.tb ∧ k < p.tb
  | .pos x => x < p.posLen
  | .bmem a l => a < p.bmemLen ∧ l < p.lanes

/-- The byte address of a target: the formulas of 20_memory.md R104. -/
def Target.address (p : Params) : Target → Nat
  | .csr k => 4 * k
  | .p i k => 0x00010000 + (i * p.plen + k) * 4
  | .g k => 0x00018000 + 4 * k
  | .sq i k => 0x00020000 + (i * p.tb + k) * 4
  | .pos x => 0x00080000 + 4 * x
  | .bmem a l => 0x00100000 + (a * p.lanes + l) * 4

/-! ### Commands in a row, and the locator of a syndrome -/

/-- Commands run one after another; a fault halts the rest (60_exceptions.md R507). -/
def execAll : List Instr → State → Host.Outcome State Fault Refusal
  | [], s => .next s
  | i :: rest, s =>
    if s.status.err then .next s
    else
      match exec i s with
      | .next t => execAll rest t
      | .fault f => .fault f
      | .refused q => .refused q

/-- The locator of a syndrome polynomial (44_decoder.md R348): 1 for S = 0, else PINV, PADDX, PSQRT, PFRAC
and PLOC in turn; none when S has no inverse modulo G. -/
def syndromeLocator (k : Gf) (t : Nat) (g : Poly) (sq : List Poly) (syn : Poly) : Option Poly :=
  if pzero syn then some [1]
  else
    (pinvMod k g syn).map fun inv =>
      let ab := pfracMod k t g (psqrtMod k t g sq (paddX inv))
      locator k t ab.1 ab.2

/-- The sum, which is the XOR, of the field elements `f 0 .. f (n − 1)` (00_scope.md R19). -/
def elemSum (n : Nat) (f : Nat → Elem) : Elem := (List.range n).foldl (fun acc i => acc ^^^ f i) 0

/-- F has degree exactly m, and m is one of R10's (00_scope.md R10, R19). -/
abbrev Gf.DegreeOk (k : Gf) : Prop := 1 ≤ k.m ∧ k.m ≤ 16 ∧ k.f.getLsbD k.m = true ∧ k.f >>> (k.m + 1) = 0

/-- Every coefficient of a polynomial is a field element, an m-bit value (00_scope.md R19, R20). -/
abbrev Gf.Coeffs (k : Gf) (p : Poly) : Prop := ∀ c ∈ p, c.toNat < 2 ^ k.m

/-- The XOR of `f 0 .. f (n − 1)`. -/
def blockSum (n : Nat) (f : Nat → Block) : Block := (List.range n).foldl (fun acc i => acc ^^^ f i) 0

end Sys2Proof.Machine
end

