-- ==== Sys2Proof/Certificates/Slice0/Obligations.lean ====
section
/-! DEFINITION. The statements about QDMC, from the numbered rules of spec/. In a statement about a command,
`s` is the state in which the command starts, its word having just left the FIFO (45_control.md R400), and
`t` the next state. A frame is an equation of records: every field that is not named is that of `s.retire`,
which differs from `s` in CMD_COUNT and DONE alone (`RetiringCommandCounts` says so). -/

open Sys2Proof Sys2Proof.Machine

/-! ### Encoding -/

/-- 30_encoding.md R152 to R157: no bit of an encoding is dropped. -/
def Obligations.DecodeEncodeRoundTrip : Prop :=
  ∀ (p : Params) (i : Instr), p.Legal → i.WellFormed p → decode p (encode i) = .ok i

/-- 30_encoding.md R150 to R157: the word that decodes to a command is the command's encoding, so the word
a fault records (`commit`) is the word that left the FIFO. -/
def Obligations.EncodeDecodeRoundTrip : Prop :=
  ∀ (p : Params) (w : Command) (i : Instr), decode p w = .ok i → encode i = w

/-- 30_encoding.md R158, 45_control.md R400, 60_exceptions.md R505, R506: the illegal opcodes are these 230
values; a word with one of them, whatever its other bits hold, is consumed and raises ILLEGAL_OPCODE with
ERR_INFO = OPC; every other opcode is legal. The sequencer has its turn when its event is first in the agenda
(log entry 6) and, by the model's choice, when no event is to come (log entry 7). -/
def Obligations.IllegalOpcodesRaise : Prop :=
  ((List.range 256).filter illegalOpc).length = 230 ∧
  (∀ (s : State) (w : Command) (rest : List Command) (es : List Event), s.ctrlEn = true →
    s.status.err = false → s.fifo = w :: rest → s.agenda = .sequencer :: es ∨ s.agenda = [] ∧ es = [] →
    illegalOpc (opcOf w).toNat = true →
    step s = .next
      { s with
        agenda := es
        fifo := rest
        errRec :=
          { cause := 1, info := (opcOf w).setWidth 32, cmdLo := w.extractLsb' 0 32,
            cmdHi := w.extractLsb' 32 32, index := s.cmdCount }
        status := { s.status with err := true } }) ∧
  ∀ (p : Params) (w : Command), illegalOpc (opcOf w).toNat = false →
    decode p w ≠ .error (.illegalOpcode (opcOf w))

/-- 30_encoding.md R155, R159, R160, R164: a word with a legal opcode and a nonzero reserved field (every field
R164 marks 0, FD, Z, and the bits of POSSET's IMM at POS_W and above) decodes to no command: it is rejected as
BAD_OPERAND with the first field that fails R160 step 2, in the order FA, FB, FC, FD, Z and IMM. So NOP (0x00)
and SYNC (0x01) have one word each. That the decoder makes this rejection, and that a word whose reserved fields
are all 0 decodes to a command even when an operand is illegal (its meaning then raises BAD_OPERAND), is the
model's choice (log entry 18). -/
def Obligations.ReservedFieldsMustBeZero : Prop :=
  (∀ (p : Params) (w : Command) (before after : List (FieldId × Bool)) (f : FieldId),
    illegalOpc (opcOf w).toNat = false → reservedClear p w = false →
    fieldChecks p w = before ++ (f, false) :: after → (∀ c ∈ before, c.2 = true) →
    decode p w = .error (.badOperand f)) ∧
  (∀ (p : Params) (w : Command), illegalOpc (opcOf w).toNat = false → reservedClear p w = false →
    ∃ before f after, fieldChecks p w = before ++ (f, false) :: after ∧ ∀ c ∈ before, c.2 = true) ∧
  (∀ (p : Params) (w : Command), p.Legal → illegalOpc (opcOf w).toNat = false → reservedClear p w = true →
    ∃ i, decode p w = .ok i) ∧
  (∀ k, k < 256 → illegalOpc k = false → k ≠ 0x02 → k ≠ 0x03 → (operandKinds k).isSome = true) ∧
  ∀ (p : Params) (w : Command),
    (opcOf w = 0x00#8 ∨ opcOf w = 0x01#8 →
      decode p w =
        if faOf w ≠ 0 then .error (.badOperand .fa)
        else if fbOf w ≠ 0 then .error (.badOperand .fb)
        else if fcOf w ≠ 0 then .error (.badOperand .fc)
        else if fdOf w ≠ 0 then .error (.badOperand .fd)
        else .ok (if opcOf w = 0x00#8 then .nop else .sync)) ∧
    (opcOf w = 0x02#8 ∨ opcOf w = 0x03#8 → zOf w ≠ 0 → decode p w = .error (.badOperand .zImm))

/-- The example encodings of 30_encoding.md R164. -/
def Obligations.ExampleWordsDecode : Prop :=
  decode Params.reference 0x1000220020002100#64 = .ok (.dymul 0x22 0x20 0x21) ∧
  decode Params.reference 0x0200200000000004#64 = .ok (.csrw 0x020 4) ∧
  decode Params.reference 0x3500040005000300#64 = .ok (.pfrac 4 5 3) ∧
  encode (.dymul 0x22 0x20 0x21) = 0x1000220020002100#64 ∧
  encode (.csrw 0x020 4) = 0x0200200000000004#64 ∧ encode (.pfrac 4 5 3) = 0x3500040005000300#64

/-! ### The sequencer -/

/-- 45_control.md R400, 20_memory.md R120: when the sequencer has its turn and BUSY = 1, the head of the FIFO is
removed and the command it decodes to is run; when a host transaction is first in the order, the step is that
transaction. The sequencer has its turn when its event is first in the agenda (log entry 6) and, by the model's
choice, when no event is to come (log entry 7). -/
def Obligations.StepRunsTheDecodedCommand : Prop :=
  (∀ (s : State) (w : Command) (rest : List Command) (i : Instr), s.ctrlEn = true → s.status.err = false →
    s.fifo = w :: rest → decode s.params w = .ok i →
    (s.agenda = [] → step s = exec i { s with fifo := rest }) ∧
    (∀ es, s.agenda = .sequencer :: es → step s = exec i { s with fifo := rest, agenda := es })) ∧
  ∀ (s : State) (addr data : Word32) (be : BitVec 4) (es : List Event),
    (s.agenda = .read addr be :: es → step s = .next (State.hostRead { s with agenda := es } addr be)) ∧
    (s.agenda = .write addr data be :: es →
      step s = .next (State.hostWrite { s with agenda := es } addr data be))

/-- 45_control.md R400, 30_encoding.md R155, 60_exceptions.md R502, R506: a word whose reserved fields are not 0
is consumed and raises BAD_OPERAND with the id of the field: 1 = FA, 2 = FB, 3 = FC, 4 = FD, 5 = Z or the high
bits of IMM. The sequencer has its turn when its event is first in the agenda (log entry
6) and, by the model's choice, when no event is to come (log entry 7). -/
def Obligations.StepFaultsOnARejectedWord : Prop :=
  ∀ (s : State) (w : Command) (rest : List Command) (es : List Event) (f : FieldId), s.ctrlEn = true →
    s.status.err = false → s.fifo = w :: rest → s.agenda = .sequencer :: es ∨ s.agenda = [] ∧ es = [] →
    decode s.params w = .error (.badOperand f) →
    step s = .next
      { s with
        agenda := es
        fifo := rest
        errRec :=
          { cause := 2
            info :=
              match f with
              | .fa => 1
              | .fb => 2
              | .fc => 3
              | .fd => 4
              | .zImm => 5
            cmdLo := w.extractLsb' 0 32, cmdHi := w.extractLsb' 32 32, index := s.cmdCount }
        status := { s.status with err := true } }

/-- 10_state.md R58, 60_exceptions.md R507: with EN = 0, halted, or with an empty FIFO, BUSY = 0 and the
sequencer's turn changes nothing: its event is consumed and no more (log entry 6). That a step with no event to
come is that turn too is the model's choice (log entry 7). -/
def Obligations.NoStepWhenNotBusy : Prop :=
  ∀ s : State, s.ctrlEn = false ∨ s.status.err = true ∨ s.fifo = [] →
    s.busy = false ∧ sequencerTurn s = .next s ∧ (s.agenda = [] → step s = .next s) ∧
    ∀ es, s.agenda = .sequencer :: es → step s = .next { s with agenda := es }

/-- 60_exceptions.md R505: a command that faults (STATUS.ERR is set after it) changes nothing but the error
record and STATUS.ERR (and the model's count of free values, log entry 9): its destinations, CMD_COUNT and the FIFO are
as they were. The record holds one of the six causes, the command's word and CMD_COUNT (R506). R501, R502: the
fault entry that every statement names, `takeFault`, records the code of the cause, the info it is given, both
halves of the word and CMD_COUNT, and sets STATUS.ERR. -/
def Obligations.FaultsArePrecise : Prop :=
  (∀ (s : State) (c : Cause) (info : Word32) (w : Command), s.takeFault c info w =
    { s with
      errRec :=
        { cause :=
            match c with
            | .illegalOpcode => 1
            | .badOperand => 2
            | .csrAccess => 3
            | .badConfig => 4
            | .addrRange => 5
            | .decodeFail => 6
          info := info, cmdLo := w.extractLsb' 0 32, cmdHi := w.extractLsb' 32 32, index := s.cmdCount }
      status := { s.status with err := true } }) ∧
  ∀ (i : Instr) (s t : State), s.status.err = false → exec i s = .next t → t.status.err = true →
    t = { s with
          errRec :=
            { cause := t.errRec.cause, info := t.errRec.info, cmdLo := (encode i).extractLsb' 0 32,
              cmdHi := (encode i).extractLsb' 32 32, index := s.cmdCount }
          status := { s.status with err := true }
          draws := t.draws } ∧
      1 ≤ t.errRec.cause.toNat ∧ t.errRec.cause.toNat ≤ 6

/-- 45_control.md R400, 10_state.md R55: a command that retires (STATUS.ERR is clear after it) adds 1 to
CMD_COUNT modulo 2^32 and sets DONE when the FIFO is then empty; it leaves the error record, the other
control registers, the FIFO, the port and the parameters alone, and only SYNC touches MARK. -/
def Obligations.RetiringCommandCounts : Prop :=
  (∀ s : State, s.retire =
    { s with
      cmdCount := s.cmdCount + 1
      status := { s.status with finished := s.status.finished || s.fifo.isEmpty } }) ∧
  ∀ (i : Instr) (s t : State), s.status.err = false → exec i s = .next t → t.status.err = false →
    t = { s.retire with
          status := { s.retire.status with mark := t.status.mark }
          cfg := t.cfg, flags := t.flags, p := t.p, g := t.g, sq := t.sq, pos := t.pos, bmem := t.bmem
          draws := t.draws } ∧
      (i ≠ .sync → t.status.mark = s.status.mark)

/-- 10_state.md R43, R47, R51, R59, R61, R65: which commands write what. G is written by GSET alone, SQ by
SQSET, POS by POSSET, the configuration registers by CSRW, FLAGS by DYREG, DYINV, GAUSS and CSRW, and
STATUS.MARK by SYNC. -/
def Obligations.OnlyTheNamedCommandsWrite : Prop :=
  ∀ (i : Instr) (s t : State), exec i s = .next t →
    (t.g ≠ s.g → ∃ ps, i = .gset ps) ∧
    (t.sq ≠ s.sq → ∃ r ps, i = .sqset r ps) ∧
    (t.pos ≠ s.pos → ∃ x imm, i = .posset x imm) ∧
    (t.cfg ≠ s.cfg → ∃ csr imm, i = .csrw csr imm) ∧
    (t.flags ≠ s.flags →
      (∃ a, i = .dyreg a) ∨ (∃ d a, i = .dyinv d a) ∨ (∃ base, i = .gauss base) ∨ ∃ csr imm, i = .csrw csr imm) ∧
    (t.status.mark ≠ s.status.mark → i = .sync)

/-- 10_state.md R46, 20_memory.md R126, 70_reset_and_hazards.md R603: the model never refuses a command; it stops
only at a read of a cell that holds no defined value (log entry 2); and it does stop there. A command that
retires has had every cell it reads defined (`Instr.SourcesDefined`, with log entries 3, 5 and 10). When a
command's checks pass and some cell it reads is undefined, the model stops; CORRECT and DECODE alone may raise
DECODE_FAIL first, without having read the cell (log entry 10). The check of G's degree is itself such a read. -/
def Obligations.StopsExactlyAtUndefinedCells : Prop :=
  ∀ (i : Instr) (s : State),
    (∀ q, exec i s ≠ .refused q) ∧
    (∀ f, exec i s = .fault f →
      ∃ k, (f = .undefinedRead .p k ∧ cellGet s.p k = none) ∨ (f = .undefinedRead .g k ∧ cellGet s.g k = none) ∨
        (f = .undefinedRead .sq k ∧ cellGet s.sq k = none) ∨
        (f = .undefinedRead .pos k ∧ cellGet s.pos k = none) ∨
        (f = .undefinedRead .bmem k ∧ (s.block k = none ∨ s.blockWord k = none))) ∧
    (∀ t, s.status.err = false → exec i s = .next t → t.status.err = false → Instr.SourcesDefined s i) ∧
    (i.WellFormed s.params → Instr.ConfigOk s i → (∀ r ∈ Instr.regions s i, r.2 < s.params.bmemLen) →
      ¬ Instr.SourcesDefined s i →
      (∃ f, exec i s = .fault f) ∨
        ((∃ d c e, i = .correct d c e) ∨ ∃ e syn, i = .decode e syn) ∧
          ∃ info, exec i s = .next (s.takeFault .decodeFail info (encode i))) ∧
    (i.WellFormed s.params → s.Cfgv → s.gSlot s.t = none →
      (∃ pd ps, i = .pinv pd ps) ∨ (∃ pd ps, i = .psqrt pd ps) ∨ (∃ pa pb ps, i = .pfrac pa pb ps) ∨
        (∃ e syn, i = .decode e syn) →
      exec i s = .fault (.undefinedRead .g s.t))

/-- 70_reset_and_hazards.md R603, 45_control.md R400: once every cell has been written, every command, with
whatever operands and configuration, completes or takes its fault, and every cell stays written. -/
def Obligations.CompletesWhenAllDefined : Prop :=
  ∀ (i : Instr) (s : State), s.params.Legal → s.AllDefined →
    ∃ t, exec i s = .next t ∧ t.params = s.params ∧ t.AllDefined

/-! ### The consistent states -/

/-- 10_state.md R60, R61, R70, 70_reset_and_hazards.md R602: for every configuration, reset leaves a consistent,
idle machine with every register 0, the FIFO empty and no cell defined; the identification registers read their
constants. The machine after reset that the host starts from is that of the reference configuration (00_scope.md
R9). -/
def Obligations.ResetState : Prop :=
  (∀ p : Params, p.Legal →
    (State.resetWith p).Inv ∧ (State.resetWith p).busy = false ∧ (State.resetWith p).irq = false ∧
    (State.resetWith p).csrRead 0x000 = 0x51444D43#32 ∧ (State.resetWith p).csrRead 0x001 = 0x00010000#32 ∧
    (State.resetWith p).csrRead 0x002 =
      BitVec.ofNat 8 p.cqDepth ++ BitVec.ofNat 8 p.bmemAw ++ BitVec.ofNat 8 p.mMax ++ BitVec.ofNat 8 p.tMax ∧
    (∀ k, 3 ≤ k → (State.resetWith p).csrRead k = 0) ∧
    (State.resetWith p).fifo = [] ∧ (State.resetWith p).p = [] ∧ (State.resetWith p).g = [] ∧
    (State.resetWith p).sq = [] ∧ (State.resetWith p).pos = [] ∧ (State.resetWith p).bmem = []) ∧
  State.reset = State.resetWith { tMax := 6, mMax := 16, bmemAw := 16, cqDepth := 16 } ∧
  State.reset.csrRead 0x002 = 0x10101006#32

/-- Every step, from every consistent state, gives a consistent state: the FIFO stays within its depth
(10_state.md R56), every memory keeps its canonical form with cells of the configured widths (00_scope.md
R9, 20_memory.md R101, R106, R107), and a halted machine has a cause on record (60_exceptions.md R506). The
sparse form of the memories is the model's (log entries 1 to 3). -/
def Obligations.StepKeepsInv : Prop :=
  ∀ s t : State, s.Inv → step s = .next t → t.Inv ∧ t.params = s.params

/-- 20_memory.md R124, 10_state.md R54, R56: a step removes the head of the FIFO, empties it, appends the
word a CMD_HI write forms, or leaves it alone; no word in it ever changes. -/
def Obligations.QueuedWordsAreFixed : Prop :=
  ∀ s t : State, step s = .next t →
    t.fifo = s.fifo ∨ t.fifo = s.fifo.tail ∨ t.fifo = [] ∨
      ∃ addr v be rest, s.agenda = .write addr v be :: rest ∧ s.fifo.length < s.params.cqDepth ∧
        t.fifo = s.fifo ++ [v ++ s.cmdLo]

/-! ### Control commands -/

/-- 45_control.md R401, R402: NOP does nothing and SYNC sets STATUS.MARK; both retire in every state. -/
def Obligations.NopAndSyncComplete : Prop :=
  ∀ s : State,
    exec .nop s = .next s.retire ∧
    exec .sync s = .next { s.retire with status := { s.retire.status with mark := true } }

/-- 45_control.md R403, 10_state.md R59, R63: CSRW to 0x020 .. 0x028 stores the low bits of the immediate
in that register and leaves every other CSR of the nine alone; any other number raises CSR_ACCESS with the
number as info. -/
def Obligations.CsrwWritesOneRegister : Prop :=
  ∀ (s : State) (csr : Field) (imm : Word32),
    (0x020 ≤ csr.toNat → csr.toNat ≤ 0x028 →
      ∃ t, exec (.csrw csr imm) s = .next t ∧ t = { s.retire with cfg := t.cfg, flags := t.flags } ∧
        (∀ k, 0x020 ≤ k → k ≤ 0x028 → k ≠ csr.toNat → t.csrRead k = s.csrRead k) ∧
        t.csrRead csr.toNat =
          lowBits (match csr.toNat with
            | 0x020 => 5
            | 0x021 => 4
            | 0x023 => 17
            | 0x028 => 2
            | _ => 16) imm) ∧
    (csr.toNat < 0x020 ∨ 0x028 < csr.toNat →
      exec (.csrw csr imm) s = .next (s.takeFault .csrAccess (csr.setWidth 32) (encode (.csrw csr imm))))

/-- 45_control.md R404: POSSET stores the immediate in POS[x] for every x < 2^M_MAX and leaves every other
entry alone; a larger x raises ADDR_RANGE 1. -/
def Obligations.PossetWritesOneEntry : Prop :=
  ∀ (s : State) (x : Field) (imm : PosEntry), imm.toNat < 2 ^ s.params.posW →
    (x.toNat < s.params.posLen →
      ∃ t, exec (.posset x imm) s = .next t ∧ t = { s.retire with pos := t.pos } ∧
        t.posEntry x.toNat = some imm ∧ ∀ y, y ≠ x.toNat → t.posEntry y = s.posEntry y) ∧
    (s.params.posLen ≤ x.toNat →
      exec (.posset x imm) s = .next (s.takeFault .addrRange 1 (encode (.posset x imm))))

/-! ### Dyadic blocks -/

/-- 00_scope.md R15 to R18, 40_dyadic.md R205, for blocks of t = 2^e bits. The entry (i, j) of D(h) is
h[i XOR j]; bit k of dymul(a, b) is the XOR over i of a[i] & b[i XOR k], which makes it the signature of the
matrix product D(a)·D(b) over GF(2); t-bit blocks form a commutative ring under XOR and dymul with unit e0; a
block's square is its parity times e0; dymul(a, b) is the row vector b times D(a); parity is
multiplicative. -/
def Obligations.DyadicProductLaws : Prop :=
  (∀ (h : Block) (i j : Nat), dyadicEntry h i j = h.getLsbD (i ^^^ j)) ∧
  (∀ (e k : Nat) (a b : Block), e ≤ 8 →
    (dymul (2 ^ e) a b).getLsbD k =
      (decide (k < 2 ^ e) && xorSum (2 ^ e) fun i => a.getLsbD i && b.getLsbD (i ^^^ k))) ∧
  (∀ (e i j : Nat) (a b : Block), e ≤ 8 → i < 2 ^ e → j < 2 ^ e →
    dyadicEntry (dymul (2 ^ e) a b) i j =
      xorSum (2 ^ e) fun k => dyadicEntry a i k && dyadicEntry b k j) ∧
  ∀ (e : Nat) (a b c : Block), e ≤ 8 → lowBits (2 ^ e) a = a → lowBits (2 ^ e) b = b → lowBits (2 ^ e) c = c →
    dymul (2 ^ e) a b = dymul (2 ^ e) b a ∧
    dymul (2 ^ e) (dymul (2 ^ e) a b) c = dymul (2 ^ e) a (dymul (2 ^ e) b c) ∧
    dymul (2 ^ e) a (b ^^^ c) = dymul (2 ^ e) a b ^^^ dymul (2 ^ e) a c ∧
    dymul (2 ^ e) 1 b = b ∧
    dymul (2 ^ e) a a = (if parity (2 ^ e) a then 1 else 0) ∧
    (∀ j, j < 2 ^ e → (dymul (2 ^ e) a b).getLsbD j =
      xorSum (2 ^ e) fun i => b.getLsbD i && dyadicEntry a i j) ∧
    parity (2 ^ e) (dymul (2 ^ e) a b) = (parity (2 ^ e) a && parity (2 ^ e) b)

/-- 40_dyadic.md R200, R201, 00_scope.md R12: DYMUL writes dymul(B(a), B(b)) to d and DYADD writes B(a) ^ B(b),
zeros above bit t − 1, and nothing else. The block B(a) of a written word is its low t bits. 20_memory.md R108,
R126: the block is defined exactly when the host lanes of bits t − 1 to 0 are, the whole word exactly when all
lanes are, and their bits are those the lanes read (definedness by lanes is log entry 3). -/
def Obligations.DymulAndDyaddWriteTheBlock : Prop :=
  (∀ (s : State) (a : Nat), s.params.Legal → s.Cfgv →
    ((s.block a).isSome = true ↔ ∀ l, l < max 1 (s.t / 32) → (s.cellRead (.bmem a l)).isSome = true) ∧
    (∀ v, s.block a = some v → v = lowBits s.t v ∧ ∀ j, j < s.t →
      ∃ w, s.cellRead (.bmem a (j / 32)) = some w ∧ v.getLsbD j = w.getLsbD (j % 32)) ∧
    ((s.blockWord a).isSome = true ↔ ∀ l, l < s.params.lanes → (s.cellRead (.bmem a l)).isSome = true) ∧
    ∀ v, s.blockWord a = some v → ∀ j, j < s.params.tb →
      ∃ w, s.cellRead (.bmem a (j / 32)) = some w ∧ v.getLsbD j = w.getLsbD (j % 32)) ∧
  (∀ (s : State) (a : Nat) (w : Block), s.params.Legal → s.Cfgv → s.blockWord a = some w →
    s.block a = some (lowBits s.t w)) ∧
  ∀ (s : State) (d a b : Field) (x y : Block), s.Cfgv → d.toNat < s.params.bmemLen →
    a.toNat < s.params.bmemLen → b.toNat < s.params.bmemLen → s.block a.toNat = some x →
    s.block b.toNat = some y →
    (∃ t, exec (.dymul d a b) s = .next t ∧ t = { s.retire with bmem := t.bmem } ∧
      t.blockWord d.toNat = some (dymul s.t x y) ∧
      ∀ c, c ≠ d.toNat → cellGet t.bmem c = cellGet s.bmem c) ∧
    ∃ t, exec (.dyadd d a b) s = .next t ∧ t = { s.retire with bmem := t.bmem } ∧
      t.blockWord d.toNat = some (x ^^^ y) ∧
      ∀ c, c ≠ d.toNat → cellGet t.bmem c = cellGet s.bmem c

/-- 40_dyadic.md R202, R203: DYREG sets REG to the parity of B(a) and SING to its complement and leaves BMEM
alone. DYINV sets REG and SING as DYREG does; a regular block is written to d, where it is the inverse of B(a);
a singular one leaves every block as it was. -/
def Obligations.DyregAndDyinvTestTheParity : Prop :=
  (∀ (s : State) (a : Field) (x : Block), s.Cfgv → a.toNat < s.params.bmemLen → s.block a.toNat = some x →
    exec (.dyreg a) s =
      .next { s.retire with flags := { reg := parity s.t x, sing := !parity s.t x } }) ∧
  ∀ (s : State) (d a : Field) (x : Block), s.params.Legal → s.Cfgv → d.toNat < s.params.bmemLen →
    a.toNat < s.params.bmemLen → s.block a.toNat = some x →
    (parity s.t x = true →
      ∃ t, exec (.dyinv d a) s = .next t ∧
        t = { s.retire with bmem := t.bmem, flags := { reg := true, sing := false } } ∧
        t.blockWord d.toNat = some x ∧ dymul s.t x x = 1 ∧
        ∀ c, c ≠ d.toNat → cellGet t.bmem c = cellGet s.bmem c) ∧
    (parity s.t x = false →
      exec (.dyinv d a) s = .next { s.retire with flags := { reg := false, sing := true } })

/-- 40_dyadic.md R204: BCOPY copies `count` whole words, read before any is written, and changes no other
word. All port lanes of a source word must have been written (log entry 3). -/
def Obligations.BcopyMovesWholeWords : Prop :=
  ∀ (s : State) (d src count : Field) (f : Nat → Block), 1 ≤ count.toNat →
    d.toNat + count.toNat - 1 < s.params.bmemLen → src.toNat + count.toNat - 1 < s.params.bmemLen →
    (∀ i, i < count.toNat → s.blockWord (src.toNat + i) = some (f i)) →
    ∃ t, exec (.bcopy d src count) s = .next t ∧ t = { s.retire with bmem := t.bmem } ∧
      (∀ i, i < count.toNat → t.blockWord (d.toNat + i) = some (f i)) ∧
      ∀ c, ¬ (d.toNat ≤ c ∧ c < d.toNat + count.toNat) → cellGet t.bmem c = cellGet s.bmem c

/-! ### Block matrices -/

/-- 42_matvec.md R280, R281: MATVEC writes to block d + j the XOR over i of
dymul(B(M + j·RS + i·CS), B(v + i)), all read before any is written, and changes no other block. -/
def Obligations.MatvecWritesTheProduct : Prop :=
  ∀ (s : State) (d mat v : Field) (r c : Nat) (a : Nat → Nat → Block) (x : Nat → Block), s.Cfgv →
    r = s.cfg.mvRows.toNat → c = s.cfg.mvCols.toNat → 1 ≤ r → 1 ≤ c → d.toNat + r - 1 < s.params.bmemLen →
    mat.toNat + (r - 1) * s.cfg.mvRs.toNat + (c - 1) * s.cfg.mvCs.toNat < s.params.bmemLen →
    v.toNat + c - 1 < s.params.bmemLen →
    (∀ j i, j < r → i < c →
      s.block (mat.toNat + j * s.cfg.mvRs.toNat + i * s.cfg.mvCs.toNat) = some (a j i)) →
    (∀ i, i < c → s.block (v.toNat + i) = some (x i)) →
    ∃ t, exec (.matvec d mat v) s = .next t ∧ t = { s.retire with bmem := t.bmem } ∧
      (∀ j, j < r → t.blockWord (d.toNat + j) = some (blockSum c fun i => dymul s.t (a j i) (x i))) ∧
      ∀ q, ¬ (d.toNat ≤ q ∧ q < d.toNat + r) → cellGet t.bmem q = cellGet s.bmem q

/-- 41_eliminator.md R250, R251, R252(e): GAUSS eliminates the m × NB matrix at base. On success the result
is written back and FLAGS = 0b01; without a regular pivot FLAGS = 0b10 and nothing else changes. -/
def Obligations.GaussWritesBackOnSuccess : Prop :=
  ∀ (s : State) (base : Field) (a : Nat → Nat → Block), s.Cfgv → s.m ≤ s.nb →
    base.toNat + s.m * s.nb - 1 < s.params.bmemLen →
    (∀ j k, j < s.m → k < s.nb → s.block (base.toNat + j * s.nb + k) = some (a j k)) →
    (∀ w, gaussJordan s.t s.m s.nb (tabulate s.m fun j => tabulate s.nb (a j)) = some w →
      ∃ t, exec (.gauss base) s = .next t ∧
        t = { s.retire with bmem := t.bmem, flags := { reg := true, sing := false } } ∧
        (∀ j k, j < s.m → k < s.nb → t.blockWord (base.toNat + j * s.nb + k) = some (lowBits s.t (entryAt w j k))) ∧
        ∀ q, ¬ (base.toNat ≤ q ∧ q < base.toNat + s.m * s.nb) → cellGet t.bmem q = cellGet s.bmem q) ∧
    (gaussJordan s.t s.m s.nb (tabulate s.m fun j => tabulate s.nb (a j)) = none →
      exec (.gauss base) s = .next { s.retire with flags := { reg := false, sing := true } })

/-- 41_eliminator.md R252(c): on success the last m block columns of the result are the identity block matrix
and A = A_R · (the result), A_R the last m block columns of A; so the result is A_R⁻¹ · A. -/
def Obligations.GaussReducesTheMatrix : Prop :=
  ∀ (e m nb : Nat) (a : Nat → Nat → Block) (w : List BlockRow), e ≤ 8 → m ≤ nb →
    (∀ j k, j < m → k < nb → lowBits (2 ^ e) (a j k) = a j k) →
    gaussJordan (2 ^ e) m nb (tabulate m fun j => tabulate nb (a j)) = some w →
    (∀ i j, i < m → j < m → entryAt w i (nb - m + j) = if i = j then 1 else 0) ∧
    ∀ j k, j < m → k < nb → a j k = blockSum m fun i => dymul (2 ^ e) (a j (nb - m + i)) (entryAt w i k)

/-- 41_eliminator.md R252(b): GAUSS succeeds exactly when the m × m bit matrix of the parities of A_R is
invertible over GF(2). -/
def Obligations.GaussSucceedsIffParityInvertible : Prop :=
  ∀ (e m nb : Nat) (a : Nat → Nat → Block), e ≤ 8 → m ≤ nb →
    (∀ j k, j < m → k < nb → lowBits (2 ^ e) (a j k) = a j k) →
    ((gaussJordan (2 ^ e) m nb (tabulate m fun j => tabulate nb (a j))).isSome = true ↔
      IsUnit (Matrix.of fun i j : Fin m => if parity (2 ^ e) (a i (nb - m + j)) then (1 : ZMod 2) else 0).det)

/-! ### Cotrace conversions and register transfers -/

/-- 43_poly_transfer.md R300, 00_scope.md R21: bit i of coefficient j of Pd is bit j of block
base + i·stride; the slots from t on are 0; no other slot changes. -/
def Obligations.Cot2pTransposes : Prop :=
  ∀ (s : State) (pd base stride : Field) (b : Nat → Block), pd.toNat < 8 → 1 ≤ stride.toNat → s.Cfgv →
    base.toNat + (s.m - 1) * stride.toNat < s.params.bmemLen →
    (∀ i, i < s.m → s.block (base.toNat + i * stride.toNat) = some (b i)) →
    ∃ t, exec (.cot2p pd base stride) s = .next t ∧ t = { s.retire with p := t.p } ∧
      (∀ k, k < s.params.plen → ∃ v, t.pSlot pd.toNat k = some v ∧
        ∀ i, i < 16 → v.getLsbD i = (decide (k < s.t ∧ i < s.m) && (b i).getLsbD k)) ∧
      ∀ q, ¬ (pKey pd.toNat 0 ≤ q ∧ q < pKey pd.toNat 0 + s.params.plen) → cellGet t.p q = cellGet s.p q

/-- 43_poly_transfer.md R301, 00_scope.md R21: bit j of block base + i·stride is bit i of coefficient j of
Ps, for i < m and j < t; no other block changes. -/
def Obligations.P2cotTransposes : Prop :=
  ∀ (s : State) (base ps stride : Field) (v : Nat → Elem), ps.toNat < 8 → 1 ≤ stride.toNat → s.Cfgv →
    base.toNat + (s.m - 1) * stride.toNat < s.params.bmemLen →
    (∀ j, j < s.t → s.pSlot ps.toNat j = some (v j)) →
    ∃ t, exec (.p2cot base ps stride) s = .next t ∧ t = { s.retire with bmem := t.bmem } ∧
      (∀ i, i < s.m → ∃ b, t.blockWord (base.toNat + i * stride.toNat) = some b ∧
        ∀ j, j < 256 → b.getLsbD j = (decide (j < s.t) && (v j).getLsbD i)) ∧
      ∀ q, (∀ i, i < s.m → q ≠ base.toNat + i * stride.toNat) → cellGet t.bmem q = cellGet s.bmem q

/-- 43_poly_transfer.md R301: COT2P after P2COT, with the same base and stride, returns the first t
coefficients (masked to m bits), zeros above. -/
def Obligations.CotraceRoundTrip : Prop :=
  ∀ (s : State) (base ps pd stride : Field) (v : Nat → Elem), s.params.Legal → ps.toNat < 8 → pd.toNat < 8 →
    1 ≤ stride.toNat → s.Cfgv → base.toNat + (s.m - 1) * stride.toNat < s.params.bmemLen →
    (∀ j, j < s.t → s.pSlot ps.toNat j = some (v j)) →
    ∃ t u, exec (.p2cot base ps stride) s = .next t ∧ exec (.cot2p pd base stride) t = .next u ∧
      ∀ k, k < s.params.plen → u.pSlot pd.toNat k = some (if k < s.t then lowBits s.m (v k) else 0)

/-- 43_poly_transfer.md R302, R303, R304: PCLR writes 0 to all PLEN slots of Pd; PMOV copies all PLEN slots
of Ps, unmasked, to Pd; PSETC writes the low M_MAX bits of the value to slot k of Pd; no other slot
changes. -/
def Obligations.RegisterTransfersWrite : Prop :=
  (∀ (s : State) (pd : Field), pd.toNat < 8 →
    ∃ t, exec (.pclr pd) s = .next t ∧ t = { s.retire with p := t.p } ∧
      (∀ k, k < s.params.plen → t.pSlot pd.toNat k = some 0) ∧
      ∀ q, ¬ (pKey pd.toNat 0 ≤ q ∧ q < pKey pd.toNat 0 + s.params.plen) → cellGet t.p q = cellGet s.p q) ∧
  (∀ (s : State) (pd ps : Field) (v : Nat → Elem), pd.toNat < 8 → ps.toNat < 8 →
    (∀ k, k < s.params.plen → s.pSlot ps.toNat k = some (v k)) →
    ∃ t, exec (.pmov pd ps) s = .next t ∧ t = { s.retire with p := t.p } ∧
      (∀ k, k < s.params.plen → t.pSlot pd.toNat k = some (v k)) ∧
      ∀ q, ¬ (pKey pd.toNat 0 ≤ q ∧ q < pKey pd.toNat 0 + s.params.plen) → cellGet t.p q = cellGet s.p q) ∧
  ∀ (s : State) (pd k value : Field), pd.toNat < 8 → k.toNat < s.params.plen →
    ∃ t, exec (.psetc pd k value) s = .next t ∧ t = { s.retire with p := t.p } ∧
      t.pSlot pd.toNat k.toNat = some (lowBits s.params.mMax value) ∧
      ∀ q, q ≠ pKey pd.toNat k.toNat → cellGet t.p q = cellGet s.p q

/-- 43_poly_transfer.md R305, R306: GSET copies slots 0 .. TB of Ps, unmasked, to G, and SQSET slots
0 .. TB − 1 to row i of SQ; no other slot changes. -/
def Obligations.GsetAndSqsetLoadTheTables : Prop :=
  (∀ (s : State) (ps : Field) (v : Nat → Elem), ps.toNat < 8 →
    (∀ k, k ≤ s.params.tb → s.pSlot ps.toNat k = some (v k)) →
    ∃ t, exec (.gset ps) s = .next t ∧ t = { s.retire with g := t.g } ∧
      (∀ k, k ≤ s.params.tb → t.gSlot k = some (v k)) ∧
      ∀ q, s.params.tb < q → cellGet t.g q = cellGet s.g q) ∧
  ∀ (s : State) (i ps : Field) (v : Nat → Elem), i.toNat < s.params.tb → ps.toNat < 8 →
    (∀ k, k < s.params.tb → s.pSlot ps.toNat k = some (v k)) →
    ∃ t, exec (.sqset i ps) s = .next t ∧ t = { s.retire with sq := t.sq } ∧
      (∀ k, k < s.params.tb → t.sqSlot i.toNat k = some (v k)) ∧
      ∀ q, ¬ (sqKey i.toNat 0 ≤ q ∧ q < sqKey i.toNat 0 + s.params.tb) → cellGet t.sq q = cellGet s.sq q

/-! ### The field -/

/-- 00_scope.md R19: for every F of degree m, irreducible or not, products are m-bit elements, and fmul is
commutative, associative, distributes over XOR and has the unit 1. The reduction is by F: for m ≥ 2 the product
by z (the element 2) is the shift by one, with F added when bit m − 1 of the element is 1. Together these fix
every product. -/
def Obligations.FieldMultiplicationLaws : Prop :=
  ∀ (k : Gf) (a b c : Elem), k.DegreeOk → a.toNat < 2 ^ k.m → b.toNat < 2 ^ k.m → c.toNat < 2 ^ k.m →
    (fmul k a b).toNat < 2 ^ k.m ∧ fmul k a b = fmul k b a ∧
    fmul k (fmul k a b) c = fmul k a (fmul k b c) ∧
    fmul k a (b ^^^ c) = fmul k a b ^^^ fmul k a c ∧ fmul k a 1 = a ∧
    (2 ≤ k.m → fmul k a 2 = a <<< 1 ^^^ if a.getLsbD (k.m - 1) then k.f.setWidth 16 else 0)

/-- 00_scope.md R19: finv(0) = 0 for every F; for every F of degree m, fpow is repeated fmul with
fpow(a, 0) = 1, finv(a) = fpow(a, 2^m − 2) for a ≠ 0 and fsqrt(a) = fpow(a, 2^(m−1)). When F is irreducible, finv
is the inverse of every nonzero element and fsqrt is the square root; when the model's test answers that it is
not, some product of two nonzero elements is 0. The model tests irreducibility by trial division (log
entry 15) and computes fpow by squaring (log entry 11). -/
def Obligations.FieldInverseAndSquareRoot : Prop :=
  (∀ k : Gf, finv k 0 = 0) ∧
  (∀ (k : Gf) (a : Elem), k.DegreeOk → a.toNat < 2 ^ k.m →
    fpow k a 0 = 1 ∧ (∀ e, e + 1 < 2 ^ 17 → fpow k a (e + 1) = fmul k (fpow k a e) a) ∧
    (a ≠ 0 → finv k a = fpow k a (2 ^ k.m - 2)) ∧ fsqrt k a = fpow k a (2 ^ (k.m - 1))) ∧
  (∀ (k : Gf) (a : Elem), k.DegreeOk → k.irreducible = true → a.toNat < 2 ^ k.m →
    (a ≠ 0 → fmul k a (finv k a) = 1) ∧ fmul k (fsqrt k a) (fsqrt k a) = a) ∧
  ∀ k : Gf, k.DegreeOk → k.irreducible = false →
    ∃ a b : Elem, a ≠ 0 ∧ b ≠ 0 ∧ a.toNat < 2 ^ k.m ∧ b.toNat < 2 ^ k.m ∧ fmul k a b = 0

/-- 00_scope.md R20: the degree of a polynomial is the largest index of a nonzero coefficient, −1 for 0; padd is
coefficient-wise XOR, pmul the convolution product and psq the square; monic(p) = p·finv(lc(p)), with leading
coefficient 1 for p ≠ 0 and an irreducible F; peval is Horner's scheme; and for an irreducible F and b ≠ 0,
divmod(a, b) gives a = q·b + r with deg r < deg b, and mod gives its r. -/
def Obligations.PolynomialArithmetic : Prop :=
  (∀ p : Poly, -1 ≤ pdeg p ∧ (∀ n : Nat, pdeg p < n → pcoeff p n = 0) ∧
    (0 ≤ pdeg p → pcoeff p (pdeg p).toNat ≠ 0) ∧ (pzero p = true ↔ pdeg p = -1)) ∧
  (∀ (k : Gf) (p q : Poly) (n : Nat),
    pcoeff (padd p q) n = pcoeff p n ^^^ pcoeff q n ∧
    pcoeff (pmul k p q) n = elemSum (n + 1) (fun i => fmul k (pcoeff p i) (pcoeff q (n - i))) ∧
    pcoeff (psq k p) (2 * n) = fmul k (pcoeff p n) (pcoeff p n) ∧ pcoeff (psq k p) (2 * n + 1) = 0 ∧
    pcoeff (pmonic k p) n = fmul k (finv k (pcoeff p (pdeg p).toNat)) (pcoeff p n)) ∧
  (∀ (k : Gf) (p : Poly) (n : Nat), k.DegreeOk → k.Coeffs p →
    pcoeff (psq k p) n = pcoeff (pmul k p p) n) ∧
  (∀ (k : Gf) (p : Poly), k.DegreeOk → k.irreducible = true → k.Coeffs p → 0 ≤ pdeg p →
    pdeg (pmonic k p) = pdeg p ∧ pcoeff (pmonic k p) (pdeg p).toNat = 1) ∧
  (∀ (k : Gf) (c x : Elem) (p : Poly),
    peval k [] x = 0 ∧ peval k (c :: p) x = c ^^^ fmul k (peval k p x) x) ∧
  ∀ (k : Gf) (a b : Poly), k.DegreeOk → k.irreducible = true → k.Coeffs a → k.Coeffs b → 0 ≤ pdeg b →
    (∀ n, pcoeff a n = pcoeff (pmul k (pdivmod k a b).1 b) n ^^^ pcoeff (pdivmod k a b).2 n) ∧
    pdeg (pdivmod k a b).2 < pdeg b ∧ k.Coeffs (pdivmod k a b).1 ∧ k.Coeffs (pdivmod k a b).2 ∧
    pmod k a b = (pdivmod k a b).2

/-! ### The decoder -/

/-- 44_decoder.md R342: PADDX writes P[Ps] + x to Pd, coefficients masked to m bits, and nothing else. -/
def Obligations.PaddxAddsX : Prop :=
  ∀ (s : State) (pd ps : Field) (v : Nat → Elem), pd.toNat < 8 → ps.toNat < 8 → s.Cfgv →
    (∀ k, k < s.params.plen → s.pSlot ps.toNat k = some (v k)) →
    ∃ t, exec (.paddx pd ps) s = .next t ∧ t = { s.retire with p := t.p } ∧
      (∀ k, k < s.params.plen →
        t.pSlot pd.toNat k = some (lowBits s.m (v k) ^^^ if k = 1 then 1 else 0)) ∧
      ∀ q, ¬ (pKey pd.toNat 0 ≤ q ∧ q < pKey pd.toNat 0 + s.params.plen) → cellGet t.p q = cellGet s.p q

/-- 44_decoder.md R345: PLOC writes monic(a² + x·b²) to Pd, a and b the first t coefficients of Pa and Pb,
and nothing else. -/
def Obligations.PlocWritesTheLocator : Prop :=
  ∀ (s : State) (pd pa pb : Field) (u v : Nat → Elem), pd.toNat < 8 → pa.toNat < 8 → pb.toNat < 8 → s.Cfgv →
    (∀ k, k < s.t → s.pSlot pa.toNat k = some (u k)) → (∀ k, k < s.t → s.pSlot pb.toNat k = some (v k)) →
    ∃ t, exec (.ploc pd pa pb) s = .next t ∧ t = { s.retire with p := t.p } ∧
      (∀ k, k < s.params.plen → t.pSlot pd.toNat k = some (lowBits s.m (pcoeff (pmonic s.gf
        (padd (psq s.gf (tabulate s.t fun k => lowBits s.m (u k)))
          (0 :: psq s.gf (tabulate s.t fun k => lowBits s.m (v k))))) k))) ∧
      ∀ q, ¬ (pKey pd.toNat 0 ≤ q ∧ q < pKey pd.toNat 0 + s.params.plen) → cellGet t.p q = cellGet s.p q

/-- 44_decoder.md R341: with an irreducible F, PINV writes the inverse of P[Ps] modulo G to Pd and nothing
else; when there is none it raises DECODE_FAIL 1. -/
def Obligations.PinvWritesTheInverse : Prop :=
  ∀ (s : State) (pd ps : Field) (v g : Nat → Elem), pd.toNat < 8 → ps.toNat < 8 → s.Cfgv →
    s.gf.irreducible = true → (∀ k, k < s.params.plen → s.pSlot ps.toNat k = some (v k)) →
    (∀ k, k ≤ s.t → s.gSlot k = some (g k)) → lowBits s.m (g s.t) ≠ 0 →
    (∀ u, pinvMod s.gf (tabulate (s.t + 1) fun k => lowBits s.m (g k))
        (tabulate s.params.plen fun k => lowBits s.m (v k)) = some u →
      ∃ t, exec (.pinv pd ps) s = .next t ∧ t = { s.retire with p := t.p } ∧
        (∀ k, k < s.params.plen → t.pSlot pd.toNat k = some (lowBits s.m (pcoeff u k))) ∧
        ∀ q, ¬ (pKey pd.toNat 0 ≤ q ∧ q < pKey pd.toNat 0 + s.params.plen) →
          cellGet t.p q = cellGet s.p q) ∧
    (pinvMod s.gf (tabulate (s.t + 1) fun k => lowBits s.m (g k))
        (tabulate s.params.plen fun k => lowBits s.m (v k)) = none →
      exec (.pinv pd ps) s = .next (s.takeFault .decodeFail 1 (encode (.pinv pd ps))))

/-- 44_decoder.md R341 ("Result"): when the extended Euclid answers u for p modulo G, u has a degree below
that of G and u·p ≡ 1 (mod G); it answers none only when no u with u·p ≡ 1 (mod G) exists. -/
def Obligations.InverseModuloGIsTheInverse : Prop :=
  ∀ (k : Gf) (g p : Poly), k.DegreeOk → k.irreducible = true → k.Coeffs g → k.Coeffs p → 1 ≤ pdeg g →
    (∀ u, pinvMod k g p = some u →
      pdeg u < pdeg g ∧ ∀ j, pcoeff (pmod k (pmul k u p) g) j = if j = 0 then 1 else 0) ∧
    (pinvMod k g p = none →
      ∀ u : Poly, k.Coeffs u → ¬ ∀ j, pcoeff (pmod k (pmul k u p) g) j = if j = 0 then 1 else 0)

/-- 44_decoder.md R343: with an irreducible F, PSQRT writes Σ fsqrt(v_i)·SQ[i], v = P[Ps] mod G, to Pd and
nothing else. -/
def Obligations.PsqrtWritesTheRoot : Prop :=
  ∀ (s : State) (pd ps : Field) (v g : Nat → Elem) (r : Nat → Nat → Elem), pd.toNat < 8 → ps.toNat < 8 →
    s.Cfgv → s.gf.irreducible = true → (∀ k, k < s.params.plen → s.pSlot ps.toNat k = some (v k)) →
    (∀ k, k ≤ s.t → s.gSlot k = some (g k)) → lowBits s.m (g s.t) ≠ 0 →
    (∀ i k, i < s.t → k < s.t → s.sqSlot i k = some (r i k)) →
    ∃ t, exec (.psqrt pd ps) s = .next t ∧ t = { s.retire with p := t.p } ∧
      (∀ k, k < s.params.plen → t.pSlot pd.toNat k = some (lowBits s.m (pcoeff
        (psqrtMod s.gf s.t (tabulate (s.t + 1) fun k => lowBits s.m (g k))
          (tabulate s.t fun i => tabulate s.t fun k => lowBits s.m (r i k))
          (tabulate s.params.plen fun k => lowBits s.m (v k))) k))) ∧
      ∀ q, ¬ (pKey pd.toNat 0 ≤ q ∧ q < pKey pd.toNat 0 + s.params.plen) → cellGet t.p q = cellGet s.p q

/-- 44_decoder.md R343 (the formula, whatever SQ holds, and "Result"): coefficient n of PSQRT's result is the
sum over i < t of fsqrt(v_i)·SQ[i]_n, v = p mod G; and when SQ[i] is a square root of x^i modulo G for every
i < t = deg G, the result r has r² ≡ p (mod G). -/
def Obligations.PsqrtSquaresToItsArgument : Prop :=
  (∀ (k : Gf) (t n : Nat) (g p : Poly) (sq : List Poly),
    pcoeff (psqrtMod k t g sq p) n =
      elemSum t fun i => fmul k (fsqrt k (pcoeff (pmod k p g) i)) (pcoeff (sq.getD i []) n)) ∧
  ∀ (k : Gf) (t : Nat) (g p : Poly) (sq : List Poly), k.DegreeOk → k.irreducible = true → 1 ≤ t →
    pdeg g = t → k.Coeffs g → k.Coeffs p → (∀ i, i < t → k.Coeffs (sq.getD i [])) →
    (∀ i j, i < t → pcoeff (pmod k (psq k (sq.getD i [])) g) j = if j = i then 1 else 0) →
    ∀ j, pcoeff (pmod k (psq k (psqrtMod k t g sq p)) g) j = pcoeff (pmod k p g) j

/-- 44_decoder.md R344: with an irreducible F, PFRAC writes the two results of the half extended Euclid to Pa
and Pb, and nothing else. What they are is `PfracGivesTheFraction`. -/
def Obligations.PfracWritesBothParts : Prop :=
  ∀ (s : State) (pa pb ps : Field) (v g : Nat → Elem), s.params.Legal → pa.toNat < 8 → pb.toNat < 8 →
    ps.toNat < 8 → pa ≠ pb → s.Cfgv → s.gf.irreducible = true →
    (∀ k, k < s.params.plen → s.pSlot ps.toNat k = some (v k)) →
    (∀ k, k ≤ s.t → s.gSlot k = some (g k)) → lowBits s.m (g s.t) ≠ 0 →
    ∃ t, exec (.pfrac pa pb ps) s = .next t ∧ t = { s.retire with p := t.p } ∧
      (∀ k, k < s.params.plen →
        t.pSlot pa.toNat k = some (lowBits s.m (pcoeff (pfracMod s.gf s.t
          (tabulate (s.t + 1) fun k => lowBits s.m (g k))
          (tabulate s.params.plen fun k => lowBits s.m (v k))).1 k)) ∧
        t.pSlot pb.toNat k = some (lowBits s.m (pcoeff (pfracMod s.gf s.t
          (tabulate (s.t + 1) fun k => lowBits s.m (g k))
          (tabulate s.params.plen fun k => lowBits s.m (v k))).2 k))) ∧
      ∀ q, ¬ (pKey pa.toNat 0 ≤ q ∧ q < pKey pa.toNat 0 + s.params.plen) →
        ¬ (pKey pb.toNat 0 ≤ q ∧ q < pKey pb.toNat 0 + s.params.plen) → cellGet t.p q = cellGet s.p q

/-- 44_decoder.md R344: PFRAC's two results are those of the half extended Euclid. For every F, G and τ, the loop
starts from rp = monic(G), rc = τ mod G, bp = 0 and bc = 1, goes on while deg rc > floor(t/2), and gives its last
(rc, bc); with deg(τ mod G) ≤ floor(t/2) that is (τ mod G, 1). The "Result": for an irreducible F and t = deg G,
a ≡ b·τ (mod G), deg a ≤ floor(t/2), deg b ≤ floor((t − 1)/2) and b ≠ 0. -/
def Obligations.PfracGivesTheFraction : Prop :=
  (∀ (k : Gf) (t : Nat) (g tau : Poly),
    (pdeg (pmod k tau g) ≤ (t / 2 : Nat) → pfracMod k t g tau = (pmod k tau g, [1])) ∧
    ∃ (n : Nat) (rp rc bp bc : Nat → Poly),
      rp 0 = pmonic k g ∧ rc 0 = pmod k tau g ∧ bp 0 = [] ∧ bc 0 = [1] ∧
      (∀ i, i < n →
        (t / 2 : Nat) < pdeg (rc i) ∧ rp (i + 1) = rc i ∧ rc (i + 1) = (pdivmod k (rp i) (rc i)).2 ∧
        bp (i + 1) = bc i ∧
        bc (i + 1) = pmod k (padd (pmul k (pdivmod k (rp i) (rc i)).1 (bc i)) (bp i)) g) ∧
      pdeg (rc n) ≤ (t / 2 : Nat) ∧ pfracMod k t g tau = (rc n, bc n)) ∧
  ∀ (k : Gf) (t : Nat) (g tau : Poly), k.DegreeOk → k.irreducible = true → 1 ≤ t → pdeg g = t →
    k.Coeffs g → k.Coeffs tau →
    (∀ j, pcoeff (pmod k (pfracMod k t g tau).1 g) j =
      pcoeff (pmod k (pmul k (pfracMod k t g tau).2 tau) g) j) ∧
    pdeg (pfracMod k t g tau).1 ≤ (t / 2 : Nat) ∧ pdeg (pfracMod k t g tau).2 ≤ ((t - 1) / 2 : Nat) ∧
    0 ≤ pdeg (pfracMod k t g tau).2

/-- 44_decoder.md R346: ROOTS sets bit x of the n-bit vector at e exactly when x is a root of σ = P[Ps] and
changes no other block; when the number of roots is not deg σ it raises DECODE_FAIL 2. -/
def Obligations.RootsMarksTheRoots : Prop :=
  ∀ (s : State) (e ps : Field) (v : Nat → Elem) (sigma : Poly), ps.toNat < 8 → s.Cfgv →
    e.toNat + s.n / s.t - 1 < s.params.bmemLen →
    (∀ k, k < s.params.plen → s.pSlot ps.toNat k = some (v k)) →
    sigma = tabulate s.params.plen (fun k => lowBits s.m (v k)) →
    ((countOf s.n fun x => peval s.gf sigma (BitVec.ofNat 16 x) == 0 : Int) = pdeg sigma →
      ∃ t, exec (.roots e ps) s = .next t ∧ t = { s.retire with bmem := t.bmem } ∧
        (∀ b, b < s.n / s.t → ∃ w, t.blockWord (e.toNat + b) = some w ∧
          ∀ j, j < 256 → w.getLsbD j =
            (decide (j < s.t) && peval s.gf sigma (BitVec.ofNat 16 (b * s.t + j)) == 0)) ∧
        ∀ q, ¬ (e.toNat ≤ q ∧ q < e.toNat + s.n / s.t) → cellGet t.bmem q = cellGet s.bmem q) ∧
    ((countOf s.n fun x => peval s.gf sigma (BitVec.ofNat 16 x) == 0 : Int) ≠ pdeg sigma →
      exec (.roots e ps) s = .next (s.takeFault .decodeFail 2 (encode (.roots e ps))))

/-- 44_decoder.md R347: CORRECT writes to d the first (NB − m)·t bits of the ciphertext, bit p flipped once
for every set x with POS[x] = p; when a set x has POS[x] ≥ NB·t, the smallest such x is reported with
DECODE_FAIL 3 | (x << 16) and nothing is written. -/
def Obligations.CorrectFlipsTheErrors : Prop :=
  ∀ (s : State) (d c e : Field) (ev w : Nat → Block) (pos : Nat → PosEntry), s.params.Legal → s.Cfgv →
    s.m ≤ s.nb → s.cipherBits ≤ s.n / 2 → (s.m < s.nb → d.toNat + s.nb - s.m - 1 < s.params.bmemLen) →
    c.toNat + s.nb - 1 < s.params.bmemLen → e.toNat + s.n / s.t - 1 < s.params.bmemLen →
    (∀ b, b < s.n / s.t → s.block (e.toNat + b) = some (ev b)) →
    (∀ k, k < s.nb - s.m → s.block (c.toNat + k) = some (w k)) →
    (∀ x, x < s.n → (ev (x / s.t)).getLsbD (x % s.t) = true → s.posEntry x = some (pos x)) →
    ((∀ x, x < s.n → (ev (x / s.t)).getLsbD (x % s.t) = true → (pos x).toNat < s.cipherBits) →
      ∃ t, exec (.correct d c e) s = .next t ∧ t = { s.retire with bmem := t.bmem } ∧
        (∀ k, k < s.nb - s.m → ∃ b, t.blockWord (d.toNat + k) = some b ∧
          ∀ j, j < 256 → b.getLsbD j = (decide (j < s.t) && xor ((w k).getLsbD j)
            (xorSum s.n fun x => (ev (x / s.t)).getLsbD (x % s.t) && (pos x).toNat == k * s.t + j))) ∧
        ∀ q, ¬ (d.toNat ≤ q ∧ q < d.toNat + (s.nb - s.m)) → cellGet t.bmem q = cellGet s.bmem q) ∧
    (∀ x, x < s.n → (ev (x / s.t)).getLsbD (x % s.t) = true → s.cipherBits ≤ (pos x).toNat →
      (∀ y, y < x → (ev (y / s.t)).getLsbD (y % s.t) = true → (pos y).toNat < s.cipherBits) →
      exec (.correct d c e) s =
        .next (s.takeFault .decodeFail (BitVec.ofNat 32 x <<< 16 ||| 3) (encode (.correct d c e))))

/-- 44_decoder.md R348, R349: with an irreducible F, DECODE marks the roots of the syndrome's locator in the
n-bit vector at e and writes nothing else; it raises DECODE_FAIL 1 when the syndrome has no inverse and
DECODE_FAIL 2 when the locator does not split. A zero syndrome needs neither SQ nor G below slot t (the
model's reading, log entry 10). -/
def Obligations.DecodeWritesTheErrorVector : Prop :=
  ∀ (s : State) (e syn : Field) (b : Nat → Block) (g : Nat → Elem) (r : Nat → Nat → Elem) (S : Poly),
    s.Cfgv → s.gf.irreducible = true → s.GoppaOk → e.toNat + s.n / s.t - 1 < s.params.bmemLen →
    syn.toNat + s.m - 1 < s.params.bmemLen → (∀ i, i < s.m → s.block (syn.toNat + i) = some (b i)) →
    S = tabulate s.t (fun j => bitsOf 16 s.m fun i => (b i).getLsbD j) →
    (S ≠ tabulate s.t (fun _ => 0) → (∀ k, k ≤ s.t → s.gSlot k = some (g k)) ∧
      ∀ i k, i < s.t → k < s.t → s.sqSlot i k = some (r i k)) →
    match syndromeLocator s.gf s.t (tabulate (s.t + 1) fun k => lowBits s.m (g k))
      (tabulate s.t fun i => tabulate s.t fun k => lowBits s.m (r i k)) S with
    | none => exec (.decode e syn) s = .next (s.takeFault .decodeFail 1 (encode (.decode e syn)))
    | some sigma =>
      ((countOf s.n fun x => peval s.gf sigma (BitVec.ofNat 16 x) == 0 : Int) = pdeg sigma →
        ∃ t, exec (.decode e syn) s = .next t ∧ t = { s.retire with bmem := t.bmem } ∧
          (∀ q, q < s.n / s.t → ∃ w, t.blockWord (e.toNat + q) = some w ∧
            ∀ j, j < 256 → w.getLsbD j =
              (decide (j < s.t) && peval s.gf sigma (BitVec.ofNat 16 (q * s.t + j)) == 0)) ∧
          ∀ q, ¬ (e.toNat ≤ q ∧ q < e.toNat + s.n / s.t) → cellGet t.bmem q = cellGet s.bmem q) ∧
      ((countOf s.n fun x => peval s.gf sigma (BitVec.ofNat 16 x) == 0 : Int) ≠ pdeg sigma →
        exec (.decode e syn) s = .next (s.takeFault .decodeFail 2 (encode (.decode e syn))))

/-- 44_decoder.md R349 ("Result"): for S ≠ 0, DECODE writes the vector that COT2P, PINV, PADDX, PSQRT, PFRAC,
PLOC and ROOTS write in sequence: where the sequence retires, DECODE retires with the same BMEM, and where
it faults, DECODE faults with the same cause and info. Where PINV's step fails, neither needs SQ to be written:
for DECODE that is the model's reading (log entry 10). -/
def Obligations.DecodeIsTheSequence : Prop :=
  ∀ (s t : State) (e syn : Field) (b : Nat → Block), s.Inv → s.status.err = false → s.Cfgv →
    s.gf.irreducible = true → s.GoppaOk → e.toNat + s.n / s.t - 1 < s.params.bmemLen →
    syn.toNat + s.m - 1 < s.params.bmemLen → (∀ i, i < s.m → s.block (syn.toNat + i) = some (b i)) →
    (∃ i j, i < s.m ∧ j < s.t ∧ (b i).getLsbD j = true) →
    execAll [.cot2p 0 syn 1, .pinv 1 0, .paddx 2 1, .psqrt 3 2, .pfrac 4 5 3, .ploc 6 4 5, .roots e 6] s =
      .next t →
    ∃ u, exec (.decode e syn) s = .next u ∧ u.bmem = t.bmem ∧ u.status.err = t.status.err ∧
      u.errRec.cause = t.errRec.cause ∧ u.errRec.info = t.errRec.info

/-- 44_decoder.md R340 (the free values are the model's form of "unspecified", log entry 5): with a reducible
F, PINV, PSQRT, PFRAC and DECODE still complete in one step; each writes nothing outside its destinations,
or raises DECODE_FAIL with sub-code 1 or 2. -/
def Obligations.ReducibleFieldOutcomes : Prop :=
  ∀ (i : Instr) (s : State), s.params.Legal → s.AllDefined → s.Cfgv → s.GoppaOk →
    s.gf.irreducible = false → i.WellFormed s.params →
    (∀ r ∈ Instr.regions s i, r.2 < s.params.bmemLen) →
    (∀ pd ps, i = .pinv pd ps ∨ i = .psqrt pd ps →
      ∃ t, exec i s = .next t ∧
        ((t = { s.retire with p := t.p, draws := s.draws + 1 } ∧
          ∀ q, ¬ (pKey pd.toNat 0 ≤ q ∧ q < pKey pd.toNat 0 + s.params.plen) → cellGet t.p q = cellGet s.p q) ∨
        ∃ c, (c = 1 ∨ c = 2) ∧ t = { s.takeFault .decodeFail c (encode i) with draws := s.draws + 1 })) ∧
    (∀ pa pb ps, i = .pfrac pa pb ps →
      ∃ t, exec i s = .next t ∧
        ((t = { s.retire with p := t.p, draws := s.draws + 1 } ∧
          ∀ q, ¬ (pKey pa.toNat 0 ≤ q ∧ q < pKey pa.toNat 0 + s.params.plen) →
            ¬ (pKey pb.toNat 0 ≤ q ∧ q < pKey pb.toNat 0 + s.params.plen) → cellGet t.p q = cellGet s.p q) ∨
        ∃ c, (c = 1 ∨ c = 2) ∧ t = { s.takeFault .decodeFail c (encode i) with draws := s.draws + 1 })) ∧
    ∀ e syn, i = .decode e syn →
      ∃ t, exec i s = .next t ∧
        ((t = { s.retire with bmem := t.bmem, draws := s.draws + 1 } ∧
          ∀ q, ¬ (e.toNat ≤ q ∧ q < e.toNat + s.n / s.t) → cellGet t.bmem q = cellGet s.bmem q) ∨
        ∃ c, (c = 1 ∨ c = 2) ∧ t = { s.takeFault .decodeFail c (encode i) with draws := s.draws + 1 })

/-! ### The checks, in their order -/

/-- 30_encoding.md R154, R160 step 2, R164, 60_exceptions.md R503: a command with an operand out of its legal
range raises BAD_OPERAND whatever the configuration and the memories hold, and the field reported is the
first illegal one in field order, for every command: P registers, counts, strides, slots, rows of SQ, and
POSSET's immediate. PFRAC's Pa = Pb is checked after them and reported as field 2. -/
def Obligations.IllegalOperandsRaise : Prop :=
  (∀ (i : Instr) (s : State) (before after : List (FieldId × Bool)) (f : FieldId),
    fieldChecks s.params (encode i) = before ++ (f, false) :: after → (∀ c ∈ before, c.2 = true) →
    exec i s = .next (s.takeFault .badOperand (BitVec.ofNat 32 f.code) (encode i))) ∧
  (∀ (i : Instr) (p : Params), ¬ i.WellFormed p →
    (∃ before f after, fieldChecks p (encode i) = before ++ (f, false) :: after ∧ ∀ c ∈ before, c.2 = true) ∨
      ∃ a ps, i = .pfrac a a ps) ∧
  (∀ (i : Instr) (s : State), ¬ i.WellFormed s.params →
    ∃ f : FieldId, exec i s = .next (s.takeFault .badOperand (BitVec.ofNat 32 f.code) (encode i))) ∧
  (∀ (s : State) (a b c : Field), 8 ≤ a.toNat →
    exec (.pinv a b) s = .next (s.takeFault .badOperand 1 (encode (.pinv a b))) ∧
    exec (.cot2p a b c) s = .next (s.takeFault .badOperand 1 (encode (.cot2p a b c))) ∧
    exec (.pfrac a b c) s = .next (s.takeFault .badOperand 1 (encode (.pfrac a b c))) ∧
    exec (.psetc a b c) s = .next (s.takeFault .badOperand 1 (encode (.psetc a b c)))) ∧
  (∀ (s : State) (a b c : Field), a.toNat < 8 → b.toNat < 8 → c.toNat < 8 → a = b →
    exec (.pfrac a b c) s = .next (s.takeFault .badOperand 2 (encode (.pfrac a b c)))) ∧
  ∀ (s : State) (a b : Field), exec (.bcopy a b 0) s = .next (s.takeFault .badOperand 3 (encode (.bcopy a b 0)))

/-- 10_state.md R63, R64, 00_scope.md R8, R10: m, t, n, NB, the field, the plain and the cipher size are those of
the configuration registers, CFGV is R64's condition on them, and the commands that require CFGV raise
BAD_CONFIG with info 1 when it fails. -/
def Obligations.InvalidConfigurationRaises : Prop :=
  (∀ s : State,
    s.m = (s.csrRead 0x020).toNat ∧ s.t = 2 ^ (s.csrRead 0x021).toNat ∧ s.n = 2 ^ (s.csrRead 0x020).toNat ∧
    s.nb = (s.csrRead 0x022).toNat ∧
    s.gf = { m := (s.csrRead 0x020).toNat, f := (s.csrRead 0x023).setWidth 17 } ∧
    s.plainBits = (s.nb - s.m) * s.t ∧ s.cipherBits = s.nb * s.t ∧
    (s.Cfgv ↔
      1 ≤ (s.csrRead 0x020).toNat ∧ (s.csrRead 0x020).toNat ≤ s.params.mMax ∧
      (s.csrRead 0x021).toNat ≤ s.params.tMax ∧ (s.csrRead 0x021).toNat < (s.csrRead 0x020).toNat ∧
      (s.csrRead 0x023).getLsbD (s.csrRead 0x020).toNat = true ∧
      s.csrRead 0x023 >>> ((s.csrRead 0x020).toNat + 1) = 0)) ∧
  ∀ (i : Instr) (s : State), i.WellFormed s.params → Instr.needsCfgv i = true → ¬ s.Cfgv →
    exec i s = .next (s.takeFault .badConfig 1 (encode i))

/-- 10_state.md R48, R64, 60_exceptions.md R502: with CFGV, the further configuration checks: GAUSS and
CORRECT info 2, MATVEC info 3, the commands that read G info 4. -/
def Obligations.ConfigurationChecksRaise : Prop :=
  ∀ (s : State) (a b c : Field), s.Cfgv →
    (s.nb < s.m → exec (.gauss a) s = .next (s.takeFault .badConfig 2 (encode (.gauss a)))) ∧
    (s.nb < s.m ∨ s.n / 2 < s.cipherBits →
      exec (.correct a b c) s = .next (s.takeFault .badConfig 2 (encode (.correct a b c)))) ∧
    (s.cfg.mvRows = 0 ∨ s.cfg.mvCols = 0 →
      exec (.matvec a b c) s = .next (s.takeFault .badConfig 3 (encode (.matvec a b c)))) ∧
    ∀ v, s.gSlot s.t = some v → lowBits s.m v = 0 →
      exec (.decode a b) s = .next (s.takeFault .badConfig 4 (encode (.decode a b))) ∧
      (a.toNat < 8 → b.toNat < 8 →
        exec (.pinv a b) s = .next (s.takeFault .badConfig 4 (encode (.pinv a b))) ∧
        exec (.psqrt a b) s = .next (s.takeFault .badConfig 4 (encode (.psqrt a b))) ∧
        (c.toNat < 8 → a ≠ b →
          exec (.pfrac a b c) s = .next (s.takeFault .badConfig 4 (encode (.pfrac a b c)))))

/-- 20_memory.md R102, 30_encoding.md R160 step 5, 60_exceptions.md R503: when the earlier checks pass, the
first region in field order that reaches past the end of BMEM raises ADDR_RANGE with its field id, whatever
the memories hold. -/
def Obligations.RegionPastTheEndRaises : Prop :=
  ∀ (i : Instr) (s : State) (before after : List (FieldId × Nat)) (f : FieldId) (last : Nat),
    i.WellFormed s.params → Instr.ConfigOk s i → Instr.regions s i = before ++ (f, last) :: after →
    (∀ r ∈ before, r.2 < s.params.bmemLen) → s.params.bmemLen ≤ last →
    exec i s = .next (s.takeFault .addrRange (BitVec.ofNat 32 f.code) (encode i))

/-! ### The host port -/

/-- 10_state.md R57: a CMD_HI write appends the word (v, CMD_LO) or, with the FIFO full, discards it and sets
STATUS.OVF; CMD_LO is a read/write register that keeps its value, CMD_HI reads 0, and both are accepted
while BUSY (nothing is assumed of `s`). -/
def Obligations.CommandPush : Prop :=
  ∀ (s : State) (v : Word32),
    (s.fifo.length < s.params.cqDepth →
      s.hostWrite 0x24#32 v 0b1111#4 = { s with fifo := s.fifo ++ [v ++ s.cmdLo] }) ∧
    (s.params.cqDepth ≤ s.fifo.length →
      s.hostWrite 0x24#32 v 0b1111#4 = { s with status := { s.status with ovf := true } }) ∧
    s.hostWrite 0x20#32 v 0b1111#4 = { s with cmdLo := v } ∧
    s.hostRead 0x20#32 0b1111#4 = { s with rdata := s.cmdLo } ∧
    s.hostRead 0x24#32 0b1111#4 = { s with rdata := 0 }

/-- 20_memory.md R114: while BUSY, every access to a data window and every write of a configuration register
or FLAGS is refused: it has no effect but STATUS.HOSTERR, and a read returns 0; CSR reads are answered. -/
def Obligations.BusyRefusesTheHost : Prop :=
  ∀ (s : State) (addr data : Word32) (target : Target), s.busy = true → portWellFormed addr 0b1111#4 = true →
    locate s.params addr.toNat = some target →
    match target with
    | .csr k =>
      s.hostRead addr 0b1111#4 = { s with rdata := s.csrRead k } ∧
      (0x020 ≤ k → k ≤ 0x028 →
        s.hostWrite addr data 0b1111#4 = { s with status := { s.status with hostErr := true } })
    | _ =>
      s.hostRead addr 0b1111#4 = { s with status := { s.status with hostErr := true }, rdata := 0 } ∧
      s.hostWrite addr data 0b1111#4 = { s with status := { s.status with hostErr := true } }

/-- 20_memory.md R112, R113: an access to an unmapped address, and a transaction that is not well-formed
(addr[1:0] ≠ 0 or be ≠ 0b1111) whatever its address, only set STATUS.HOSTERR; a read returns 0. Every number
of the CSR window is mapped. -/
def Obligations.BadAccessesSetHosterr : Prop :=
  (∀ (s : State) (addr data : Word32) (be : BitVec 4),
    addr.toNat % 4 ≠ 0 ∨ be ≠ 0b1111#4 ∨ locate s.params addr.toNat = none →
    s.hostRead addr be = { s with status := { s.status with hostErr := true }, rdata := 0 } ∧
    s.hostWrite addr data be = { s with status := { s.status with hostErr := true } }) ∧
  ∀ (p : Params) (k : Nat), k < 0x400 → locate p (4 * k) = some (.csr k)

/-- 20_memory.md R104 to R108, 10_state.md R61, R63, R66, R68. The word addresses of the map are R104's and no
other is mapped. While not BUSY, a host write to a cell of P, G, SQ or POS, or to a lane of BMEM, stores the low
bits of the data that fit it, a read then returns them zero-extended, and every other cell and lane keeps what
it held. A write of IE stores bits 5:1 and is accepted while BUSY; a write of a configuration register or FLAGS
while not BUSY stores its low bits, leaves the other eight alone, and is what the command CSRW does; a write to
a read-only or unlisted CSR is ignored. (CTRL, STATUS, CMD_LO and CMD_HI have statements of their own.) -/
def Obligations.HostWriteThenRead : Prop :=
  (∀ (p : Params) (target : Target) (addr : Nat), p.Legal → addr % 4 = 0 →
    (locate p addr = some target ↔ Target.Mapped p target ∧ addr = Target.address p target)) ∧
  (∀ (s : State) (addr data : Word32) (target : Target), s.params.Legal → s.busy = false →
    portWellFormed addr 0b1111#4 = true → locate s.params addr.toNat = some target →
    (∀ k, target ≠ .csr k) →
    ((s.hostWrite addr data 0b1111#4).hostRead addr 0b1111#4).rdata =
      lowBits (match target with
        | .pos _ => s.params.posW
        | .bmem _ _ => min 32 s.params.tb
        | _ => s.params.mMax) data ∧
    ∀ other otherAddr, other ≠ target → locate s.params otherAddr = some other →
      (s.hostWrite addr data 0b1111#4).cellRead other = s.cellRead other) ∧
  (∀ (s : State) (v : Word32),
    s.hostWrite 0x18#32 v 0b1111#4 = { s with ie := v.extractLsb' 1 5 } ∧
    (s.hostWrite 0x18#32 v 0b1111#4).csrRead 0x006 = v &&& 0x3E#32) ∧
  (∀ (s : State) (v : Word32) (csr : Field), s.busy = false → 0x020 ≤ csr.toNat → csr.toNat ≤ 0x028 →
    ∃ t, s.hostWrite (BitVec.ofNat 32 (4 * csr.toNat)) v 0b1111#4 = t ∧
      t = { s with cfg := t.cfg, flags := t.flags } ∧
      (∀ k, 0x020 ≤ k → k ≤ 0x028 → k ≠ csr.toNat → t.csrRead k = s.csrRead k) ∧
      t.csrRead csr.toNat =
        lowBits (match csr.toNat with
          | 0x020 => 5
          | 0x021 => 4
          | 0x023 => 17
          | 0x028 => 2
          | _ => 16) v ∧
      exec (.csrw csr v) s = .next t.retire) ∧
  ∀ (s : State) (v : Word32) (k : Nat), k < 0x400 → k ∉ [0x004, 0x005, 0x006, 0x008, 0x009] →
    ¬ (0x020 ≤ k ∧ k ≤ 0x028) → s.hostWrite (BitVec.ofNat 32 (4 * k)) v 0b1111#4 = s

/-- 20_memory.md R105 to R109, R111, 10_state.md R68: a read changes nothing but the data it returns (and, for an
access error, HOSTERR; the model's count of free values, log entry 9, may move). A CSR read answers the CSR, also
while BUSY. While not BUSY, a read of a written cell answers it zero-extended (for BMEM, the lane of the word),
and a read of a cell that holds no defined value answers a free value that fits the cell (log entry 4). -/
def Obligations.HostReadsAnswer : Prop :=
  (∀ (s : State) (addr : Word32) (be : BitVec 4), s.hostRead addr be =
    { s with
      status := { s.status with hostErr := (s.hostRead addr be).status.hostErr }
      rdata := (s.hostRead addr be).rdata
      draws := (s.hostRead addr be).draws }) ∧
  (∀ (s : State) (k : Nat), k < 0x400 →
    s.hostRead (BitVec.ofNat 32 (4 * k)) 0b1111#4 = { s with rdata := s.csrRead k }) ∧
  (∀ (s : State) (i k a l : Nat) (w : Block),
    s.cellRead (.p i k) = (s.pSlot i k).map (·.setWidth 32) ∧ s.cellRead (.g k) = (s.gSlot k).map (·.setWidth 32) ∧
    s.cellRead (.sq i k) = (s.sqSlot i k).map (·.setWidth 32) ∧
    s.cellRead (.pos k) = (s.posEntry k).map (·.setWidth 32) ∧
    (s.params.Legal → l < s.params.lanes → s.blockWord a = some w →
      s.cellRead (.bmem a l) = some (w.extractLsb' (32 * l) 32))) ∧
  ∀ (s : State) (addr : Word32) (target : Target), s.busy = false → portWellFormed addr 0b1111#4 = true →
    locate s.params addr.toNat = some target → (∀ k, target ≠ .csr k) →
    (∀ v, s.cellRead target = some v → s.hostRead addr 0b1111#4 = { s with rdata := v }) ∧
    (s.cellRead target = none →
      ∃ v : Word32, s.hostRead addr 0b1111#4 = { s with rdata := v, draws := s.draws + 1 } ∧
        v.toNat < 2 ^ match target with
          | .pos _ => s.params.posW
          | .bmem _ _ => min 32 s.params.tb
          | _ => s.params.mMax)

/-- 70_reset_and_hazards.md R600, R601, 10_state.md R62, R70: the input RST and a write of CTRL with SRST = 1
give the state after reset; without SRST a write of CTRL stores EN and FLUSH empties the FIFO. R62 says that
SRST wins over FLUSH; that it wins over EN written 1 in the same write is the model's choice, and so is that
the model's own fields agenda, rdata and draws go on (log entry 14). -/
def Obligations.ResetReplacesTheState : Prop :=
  ∀ (s : State) (v : Word32) (es : List Event),
    (s.agenda = .rst :: es →
      step s = .next { State.resetWith s.params with agenda := es, rdata := s.rdata, draws := s.draws }) ∧
    (s.agenda = .write 0x10#32 v 0b1111#4 :: es → v.getLsbD 2 = true →
      step s = .next { State.resetWith s.params with agenda := es, rdata := s.rdata, draws := s.draws }) ∧
    (s.agenda = .write 0x10#32 v 0b1111#4 :: es → v.getLsbD 2 = false →
      step s = .next
        { s with agenda := es, ctrlEn := v.getLsbD 0, fifo := if v.getLsbD 1 then [] else s.fifo })

/-- 10_state.md R65, 60_exceptions.md R508: a write of STATUS clears the sticky bits written 1 and changes
nothing else; clearing ERR ends the halt, the error record keeps its values, and if EN = 1 and the FIFO is
not empty the sequencer goes on. -/
def Obligations.StatusWriteEndsTheHalt : Prop :=
  ∀ (s : State) (v : Word32),
    s.hostWrite 0x14#32 v 0b1111#4 =
      { s with
        status :=
          { err := s.status.err && !v.getLsbD 1, finished := s.status.finished && !v.getLsbD 2,
            mark := s.status.mark && !v.getLsbD 3, ovf := s.status.ovf && !v.getLsbD 4,
            hostErr := s.status.hostErr && !v.getLsbD 5 } } ∧
    (v.getLsbD 1 = true → s.ctrlEn = true → s.fifo ≠ [] → (s.hostWrite 0x14#32 v 0b1111#4).busy = true)

/-- 10_state.md R57 to R67, 60_exceptions.md R511: what every CSR reads, each register at its own number, bit by
bit for STATUS, IE, PARAMS and FLAGS; a number not listed reads 0; and irq = (STATUS[5:1] & IE[5:1]) ≠ 0. -/
def Obligations.CsrReadsAndInterrupt : Prop :=
  (∀ s : State, s.fifo.length ≤ 255 →
    (s.csrRead 0x005).getLsbD 0 = (s.ctrlEn && !s.status.err && !s.fifo.isEmpty) ∧
    (s.csrRead 0x005).getLsbD 1 = s.status.err ∧ (s.csrRead 0x005).getLsbD 2 = s.status.finished ∧
    (s.csrRead 0x005).getLsbD 3 = s.status.mark ∧ (s.csrRead 0x005).getLsbD 4 = s.status.ovf ∧
    (s.csrRead 0x005).getLsbD 5 = s.status.hostErr ∧
    ((s.csrRead 0x005).extractLsb' 8 8).toNat = s.fifo.length ∧ s.csrRead 0x005 >>> 16 = 0 ∧
    (s.csrRead 0x005).extractLsb' 6 2 = 0 ∧
    (∀ k, k < 5 → (s.csrRead 0x006).getLsbD (k + 1) = s.ie.getLsbD k) ∧
    (s.csrRead 0x006).getLsbD 0 = false ∧ s.csrRead 0x006 >>> 6 = 0 ∧
    s.irq = ((s.csrRead 0x005).extractLsb' 1 5 &&& (s.csrRead 0x006).extractLsb' 1 5 != 0)) ∧
  (∀ s : State,
    s.csrRead 0x000 = 0x51444D43#32 ∧ s.csrRead 0x001 = 0x00010000#32 ∧
    s.csrRead 0x004 = (if s.ctrlEn then 1 else 0) ∧ s.csrRead 0x008 = s.cmdLo ∧ s.csrRead 0x009 = 0 ∧
    s.csrRead 0x00A = s.cmdCount ∧ (s.csrRead 0x00C).toNat = s.errRec.cause.toNat ∧
    s.csrRead 0x00D = s.errRec.info ∧ s.csrRead 0x00E = s.errRec.cmdLo ∧ s.csrRead 0x00F = s.errRec.cmdHi ∧
    s.csrRead 0x010 = s.errRec.index) ∧
  (∀ s : State, s.params.Legal →
    ((s.csrRead 0x002).extractLsb' 0 8).toNat = s.params.tMax ∧
    ((s.csrRead 0x002).extractLsb' 8 8).toNat = s.params.mMax ∧
    ((s.csrRead 0x002).extractLsb' 16 8).toNat = s.params.bmemAw ∧
    ((s.csrRead 0x002).extractLsb' 24 8).toNat = s.params.cqDepth) ∧
  (∀ s : State,
    (s.csrRead 0x020).toNat = s.cfg.m.toNat ∧ (s.csrRead 0x021).toNat = s.cfg.t.toNat ∧
    (s.csrRead 0x022).toNat = s.cfg.nb.toNat ∧ (s.csrRead 0x023).toNat = s.cfg.fpoly.toNat ∧
    (s.csrRead 0x024).toNat = s.cfg.mvRows.toNat ∧ (s.csrRead 0x025).toNat = s.cfg.mvCols.toNat ∧
    (s.csrRead 0x026).toNat = s.cfg.mvRs.toNat ∧ (s.csrRead 0x027).toNat = s.cfg.mvCs.toNat ∧
    (s.csrRead 0x028).getLsbD 0 = s.flags.reg ∧ (s.csrRead 0x028).getLsbD 1 = s.flags.sing ∧
    s.csrRead 0x028 >>> 2 = 0) ∧
  ∀ (s : State) (k : Nat), k ∉ [0x000, 0x001, 0x002, 0x004, 0x005, 0x006, 0x008, 0x009, 0x00A] →
    ¬ (0x00C ≤ k ∧ k ≤ 0x010) → ¬ (0x020 ≤ k ∧ k ≤ 0x028) → s.csrRead k = 0
end

