-- ==== Sys2Proof/Laws/Bits.lean ====
section
/-! SUPPORT. The small lemmas of the bit-field helpers: every bit of a word cut, built or summed. -/

namespace Sys2Proof.Machine

/-! ### lowBits -/

@[simp] theorem toNat_lowBits {w : Nat} (k : Nat) (v : BitVec w) :
    (lowBits k v).toNat = v.toNat % 2 ^ k := by
  rw [lowBits, BitVec.toNat_ofNat]
  exact Nat.mod_eq_of_lt (Nat.lt_of_le_of_lt (Nat.mod_le _ _) v.isLt)

theorem toNat_lowBits_lt {w : Nat} (k : Nat) (v : BitVec w) : (lowBits k v).toNat < 2 ^ k := by
  rw [toNat_lowBits]; exact Nat.mod_lt _ (Nat.two_pow_pos k)

@[simp] theorem getLsbD_lowBits {w : Nat} (k : Nat) (v : BitVec w) (i : Nat) :
    (lowBits k v).getLsbD i = (decide (i < k) && v.getLsbD i) := by
  rw [BitVec.getLsbD, toNat_lowBits, Nat.testBit_mod_two_pow, BitVec.getLsbD]

theorem lowBits_eq_self {w : Nat} {k : Nat} {v : BitVec w} (h : v.toNat < 2 ^ k) : lowBits k v = v := by
  apply BitVec.eq_of_toNat_eq
  rw [toNat_lowBits, Nat.mod_eq_of_lt h]

/-- Cutting twice is cutting to the smaller width. -/
theorem lowBits_lowBits {w : Nat} (j k : Nat) (v : BitVec w) :
    lowBits j (lowBits k v) = lowBits (min j k) v := by
  apply BitVec.eq_of_getLsbD_eq
  intro i _
  simp only [getLsbD_lowBits, ← Bool.and_assoc, Nat.lt_min, Bool.decide_and]

@[simp] theorem lowBits_idem {w : Nat} (k : Nat) (v : BitVec w) : lowBits k (lowBits k v) = lowBits k v := by
  rw [lowBits_lowBits, Nat.min_self]

@[simp] theorem lowBits_zero {w : Nat} (k : Nat) : lowBits k (0#w) = 0#w := by
  simp [lowBits]

theorem lowBits_xor {w : Nat} (k : Nat) (a b : BitVec w) :
    lowBits k (a ^^^ b) = lowBits k a ^^^ lowBits k b := by
  apply BitVec.eq_of_getLsbD_eq
  intro i _
  simp only [getLsbD_lowBits, BitVec.getLsbD_xor]
  cases decide (i < k) <;> simp

/-- A word whose bits at k and above are 0 is its low k bits. -/
theorem lowBits_eq_self_of_bits {w : Nat} {k : Nat} {v : BitVec w}
    (h : ∀ i, k ≤ i → v.getLsbD i = false) : lowBits k v = v := by
  apply BitVec.eq_of_getLsbD_eq
  intro i _
  rw [getLsbD_lowBits]
  by_cases hi : i < k
  · simp [hi]
  · simp [hi, h i (by omega)]

/-! ### bitsOf -/

@[simp] theorem getLsbD_bitsOf (w n : Nat) (f : Nat → Bool) (i : Nat) :
    (bitsOf w n f).getLsbD i = (decide (i < w) && decide (i < n) && f i) := by
  induction n with
  | zero => simp [bitsOf]
  | succ n ih =>
    rw [bitsOf, BitVec.getLsbD_or, ih, BitVec.getLsbD_ofNat, Nat.testBit_shiftLeft]
    by_cases hi : i < n
    · have h2 : ¬ n ≤ i := by omega
      have h3 : i < n + 1 := by omega
      simp [hi, h2, h3]
    · by_cases he : i = n
      · subst he
        cases f i <;> simp
      · have h1 : n ≤ i := by omega
        have h2 : ¬ i < n + 1 := by omega
        have h3 : i - n ≠ 0 := by omega
        obtain ⟨d, hd⟩ : ∃ d, i - n = d + 1 := ⟨i - n - 1, by omega⟩
        cases f n <;> simp [hi, h2, hd, Nat.testBit_succ]

theorem bitsOf_congr {w n : Nat} {f g : Nat → Bool} (h : ∀ i, i < n → f i = g i) :
    bitsOf w n f = bitsOf w n g := by
  apply BitVec.eq_of_getLsbD_eq
  intro i _
  simp only [getLsbD_bitsOf]
  by_cases hi : i < n
  · simp [hi, h i hi]
  · simp [hi]

theorem lowBits_bitsOf {w n k : Nat} (h : n ≤ k) (f : Nat → Bool) :
    lowBits k (bitsOf w n f) = bitsOf w n f := by
  apply lowBits_eq_self_of_bits
  intro i hi
  have : ¬ i < n := by omega
  simp [this]

/-! ### xorSum -/

theorem xorSum_congr {n : Nat} {f g : Nat → Bool} (h : ∀ i, i < n → f i = g i) : xorSum n f = xorSum n g := by
  induction n with
  | zero => rfl
  | succ n ih => rw [xorSum, xorSum, ih fun i hi => h i (by omega), h n (by omega)]

@[simp] theorem xorSum_false (n : Nat) : xorSum n (fun _ => false) = false := by
  induction n with
  | zero => rfl
  | succ n ih => simp [xorSum, ih]

theorem xorSum_xor (n : Nat) (f g : Nat → Bool) :
    xorSum n (fun i => xor (f i) (g i)) = xor (xorSum n f) (xorSum n g) := by
  induction n with
  | zero => rfl
  | succ n ih =>
    simp only [xorSum, ih]
    cases xorSum n f <;> cases xorSum n g <;> cases f n <;> cases g n <;> rfl

theorem xorSum_and (n : Nat) (b : Bool) (f : Nat → Bool) :
    xorSum n (fun i => b && f i) = (b && xorSum n f) := by
  cases b <;> simp

/-- A double sum in either order. -/
theorem xorSum_comm (m n : Nat) (f : Nat → Nat → Bool) :
    xorSum m (fun i => xorSum n (f i)) = xorSum n (fun j => xorSum m fun i => f i j) := by
  induction m with
  | zero => simp [xorSum]
  | succ m ih => simp only [xorSum, ih, xorSum_xor]

/-- A sum with one term. -/
theorem xorSum_single {n k : Nat} (hk : k < n) (f : Nat → Bool) (h : ∀ i, i < n → i ≠ k → f i = false) :
    xorSum n f = f k := by
  induction n with
  | zero => omega
  | succ n ih =>
    rw [xorSum]
    by_cases hn : k = n
    · subst hn
      rw [xorSum_congr (g := fun _ => false) fun i hi => h i (by omega) (by omega)]
      simp
    · rw [ih (by omega) fun i hi => h i (by omega), h n (by omega) (by omega)]
      simp

/-! ### tabulate -/

@[simp] theorem length_tabulate {α : Type} (n : Nat) (f : Nat → α) : (tabulate n f).length = n := by
  simp [tabulate]

theorem getElem?_tabulate {α : Type} (n : Nat) (f : Nat → α) (i : Nat) :
    (tabulate n f)[i]? = if i < n then some (f i) else none := by
  by_cases h : i < n <;> simp [tabulate, h]

@[simp] theorem getElem_tabulate {α : Type} (n : Nat) (f : Nat → α) (i : Nat)
    (h : i < (tabulate n f).length) : (tabulate n f)[i] = f i := by
  simp [tabulate]

theorem getD_tabulate {α : Type} (n : Nat) (f : Nat → α) (i : Nat) (d : α) :
    (tabulate n f).getD i d = if i < n then f i else d := by
  rw [List.getD_eq_getElem?_getD, getElem?_tabulate]
  by_cases h : i < n <;> simp [h]

theorem mem_tabulate {α : Type} {n : Nat} {f : Nat → α} {x : α} :
    x ∈ tabulate n f ↔ ∃ i, i < n ∧ f i = x := by
  simp [tabulate]

end Sys2Proof.Machine
end

