-- ==== Sys2Proof/Laws/Cells.lean ====
section
/-! SUPPORT. The laws of sparse cell spaces: a read after a write, the cells a write leaves alone, and the
canonical form. -/

namespace Sys2Proof.Machine

variable {α : Type}

/-! ### Reads -/

@[simp] theorem cellGet_nil (k : Nat) : cellGet ([] : Cells α) k = none := rfl

theorem cellGet_append (c d : Cells α) (k : Nat) :
    cellGet (c ++ d) k = (cellGet c k).or (cellGet d k) := by
  induction c with
  | nil => simp
  | cons e c ih =>
    obtain ⟨j, v⟩ := e
    by_cases h : j = k <;> simp [cellGet, h, ih]

/-- A filter that looks at keys only keeps the value of every key it lets through. -/
theorem cellGet_filter (c : Cells α) (f : Nat → Bool) (k : Nat) :
    cellGet (c.filter fun e => f e.1) k = if f k then cellGet c k else none := by
  induction c with
  | nil => simp
  | cons e c ih =>
    obtain ⟨j, v⟩ := e
    by_cases hj : j = k
    · subst hj
      by_cases hf : f j <;> simp [List.filter, hf, cellGet, ih]
    · by_cases hf : f j <;> simp [List.filter, hf, cellGet, ih, hj]

theorem cellGet_numbered (vs : List α) (lo k : Nat) :
    cellGet (numbered lo vs) k = if lo ≤ k then vs[k - lo]? else none := by
  induction vs generalizing lo with
  | nil => simp [numbered]
  | cons v vs ih =>
    by_cases h : lo = k
    · subst h; simp [numbered, cellGet]
    · simp only [numbered, cellGet, h, if_false, ih]
      by_cases h1 : lo ≤ k
      · have : lo + 1 ≤ k := by omega
        obtain ⟨d, rfl⟩ : ∃ d, k = lo + 1 + d := ⟨k - (lo + 1), by omega⟩
        have e : lo + 1 + d - lo = d + 1 := by omega
        simp [h1, e]
      · have : ¬ lo + 1 ≤ k := by omega
        simp [h1, this]

/-- A READ AFTER A WRITE: the written cells hold the written values, every other cell what it held. -/
theorem cellGet_cellPut (c : Cells α) (lo : Nat) (vs : List α) (k : Nat) :
    cellGet (cellPut c lo vs) k =
      if lo ≤ k ∧ k < lo + vs.length then vs[k - lo]? else cellGet c k := by
  have hf := cellGet_filter c (fun j => decide (j < lo)) k
  have hg := cellGet_filter c (fun j => decide (lo + vs.length ≤ j)) k
  simp only [cellPut, cellGet_append, cellGet_numbered] at *
  rw [hf, hg]
  by_cases h1 : k < lo
  · have h2 : ¬ lo ≤ k := by omega
    have h3 : ¬ lo + vs.length ≤ k := by omega
    simp [h1, h2, h3]
  · by_cases h2 : k < lo + vs.length
    · have h3 : lo ≤ k := by omega
      have h4 : k - lo < vs.length := by omega
      simp [h1, h2, h3, h4]
    · have h3 : lo ≤ k := by omega
      have h4 : lo + vs.length ≤ k := by omega
      have h5 : vs.length ≤ k - lo := by omega
      simp [h1, h2, h3, h4, List.getElem?_eq_none h5]

theorem cellGet_cellPut_of_lt (c : Cells α) (lo : Nat) (vs : List α) (j : Nat) (h : j < vs.length) :
    cellGet (cellPut c lo vs) (lo + j) = some vs[j] := by
  rw [cellGet_cellPut, if_pos ⟨by omega, by omega⟩]
  simp [h]

theorem cellGet_cellPut_of_not (c : Cells α) (lo : Nat) (vs : List α) (k : Nat)
    (h : ¬ (lo ≤ k ∧ k < lo + vs.length)) : cellGet (cellPut c lo vs) k = cellGet c k := by
  rw [cellGet_cellPut, if_neg h]

/-- Writing nothing changes no cell. -/
theorem cellGet_cellPut_nil (c : Cells α) (lo k : Nat) : cellGet (cellPut c lo []) k = cellGet c k :=
  cellGet_cellPut_of_not c lo [] k (by simp)

theorem cellGet_cellPut_one (c : Cells α) (lo : Nat) (v : α) (k : Nat) :
    cellGet (cellPut c lo [v]) k = if k = lo then some v else cellGet c k := by
  rw [cellGet_cellPut]
  by_cases h : k = lo
  · subst h; simp
  · have : ¬ (lo ≤ k ∧ k < lo + [v].length) := by simp; omega
    rw [if_neg this, if_neg h]

theorem cellGet_mem {c : Cells α} {k : Nat} {v : α} (h : cellGet c k = some v) : (k, v) ∈ c := by
  induction c with
  | nil => simp at h
  | cons e c ih =>
    obtain ⟨j, w⟩ := e
    by_cases hj : j = k
    · subst hj; simp [cellGet] at h; simp [h]
    · simp [cellGet, hj] at h; exact List.mem_cons_of_mem _ (ih h)

/-! ### The canonical form -/

theorem mem_numbered {vs : List α} {lo : Nat} {e : Nat × α} (h : e ∈ numbered lo vs) :
    lo ≤ e.1 ∧ e.1 < lo + vs.length ∧ e.2 ∈ vs := by
  induction vs generalizing lo with
  | nil => simp [numbered] at h
  | cons v vs ih =>
    rcases List.mem_cons.1 h with rfl | h
    · simp
    · obtain ⟨h1, h2, h3⟩ := ih h
      exact ⟨by omega, by simp; omega, List.mem_cons_of_mem _ h3⟩

theorem sortedKeys_numbered (vs : List α) (lo : Nat) : sortedKeys (numbered lo vs) := by
  induction vs generalizing lo with
  | nil => simp [numbered, sortedKeys]
  | cons v vs ih =>
    simp only [numbered, sortedKeys, List.map_cons, List.pairwise_cons]
    refine ⟨?_, ih (lo + 1)⟩
    intro j hj
    obtain ⟨e, he, rfl⟩ := List.mem_map.1 hj
    have := (mem_numbered he).1
    omega

theorem sortedKeys_filter {c : Cells α} (h : sortedKeys c) (f : Nat × α → Bool) :
    sortedKeys (c.filter f) :=
  List.Pairwise.sublist (List.Sublist.map _ List.filter_sublist) h

/-- Every entry after a write is an entry from before it or a written one. -/
theorem mem_cellPut {c : Cells α} {lo : Nat} {vs : List α} {e : Nat × α} (h : e ∈ cellPut c lo vs) :
    e ∈ c ∨ (lo ≤ e.1 ∧ e.1 < lo + vs.length ∧ e.2 ∈ vs) := by
  simp only [cellPut, List.mem_append] at h
  rcases h with (h | h) | h
  · exact .inl (List.mem_filter.1 h).1
  · exact .inr (mem_numbered h)
  · exact .inl (List.mem_filter.1 h).1

/-- A write keeps the canonical form. -/
theorem sortedKeys_cellPut {c : Cells α} (h : sortedKeys c) (lo : Nat) (vs : List α) :
    sortedKeys (cellPut c lo vs) := by
  simp only [sortedKeys, cellPut, List.map_append]
  rw [List.pairwise_append, List.pairwise_append]
  refine ⟨⟨sortedKeys_filter h _, sortedKeys_numbered vs lo, ?_⟩, sortedKeys_filter h _, ?_⟩
  · intro i hi j hj
    obtain ⟨e, he, rfl⟩ := List.mem_map.1 hi
    obtain ⟨f, hf, rfl⟩ := List.mem_map.1 hj
    have h1 := (List.mem_filter.1 he).2
    have h2 := (mem_numbered hf).1
    simp at h1; omega
  · intro i hi j hj
    obtain ⟨f, hf, rfl⟩ := List.mem_map.1 hj
    have h2 := (List.mem_filter.1 hf).2
    simp at h2
    rcases List.mem_append.1 hi with hi | hi
    · obtain ⟨e, he, rfl⟩ := List.mem_map.1 hi
      have h1 := (List.mem_filter.1 he).2
      simp at h1; omega
    · obtain ⟨e, he, rfl⟩ := List.mem_map.1 hi
      have h1 := (mem_numbered he).2.1
      omega

theorem cellGet_eq_none_of_lt {c : Cells α} {k : Nat} (h : ∀ e ∈ c, k < e.1) : cellGet c k = none := by
  induction c with
  | nil => rfl
  | cons e c ih =>
    obtain ⟨j, v⟩ := e
    have hj : j ≠ k := by have := h (j, v) (by simp); simp at this; omega
    simp [cellGet, hj, ih fun e he => h e (List.mem_cons_of_mem _ he)]

/-- Equal contents are equal data: two canonical spaces that read the same everywhere are the same
list. -/
theorem cells_ext {c d : Cells α} (hc : sortedKeys c) (hd : sortedKeys d)
    (h : ∀ k, cellGet c k = cellGet d k) : c = d := by
  induction c generalizing d with
  | nil =>
    cases d with
    | nil => rfl
    | cons e d => have := h e.1; simp [cellGet] at this
  | cons e c ih =>
    obtain ⟨j, v⟩ := e
    cases d with
    | nil => have := h j; simp [cellGet] at this
    | cons f d =>
      obtain ⟨k, w⟩ := f
      simp only [sortedKeys, List.map_cons, List.pairwise_cons] at hc hd
      have hcl : ∀ e ∈ c, j < e.1 := fun e he => hc.1 _ (List.mem_map_of_mem he)
      have hdl : ∀ e ∈ d, k < e.1 := fun e he => hd.1 _ (List.mem_map_of_mem he)
      have hjk : j = k := by
        by_contra hne
        rcases Nat.lt_or_gt_of_ne hne with hlt | hlt
        · have := h j
          rw [show cellGet ((k, w) :: d) j = none from cellGet_eq_none_of_lt (by
            intro e he; rcases List.mem_cons.1 he with rfl | he
            · exact hlt
            · have := hdl e he; omega)] at this
          simp [cellGet] at this
        · have := h k
          rw [show cellGet ((j, v) :: c) k = none from cellGet_eq_none_of_lt (by
            intro e he; rcases List.mem_cons.1 he with rfl | he
            · exact hlt
            · have := hcl e he; omega)] at this
          simp [cellGet] at this
      subst hjk
      have hv := h j
      simp [cellGet] at hv
      subst hv
      congr 1
      refine ih hc.2 hd.2 fun k => ?_
      by_cases hk : j = k
      · subst hk
        rw [cellGet_eq_none_of_lt hcl, cellGet_eq_none_of_lt hdl]
      · have := h k; simpa [cellGet, hk] using this

end Sys2Proof.Machine
end

