-- ==== Sys2Proof/Laws/State.lean ====
section
/-! SUPPORT. One lemma per field per update of State, true by rfl, so that no proof unfolds a record
update. -/

namespace Sys2Proof.Machine

variable (s : State)

/-! ### putBlocks -/

@[simp] theorem State.putBlocks_params (a : Nat) (vs : List Block) : (s.putBlocks a vs).params = s.params := rfl
@[simp] theorem State.putBlocks_ctrlEn (a : Nat) (vs : List Block) : (s.putBlocks a vs).ctrlEn = s.ctrlEn := rfl
@[simp] theorem State.putBlocks_status (a : Nat) (vs : List Block) : (s.putBlocks a vs).status = s.status := rfl
@[simp] theorem State.putBlocks_ie (a : Nat) (vs : List Block) : (s.putBlocks a vs).ie = s.ie := rfl
@[simp] theorem State.putBlocks_cmdLo (a : Nat) (vs : List Block) : (s.putBlocks a vs).cmdLo = s.cmdLo := rfl
@[simp] theorem State.putBlocks_cmdCount (a : Nat) (vs : List Block) : (s.putBlocks a vs).cmdCount = s.cmdCount := rfl
@[simp] theorem State.putBlocks_errRec (a : Nat) (vs : List Block) : (s.putBlocks a vs).errRec = s.errRec := rfl
@[simp] theorem State.putBlocks_cfg (a : Nat) (vs : List Block) : (s.putBlocks a vs).cfg = s.cfg := rfl
@[simp] theorem State.putBlocks_flags (a : Nat) (vs : List Block) : (s.putBlocks a vs).flags = s.flags := rfl
@[simp] theorem State.putBlocks_fifo (a : Nat) (vs : List Block) : (s.putBlocks a vs).fifo = s.fifo := rfl
@[simp] theorem State.putBlocks_p (a : Nat) (vs : List Block) : (s.putBlocks a vs).p = s.p := rfl
@[simp] theorem State.putBlocks_g (a : Nat) (vs : List Block) : (s.putBlocks a vs).g = s.g := rfl
@[simp] theorem State.putBlocks_sq (a : Nat) (vs : List Block) : (s.putBlocks a vs).sq = s.sq := rfl
@[simp] theorem State.putBlocks_pos (a : Nat) (vs : List Block) : (s.putBlocks a vs).pos = s.pos := rfl
@[simp] theorem State.putBlocks_bmem (a : Nat) (vs : List Block) : (s.putBlocks a vs).bmem = cellPut s.bmem a (vs.map fun v => ⟨lowBits s.t v, allLanes s.params⟩) := rfl
@[simp] theorem State.putBlocks_agenda (a : Nat) (vs : List Block) : (s.putBlocks a vs).agenda = s.agenda := rfl
@[simp] theorem State.putBlocks_rdata (a : Nat) (vs : List Block) : (s.putBlocks a vs).rdata = s.rdata := rfl
@[simp] theorem State.putBlocks_draws (a : Nat) (vs : List Block) : (s.putBlocks a vs).draws = s.draws := rfl
@[simp] theorem State.putBlocks_get_m (a : Nat) (vs : List Block) : (s.putBlocks a vs).m = s.m := rfl
@[simp] theorem State.putBlocks_get_logT (a : Nat) (vs : List Block) : (s.putBlocks a vs).logT = s.logT := rfl
@[simp] theorem State.putBlocks_get_t (a : Nat) (vs : List Block) : (s.putBlocks a vs).t = s.t := rfl
@[simp] theorem State.putBlocks_get_n (a : Nat) (vs : List Block) : (s.putBlocks a vs).n = s.n := rfl
@[simp] theorem State.putBlocks_get_nb (a : Nat) (vs : List Block) : (s.putBlocks a vs).nb = s.nb := rfl
@[simp] theorem State.putBlocks_get_gf (a : Nat) (vs : List Block) : (s.putBlocks a vs).gf = s.gf := rfl

/-! ### putBlock -/

@[simp] theorem State.putBlock_params (a : Nat) (v : Block) : (s.putBlock a v).params = s.params := rfl
@[simp] theorem State.putBlock_ctrlEn (a : Nat) (v : Block) : (s.putBlock a v).ctrlEn = s.ctrlEn := rfl
@[simp] theorem State.putBlock_status (a : Nat) (v : Block) : (s.putBlock a v).status = s.status := rfl
@[simp] theorem State.putBlock_ie (a : Nat) (v : Block) : (s.putBlock a v).ie = s.ie := rfl
@[simp] theorem State.putBlock_cmdLo (a : Nat) (v : Block) : (s.putBlock a v).cmdLo = s.cmdLo := rfl
@[simp] theorem State.putBlock_cmdCount (a : Nat) (v : Block) : (s.putBlock a v).cmdCount = s.cmdCount := rfl
@[simp] theorem State.putBlock_errRec (a : Nat) (v : Block) : (s.putBlock a v).errRec = s.errRec := rfl
@[simp] theorem State.putBlock_cfg (a : Nat) (v : Block) : (s.putBlock a v).cfg = s.cfg := rfl
@[simp] theorem State.putBlock_flags (a : Nat) (v : Block) : (s.putBlock a v).flags = s.flags := rfl
@[simp] theorem State.putBlock_fifo (a : Nat) (v : Block) : (s.putBlock a v).fifo = s.fifo := rfl
@[simp] theorem State.putBlock_p (a : Nat) (v : Block) : (s.putBlock a v).p = s.p := rfl
@[simp] theorem State.putBlock_g (a : Nat) (v : Block) : (s.putBlock a v).g = s.g := rfl
@[simp] theorem State.putBlock_sq (a : Nat) (v : Block) : (s.putBlock a v).sq = s.sq := rfl
@[simp] theorem State.putBlock_pos (a : Nat) (v : Block) : (s.putBlock a v).pos = s.pos := rfl
@[simp] theorem State.putBlock_bmem (a : Nat) (v : Block) : (s.putBlock a v).bmem = cellPut s.bmem a [⟨lowBits s.t v, allLanes s.params⟩] := rfl
@[simp] theorem State.putBlock_agenda (a : Nat) (v : Block) : (s.putBlock a v).agenda = s.agenda := rfl
@[simp] theorem State.putBlock_rdata (a : Nat) (v : Block) : (s.putBlock a v).rdata = s.rdata := rfl
@[simp] theorem State.putBlock_draws (a : Nat) (v : Block) : (s.putBlock a v).draws = s.draws := rfl
@[simp] theorem State.putBlock_get_m (a : Nat) (v : Block) : (s.putBlock a v).m = s.m := rfl
@[simp] theorem State.putBlock_get_logT (a : Nat) (v : Block) : (s.putBlock a v).logT = s.logT := rfl
@[simp] theorem State.putBlock_get_t (a : Nat) (v : Block) : (s.putBlock a v).t = s.t := rfl
@[simp] theorem State.putBlock_get_n (a : Nat) (v : Block) : (s.putBlock a v).n = s.n := rfl
@[simp] theorem State.putBlock_get_nb (a : Nat) (v : Block) : (s.putBlock a v).nb = s.nb := rfl
@[simp] theorem State.putBlock_get_gf (a : Nat) (v : Block) : (s.putBlock a v).gf = s.gf := rfl

/-! ### putWords -/

@[simp] theorem State.putWords_params (a : Nat) (vs : List Block) : (s.putWords a vs).params = s.params := rfl
@[simp] theorem State.putWords_ctrlEn (a : Nat) (vs : List Block) : (s.putWords a vs).ctrlEn = s.ctrlEn := rfl
@[simp] theorem State.putWords_status (a : Nat) (vs : List Block) : (s.putWords a vs).status = s.status := rfl
@[simp] theorem State.putWords_ie (a : Nat) (vs : List Block) : (s.putWords a vs).ie = s.ie := rfl
@[simp] theorem State.putWords_cmdLo (a : Nat) (vs : List Block) : (s.putWords a vs).cmdLo = s.cmdLo := rfl
@[simp] theorem State.putWords_cmdCount (a : Nat) (vs : List Block) : (s.putWords a vs).cmdCount = s.cmdCount := rfl
@[simp] theorem State.putWords_errRec (a : Nat) (vs : List Block) : (s.putWords a vs).errRec = s.errRec := rfl
@[simp] theorem State.putWords_cfg (a : Nat) (vs : List Block) : (s.putWords a vs).cfg = s.cfg := rfl
@[simp] theorem State.putWords_flags (a : Nat) (vs : List Block) : (s.putWords a vs).flags = s.flags := rfl
@[simp] theorem State.putWords_fifo (a : Nat) (vs : List Block) : (s.putWords a vs).fifo = s.fifo := rfl
@[simp] theorem State.putWords_p (a : Nat) (vs : List Block) : (s.putWords a vs).p = s.p := rfl
@[simp] theorem State.putWords_g (a : Nat) (vs : List Block) : (s.putWords a vs).g = s.g := rfl
@[simp] theorem State.putWords_sq (a : Nat) (vs : List Block) : (s.putWords a vs).sq = s.sq := rfl
@[simp] theorem State.putWords_pos (a : Nat) (vs : List Block) : (s.putWords a vs).pos = s.pos := rfl
@[simp] theorem State.putWords_bmem (a : Nat) (vs : List Block) : (s.putWords a vs).bmem = cellPut s.bmem a (vs.map fun v => ⟨v, allLanes s.params⟩) := rfl
@[simp] theorem State.putWords_agenda (a : Nat) (vs : List Block) : (s.putWords a vs).agenda = s.agenda := rfl
@[simp] theorem State.putWords_rdata (a : Nat) (vs : List Block) : (s.putWords a vs).rdata = s.rdata := rfl
@[simp] theorem State.putWords_draws (a : Nat) (vs : List Block) : (s.putWords a vs).draws = s.draws := rfl
@[simp] theorem State.putWords_get_m (a : Nat) (vs : List Block) : (s.putWords a vs).m = s.m := rfl
@[simp] theorem State.putWords_get_logT (a : Nat) (vs : List Block) : (s.putWords a vs).logT = s.logT := rfl
@[simp] theorem State.putWords_get_t (a : Nat) (vs : List Block) : (s.putWords a vs).t = s.t := rfl
@[simp] theorem State.putWords_get_n (a : Nat) (vs : List Block) : (s.putWords a vs).n = s.n := rfl
@[simp] theorem State.putWords_get_nb (a : Nat) (vs : List Block) : (s.putWords a vs).nb = s.nb := rfl
@[simp] theorem State.putWords_get_gf (a : Nat) (vs : List Block) : (s.putWords a vs).gf = s.gf := rfl

/-! ### putSlots -/

@[simp] theorem State.putSlots_params (i k : Nat) (vs : List Elem) : (s.putSlots i k vs).params = s.params := rfl
@[simp] theorem State.putSlots_ctrlEn (i k : Nat) (vs : List Elem) : (s.putSlots i k vs).ctrlEn = s.ctrlEn := rfl
@[simp] theorem State.putSlots_status (i k : Nat) (vs : List Elem) : (s.putSlots i k vs).status = s.status := rfl
@[simp] theorem State.putSlots_ie (i k : Nat) (vs : List Elem) : (s.putSlots i k vs).ie = s.ie := rfl
@[simp] theorem State.putSlots_cmdLo (i k : Nat) (vs : List Elem) : (s.putSlots i k vs).cmdLo = s.cmdLo := rfl
@[simp] theorem State.putSlots_cmdCount (i k : Nat) (vs : List Elem) : (s.putSlots i k vs).cmdCount = s.cmdCount := rfl
@[simp] theorem State.putSlots_errRec (i k : Nat) (vs : List Elem) : (s.putSlots i k vs).errRec = s.errRec := rfl
@[simp] theorem State.putSlots_cfg (i k : Nat) (vs : List Elem) : (s.putSlots i k vs).cfg = s.cfg := rfl
@[simp] theorem State.putSlots_flags (i k : Nat) (vs : List Elem) : (s.putSlots i k vs).flags = s.flags := rfl
@[simp] theorem State.putSlots_fifo (i k : Nat) (vs : List Elem) : (s.putSlots i k vs).fifo = s.fifo := rfl
@[simp] theorem State.putSlots_p (i k : Nat) (vs : List Elem) : (s.putSlots i k vs).p = cellPut s.p (pKey i k) vs := rfl
@[simp] theorem State.putSlots_g (i k : Nat) (vs : List Elem) : (s.putSlots i k vs).g = s.g := rfl
@[simp] theorem State.putSlots_sq (i k : Nat) (vs : List Elem) : (s.putSlots i k vs).sq = s.sq := rfl
@[simp] theorem State.putSlots_pos (i k : Nat) (vs : List Elem) : (s.putSlots i k vs).pos = s.pos := rfl
@[simp] theorem State.putSlots_bmem (i k : Nat) (vs : List Elem) : (s.putSlots i k vs).bmem = s.bmem := rfl
@[simp] theorem State.putSlots_agenda (i k : Nat) (vs : List Elem) : (s.putSlots i k vs).agenda = s.agenda := rfl
@[simp] theorem State.putSlots_rdata (i k : Nat) (vs : List Elem) : (s.putSlots i k vs).rdata = s.rdata := rfl
@[simp] theorem State.putSlots_draws (i k : Nat) (vs : List Elem) : (s.putSlots i k vs).draws = s.draws := rfl
@[simp] theorem State.putSlots_get_m (i k : Nat) (vs : List Elem) : (s.putSlots i k vs).m = s.m := rfl
@[simp] theorem State.putSlots_get_logT (i k : Nat) (vs : List Elem) : (s.putSlots i k vs).logT = s.logT := rfl
@[simp] theorem State.putSlots_get_t (i k : Nat) (vs : List Elem) : (s.putSlots i k vs).t = s.t := rfl
@[simp] theorem State.putSlots_get_n (i k : Nat) (vs : List Elem) : (s.putSlots i k vs).n = s.n := rfl
@[simp] theorem State.putSlots_get_nb (i k : Nat) (vs : List Elem) : (s.putSlots i k vs).nb = s.nb := rfl
@[simp] theorem State.putSlots_get_gf (i k : Nat) (vs : List Elem) : (s.putSlots i k vs).gf = s.gf := rfl

/-! ### putPoly -/

@[simp] theorem State.putPoly_params (i : Nat) (q : Poly) : (s.putPoly i q).params = s.params := rfl
@[simp] theorem State.putPoly_ctrlEn (i : Nat) (q : Poly) : (s.putPoly i q).ctrlEn = s.ctrlEn := rfl
@[simp] theorem State.putPoly_status (i : Nat) (q : Poly) : (s.putPoly i q).status = s.status := rfl
@[simp] theorem State.putPoly_ie (i : Nat) (q : Poly) : (s.putPoly i q).ie = s.ie := rfl
@[simp] theorem State.putPoly_cmdLo (i : Nat) (q : Poly) : (s.putPoly i q).cmdLo = s.cmdLo := rfl
@[simp] theorem State.putPoly_cmdCount (i : Nat) (q : Poly) : (s.putPoly i q).cmdCount = s.cmdCount := rfl
@[simp] theorem State.putPoly_errRec (i : Nat) (q : Poly) : (s.putPoly i q).errRec = s.errRec := rfl
@[simp] theorem State.putPoly_cfg (i : Nat) (q : Poly) : (s.putPoly i q).cfg = s.cfg := rfl
@[simp] theorem State.putPoly_flags (i : Nat) (q : Poly) : (s.putPoly i q).flags = s.flags := rfl
@[simp] theorem State.putPoly_fifo (i : Nat) (q : Poly) : (s.putPoly i q).fifo = s.fifo := rfl
@[simp] theorem State.putPoly_p (i : Nat) (q : Poly) : (s.putPoly i q).p = cellPut s.p (pKey i 0) (tabulate s.params.plen fun k => lowBits s.m (pcoeff q k)) := rfl
@[simp] theorem State.putPoly_g (i : Nat) (q : Poly) : (s.putPoly i q).g = s.g := rfl
@[simp] theorem State.putPoly_sq (i : Nat) (q : Poly) : (s.putPoly i q).sq = s.sq := rfl
@[simp] theorem State.putPoly_pos (i : Nat) (q : Poly) : (s.putPoly i q).pos = s.pos := rfl
@[simp] theorem State.putPoly_bmem (i : Nat) (q : Poly) : (s.putPoly i q).bmem = s.bmem := rfl
@[simp] theorem State.putPoly_agenda (i : Nat) (q : Poly) : (s.putPoly i q).agenda = s.agenda := rfl
@[simp] theorem State.putPoly_rdata (i : Nat) (q : Poly) : (s.putPoly i q).rdata = s.rdata := rfl
@[simp] theorem State.putPoly_draws (i : Nat) (q : Poly) : (s.putPoly i q).draws = s.draws := rfl
@[simp] theorem State.putPoly_get_m (i : Nat) (q : Poly) : (s.putPoly i q).m = s.m := rfl
@[simp] theorem State.putPoly_get_logT (i : Nat) (q : Poly) : (s.putPoly i q).logT = s.logT := rfl
@[simp] theorem State.putPoly_get_t (i : Nat) (q : Poly) : (s.putPoly i q).t = s.t := rfl
@[simp] theorem State.putPoly_get_n (i : Nat) (q : Poly) : (s.putPoly i q).n = s.n := rfl
@[simp] theorem State.putPoly_get_nb (i : Nat) (q : Poly) : (s.putPoly i q).nb = s.nb := rfl
@[simp] theorem State.putPoly_get_gf (i : Nat) (q : Poly) : (s.putPoly i q).gf = s.gf := rfl

/-! ### putG -/

@[simp] theorem State.putG_params (vs : List Elem) : (s.putG vs).params = s.params := rfl
@[simp] theorem State.putG_ctrlEn (vs : List Elem) : (s.putG vs).ctrlEn = s.ctrlEn := rfl
@[simp] theorem State.putG_status (vs : List Elem) : (s.putG vs).status = s.status := rfl
@[simp] theorem State.putG_ie (vs : List Elem) : (s.putG vs).ie = s.ie := rfl
@[simp] theorem State.putG_cmdLo (vs : List Elem) : (s.putG vs).cmdLo = s.cmdLo := rfl
@[simp] theorem State.putG_cmdCount (vs : List Elem) : (s.putG vs).cmdCount = s.cmdCount := rfl
@[simp] theorem State.putG_errRec (vs : List Elem) : (s.putG vs).errRec = s.errRec := rfl
@[simp] theorem State.putG_cfg (vs : List Elem) : (s.putG vs).cfg = s.cfg := rfl
@[simp] theorem State.putG_flags (vs : List Elem) : (s.putG vs).flags = s.flags := rfl
@[simp] theorem State.putG_fifo (vs : List Elem) : (s.putG vs).fifo = s.fifo := rfl
@[simp] theorem State.putG_p (vs : List Elem) : (s.putG vs).p = s.p := rfl
@[simp] theorem State.putG_g (vs : List Elem) : (s.putG vs).g = cellPut s.g 0 vs := rfl
@[simp] theorem State.putG_sq (vs : List Elem) : (s.putG vs).sq = s.sq := rfl
@[simp] theorem State.putG_pos (vs : List Elem) : (s.putG vs).pos = s.pos := rfl
@[simp] theorem State.putG_bmem (vs : List Elem) : (s.putG vs).bmem = s.bmem := rfl
@[simp] theorem State.putG_agenda (vs : List Elem) : (s.putG vs).agenda = s.agenda := rfl
@[simp] theorem State.putG_rdata (vs : List Elem) : (s.putG vs).rdata = s.rdata := rfl
@[simp] theorem State.putG_draws (vs : List Elem) : (s.putG vs).draws = s.draws := rfl
@[simp] theorem State.putG_get_m (vs : List Elem) : (s.putG vs).m = s.m := rfl
@[simp] theorem State.putG_get_logT (vs : List Elem) : (s.putG vs).logT = s.logT := rfl
@[simp] theorem State.putG_get_t (vs : List Elem) : (s.putG vs).t = s.t := rfl
@[simp] theorem State.putG_get_n (vs : List Elem) : (s.putG vs).n = s.n := rfl
@[simp] theorem State.putG_get_nb (vs : List Elem) : (s.putG vs).nb = s.nb := rfl
@[simp] theorem State.putG_get_gf (vs : List Elem) : (s.putG vs).gf = s.gf := rfl

/-! ### putSqRow -/

@[simp] theorem State.putSqRow_params (i : Nat) (vs : List Elem) : (s.putSqRow i vs).params = s.params := rfl
@[simp] theorem State.putSqRow_ctrlEn (i : Nat) (vs : List Elem) : (s.putSqRow i vs).ctrlEn = s.ctrlEn := rfl
@[simp] theorem State.putSqRow_status (i : Nat) (vs : List Elem) : (s.putSqRow i vs).status = s.status := rfl
@[simp] theorem State.putSqRow_ie (i : Nat) (vs : List Elem) : (s.putSqRow i vs).ie = s.ie := rfl
@[simp] theorem State.putSqRow_cmdLo (i : Nat) (vs : List Elem) : (s.putSqRow i vs).cmdLo = s.cmdLo := rfl
@[simp] theorem State.putSqRow_cmdCount (i : Nat) (vs : List Elem) : (s.putSqRow i vs).cmdCount = s.cmdCount := rfl
@[simp] theorem State.putSqRow_errRec (i : Nat) (vs : List Elem) : (s.putSqRow i vs).errRec = s.errRec := rfl
@[simp] theorem State.putSqRow_cfg (i : Nat) (vs : List Elem) : (s.putSqRow i vs).cfg = s.cfg := rfl
@[simp] theorem State.putSqRow_flags (i : Nat) (vs : List Elem) : (s.putSqRow i vs).flags = s.flags := rfl
@[simp] theorem State.putSqRow_fifo (i : Nat) (vs : List Elem) : (s.putSqRow i vs).fifo = s.fifo := rfl
@[simp] theorem State.putSqRow_p (i : Nat) (vs : List Elem) : (s.putSqRow i vs).p = s.p := rfl
@[simp] theorem State.putSqRow_g (i : Nat) (vs : List Elem) : (s.putSqRow i vs).g = s.g := rfl
@[simp] theorem State.putSqRow_sq (i : Nat) (vs : List Elem) : (s.putSqRow i vs).sq = cellPut s.sq (sqKey i 0) vs := rfl
@[simp] theorem State.putSqRow_pos (i : Nat) (vs : List Elem) : (s.putSqRow i vs).pos = s.pos := rfl
@[simp] theorem State.putSqRow_bmem (i : Nat) (vs : List Elem) : (s.putSqRow i vs).bmem = s.bmem := rfl
@[simp] theorem State.putSqRow_agenda (i : Nat) (vs : List Elem) : (s.putSqRow i vs).agenda = s.agenda := rfl
@[simp] theorem State.putSqRow_rdata (i : Nat) (vs : List Elem) : (s.putSqRow i vs).rdata = s.rdata := rfl
@[simp] theorem State.putSqRow_draws (i : Nat) (vs : List Elem) : (s.putSqRow i vs).draws = s.draws := rfl
@[simp] theorem State.putSqRow_get_m (i : Nat) (vs : List Elem) : (s.putSqRow i vs).m = s.m := rfl
@[simp] theorem State.putSqRow_get_logT (i : Nat) (vs : List Elem) : (s.putSqRow i vs).logT = s.logT := rfl
@[simp] theorem State.putSqRow_get_t (i : Nat) (vs : List Elem) : (s.putSqRow i vs).t = s.t := rfl
@[simp] theorem State.putSqRow_get_n (i : Nat) (vs : List Elem) : (s.putSqRow i vs).n = s.n := rfl
@[simp] theorem State.putSqRow_get_nb (i : Nat) (vs : List Elem) : (s.putSqRow i vs).nb = s.nb := rfl
@[simp] theorem State.putSqRow_get_gf (i : Nat) (vs : List Elem) : (s.putSqRow i vs).gf = s.gf := rfl

/-! ### putPos -/

@[simp] theorem State.putPos_params (x : Nat) (v : PosEntry) : (s.putPos x v).params = s.params := rfl
@[simp] theorem State.putPos_ctrlEn (x : Nat) (v : PosEntry) : (s.putPos x v).ctrlEn = s.ctrlEn := rfl
@[simp] theorem State.putPos_status (x : Nat) (v : PosEntry) : (s.putPos x v).status = s.status := rfl
@[simp] theorem State.putPos_ie (x : Nat) (v : PosEntry) : (s.putPos x v).ie = s.ie := rfl
@[simp] theorem State.putPos_cmdLo (x : Nat) (v : PosEntry) : (s.putPos x v).cmdLo = s.cmdLo := rfl
@[simp] theorem State.putPos_cmdCount (x : Nat) (v : PosEntry) : (s.putPos x v).cmdCount = s.cmdCount := rfl
@[simp] theorem State.putPos_errRec (x : Nat) (v : PosEntry) : (s.putPos x v).errRec = s.errRec := rfl
@[simp] theorem State.putPos_cfg (x : Nat) (v : PosEntry) : (s.putPos x v).cfg = s.cfg := rfl
@[simp] theorem State.putPos_flags (x : Nat) (v : PosEntry) : (s.putPos x v).flags = s.flags := rfl
@[simp] theorem State.putPos_fifo (x : Nat) (v : PosEntry) : (s.putPos x v).fifo = s.fifo := rfl
@[simp] theorem State.putPos_p (x : Nat) (v : PosEntry) : (s.putPos x v).p = s.p := rfl
@[simp] theorem State.putPos_g (x : Nat) (v : PosEntry) : (s.putPos x v).g = s.g := rfl
@[simp] theorem State.putPos_sq (x : Nat) (v : PosEntry) : (s.putPos x v).sq = s.sq := rfl
@[simp] theorem State.putPos_pos (x : Nat) (v : PosEntry) : (s.putPos x v).pos = cellPut s.pos x [v] := rfl
@[simp] theorem State.putPos_bmem (x : Nat) (v : PosEntry) : (s.putPos x v).bmem = s.bmem := rfl
@[simp] theorem State.putPos_agenda (x : Nat) (v : PosEntry) : (s.putPos x v).agenda = s.agenda := rfl
@[simp] theorem State.putPos_rdata (x : Nat) (v : PosEntry) : (s.putPos x v).rdata = s.rdata := rfl
@[simp] theorem State.putPos_draws (x : Nat) (v : PosEntry) : (s.putPos x v).draws = s.draws := rfl
@[simp] theorem State.putPos_get_m (x : Nat) (v : PosEntry) : (s.putPos x v).m = s.m := rfl
@[simp] theorem State.putPos_get_logT (x : Nat) (v : PosEntry) : (s.putPos x v).logT = s.logT := rfl
@[simp] theorem State.putPos_get_t (x : Nat) (v : PosEntry) : (s.putPos x v).t = s.t := rfl
@[simp] theorem State.putPos_get_n (x : Nat) (v : PosEntry) : (s.putPos x v).n = s.n := rfl
@[simp] theorem State.putPos_get_nb (x : Nat) (v : PosEntry) : (s.putPos x v).nb = s.nb := rfl
@[simp] theorem State.putPos_get_gf (x : Nat) (v : PosEntry) : (s.putPos x v).gf = s.gf := rfl

/-! ### setOutcome -/

@[simp] theorem State.setOutcome_params (r : Bool) : (s.setOutcome r).params = s.params := rfl
@[simp] theorem State.setOutcome_ctrlEn (r : Bool) : (s.setOutcome r).ctrlEn = s.ctrlEn := rfl
@[simp] theorem State.setOutcome_status (r : Bool) : (s.setOutcome r).status = s.status := rfl
@[simp] theorem State.setOutcome_ie (r : Bool) : (s.setOutcome r).ie = s.ie := rfl
@[simp] theorem State.setOutcome_cmdLo (r : Bool) : (s.setOutcome r).cmdLo = s.cmdLo := rfl
@[simp] theorem State.setOutcome_cmdCount (r : Bool) : (s.setOutcome r).cmdCount = s.cmdCount := rfl
@[simp] theorem State.setOutcome_errRec (r : Bool) : (s.setOutcome r).errRec = s.errRec := rfl
@[simp] theorem State.setOutcome_cfg (r : Bool) : (s.setOutcome r).cfg = s.cfg := rfl
@[simp] theorem State.setOutcome_flags (r : Bool) : (s.setOutcome r).flags = ⟨r, !r⟩ := rfl
@[simp] theorem State.setOutcome_fifo (r : Bool) : (s.setOutcome r).fifo = s.fifo := rfl
@[simp] theorem State.setOutcome_p (r : Bool) : (s.setOutcome r).p = s.p := rfl
@[simp] theorem State.setOutcome_g (r : Bool) : (s.setOutcome r).g = s.g := rfl
@[simp] theorem State.setOutcome_sq (r : Bool) : (s.setOutcome r).sq = s.sq := rfl
@[simp] theorem State.setOutcome_pos (r : Bool) : (s.setOutcome r).pos = s.pos := rfl
@[simp] theorem State.setOutcome_bmem (r : Bool) : (s.setOutcome r).bmem = s.bmem := rfl
@[simp] theorem State.setOutcome_agenda (r : Bool) : (s.setOutcome r).agenda = s.agenda := rfl
@[simp] theorem State.setOutcome_rdata (r : Bool) : (s.setOutcome r).rdata = s.rdata := rfl
@[simp] theorem State.setOutcome_draws (r : Bool) : (s.setOutcome r).draws = s.draws := rfl
@[simp] theorem State.setOutcome_get_m (r : Bool) : (s.setOutcome r).m = s.m := rfl
@[simp] theorem State.setOutcome_get_logT (r : Bool) : (s.setOutcome r).logT = s.logT := rfl
@[simp] theorem State.setOutcome_get_t (r : Bool) : (s.setOutcome r).t = s.t := rfl
@[simp] theorem State.setOutcome_get_n (r : Bool) : (s.setOutcome r).n = s.n := rfl
@[simp] theorem State.setOutcome_get_nb (r : Bool) : (s.setOutcome r).nb = s.nb := rfl
@[simp] theorem State.setOutcome_get_gf (r : Bool) : (s.setOutcome r).gf = s.gf := rfl

/-! ### takeFault -/

@[simp] theorem State.takeFault_params (c : Cause) (info : Word32) (w : Command) : (s.takeFault c info w).params = s.params := rfl
@[simp] theorem State.takeFault_ctrlEn (c : Cause) (info : Word32) (w : Command) : (s.takeFault c info w).ctrlEn = s.ctrlEn := rfl
@[simp] theorem State.takeFault_status (c : Cause) (info : Word32) (w : Command) : (s.takeFault c info w).status = { s.status with err := true } := rfl
@[simp] theorem State.takeFault_ie (c : Cause) (info : Word32) (w : Command) : (s.takeFault c info w).ie = s.ie := rfl
@[simp] theorem State.takeFault_cmdLo (c : Cause) (info : Word32) (w : Command) : (s.takeFault c info w).cmdLo = s.cmdLo := rfl
@[simp] theorem State.takeFault_cmdCount (c : Cause) (info : Word32) (w : Command) : (s.takeFault c info w).cmdCount = s.cmdCount := rfl
@[simp] theorem State.takeFault_errRec (c : Cause) (info : Word32) (w : Command) : (s.takeFault c info w).errRec = ⟨c.code, info, w.setWidth 32, (w >>> 32).setWidth 32, s.cmdCount⟩ := rfl
@[simp] theorem State.takeFault_cfg (c : Cause) (info : Word32) (w : Command) : (s.takeFault c info w).cfg = s.cfg := rfl
@[simp] theorem State.takeFault_flags (c : Cause) (info : Word32) (w : Command) : (s.takeFault c info w).flags = s.flags := rfl
@[simp] theorem State.takeFault_fifo (c : Cause) (info : Word32) (w : Command) : (s.takeFault c info w).fifo = s.fifo := rfl
@[simp] theorem State.takeFault_p (c : Cause) (info : Word32) (w : Command) : (s.takeFault c info w).p = s.p := rfl
@[simp] theorem State.takeFault_g (c : Cause) (info : Word32) (w : Command) : (s.takeFault c info w).g = s.g := rfl
@[simp] theorem State.takeFault_sq (c : Cause) (info : Word32) (w : Command) : (s.takeFault c info w).sq = s.sq := rfl
@[simp] theorem State.takeFault_pos (c : Cause) (info : Word32) (w : Command) : (s.takeFault c info w).pos = s.pos := rfl
@[simp] theorem State.takeFault_bmem (c : Cause) (info : Word32) (w : Command) : (s.takeFault c info w).bmem = s.bmem := rfl
@[simp] theorem State.takeFault_agenda (c : Cause) (info : Word32) (w : Command) : (s.takeFault c info w).agenda = s.agenda := rfl
@[simp] theorem State.takeFault_rdata (c : Cause) (info : Word32) (w : Command) : (s.takeFault c info w).rdata = s.rdata := rfl
@[simp] theorem State.takeFault_draws (c : Cause) (info : Word32) (w : Command) : (s.takeFault c info w).draws = s.draws := rfl
@[simp] theorem State.takeFault_get_m (c : Cause) (info : Word32) (w : Command) : (s.takeFault c info w).m = s.m := rfl
@[simp] theorem State.takeFault_get_logT (c : Cause) (info : Word32) (w : Command) : (s.takeFault c info w).logT = s.logT := rfl
@[simp] theorem State.takeFault_get_t (c : Cause) (info : Word32) (w : Command) : (s.takeFault c info w).t = s.t := rfl
@[simp] theorem State.takeFault_get_n (c : Cause) (info : Word32) (w : Command) : (s.takeFault c info w).n = s.n := rfl
@[simp] theorem State.takeFault_get_nb (c : Cause) (info : Word32) (w : Command) : (s.takeFault c info w).nb = s.nb := rfl
@[simp] theorem State.takeFault_get_gf (c : Cause) (info : Word32) (w : Command) : (s.takeFault c info w).gf = s.gf := rfl

/-! ### clearStatus -/

@[simp] theorem State.clearStatus_params (v : Word32) : (s.clearStatus v).params = s.params := rfl
@[simp] theorem State.clearStatus_ctrlEn (v : Word32) : (s.clearStatus v).ctrlEn = s.ctrlEn := rfl
@[simp] theorem State.clearStatus_status (v : Word32) : (s.clearStatus v).status = ⟨s.status.err && !v.getLsbD 1, s.status.finished && !v.getLsbD 2, s.status.mark && !v.getLsbD 3,
      s.status.ovf && !v.getLsbD 4, s.status.hostErr && !v.getLsbD 5⟩ := rfl
@[simp] theorem State.clearStatus_ie (v : Word32) : (s.clearStatus v).ie = s.ie := rfl
@[simp] theorem State.clearStatus_cmdLo (v : Word32) : (s.clearStatus v).cmdLo = s.cmdLo := rfl
@[simp] theorem State.clearStatus_cmdCount (v : Word32) : (s.clearStatus v).cmdCount = s.cmdCount := rfl
@[simp] theorem State.clearStatus_errRec (v : Word32) : (s.clearStatus v).errRec = s.errRec := rfl
@[simp] theorem State.clearStatus_cfg (v : Word32) : (s.clearStatus v).cfg = s.cfg := rfl
@[simp] theorem State.clearStatus_flags (v : Word32) : (s.clearStatus v).flags = s.flags := rfl
@[simp] theorem State.clearStatus_fifo (v : Word32) : (s.clearStatus v).fifo = s.fifo := rfl
@[simp] theorem State.clearStatus_p (v : Word32) : (s.clearStatus v).p = s.p := rfl
@[simp] theorem State.clearStatus_g (v : Word32) : (s.clearStatus v).g = s.g := rfl
@[simp] theorem State.clearStatus_sq (v : Word32) : (s.clearStatus v).sq = s.sq := rfl
@[simp] theorem State.clearStatus_pos (v : Word32) : (s.clearStatus v).pos = s.pos := rfl
@[simp] theorem State.clearStatus_bmem (v : Word32) : (s.clearStatus v).bmem = s.bmem := rfl
@[simp] theorem State.clearStatus_agenda (v : Word32) : (s.clearStatus v).agenda = s.agenda := rfl
@[simp] theorem State.clearStatus_rdata (v : Word32) : (s.clearStatus v).rdata = s.rdata := rfl
@[simp] theorem State.clearStatus_draws (v : Word32) : (s.clearStatus v).draws = s.draws := rfl
@[simp] theorem State.clearStatus_get_m (v : Word32) : (s.clearStatus v).m = s.m := rfl
@[simp] theorem State.clearStatus_get_logT (v : Word32) : (s.clearStatus v).logT = s.logT := rfl
@[simp] theorem State.clearStatus_get_t (v : Word32) : (s.clearStatus v).t = s.t := rfl
@[simp] theorem State.clearStatus_get_n (v : Word32) : (s.clearStatus v).n = s.n := rfl
@[simp] theorem State.clearStatus_get_nb (v : Word32) : (s.clearStatus v).nb = s.nb := rfl
@[simp] theorem State.clearStatus_get_gf (v : Word32) : (s.clearStatus v).gf = s.gf := rfl

/-! ### retire -/

@[simp] theorem State.retire_params : (s.retire).params = s.params := rfl
@[simp] theorem State.retire_ctrlEn : (s.retire).ctrlEn = s.ctrlEn := rfl
@[simp] theorem State.retire_status : (s.retire).status = { s.status with finished := s.status.finished || s.fifo.isEmpty } := rfl
@[simp] theorem State.retire_ie : (s.retire).ie = s.ie := rfl
@[simp] theorem State.retire_cmdLo : (s.retire).cmdLo = s.cmdLo := rfl
@[simp] theorem State.retire_cmdCount : (s.retire).cmdCount = s.cmdCount + 1 := rfl
@[simp] theorem State.retire_errRec : (s.retire).errRec = s.errRec := rfl
@[simp] theorem State.retire_cfg : (s.retire).cfg = s.cfg := rfl
@[simp] theorem State.retire_flags : (s.retire).flags = s.flags := rfl
@[simp] theorem State.retire_fifo : (s.retire).fifo = s.fifo := rfl
@[simp] theorem State.retire_p : (s.retire).p = s.p := rfl
@[simp] theorem State.retire_g : (s.retire).g = s.g := rfl
@[simp] theorem State.retire_sq : (s.retire).sq = s.sq := rfl
@[simp] theorem State.retire_pos : (s.retire).pos = s.pos := rfl
@[simp] theorem State.retire_bmem : (s.retire).bmem = s.bmem := rfl
@[simp] theorem State.retire_agenda : (s.retire).agenda = s.agenda := rfl
@[simp] theorem State.retire_rdata : (s.retire).rdata = s.rdata := rfl
@[simp] theorem State.retire_draws : (s.retire).draws = s.draws := rfl
@[simp] theorem State.retire_get_m : (s.retire).m = s.m := rfl
@[simp] theorem State.retire_get_logT : (s.retire).logT = s.logT := rfl
@[simp] theorem State.retire_get_t : (s.retire).t = s.t := rfl
@[simp] theorem State.retire_get_n : (s.retire).n = s.n := rfl
@[simp] theorem State.retire_get_nb : (s.retire).nb = s.nb := rfl
@[simp] theorem State.retire_get_gf : (s.retire).gf = s.gf := rfl

/-! ### drawn -/

@[simp] theorem State.drawn_params : (s.drawn).params = s.params := rfl
@[simp] theorem State.drawn_ctrlEn : (s.drawn).ctrlEn = s.ctrlEn := rfl
@[simp] theorem State.drawn_status : (s.drawn).status = s.status := rfl
@[simp] theorem State.drawn_ie : (s.drawn).ie = s.ie := rfl
@[simp] theorem State.drawn_cmdLo : (s.drawn).cmdLo = s.cmdLo := rfl
@[simp] theorem State.drawn_cmdCount : (s.drawn).cmdCount = s.cmdCount := rfl
@[simp] theorem State.drawn_errRec : (s.drawn).errRec = s.errRec := rfl
@[simp] theorem State.drawn_cfg : (s.drawn).cfg = s.cfg := rfl
@[simp] theorem State.drawn_flags : (s.drawn).flags = s.flags := rfl
@[simp] theorem State.drawn_fifo : (s.drawn).fifo = s.fifo := rfl
@[simp] theorem State.drawn_p : (s.drawn).p = s.p := rfl
@[simp] theorem State.drawn_g : (s.drawn).g = s.g := rfl
@[simp] theorem State.drawn_sq : (s.drawn).sq = s.sq := rfl
@[simp] theorem State.drawn_pos : (s.drawn).pos = s.pos := rfl
@[simp] theorem State.drawn_bmem : (s.drawn).bmem = s.bmem := rfl
@[simp] theorem State.drawn_agenda : (s.drawn).agenda = s.agenda := rfl
@[simp] theorem State.drawn_rdata : (s.drawn).rdata = s.rdata := rfl
@[simp] theorem State.drawn_draws : (s.drawn).draws = s.draws + 1 := rfl
@[simp] theorem State.drawn_get_m : (s.drawn).m = s.m := rfl
@[simp] theorem State.drawn_get_logT : (s.drawn).logT = s.logT := rfl
@[simp] theorem State.drawn_get_t : (s.drawn).t = s.t := rfl
@[simp] theorem State.drawn_get_n : (s.drawn).n = s.n := rfl
@[simp] theorem State.drawn_get_nb : (s.drawn).nb = s.nb := rfl
@[simp] theorem State.drawn_get_gf : (s.drawn).gf = s.gf := rfl

/-! ### hostError -/

@[simp] theorem State.hostError_params : (s.hostError).params = s.params := rfl
@[simp] theorem State.hostError_ctrlEn : (s.hostError).ctrlEn = s.ctrlEn := rfl
@[simp] theorem State.hostError_status : (s.hostError).status = { s.status with hostErr := true } := rfl
@[simp] theorem State.hostError_ie : (s.hostError).ie = s.ie := rfl
@[simp] theorem State.hostError_cmdLo : (s.hostError).cmdLo = s.cmdLo := rfl
@[simp] theorem State.hostError_cmdCount : (s.hostError).cmdCount = s.cmdCount := rfl
@[simp] theorem State.hostError_errRec : (s.hostError).errRec = s.errRec := rfl
@[simp] theorem State.hostError_cfg : (s.hostError).cfg = s.cfg := rfl
@[simp] theorem State.hostError_flags : (s.hostError).flags = s.flags := rfl
@[simp] theorem State.hostError_fifo : (s.hostError).fifo = s.fifo := rfl
@[simp] theorem State.hostError_p : (s.hostError).p = s.p := rfl
@[simp] theorem State.hostError_g : (s.hostError).g = s.g := rfl
@[simp] theorem State.hostError_sq : (s.hostError).sq = s.sq := rfl
@[simp] theorem State.hostError_pos : (s.hostError).pos = s.pos := rfl
@[simp] theorem State.hostError_bmem : (s.hostError).bmem = s.bmem := rfl
@[simp] theorem State.hostError_agenda : (s.hostError).agenda = s.agenda := rfl
@[simp] theorem State.hostError_rdata : (s.hostError).rdata = s.rdata := rfl
@[simp] theorem State.hostError_draws : (s.hostError).draws = s.draws := rfl
@[simp] theorem State.hostError_get_m : (s.hostError).m = s.m := rfl
@[simp] theorem State.hostError_get_logT : (s.hostError).logT = s.logT := rfl
@[simp] theorem State.hostError_get_t : (s.hostError).t = s.t := rfl
@[simp] theorem State.hostError_get_n : (s.hostError).n = s.n := rfl
@[simp] theorem State.hostError_get_nb : (s.hostError).nb = s.nb := rfl
@[simp] theorem State.hostError_get_gf : (s.hostError).gf = s.gf := rfl

/-! ### answer -/

@[simp] theorem State.answer_params (v : Word32) : (s.answer v).params = s.params := rfl
@[simp] theorem State.answer_ctrlEn (v : Word32) : (s.answer v).ctrlEn = s.ctrlEn := rfl
@[simp] theorem State.answer_status (v : Word32) : (s.answer v).status = s.status := rfl
@[simp] theorem State.answer_ie (v : Word32) : (s.answer v).ie = s.ie := rfl
@[simp] theorem State.answer_cmdLo (v : Word32) : (s.answer v).cmdLo = s.cmdLo := rfl
@[simp] theorem State.answer_cmdCount (v : Word32) : (s.answer v).cmdCount = s.cmdCount := rfl
@[simp] theorem State.answer_errRec (v : Word32) : (s.answer v).errRec = s.errRec := rfl
@[simp] theorem State.answer_cfg (v : Word32) : (s.answer v).cfg = s.cfg := rfl
@[simp] theorem State.answer_flags (v : Word32) : (s.answer v).flags = s.flags := rfl
@[simp] theorem State.answer_fifo (v : Word32) : (s.answer v).fifo = s.fifo := rfl
@[simp] theorem State.answer_p (v : Word32) : (s.answer v).p = s.p := rfl
@[simp] theorem State.answer_g (v : Word32) : (s.answer v).g = s.g := rfl
@[simp] theorem State.answer_sq (v : Word32) : (s.answer v).sq = s.sq := rfl
@[simp] theorem State.answer_pos (v : Word32) : (s.answer v).pos = s.pos := rfl
@[simp] theorem State.answer_bmem (v : Word32) : (s.answer v).bmem = s.bmem := rfl
@[simp] theorem State.answer_agenda (v : Word32) : (s.answer v).agenda = s.agenda := rfl
@[simp] theorem State.answer_rdata (v : Word32) : (s.answer v).rdata = v := rfl
@[simp] theorem State.answer_draws (v : Word32) : (s.answer v).draws = s.draws := rfl
@[simp] theorem State.answer_get_m (v : Word32) : (s.answer v).m = s.m := rfl
@[simp] theorem State.answer_get_logT (v : Word32) : (s.answer v).logT = s.logT := rfl
@[simp] theorem State.answer_get_t (v : Word32) : (s.answer v).t = s.t := rfl
@[simp] theorem State.answer_get_n (v : Word32) : (s.answer v).n = s.n := rfl
@[simp] theorem State.answer_get_nb (v : Word32) : (s.answer v).nb = s.nb := rfl
@[simp] theorem State.answer_get_gf (v : Word32) : (s.answer v).gf = s.gf := rfl

end Sys2Proof.Machine
end

