-- ==== Sys2Proof/Laws/Access.lean ====
section
/-! SUPPORT. A read of each memory after each write of it: the written cells hold the written values, the
others what they held. -/

namespace Sys2Proof.Machine

/-! ### P, G, SQ, POS -/

theorem pSlot_putSlots (s : State) (i : Nat) (vs : List Elem) (k : Nat) (h : k < vs.length) :
    (s.putSlots i 0 vs).pSlot i k = some vs[k] := by
  have e : pKey i k = pKey i 0 + k := by simp [pKey]
  rw [State.pSlot, State.putSlots_p, e, cellGet_cellPut_of_lt _ _ _ _ h]

theorem cellGet_putSlots_of_not (s : State) (i : Nat) (vs : List Elem) (q : Nat)
    (h : ¬ (pKey i 0 ≤ q ∧ q < pKey i 0 + vs.length)) : cellGet (s.putSlots i 0 vs).p q = cellGet s.p q := by
  rw [State.putSlots_p, cellGet_cellPut_of_not _ _ _ _ h]

/-- `P[i] <- p` (10_state.md R45): every slot of the register afterwards. -/
theorem pSlot_putPoly (s : State) (i : Nat) (p : List Elem) (k : Nat) (h : k < s.params.plen) :
    (s.putPoly i p).pSlot i k = some (lowBits s.m (p.getD k 0)) := by
  rw [State.putPoly, pSlot_putSlots _ _ _ _ (by simpa using h), getElem_tabulate]

theorem cellGet_putPoly_of_not (s : State) (i : Nat) (p : List Elem) (q : Nat)
    (h : ¬ (pKey i 0 ≤ q ∧ q < pKey i 0 + s.params.plen)) : cellGet (s.putPoly i p).p q = cellGet s.p q := by
  rw [State.putPoly]
  exact cellGet_putSlots_of_not _ _ _ _ (by simpa using h)

theorem gSlot_putG (s : State) (vs : List Elem) (k : Nat) (h : k < vs.length) :
    (s.putG vs).gSlot k = some vs[k] := by
  have := cellGet_cellPut_of_lt s.g 0 vs k h
  simpa [State.gSlot] using this

theorem sqSlot_putSqRow (s : State) (i : Nat) (vs : List Elem) (k : Nat) (h : k < vs.length) :
    (s.putSqRow i vs).sqSlot i k = some vs[k] := by
  have e : sqKey i k = sqKey i 0 + k := by simp [sqKey]
  rw [State.sqSlot, State.putSqRow_sq, e, cellGet_cellPut_of_lt _ _ _ _ h]

theorem posEntry_putPos (s : State) (x : Nat) (v : PosEntry) (y : Nat) :
    (s.putPos x v).posEntry y = if y = x then some v else s.posEntry y := by
  rw [State.posEntry, State.putPos_pos, cellGet_cellPut_one, State.posEntry]

/-! ### BMEM -/

/-- A word with all its lanes written is readable whole. -/
theorem holds_all (p : Params) (v : Block) : (⟨v, allLanes p⟩ : BWord).holds (allLanes p) = true := by
  simp [BWord.holds]

/-- What a BMEM read of a whole word says of the memory. -/
theorem blockWord_eq_some {s : State} {a : Nat} {v : Block} :
    s.blockWord a = some v ↔ ∃ w, cellGet s.bmem a = some w ∧ w.holds (allLanes s.params) = true ∧ w.bits = v := by
  unfold State.blockWord
  cases cellGet s.bmem a with
  | none => simp
  | some w => by_cases h : w.holds (allLanes s.params) <;> simp [h]

/-- What a block read says of the memory. -/
theorem block_eq_some {s : State} {a : Nat} {v : Block} :
    s.block a = some v ↔
      ∃ w, cellGet s.bmem a = some w ∧ w.holds (lanesUsed s.t) = true ∧ lowBits s.t w.bits = v := by
  unfold State.block
  cases cellGet s.bmem a with
  | none => simp
  | some w => by_cases h : w.holds (lanesUsed s.t) <;> simp [h]

/-- A block read gives a t-bit block (00_scope.md R12). -/
theorem lowBits_of_block {s : State} {a : Nat} {v : Block} (h : s.block a = some v) : lowBits s.t v = v := by
  obtain ⟨w, -, -, rfl⟩ := block_eq_some.1 h
  exact lowBits_idem s.t w.bits

theorem blockWord_putBlocks (s : State) (a : Nat) (vs : List Block) (j : Nat) (h : j < vs.length) :
    (s.putBlocks a vs).blockWord (a + j) = some (lowBits s.t vs[j]) := by
  refine blockWord_eq_some.2 ⟨⟨lowBits s.t vs[j], allLanes s.params⟩, ?_, holds_all _ _, rfl⟩
  rw [State.putBlocks_bmem, cellGet_cellPut_of_lt _ _ _ _ (by simpa using h)]
  simp

theorem cellGet_putBlocks_of_not (s : State) (a : Nat) (vs : List Block) (q : Nat)
    (h : ¬ (a ≤ q ∧ q < a + vs.length)) : cellGet (s.putBlocks a vs).bmem q = cellGet s.bmem q := by
  rw [State.putBlocks_bmem, cellGet_cellPut_of_not _ _ _ _ (by simpa using h)]

theorem blockWord_putBlock (s : State) (a : Nat) (v : Block) :
    (s.putBlock a v).blockWord a = some (lowBits s.t v) :=
  blockWord_putBlocks s a [v] 0 (by simp)

theorem cellGet_putBlock_of_ne (s : State) (a : Nat) (v : Block) (q : Nat) (h : q ≠ a) :
    cellGet (s.putBlock a v).bmem q = cellGet s.bmem q :=
  cellGet_putBlocks_of_not s a [v] q (by simp; omega)

theorem blockWord_putWords (s : State) (a : Nat) (vs : List Block) (j : Nat) (h : j < vs.length) :
    (s.putWords a vs).blockWord (a + j) = some vs[j] := by
  refine blockWord_eq_some.2 ⟨⟨vs[j], allLanes s.params⟩, ?_, holds_all _ _, rfl⟩
  rw [State.putWords_bmem, cellGet_cellPut_of_lt _ _ _ _ (by simpa using h)]
  simp

theorem cellGet_putWords_of_not (s : State) (a : Nat) (vs : List Block) (q : Nat)
    (h : ¬ (a ≤ q ∧ q < a + vs.length)) : cellGet (s.putWords a vs).bmem q = cellGet s.bmem q := by
  rw [State.putWords_bmem, cellGet_cellPut_of_not _ _ _ _ (by simpa using h)]

/-- A block that no strided write reaches keeps what it held. -/
theorem cellGet_putStrided_of_not (s : State) (a stride : Nat) (vs : List Block) (q : Nat)
    (h : ∀ i, i < vs.length → q ≠ a + i * stride) :
    cellGet (s.putStrided a stride vs).bmem q = cellGet s.bmem q := by
  induction vs generalizing s a with
  | nil => rfl
  | cons v vs ih =>
    rw [State.putStrided, ih]
    · exact cellGet_putBlock_of_ne _ _ _ _ (by simpa using h 0 (by simp))
    · intro i hi
      have := h (i + 1) (by simpa using hi)
      rw [Nat.succ_mul] at this
      omega

/-- The words of a strided write (43_poly_transfer.md R301). -/
theorem cellGet_putStrided (s : State) (a stride : Nat) (vs : List Block) (hs : 1 ≤ stride) (i : Nat)
    (h : i < vs.length) :
    cellGet (s.putStrided a stride vs).bmem (a + i * stride) =
      some ⟨lowBits s.t vs[i], allLanes s.params⟩ := by
  induction vs generalizing s a i with
  | nil => simp at h
  | cons v vs ih =>
    rw [State.putStrided]
    cases i with
    | zero =>
      rw [cellGet_putStrided_of_not]
      · have := cellGet_cellPut_of_lt s.bmem a [⟨lowBits s.t v, allLanes s.params⟩] 0 (by simp)
        simpa using this
      · intro j _; omega
    | succ i =>
      have := ih (s.putBlock a v) (a + stride) i (by simpa using h)
      rw [show a + (i + 1) * stride = a + stride + i * stride by rw [Nat.succ_mul]; omega, this]
      simp

theorem putStrided_params (s : State) (a stride : Nat) (vs : List Block) :
    (s.putStrided a stride vs).params = s.params := by
  induction vs generalizing s a with
  | nil => rfl
  | cons v vs ih => rw [State.putStrided, ih]; rfl

/-- A strided write changes BMEM alone. -/
theorem putStrided_eq (s : State) (a stride : Nat) (vs : List Block) :
    s.putStrided a stride vs = { s with bmem := (s.putStrided a stride vs).bmem } := by
  induction vs generalizing s a with
  | nil => rfl
  | cons v vs ih => rw [State.putStrided, ih]; rfl

end Sys2Proof.Machine
end

