-- ==== Sys2Proof/Laws/Encoding.lean ====
section
/-! SUPPORT. The bits and the fields of an encoded word. -/

namespace Sys2Proof

/-- Each bit of a format R word stands in one field (30_encoding.md R152). -/
theorem getLsbD_wordR (opc : BitVec 8) (fa fb fc : Field) (j : Nat) :
    (wordR opc fa fb fc).getLsbD j =
      if j < 8 then false else if j < 24 then fc.getLsbD (j - 8) else if j < 40 then fb.getLsbD (j - 24)
      else if j < 56 then fa.getLsbD (j - 40) else opc.getLsbD (j - 56) := by
  have hz : ∀ {w : Nat} (v : BitVec w) i, w ≤ i → v.getLsbD i = false :=
    fun v i h => BitVec.getLsbD_of_ge v i h
  simp only [wordR, BitVec.getLsbD_or, BitVec.getLsbD_shiftLeft, BitVec.getLsbD_setWidth]
  by_cases h64 : j < 64
  · split_ifs with h1 h2 h3 h4
    · simp [show j < 56 by omega, show j < 40 by omega, show j < 24 by omega, h1]
    · simp [show j < 56 by omega, show j < 40 by omega, show j < 24 by omega, h1, h64,
        show j - 8 < 64 by omega]
    · simp [show j < 56 by omega, show j < 40 by omega, h1, h2, h64, show j - 24 < 64 by omega,
        hz fc (j - 8) (by omega)]
    · simp [show j < 56 by omega, h1, h2, h3, h64, show j - 40 < 64 by omega, hz fc (j - 8) (by omega),
        hz fb (j - 24) (by omega)]
    · simp [h1, h2, h3, h4, h64, show j - 56 < 64 by omega, hz fc (j - 8) (by omega),
        hz fb (j - 24) (by omega), hz fa (j - 40) (by omega)]
  · have : opc.getLsbD (j - 56) = false := hz opc _ (by omega)
    simp [h64, this, show ¬ j < 8 by omega, show ¬ j < 24 by omega, show ¬ j < 40 by omega,
      show ¬ j < 56 by omega]

/-- Each bit of a format I word stands in one field (30_encoding.md R153). -/
theorem getLsbD_wordI (opc : BitVec 8) (fa : Field) (imm : Word32) (j : Nat) :
    (wordI opc fa imm).getLsbD j =
      if j < 32 then imm.getLsbD j else if j < 40 then false
      else if j < 56 then fa.getLsbD (j - 40) else opc.getLsbD (j - 56) := by
  have hz : ∀ {w : Nat} (v : BitVec w) i, w ≤ i → v.getLsbD i = false :=
    fun v i h => BitVec.getLsbD_of_ge v i h
  simp only [wordI, BitVec.getLsbD_or, BitVec.getLsbD_shiftLeft, BitVec.getLsbD_setWidth]
  by_cases h64 : j < 64
  · split_ifs with h1 h2 h3
    · simp [show j < 56 by omega, show j < 40 by omega, h64]
    · simp [show j < 56 by omega, show j < 40 by omega, hz imm j (by omega)]
    · simp [show j < 56 by omega, h2, h64, show j - 40 < 64 by omega, hz imm j (by omega)]
    · simp [h2, h3, h64, show j - 56 < 64 by omega, hz imm j (by omega), hz fa (j - 40) (by omega)]
  · have : opc.getLsbD (j - 56) = false := hz opc _ (by omega)
    simp [h64, this, show ¬ j < 32 by omega, show ¬ j < 40 by omega, show ¬ j < 56 by omega]


theorem opcOf_wordR (opc : BitVec 8) (fa fb fc : Field) : opcOf (wordR opc fa fb fc) = opc := by
  refine BitVec.eq_of_getLsbD_eq fun j hj => ?_
  rw [opcOf, BitVec.getLsbD_extractLsb', getLsbD_wordR]
  simp [hj, show ¬ 56 + j < 8 by omega, show ¬ 56 + j < 24 by omega, show ¬ 56 + j < 40 by omega]

theorem faOf_wordR (opc : BitVec 8) (fa fb fc : Field) : faOf (wordR opc fa fb fc) = fa := by
  refine BitVec.eq_of_getLsbD_eq fun j hj => ?_
  rw [faOf, BitVec.getLsbD_extractLsb', getLsbD_wordR]
  simp [hj, show ¬ 40 + j < 8 by omega, show ¬ 40 + j < 24 by omega, show 40 + j < 56 by omega]

theorem fbOf_wordR (opc : BitVec 8) (fa fb fc : Field) : fbOf (wordR opc fa fb fc) = fb := by
  refine BitVec.eq_of_getLsbD_eq fun j hj => ?_
  rw [fbOf, BitVec.getLsbD_extractLsb', getLsbD_wordR]
  simp [hj, show ¬ 24 + j < 8 by omega, show 24 + j < 40 by omega]

theorem fcOf_wordR (opc : BitVec 8) (fa fb fc : Field) : fcOf (wordR opc fa fb fc) = fc := by
  refine BitVec.eq_of_getLsbD_eq fun j hj => ?_
  rw [fcOf, BitVec.getLsbD_extractLsb', getLsbD_wordR]
  simp [hj, show 8 + j < 24 by omega]

theorem fdOf_wordR (opc : BitVec 8) (fa fb fc : Field) : fdOf (wordR opc fa fb fc) = 0 := by
  refine BitVec.eq_of_getLsbD_eq fun j hj => ?_
  rw [fdOf, BitVec.getLsbD_extractLsb', getLsbD_wordR]
  simp [hj]

theorem opcOf_wordI (opc : BitVec 8) (fa : Field) (imm : Word32) : opcOf (wordI opc fa imm) = opc := by
  refine BitVec.eq_of_getLsbD_eq fun j hj => ?_
  rw [opcOf, BitVec.getLsbD_extractLsb', getLsbD_wordI]
  simp [hj, show ¬ 56 + j < 32 by omega, show ¬ 56 + j < 40 by omega]

theorem faOf_wordI (opc : BitVec 8) (fa : Field) (imm : Word32) : faOf (wordI opc fa imm) = fa := by
  refine BitVec.eq_of_getLsbD_eq fun j hj => ?_
  rw [faOf, BitVec.getLsbD_extractLsb', getLsbD_wordI]
  simp [hj, show ¬ 40 + j < 32 by omega, show 40 + j < 56 by omega]

theorem zOf_wordI (opc : BitVec 8) (fa : Field) (imm : Word32) : zOf (wordI opc fa imm) = 0 := by
  refine BitVec.eq_of_getLsbD_eq fun j hj => ?_
  rw [zOf, BitVec.getLsbD_extractLsb', getLsbD_wordI]
  simp [hj, show 32 + j < 40 by omega]

theorem immOf_wordI (opc : BitVec 8) (fa : Field) (imm : Word32) : immOf (wordI opc fa imm) = imm := by
  refine BitVec.eq_of_getLsbD_eq fun j hj => ?_
  rw [immOf, BitVec.getLsbD_extractLsb', getLsbD_wordI]
  simp [hj]

/-- A word whose bits 7:0 are 0 is its fields put together (30_encoding.md R152). -/
theorem wordR_of_fields {w : Command} (h : fdOf w = 0) : wordR (opcOf w) (faOf w) (fbOf w) (fcOf w) = w := by
  refine BitVec.eq_of_getLsbD_eq fun j hj => ?_
  rw [getLsbD_wordR]
  simp only [opcOf, faOf, fbOf, fcOf, BitVec.getLsbD_extractLsb']
  split_ifs with h1 h2 h3 h4
  · have := congrArg (fun v => BitVec.getLsbD v j) h
    simpa [fdOf, BitVec.getLsbD_extractLsb', h1] using this.symm
  · simp [show j - 8 < 16 by omega, show 8 + (j - 8) = j by omega]
  · simp [show j - 24 < 16 by omega, show 24 + (j - 24) = j by omega]
  · simp [show j - 40 < 16 by omega, show 40 + (j - 40) = j by omega]
  · simp [show j - 56 < 8 by omega, show 56 + (j - 56) = j by omega]

/-- A word whose bits 39:32 are 0 is its fields put together (30_encoding.md R153). -/
theorem wordI_of_fields {w : Command} (h : zOf w = 0) : wordI (opcOf w) (faOf w) (immOf w) = w := by
  refine BitVec.eq_of_getLsbD_eq fun j hj => ?_
  rw [getLsbD_wordI]
  simp only [opcOf, faOf, immOf, BitVec.getLsbD_extractLsb']
  split_ifs with h1 h2 h3
  · simp [h1]
  · have := congrArg (fun v => BitVec.getLsbD v (j - 32)) h
    simpa [zOf, BitVec.getLsbD_extractLsb', show j - 32 < 8 by omega, show 32 + (j - 32) = j by omega]
      using this.symm
  · simp [show j - 40 < 16 by omega, show 40 + (j - 40) = j by omega]
  · simp [show j - 56 < 8 by omega, show 56 + (j - 56) = j by omega]

/-- A mask of whole fields cuts a word field by field. -/
theorem wordR_and (opc mo : BitVec 8) (fa fb fc ma mb mc : Field) :
    wordR opc fa fb fc &&& (wordR mo ma mb mc ||| 0xFF#64) =
      wordR (opc &&& mo) (fa &&& ma) (fb &&& mb) (fc &&& mc) := by
  refine BitVec.eq_of_getLsbD_eq fun j hj => ?_
  rw [BitVec.getLsbD_and, BitVec.getLsbD_or, getLsbD_wordR, getLsbD_wordR, getLsbD_wordR]
  have hf : 8 ≤ j → (0xFF#64).getLsbD j = false := fun h => by
    rw [show (0xFF#64) = BitVec.ofNat 64 (2 ^ 8 - 1) from rfl, BitVec.getLsbD_ofNat,
      Nat.testBit_two_pow_sub_one]
    simp [show ¬ j < 8 by omega]
  split_ifs with h1 h2 h3 h4
  · simp
  all_goals rw [hf (by omega)]; simp

theorem wordI_and (opc mo : BitVec 8) (fa ma : Field) (imm mi : Word32) :
    wordI opc fa imm &&& (wordI mo ma mi ||| 0xFF00000000#64) =
      wordI (opc &&& mo) (fa &&& ma) (imm &&& mi) := by
  refine BitVec.eq_of_getLsbD_eq fun j hj => ?_
  rw [BitVec.getLsbD_and, BitVec.getLsbD_or, getLsbD_wordI, getLsbD_wordI, getLsbD_wordI]
  have hf : ¬ (32 ≤ j ∧ j < 40) → (0xFF00000000#64).getLsbD j = false := fun h => by
    rw [show (0xFF00000000#64) = BitVec.ofNat 64 ((2 ^ 8 - 1) <<< 32) from rfl, BitVec.getLsbD_ofNat,
      Nat.testBit_shiftLeft, Nat.testBit_two_pow_sub_one]
    by_cases h1 : 32 ≤ j <;> simp [h1]
    omega
  split_ifs with h1 h2 h3
  · rw [hf (by omega)]; simp
  · simp
  all_goals rw [hf (by omega)]; simp

end Sys2Proof
end

