-- ==== Sys2Proof/Laws/Run.lean ====
section
/-! SUPPORT. What the checks and the operand reads can answer: one lemma for each, cited instead of
unfolding it. -/

namespace Sys2Proof.Machine

/-! ### The run of a rule -/

@[simp] theorem run_ok_bind {α β : Type} (a : α) (f : α → Run β) : ((.ok a : Run α) >>= f) = f a := rfl

@[simp] theorem run_error_bind {α β : Type} (e : Stop) (f : α → Run β) :
    ((.error e : Run α) >>= f) = .error e := rfl

@[simp] theorem run_pure {α : Type} (a : α) : (pure a : Run α) = .ok a := rfl

/-- A sequence ends well when both its parts do. -/
theorem run_bind_eq_ok {α β : Type} {x : Run α} {f : α → Run β} {b : β} :
    (x >>= f) = .ok b ↔ ∃ a, x = .ok a ∧ f a = .ok b := by
  cases x <;> simp

/-- A sequence stops when its first part stops, or its second does after the first ended well. -/
theorem run_bind_eq_error {α β : Type} {x : Run α} {f : α → Run β} {e : Stop} :
    (x >>= f) = .error e ↔ x = .error e ∨ ∃ a, x = .ok a ∧ f a = .error e := by
  cases x <;> simp

/-! ### Checks -/

@[simp] theorem require_eq_ok {ok : Bool} {c : Cause} {info : Word32} :
    require ok c info = .ok () ↔ ok = true := by
  cases ok <;> simp [require]

theorem require_eq_error {ok : Bool} {c : Cause} {info : Word32} {e : Stop} :
    require ok c info = .error e ↔ ok = false ∧ e = .raise c info := by
  cases ok <;> simp [require, eq_comm]

theorem require_true (c : Cause) (info : Word32) : require true c info = .ok () := rfl

theorem require_false (c : Cause) (info : Word32) : require false c info = .error (.raise c info) := rfl

/-- A list of checks has no failing field when all its checks pass. -/
theorem firstBad_eq_none {l : List (FieldId × Bool)} : firstBad l = none ↔ ∀ c ∈ l, c.2 = true := by
  induction l with
  | nil => simp [firstBad]
  | cons c rest ih => obtain ⟨g, ok⟩ := c; cases ok <;> simp [firstBad, ih]

/-- The first failing field stands after checks that all pass. -/
theorem firstBad_eq_some {l : List (FieldId × Bool)} {f : FieldId} :
    firstBad l = some f ↔
      ∃ before after, l = before ++ (f, false) :: after ∧ ∀ c ∈ before, c.2 = true := by
  constructor
  · induction l with
    | nil => simp [firstBad]
    | cons c rest ih =>
      obtain ⟨g, ok⟩ := c
      cases ok with
      | false => intro h; cases h; exact ⟨[], rest, rfl, by simp⟩
      | true =>
        intro h
        obtain ⟨before, after, rfl, hb⟩ := ih h
        exact ⟨(g, true) :: before, after, rfl, by simpa using hb⟩
  · rintro ⟨before, after, rfl, h⟩
    induction before with
    | nil => rfl
    | cons c rest ih =>
      obtain ⟨g, ok⟩ := c
      obtain rfl : ok = true := h (g, ok) (by simp)
      exact ih fun d hd => h d (by simp [hd])

theorem checkOperands_eq_ok {s : State} {fields : List (FieldId × FieldKind × Field)} :
    checkOperands s fields = .ok () ↔ ∀ e ∈ fields, e.2.1.legal s.params e.2.2 = true := by
  unfold checkOperands
  induction fields with
  | nil => simp [firstBad]
  | cons e rest ih =>
    by_cases h : e.2.1.legal s.params e.2.2 = true
    · simpa [firstBad, h] using ih
    · simp [firstBad, h]

/-- A failing operand check raises BAD_OPERAND. -/
theorem checkOperands_eq_error {s : State} {fields : List (FieldId × FieldKind × Field)} {e : Stop}
    (h : checkOperands s fields = .error e) :
    ∃ f : FieldId, e = .raise .badOperand (BitVec.ofNat 32 f.code) := by
  unfold checkOperands at h
  split at h
  · cases h
  · exact ⟨_, by cases h; rfl⟩

@[simp] theorem checkCfgv_eq_ok {s : State} : checkCfgv s = .ok () ↔ s.Cfgv := by
  rw [checkCfgv, require_eq_ok, decide_eq_true_iff]

theorem checkCfgv_of_not {s : State} (h : ¬ s.Cfgv) : checkCfgv s = .error (.raise .badConfig 1) := by
  rw [checkCfgv, decide_eq_false h]; rfl

@[simp] theorem checkRegion_eq_ok {s : State} {f : FieldId} {last : Nat} :
    checkRegion s f last = .ok () ↔ last < s.params.bmemLen := by
  rw [checkRegion, require_eq_ok, decide_eq_true_iff]

theorem checkRegion_of_not {s : State} {f : FieldId} {last : Nat} (h : ¬ last < s.params.bmemLen) :
    checkRegion s f last = .error (.raise .addrRange (BitVec.ofNat 32 f.code)) := by
  rw [checkRegion, decide_eq_false h]; rfl

/-! ### Reads -/

@[simp] theorem readCell_eq_ok {α : Type} {space : Space} {index : Nat} {v : Option α} {x : α} :
    readCell space index v = .ok x ↔ v = some x := by
  cases v <;> simp [readCell]

/-- A read either gives the cell's value or stops the model. -/
theorem readCell_eq_error {α : Type} {space : Space} {index : Nat} {v : Option α} {e : Stop} :
    readCell space index v = .error e ↔ v = none ∧ e = .stuck (.undefinedRead space index) := by
  cases v <;> simp [readCell, eq_comm]

theorem collectFrom_eq_ok {α : Type} {f : Nat → Run α} {k n : Nat} {vs : List α} :
    collectFrom f k n = .ok vs ↔ vs.length = n ∧ ∀ i (h : i < vs.length), f (k + i) = .ok vs[i] := by
  induction n generalizing k vs with
  | zero =>
    constructor
    · intro h
      have : vs = [] := by simpa [collectFrom, eq_comm] using h
      subst this; simp
    · rintro ⟨h, -⟩
      rw [List.length_eq_zero_iff.1 h]; rfl
  | succ n ih =>
    rw [collectFrom, run_bind_eq_ok]
    constructor
    · rintro ⟨v, hv, h⟩
      obtain ⟨ws, hws, h⟩ := run_bind_eq_ok.1 h
      have : v :: ws = vs := by simpa using h
      subst this
      obtain ⟨hl, hf⟩ := ih.1 hws
      refine ⟨by simp [hl], fun i hi => ?_⟩
      cases i with
      | zero => simpa using hv
      | succ i =>
        have := hf i (by simpa using hi)
        rw [show k + (i + 1) = k + 1 + i by omega]
        simpa using this
    · rintro ⟨hl, hf⟩
      cases vs with
      | nil => simp at hl
      | cons v ws =>
        refine ⟨v, hf 0 (by simp), ?_⟩
        rw [run_bind_eq_ok]
        refine ⟨ws, ih.2 ⟨by simpa using hl, fun i hi => ?_⟩, rfl⟩
        have := hf (i + 1) (by simpa using hi)
        rw [show k + 1 + i = k + (i + 1) by omega]
        simpa using this

/-- What a sequence of reads answers: as many values as asked for, each the read of its index. -/
theorem collect_eq_ok {α : Type} {n : Nat} {f : Nat → Run α} {vs : List α} :
    collect n f = .ok vs ↔ vs.length = n ∧ ∀ i (h : i < vs.length), f i = .ok vs[i] := by
  simpa [collect] using collectFrom_eq_ok (f := f) (k := 0) (n := n) (vs := vs)

/-- Reads that all succeed give the list of what they read. -/
theorem collect_of_ok {α : Type} {n : Nat} {f : Nat → Run α} {g : Nat → α}
    (h : ∀ i, i < n → f i = .ok (g i)) : collect n f = .ok (tabulate n g) :=
  collect_eq_ok.2 ⟨by simp, fun i hi => by simpa using h i (by simpa using hi)⟩

theorem collectFrom_eq_error {α : Type} {f : Nat → Run α} {k n : Nat} {e : Stop}
    (h : collectFrom f k n = .error e) : ∃ i, i < n ∧ f (k + i) = .error e := by
  induction n generalizing k with
  | zero => simp [collectFrom] at h
  | succ n ih =>
    rw [collectFrom, run_bind_eq_error] at h
    rcases h with h | ⟨v, -, h⟩
    · exact ⟨0, by omega, h⟩
    · rw [run_bind_eq_error] at h
      rcases h with h | ⟨ws, -, h⟩
      · obtain ⟨i, hi, he⟩ := ih h
        exact ⟨i + 1, by omega, by rwa [show k + (i + 1) = k + 1 + i by omega]⟩
      · simp at h

/-- A sequence of reads stops only where one of them does. -/
theorem collect_eq_error {α : Type} {n : Nat} {f : Nat → Run α} {e : Stop}
    (h : collect n f = .error e) : ∃ i, i < n ∧ f i = .error e := by
  simpa [collect] using collectFrom_eq_error h

@[simp] theorem readBlock_eq_ok {s : State} {a : Nat} {x : Block} :
    readBlock s a = .ok x ↔ s.block a = some x := readCell_eq_ok

theorem readBlock_eq_error {s : State} {a : Nat} {e : Stop} :
    readBlock s a = .error e ↔ s.block a = none ∧ e = .stuck (.undefinedRead .bmem a) := readCell_eq_error

/-- `MemRead` of blocks that are all readable. -/
theorem readBlocks_of_some {s : State} {a n : Nat} {g : Nat → Block}
    (h : ∀ i, i < n → s.block (a + i) = some (g i)) : readBlocks s a n = .ok (tabulate n g) :=
  collect_of_ok fun i hi => readBlock_eq_ok.2 (h i hi)

theorem readSlots_of_some {s : State} {i n : Nat} {g : Nat → Elem}
    (h : ∀ k, k < n → s.pSlot i k = some (g k)) : readSlots s i n = .ok (tabulate n g) :=
  collect_of_ok fun k hk => readCell_eq_ok.2 (h k hk)

theorem map_tabulate {α β : Type} (n : Nat) (g : Nat → α) (f : α → β) :
    (tabulate n g).map f = tabulate n fun i => f (g i) := by
  simp [tabulate, Function.comp_def]

theorem readPolyTo_of_some {s : State} {i n : Nat} {g : Nat → Elem}
    (h : ∀ k, k < n → s.pSlot i k = some (g k)) :
    readPolyTo s i n = .ok (tabulate n fun k => lowBits s.m (g k)) := by
  simp [readPolyTo, readSlots_of_some h, map_tabulate]

theorem readG_of_some {s : State} {g : Nat → Elem} (h : ∀ k, k ≤ s.t → s.gSlot k = some (g k)) :
    readG s = .ok (tabulate (s.t + 1) fun k => lowBits s.m (g k)) := by
  have : collect (s.t + 1) (fun k => readCell .g k (s.gSlot k)) = .ok (tabulate (s.t + 1) g) :=
    collect_of_ok fun k hk => readCell_eq_ok.2 (h k (by omega))
  simp [readG, this, map_tabulate]

theorem readSqRow_of_some {s : State} {i : Nat} {g : Nat → Elem}
    (h : ∀ k, k < s.t → s.sqSlot i k = some (g k)) :
    readSqRow s i = .ok (tabulate s.t fun k => lowBits s.m (g k)) := by
  have : collect s.t (fun k => readCell .sq (sqKey i k) (s.sqSlot i k)) = .ok (tabulate s.t g) :=
    collect_of_ok fun k hk => readCell_eq_ok.2 (h k hk)
  simp [readSqRow, this, map_tabulate]

theorem readSq_of_some {s : State} {g : Nat → Nat → Elem}
    (h : ∀ i k, i < s.t → k < s.t → s.sqSlot i k = some (g i k)) :
    readSq s = .ok (tabulate s.t fun i => tabulate s.t fun k => lowBits s.m (g i k)) :=
  collect_of_ok fun i hi => readSqRow_of_some fun k hk => h i k hi hk

theorem checkGoppa_eq_ok {s : State} :
    checkGoppa s = .ok () ↔ ∃ v, s.gSlot s.t = some v ∧ lowBits s.m v ≠ 0 := by
  rw [checkGoppa, run_bind_eq_ok]
  simp [bne_iff_ne]

/-- A failing check of G raises BAD_CONFIG 4, or the model stops at an unwritten slot. -/
theorem checkGoppa_eq_error {s : State} {e : Stop} :
    checkGoppa s = .error e ↔
      (s.gSlot s.t = none ∧ e = .stuck (.undefinedRead .g s.t)) ∨
        ∃ v, s.gSlot s.t = some v ∧ lowBits s.m v = 0 ∧ e = .raise .badConfig 4 := by
  rw [checkGoppa, run_bind_eq_error]
  simp [readCell_eq_error, require_eq_error]

end Sys2Proof.Machine
end

