-- ==== Sys2Proof/Laws/Exec.lean ====
section
/-! SUPPORT. What a command can do: every command is its rule and then how it ends, and a rule that ends
well changes only the data fields. -/

namespace Sys2Proof.Machine

/-- The rule of a command (45_control.md R400), one arm per command. -/
def ruleOf : Instr → State → Run State
  | .nop => ruleNop
  | .sync => ruleSync
  | .csrw csr imm => ruleCsrw csr imm
  | .posset x imm => rulePosset x imm
  | .dymul d a b => ruleDymul d a b
  | .dyadd d a b => ruleDyadd d a b
  | .dyreg a => ruleDyreg a
  | .dyinv d a => ruleDyinv d a
  | .bcopy d src count => ruleBcopy d src count
  | .matvec d mat v => ruleMatvec d mat v
  | .gauss base => ruleGauss base
  | .cot2p pd base stride => ruleCot2p pd base stride
  | .p2cot base ps stride => ruleP2cot base ps stride
  | .pinv pd ps => rulePinv pd ps
  | .paddx pd ps => rulePaddx pd ps
  | .psqrt pd ps => rulePsqrt pd ps
  | .pfrac pa pb ps => rulePfrac pa pb ps
  | .ploc pd pa pb => rulePloc pd pa pb
  | .roots e ps => ruleRoots e ps
  | .correct d c e => ruleCorrect d c e
  | .decode e syn => ruleDecode e syn
  | .pclr pd => rulePclr pd
  | .pmov pd ps => rulePmov pd ps
  | .psetc pd k value => rulePsetc pd k value
  | .gset ps => ruleGset ps
  | .sqset i ps => ruleSqset i ps

/-- Every command is its rule and then how it ends. -/
theorem exec_eq_commit (i : Instr) (s : State) : exec i s = commit i s (ruleOf i s) := by
  cases i <;> rfl

theorem commit_ok (i : Instr) (s s' : State) : commit i s (.ok s') = .next s'.retire := rfl

theorem commit_raise (i : Instr) (s : State) (c : Cause) (info : Word32) :
    commit i s (.error (.raise c info)) = .next (s.takeFault c info (encode i)) := rfl

theorem commit_freeRaise (i : Instr) (s : State) (c : Cause) (info : Word32) :
    commit i s (.error (.freeRaise c info)) = .next (s.drawn.takeFault c info (encode i)) := rfl

theorem commit_stuck (i : Instr) (s : State) (f : Fault) : commit i s (.error (.stuck f)) = .fault f := rfl

/-- A command that answers a next state retired, or its fault was taken. -/
theorem commit_eq_next {i : Instr} {s t : State} {r : Run State} :
    commit i s r = .next t ↔
      (∃ s', r = .ok s' ∧ t = s'.retire) ∨
      (∃ c info, r = .error (.raise c info) ∧ t = s.takeFault c info (encode i)) ∨
      (∃ c info, r = .error (.freeRaise c info) ∧ t = s.drawn.takeFault c info (encode i)) := by
  rcases r with (⟨c, info⟩ | ⟨c, info⟩ | f) | s' <;> simp [commit, eq_comm]

/-- The model stops exactly where the rule does. -/
theorem commit_eq_fault {i : Instr} {s : State} {r : Run State} {f : Fault} :
    commit i s r = .fault f ↔ r = .error (.stuck f) := by
  rcases r with (⟨c, info⟩ | ⟨c, info⟩ | f') | s' <;> simp [commit]

theorem commit_ne_refused {i : Instr} {s : State} {r : Run State} {q : Refusal} :
    commit i s r ≠ .refused q := by
  rcases r with (⟨c, info⟩ | ⟨c, info⟩ | f') | s' <;> simp [commit]

/-- The rule of a command whose rule ends well gives its next state. -/
theorem exec_of_rule {i : Instr} {s s' : State} (h : ruleOf i s = .ok s') : exec i s = .next s'.retire := by
  rw [exec_eq_commit, h, commit_ok]

theorem exec_of_raise {i : Instr} {s : State} {c : Cause} {info : Word32}
    (h : ruleOf i s = .error (.raise c info)) : exec i s = .next (s.takeFault c info (encode i)) := by
  rw [exec_eq_commit, h, commit_raise]

/-! ### The data fields -/

/-- `t` is `s` but for the data fields: the memories, FLAGS, STATUS.MARK, the configuration and the count of
free values. -/
structure SameControl (s t : State) : Prop where
  params : t.params = s.params
  ctrlEn : t.ctrlEn = s.ctrlEn
  err : t.status.err = s.status.err
  finished : t.status.finished = s.status.finished
  ovf : t.status.ovf = s.status.ovf
  hostErr : t.status.hostErr = s.status.hostErr
  ie : t.ie = s.ie
  cmdLo : t.cmdLo = s.cmdLo
  cmdCount : t.cmdCount = s.cmdCount
  errRec : t.errRec = s.errRec
  fifo : t.fifo = s.fifo
  agenda : t.agenda = s.agenda
  rdata : t.rdata = s.rdata

theorem SameControl.refl (s : State) : SameControl s s :=
  ⟨rfl, rfl, rfl, rfl, rfl, rfl, rfl, rfl, rfl, rfl, rfl, rfl, rfl⟩


theorem putConfig_same (s : State) (k : Nat) (v : Word32) : SameControl s (s.putConfig k v) := by
  unfold State.putConfig
  repeat' split
  all_goals exact ⟨rfl, rfl, rfl, rfl, rfl, rfl, rfl, rfl, rfl, rfl, rfl, rfl, rfl⟩

theorem putStrided_same (s : State) (a st : Nat) (vs : List Block) : SameControl s (s.putStrided a st vs) := by
  induction vs generalizing s a with
  | nil => exact .refl s
  | cons v vs ih =>
    have := ih (s.putBlock a v) (a + st)
    exact ⟨this.1, this.2, this.3, this.4, this.5, this.6, this.7, this.8, this.9, this.10, this.11, this.12,
      this.13⟩

/-- Under an irreducible field polynomial the rule's own result, under a reducible one the free write. -/
theorem underField_ok {s w s' : State} {e : Run State} (h : underField s w e = .ok s') :
   (s.gf.irreducible = true ∧ e = .ok s') ∨ (s.gf.irreducible = false ∧ s' = w.drawn) := by
  unfold underField at h
  split at h
  · exact .inl ⟨‹_›, h⟩
  · split at h
    · cases h
    · split at h
      · cases h
      · refine .inr ⟨?_, by simpa [eq_comm] using h⟩
        rename_i h0 _ _; simpa using h0

/-- A rule that ends well changes only the data fields. -/
theorem rule_ok_same {i : Instr} {s s' : State} (h : ruleOf i s = .ok s') : SameControl s s' := by
  cases i
  case nop => cases h; exact .refl s
  case sync => cases h; exact ⟨rfl, rfl, rfl, rfl, rfl, rfl, rfl, rfl, rfl, rfl, rfl, rfl, rfl⟩
  case csrw =>
    simp only [ruleOf, ruleCsrw, run_bind_eq_ok, run_pure] at h
    obtain ⟨_, _, h⟩ := h; cases h; exact putConfig_same ..
  case p2cot => 
    simp only [ruleOf, ruleP2cot, run_bind_eq_ok, run_pure] at h
    repeat (obtain ⟨_, _, h⟩ := h)
    exact putStrided_same ..
  case dyinv =>
    simp only [ruleOf, ruleDyinv, run_bind_eq_ok, run_pure] at h
    repeat (obtain ⟨_, _, h⟩ := h)
    split at h <;> (cases h; exact ⟨rfl, rfl, rfl, rfl, rfl, rfl, rfl, rfl, rfl, rfl, rfl, rfl, rfl⟩)
  case gauss =>
    simp only [ruleOf, ruleGauss, run_bind_eq_ok, run_pure] at h
    repeat (obtain ⟨_, _, h⟩ := h)
    split at h <;> (cases h; exact ⟨rfl, rfl, rfl, rfl, rfl, rfl, rfl, rfl, rfl, rfl, rfl, rfl, rfl⟩)
  case pinv =>
    simp only [ruleOf, rulePinv, run_bind_eq_ok] at h
    obtain ⟨_, _, _, _, _, _, _, _, _, _, h⟩ := h
    rcases underField_ok h with ⟨_, h⟩ | ⟨_, rfl⟩
    · split at h
      · cases h
      · cases h; exact ⟨rfl, rfl, rfl, rfl, rfl, rfl, rfl, rfl, rfl, rfl, rfl, rfl, rfl⟩
    · exact ⟨rfl, rfl, rfl, rfl, rfl, rfl, rfl, rfl, rfl, rfl, rfl, rfl, rfl⟩
  case psqrt =>
    simp only [ruleOf, rulePsqrt, run_bind_eq_ok] at h
    obtain ⟨_, _, _, _, _, _, _, _, _, _, _, _, h⟩ := h
    rcases underField_ok h with ⟨_, h⟩ | ⟨_, rfl⟩
    · cases h; exact ⟨rfl, rfl, rfl, rfl, rfl, rfl, rfl, rfl, rfl, rfl, rfl, rfl, rfl⟩
    · exact ⟨rfl, rfl, rfl, rfl, rfl, rfl, rfl, rfl, rfl, rfl, rfl, rfl, rfl⟩
  case pfrac =>
    simp only [ruleOf, rulePfrac, run_bind_eq_ok] at h
    obtain ⟨_, _, _, _, _, _, _, _, _, _, _, _, h⟩ := h
    rcases underField_ok h with ⟨_, h⟩ | ⟨_, rfl⟩
    · cases h; exact ⟨rfl, rfl, rfl, rfl, rfl, rfl, rfl, rfl, rfl, rfl, rfl, rfl, rfl⟩
    · exact ⟨rfl, rfl, rfl, rfl, rfl, rfl, rfl, rfl, rfl, rfl, rfl, rfl, rfl⟩
  case decode =>
    simp only [ruleOf, ruleDecode, run_bind_eq_ok, run_pure] at h
    obtain ⟨_, _, _, _, _, _, _, _, _, _, _, _, h⟩ := h
    rcases underField_ok h with ⟨_, h⟩ | ⟨_, rfl⟩
    · rw [run_bind_eq_ok] at h
      obtain ⟨_, _, h⟩ := h
      rw [run_bind_eq_ok] at h
      obtain ⟨_, _, h⟩ := h
      cases h; exact ⟨rfl, rfl, rfl, rfl, rfl, rfl, rfl, rfl, rfl, rfl, rfl, rfl, rfl⟩
    · exact ⟨rfl, rfl, rfl, rfl, rfl, rfl, rfl, rfl, rfl, rfl, rfl, rfl, rfl⟩
  all_goals
    simp only [ruleOf, rulePosset, ruleDymul, ruleDyadd, ruleDyreg, ruleBcopy, ruleMatvec, ruleCot2p, rulePaddx, rulePloc, ruleRoots, ruleCorrect, rulePclr, rulePmov, rulePsetc, ruleGset, ruleSqset, run_bind_eq_ok, run_pure] at h
    repeat (obtain ⟨_, _, h⟩ := h)
    exact ⟨rfl, rfl, rfl, rfl, rfl, rfl, rfl, rfl, rfl, rfl, rfl, rfl, rfl⟩

end Sys2Proof.Machine
end

