-- ==== Sys2Proof/Laws/Memory.lean ====
section
/-! SUPPORT. Every memory operation keeps the canonical form of the memory it writes. -/

namespace Sys2Proof.Machine

/-! ### Sizes of a legal configuration -/

theorem tb_le {p : Params} (h : p.Legal) : p.tb ≤ 256 :=
  Nat.le_trans (Nat.pow_le_pow_right (by omega) h.1) (by norm_num)

theorem lanes_bounds {p : Params} (h : p.Legal) : 1 ≤ p.lanes ∧ p.lanes ≤ 8 ∧ p.tb ≤ 32 * p.lanes := by
  obtain ⟨tMax, mMax, aw, cq⟩ := p
  have h1 : tMax ≤ 8 := h.1
  simp only [Params.lanes, Params.tb]
  interval_cases tMax <;> simp

theorem getLsbD_allLanes {p : Params} (h : p.Legal) (l : Nat) :
    (allLanes p).getLsbD l = decide (l < p.lanes) := by
  have h8 := (lanes_bounds h).2.1
  rw [allLanes, BitVec.getLsbD_ofNat, Nat.testBit_two_pow_sub_one]
  by_cases hl : l < p.lanes
  · have : l < 8 := by omega
    simp [hl, this]
  · simp [hl]

/-! ### One BMEM word -/

/-- What the canonical form of a word says of each lane and bit. -/
theorem BWord.wf_iff {p : Params} (h : p.Legal) {w : BWord} :
    w.wf p = true ↔ w.lanes ≠ 0 ∧ (∀ l, w.lanes.getLsbD l = true → l < p.lanes) ∧
      (∀ i, p.tb ≤ i → w.bits.getLsbD i = false) ∧
      (∀ i, w.lanes.getLsbD (i / 32) = false → w.bits.getLsbD i = false) := by
  have hA : (w.lanes &&& allLanes p = w.lanes) ↔ ∀ l, w.lanes.getLsbD l = true → l < p.lanes := by
    constructor
    · intro e l hl
      have := congrArg (fun v => BitVec.getLsbD v l) e
      simp only [BitVec.getLsbD_and, getLsbD_allLanes h, hl] at this
      simpa using this
    · intro e
      apply BitVec.eq_of_getLsbD_eq
      intro l _
      rw [BitVec.getLsbD_and, getLsbD_allLanes h]
      cases hl : w.lanes.getLsbD l
      · rfl
      · simp [e l hl]
  have hB : (lowBits p.tb w.bits = w.bits) ↔ ∀ i, p.tb ≤ i → w.bits.getLsbD i = false := by
    constructor
    · intro e i hi
      rw [← e, getLsbD_lowBits]
      have : ¬ i < p.tb := by omega
      simp [this]
    · exact lowBits_eq_self_of_bits
  have hC : (∀ l, l < 8 → (w.lanes.getLsbD l = true ∨ w.bits.extractLsb' (32 * l) 32 = 0)) ↔
      ∀ i, w.lanes.getLsbD (i / 32) = false → w.bits.getLsbD i = false := by
    constructor
    · intro e i hi
      by_cases h8 : i / 32 < 8
      · rcases e _ h8 with e | e
        · rw [hi] at e; cases e
        · have := congrArg (fun v => BitVec.getLsbD v (i % 32)) e
          have hm : i % 32 < 32 := Nat.mod_lt _ (by omega)
          have hd : 32 * (i / 32) + i % 32 = i := Nat.div_add_mod i 32
          simpa [BitVec.getLsbD_extractLsb', hm, hd] using this
      · exact BitVec.getLsbD_of_ge _ _ (by omega)
    · intro e l _
      cases hl : w.lanes.getLsbD l
      · refine .inr (BitVec.eq_of_getLsbD_eq fun i hi => ?_)
        have : (32 * l + i) / 32 = l := by omega
        have := e (32 * l + i) (by rw [this]; exact hl)
        simp [BitVec.getLsbD_extractLsb', this]
      · exact .inl rfl
  simp only [BWord.wf, Bool.and_eq_true, bne_iff_ne, ne_eq, beq_iff_eq, List.all_eq_true, List.mem_range,
    Bool.or_eq_true, hA, hB, hC, and_assoc]

theorem allLanes_ne_zero {p : Params} (h : p.Legal) : allLanes p ≠ 0 := by
  intro e
  have := congrArg (fun v => BitVec.getLsbD v 0) e
  rw [getLsbD_allLanes h] at this
  have h1 := (lanes_bounds h).1
  have : ¬ (0 < p.lanes) := by simpa using this
  omega

/-- A whole word of TB bits is in canonical form. -/
theorem BWord.wf_whole {p : Params} (h : p.Legal) {v : Block} (hv : ∀ i, p.tb ≤ i → v.getLsbD i = false) :
    (⟨v, allLanes p⟩ : BWord).wf p = true := by
  refine (BWord.wf_iff h).2 ⟨allLanes_ne_zero h, fun l hl => ?_, hv, fun i hi => hv i ?_⟩
  · rw [getLsbD_allLanes h] at hl; simpa using hl
  · rw [getLsbD_allLanes h] at hi
    have h1 := (lanes_bounds h).2.2
    have : ¬ i / 32 < p.lanes := by simpa using hi
    omega

theorem getLsbD_one_shift (l k : Nat) (h : k < 8) : (BitVec.ofNat 8 (1 <<< l)).getLsbD k = decide (k = l) := by
  rw [BitVec.getLsbD_ofNat, Nat.one_shiftLeft, Nat.testBit_two_pow]
  simp [h, eq_comm]

/-- A word with one lane replaced by the host is in canonical form. -/
theorem BWord.wf_putLane {p : Params} (h : p.Legal) {w : BWord} (hw : w.wf p = true ∨ w = ⟨0, 0⟩) {l : Nat}
    (hl : l < p.lanes) (v : Word32) : (w.putLane p l v).wf p = true := by
  have h8 := (lanes_bounds h).2.1
  have hw' : (∀ k, w.lanes.getLsbD k = true → k < p.lanes) ∧
      (∀ i, w.lanes.getLsbD (i / 32) = false → w.bits.getLsbD i = false) := by
    rcases hw with hw | rfl
    · exact ⟨((BWord.wf_iff h).1 hw).2.1, ((BWord.wf_iff h).1 hw).2.2.2⟩
    · simp
  have hlane : ∀ k, k < 8 → (w.putLane p l v).lanes.getLsbD k = (w.lanes.getLsbD k || decide (k = l)) := by
    intro k hk
    simp only [BWord.putLane, BitVec.getLsbD_or, getLsbD_one_shift l k hk]
  refine (BWord.wf_iff h).2 ⟨?_, ?_, ?_, ?_⟩
  · intro e
    have := hlane l (by omega)
    rw [e] at this
    simp at this
  · intro k hk
    by_cases h8' : k < 8
    · rw [hlane k h8'] at hk
      rcases Bool.or_eq_true _ _ ▸ hk with hk | hk
      · exact hw'.1 k hk
      · have : k = l := by simpa using hk
        omega
    · rw [BitVec.getLsbD_of_ge _ _ (by omega)] at hk; cases hk
  · intro i hi
    have : ¬ i < p.tb := by omega
    simp [BWord.putLane, this]
  · intro i hi
    by_cases h8' : i / 32 < 8
    · rw [hlane _ h8'] at hi
      have hi' : w.lanes.getLsbD (i / 32) = false ∧ i / 32 ≠ l := by simpa using hi
      simp [BWord.putLane, hi'.2, hw'.2 i hi'.1]
    · exact BitVec.getLsbD_of_ge _ _ (by omega)

/-! ### Whole memories -/

theorem Memory.wf_iff {p : Params} {mem : Memory} :
    Memory.wf p mem = true ↔ sortedKeys mem ∧ ∀ e ∈ mem, e.1 < p.bmemLen ∧ e.2.wf p = true := by
  simp [Memory.wf]

/-- Writing words in canonical form inside the memory keeps BMEM's canonical form. -/
theorem Memory.wf_cellPut {p : Params} {mem : Memory} (h : Memory.wf p mem = true) {lo : Nat}
    {vs : List BWord} (hv : ∀ w ∈ vs, w.wf p = true) (hr : lo + vs.length ≤ p.bmemLen) :
    Memory.wf p (cellPut mem lo vs) = true := by
  obtain ⟨hs, hm⟩ := Memory.wf_iff.1 h
  refine Memory.wf_iff.2 ⟨sortedKeys_cellPut hs lo vs, fun e he => ?_⟩
  rcases mem_cellPut he with he | ⟨-, h2, h3⟩
  · exact hm e he
  · exact ⟨by omega, hv _ h3⟩

/-- Writing no word leaves BMEM in canonical form, wherever it is. -/
theorem Memory.wf_cellPut_nil {p : Params} {mem : Memory} (h : Memory.wf p mem = true) (lo : Nat) :
    Memory.wf p (cellPut mem lo []) = true := by
  obtain ⟨hs, hm⟩ := Memory.wf_iff.1 h
  refine Memory.wf_iff.2 ⟨sortedKeys_cellPut hs lo [], fun e he => ?_⟩
  rcases mem_cellPut he with he | ⟨-, -, h3⟩
  · exact hm e he
  · simp at h3

/-- `MemWrite` inside BMEM keeps its canonical form. -/
theorem putBlocks_wf {s : State} (hp : s.params.Legal) (ht : s.logT ≤ s.params.tMax)
    (h : Memory.wf s.params s.bmem = true) {a : Nat} {vs : List Block}
    (hr : a + vs.length ≤ s.params.bmemLen ∨ vs = []) :
    Memory.wf s.params (s.putBlocks a vs).bmem = true := by
  rcases hr with hr | rfl
  · refine Memory.wf_cellPut h (fun w hw => ?_) (by simpa using hr)
    obtain ⟨v, -, rfl⟩ := List.mem_map.1 hw
    refine BWord.wf_whole hp fun i hi => ?_
    have : s.t ≤ s.params.tb := Nat.pow_le_pow_right (by omega) ht
    have : ¬ i < s.t := by omega
    simp [this]
  · exact Memory.wf_cellPut_nil h a

/-- Whole words inside BMEM keep its canonical form. -/
theorem putWords_wf {s : State} (hp : s.params.Legal) (h : Memory.wf s.params s.bmem = true) {a : Nat}
    {vs : List Block} (hv : ∀ v ∈ vs, ∀ i, s.params.tb ≤ i → v.getLsbD i = false)
    (hr : a + vs.length ≤ s.params.bmemLen) : Memory.wf s.params (s.putWords a vs).bmem = true := by
  refine Memory.wf_cellPut h (fun w hw => ?_) (by simpa using hr)
  obtain ⟨v, hv', rfl⟩ := List.mem_map.1 hw
  exact BWord.wf_whole hp (hv v hv')

/-- Strided blocks inside BMEM keep its canonical form. -/
theorem putStrided_wf {s : State} (hp : s.params.Legal) (ht : s.logT ≤ s.params.tMax)
    (h : Memory.wf s.params s.bmem = true) {a stride : Nat} {vs : List Block}
    (hr : vs ≠ [] → a + (vs.length - 1) * stride < s.params.bmemLen) :
    Memory.wf s.params (s.putStrided a stride vs).bmem = true := by
  induction vs generalizing s a with
  | nil => exact h
  | cons v vs ih =>
    have ha := hr (by simp)
    refine ih (s := s.putBlock a v) hp ht (putBlocks_wf hp ht h (.inl ?_)) fun hne => ?_
    · have := Nat.le_add_right a (vs.length * stride)
      simp at ha ⊢; omega
    · obtain ⟨n, hn⟩ : ∃ n, vs.length = n + 1 :=
        ⟨vs.length - 1, by have := List.length_pos_iff.2 hne; omega⟩
      simp only [List.length_cons, hn, Nat.add_sub_cancel] at ha ⊢
      rw [Nat.succ_mul] at ha
      simp only [State.putBlock_params]
      omega

/-- A host write of one lane keeps BMEM's canonical form. -/
theorem putLane_wf {s : State} (hp : s.params.Legal) (h : Memory.wf s.params s.bmem = true) {a l : Nat}
    (ha : a < s.params.bmemLen) (hl : l < s.params.lanes) (v : Word32) :
    Memory.wf s.params (s.cellWrite v (.bmem a l)).bmem = true := by
  refine Memory.wf_cellPut h (fun w hw => ?_) (by simpa using ha)
  rw [List.mem_singleton.1 hw]
  refine BWord.wf_putLane hp ?_ hl v
  cases hg : cellGet s.bmem a with
  | none => exact .inr rfl
  | some u => exact .inl ((Memory.wf_iff.1 h).2 _ (cellGet_mem hg)).2

/-! ### Coefficient and entry spaces -/

/-- Writing values of the cell's width to keys of the space keeps its canonical form. -/
theorem cellsWf_cellPut {w : Nat} {c : Cells (BitVec w)} {keyOk : Nat → Prop} {width : Nat}
    (h : CellsWf c keyOk width) {lo : Nat} {vs : List (BitVec w)} (hv : ∀ v ∈ vs, v.toNat < 2 ^ width)
    (hk : ∀ j, j < vs.length → keyOk (lo + j)) : CellsWf (cellPut c lo vs) keyOk width := by
  refine ⟨sortedKeys_cellPut h.1 lo vs, fun e he => ?_⟩
  rcases mem_cellPut he with he | ⟨h1, h2, h3⟩
  · exact h.2 e he
  · refine ⟨?_, hv _ h3⟩
    have := hk (e.1 - lo) (by omega)
    rwa [show lo + (e.1 - lo) = e.1 by omega] at this

/-- What a read of a canonical space gives is within the cell's width. -/
theorem cellsWf_get {w : Nat} {c : Cells (BitVec w)} {keyOk : Nat → Prop} {width : Nat}
    (h : CellsWf c keyOk width) {k : Nat} {v : BitVec w} (hg : cellGet c k = some v) : v.toNat < 2 ^ width :=
  (h.2 _ (cellGet_mem hg)).2

/-- The memories of a machine just reset are in canonical form. -/
theorem resetWith_wf (p : Params) : Memory.wf p (State.resetWith p).bmem = true := rfl

end Sys2Proof.Machine
end

