-- ==== Sys2Proof/Laws/PerInstr.lean ====
section
/-! SUPPORT. Per command: its encoding has every fixed bit of its row of spec/opcode_table.json. -/

namespace Sys2Proof.Laws

/-- The "mask" of a command's row of spec/opcode_table.json. -/
def tableMask : Instr → Command
  | .nop => 0xFFFFFFFFFFFFFFFF#64
  | .sync => 0xFFFFFFFFFFFFFFFF#64
  | .csrw _ _ => 0xFF0000FF00000000#64
  | .posset _ _ => 0xFF0000FFFFFE0000#64
  | .dymul _ _ _ => 0xFF000000000000FF#64
  | .dyadd _ _ _ => 0xFF000000000000FF#64
  | .dyreg _ => 0xFFFFFF0000FFFFFF#64
  | .dyinv _ _ => 0xFF00000000FFFFFF#64
  | .bcopy _ _ _ => 0xFF000000000000FF#64
  | .matvec _ _ _ => 0xFF000000000000FF#64
  | .gauss _ => 0xFF0000FFFFFFFFFF#64
  | .cot2p _ _ _ => 0xFF000000000000FF#64
  | .p2cot _ _ _ => 0xFF000000000000FF#64
  | .pinv _ _ => 0xFF00000000FFFFFF#64
  | .paddx _ _ => 0xFF00000000FFFFFF#64
  | .psqrt _ _ => 0xFF00000000FFFFFF#64
  | .pfrac _ _ _ => 0xFF000000000000FF#64
  | .ploc _ _ _ => 0xFF000000000000FF#64
  | .roots _ _ => 0xFF00000000FFFFFF#64
  | .correct _ _ _ => 0xFF000000000000FF#64
  | .decode _ _ => 0xFF00000000FFFFFF#64
  | .pclr _ => 0xFF0000FFFFFFFFFF#64
  | .pmov _ _ => 0xFF00000000FFFFFF#64
  | .psetc _ _ _ => 0xFF000000000000FF#64
  | .gset _ => 0xFFFFFF0000FFFFFF#64
  | .sqset _ _ => 0xFF00000000FFFFFF#64

/-- The "match" of a command's row of spec/opcode_table.json. -/
def tableMatch : Instr → Command
  | .nop => 0x0000000000000000#64
  | .sync => 0x0100000000000000#64
  | .csrw _ _ => 0x0200000000000000#64
  | .posset _ _ => 0x0300000000000000#64
  | .dymul _ _ _ => 0x1000000000000000#64
  | .dyadd _ _ _ => 0x1100000000000000#64
  | .dyreg _ => 0x1200000000000000#64
  | .dyinv _ _ => 0x1300000000000000#64
  | .bcopy _ _ _ => 0x1400000000000000#64
  | .matvec _ _ _ => 0x2000000000000000#64
  | .gauss _ => 0x2100000000000000#64
  | .cot2p _ _ _ => 0x3000000000000000#64
  | .p2cot _ _ _ => 0x3100000000000000#64
  | .pinv _ _ => 0x3200000000000000#64
  | .paddx _ _ => 0x3300000000000000#64
  | .psqrt _ _ => 0x3400000000000000#64
  | .pfrac _ _ _ => 0x3500000000000000#64
  | .ploc _ _ _ => 0x3600000000000000#64
  | .roots _ _ => 0x3700000000000000#64
  | .correct _ _ _ => 0x3800000000000000#64
  | .decode _ _ => 0x3900000000000000#64
  | .pclr _ => 0x3A00000000000000#64
  | .pmov _ _ => 0x3B00000000000000#64
  | .psetc _ _ _ => 0x3C00000000000000#64
  | .gset _ => 0x3D00000000000000#64
  | .sqset _ _ => 0x3E00000000000000#64

/-- The encoding of a command agrees with its row of the opcode table in every fixed bit. -/
def EncodeMatchesTable.Statement (i : Instr) : Prop := encode i &&& tableMask i = tableMatch i

theorem wordR_masked {opc : BitVec 8} {fa fb fc ma mb mc : Field} {mask tgt : Command}
    (hm : mask = wordR 0xFF#8 ma mb mc ||| 0xFF#64) (ha : fa &&& ma = 0) (hb : fb &&& mb = 0)
    (hc : fc &&& mc = 0) (ht : tgt = wordR opc 0 0 0) : wordR opc fa fb fc &&& mask = tgt := by
  rw [hm, wordR_and, ha, hb, hc, ht, show opc &&& 0xFF#8 = opc from BitVec.and_allOnes]

theorem wordI_masked {opc : BitVec 8} {fa : Field} {imm mi : Word32} {mask tgt : Command}
    (hm : mask = wordI 0xFF#8 0 mi ||| 0xFF00000000#64) (hi : imm &&& mi = 0)
    (ht : tgt = wordI opc 0 0) : wordI opc fa imm &&& mask = tgt := by
  rw [hm, wordI_and, hi, show fa &&& 0 = 0 from BitVec.and_zero, ht,
    show opc &&& 0xFF#8 = opc from BitVec.and_allOnes]

/-- A 17-bit immediate has no bit at 17 and above. -/
theorem imm17_masked (v : PosEntry) : v.setWidth 32 &&& 0xFFFE0000#32 = 0 := by
  refine BitVec.eq_of_getLsbD_eq fun j hj => ?_
  rw [BitVec.getLsbD_and, BitVec.getLsbD_setWidth]
  by_cases h : j < 17
  · rw [show (0xFFFE0000#32) = BitVec.ofNat 32 ((2 ^ 15 - 1) <<< 17) from rfl, BitVec.getLsbD_ofNat,
      Nat.testBit_shiftLeft]
    simp [show ¬ 17 ≤ j by omega]
  · simp [BitVec.getLsbD_of_ge v j (by omega)]

theorem EncodeMatchesTable.nop : EncodeMatchesTable.Statement .nop :=
  wordR_masked (ma := 0xFFFF#16) (mb := 0xFFFF#16) (mc := 0xFFFF#16) rfl BitVec.zero_and BitVec.zero_and
    BitVec.zero_and rfl

theorem EncodeMatchesTable.sync : EncodeMatchesTable.Statement .sync :=
  wordR_masked (ma := 0xFFFF#16) (mb := 0xFFFF#16) (mc := 0xFFFF#16) rfl BitVec.zero_and BitVec.zero_and
    BitVec.zero_and rfl

theorem EncodeMatchesTable.csrw (a : Field) (b : Word32) : EncodeMatchesTable.Statement (.csrw a b) :=
  wordI_masked (mi := 0) rfl BitVec.and_zero rfl

theorem EncodeMatchesTable.posset (a : Field) (b : PosEntry) : EncodeMatchesTable.Statement (.posset a b) :=
  wordI_masked (mi := 0xFFFE0000#32) rfl (imm17_masked b) rfl

theorem EncodeMatchesTable.dymul (a b c : Field) : EncodeMatchesTable.Statement (.dymul a b c) :=
  wordR_masked (ma := 0) (mb := 0) (mc := 0) rfl BitVec.and_zero BitVec.and_zero
    BitVec.and_zero rfl

theorem EncodeMatchesTable.dyadd (a b c : Field) : EncodeMatchesTable.Statement (.dyadd a b c) :=
  wordR_masked (ma := 0) (mb := 0) (mc := 0) rfl BitVec.and_zero BitVec.and_zero
    BitVec.and_zero rfl

theorem EncodeMatchesTable.dyreg (a : Field) : EncodeMatchesTable.Statement (.dyreg a) :=
  wordR_masked (ma := 0xFFFF#16) (mb := 0) (mc := 0xFFFF#16) rfl BitVec.zero_and BitVec.and_zero
    BitVec.zero_and rfl

theorem EncodeMatchesTable.dyinv (a b : Field) : EncodeMatchesTable.Statement (.dyinv a b) :=
  wordR_masked (ma := 0) (mb := 0) (mc := 0xFFFF#16) rfl BitVec.and_zero BitVec.and_zero
    BitVec.zero_and rfl

theorem EncodeMatchesTable.bcopy (a b c : Field) : EncodeMatchesTable.Statement (.bcopy a b c) :=
  wordR_masked (ma := 0) (mb := 0) (mc := 0) rfl BitVec.and_zero BitVec.and_zero
    BitVec.and_zero rfl

theorem EncodeMatchesTable.matvec (a b c : Field) : EncodeMatchesTable.Statement (.matvec a b c) :=
  wordR_masked (ma := 0) (mb := 0) (mc := 0) rfl BitVec.and_zero BitVec.and_zero
    BitVec.and_zero rfl

theorem EncodeMatchesTable.gauss (a : Field) : EncodeMatchesTable.Statement (.gauss a) :=
  wordR_masked (ma := 0) (mb := 0xFFFF#16) (mc := 0xFFFF#16) rfl BitVec.and_zero BitVec.zero_and
    BitVec.zero_and rfl

theorem EncodeMatchesTable.cot2p (a b c : Field) : EncodeMatchesTable.Statement (.cot2p a b c) :=
  wordR_masked (ma := 0) (mb := 0) (mc := 0) rfl BitVec.and_zero BitVec.and_zero
    BitVec.and_zero rfl

theorem EncodeMatchesTable.p2cot (a b c : Field) : EncodeMatchesTable.Statement (.p2cot a b c) :=
  wordR_masked (ma := 0) (mb := 0) (mc := 0) rfl BitVec.and_zero BitVec.and_zero
    BitVec.and_zero rfl

theorem EncodeMatchesTable.pinv (a b : Field) : EncodeMatchesTable.Statement (.pinv a b) :=
  wordR_masked (ma := 0) (mb := 0) (mc := 0xFFFF#16) rfl BitVec.and_zero BitVec.and_zero
    BitVec.zero_and rfl

theorem EncodeMatchesTable.paddx (a b : Field) : EncodeMatchesTable.Statement (.paddx a b) :=
  wordR_masked (ma := 0) (mb := 0) (mc := 0xFFFF#16) rfl BitVec.and_zero BitVec.and_zero
    BitVec.zero_and rfl

theorem EncodeMatchesTable.psqrt (a b : Field) : EncodeMatchesTable.Statement (.psqrt a b) :=
  wordR_masked (ma := 0) (mb := 0) (mc := 0xFFFF#16) rfl BitVec.and_zero BitVec.and_zero
    BitVec.zero_and rfl

theorem EncodeMatchesTable.pfrac (a b c : Field) : EncodeMatchesTable.Statement (.pfrac a b c) :=
  wordR_masked (ma := 0) (mb := 0) (mc := 0) rfl BitVec.and_zero BitVec.and_zero
    BitVec.and_zero rfl

theorem EncodeMatchesTable.ploc (a b c : Field) : EncodeMatchesTable.Statement (.ploc a b c) :=
  wordR_masked (ma := 0) (mb := 0) (mc := 0) rfl BitVec.and_zero BitVec.and_zero
    BitVec.and_zero rfl

theorem EncodeMatchesTable.roots (a b : Field) : EncodeMatchesTable.Statement (.roots a b) :=
  wordR_masked (ma := 0) (mb := 0) (mc := 0xFFFF#16) rfl BitVec.and_zero BitVec.and_zero
    BitVec.zero_and rfl

theorem EncodeMatchesTable.correct (a b c : Field) : EncodeMatchesTable.Statement (.correct a b c) :=
  wordR_masked (ma := 0) (mb := 0) (mc := 0) rfl BitVec.and_zero BitVec.and_zero
    BitVec.and_zero rfl

theorem EncodeMatchesTable.decode (a b : Field) : EncodeMatchesTable.Statement (.decode a b) :=
  wordR_masked (ma := 0) (mb := 0) (mc := 0xFFFF#16) rfl BitVec.and_zero BitVec.and_zero
    BitVec.zero_and rfl

theorem EncodeMatchesTable.pclr (a : Field) : EncodeMatchesTable.Statement (.pclr a) :=
  wordR_masked (ma := 0) (mb := 0xFFFF#16) (mc := 0xFFFF#16) rfl BitVec.and_zero BitVec.zero_and
    BitVec.zero_and rfl

theorem EncodeMatchesTable.pmov (a b : Field) : EncodeMatchesTable.Statement (.pmov a b) :=
  wordR_masked (ma := 0) (mb := 0) (mc := 0xFFFF#16) rfl BitVec.and_zero BitVec.and_zero
    BitVec.zero_and rfl

theorem EncodeMatchesTable.psetc (a b c : Field) : EncodeMatchesTable.Statement (.psetc a b c) :=
  wordR_masked (ma := 0) (mb := 0) (mc := 0) rfl BitVec.and_zero BitVec.and_zero
    BitVec.and_zero rfl

theorem EncodeMatchesTable.gset (a : Field) : EncodeMatchesTable.Statement (.gset a) :=
  wordR_masked (ma := 0xFFFF#16) (mb := 0) (mc := 0xFFFF#16) rfl BitVec.zero_and BitVec.and_zero
    BitVec.zero_and rfl

theorem EncodeMatchesTable.sqset (a b : Field) : EncodeMatchesTable.Statement (.sqset a b) :=
  wordR_masked (ma := 0) (mb := 0) (mc := 0xFFFF#16) rfl BitVec.and_zero BitVec.and_zero
    BitVec.zero_and rfl

end Sys2Proof.Laws
end

