-- ==== Sys2Proof/Tests/Slice0.lean ====
section
/-! SUPPORT. Tests: well-formedness, decoding of written-out words, one step on small states, and for every
obligation with hypotheses a state and operands that meet them. Expected values are those of
95_test_vectors.md (its vector number stands in the docstring) or of the rule named. -/

namespace Sys2Proof.Tests

open Sys2Proof Sys2Proof.Machine

/- One test after another: each kernel evaluation that waits for its turn would hold a thread of its own. -/
set_option Elab.async false

/-! ### Helpers -/

/-- A fresh machine with T_MAX, M_MAX, 128 blocks and a FIFO of 2, and the given CFG_M, CFG_T, CFG_NB,
CFG_FPOLY. -/
def machine (tMax mMax m t nb f : Nat) : State :=
  { State.resetWith ⟨tMax, mMax, 7, 2⟩ with
    ctrlEn := true
    cfg :=
      { m := BitVec.ofNat 5 m, t := BitVec.ofNat 4 t, nb := BitVec.ofNat 16 nb, fpoly := BitVec.ofNat 17 f,
        mvRows := 0, mvCols := 0, mvRs := 0, mvCs := 0 } }

/-- The configuration of 95_test_vectors.md 2.2: m = 4, t = 4. -/
def dyadicState : State := machine 2 4 4 2 8 0x13

/-- The configuration of 2.3 and 2.4: m = 2, t = 2, NB = 3. -/
def matrixState : State := machine 1 2 2 1 3 7

/-- Key A of 2.6: m = 5, t = 2, G = (x + 3)(x + 7). -/
def keyA : State :=
  { machine 1 5 5 1 8 0x25 with
    g := [(0, 9), (1, 4), (2, 1)], sq := [(0, 1), (1, 0), (256, 9), (257, 0x12)] }

/-- Key B of 2.6: m = 5, t = 4. -/
def keyB : State :=
  { machine 2 5 5 2 8 0x25 with
    g := [(0, 0x18), (1, 0x13), (2, 0x17), (3, 9), (4, 1)]
    sq := [(0, 1), (1, 0), (2, 0), (3, 0), (256, 0x0B), (257, 0x0E), (258, 1), (259, 0x0B), (512, 0), (513, 1),
      (514, 0), (515, 0), (768, 0x13), (769, 0x17), (770, 0x1B), (771, 0x18)] }

/-- Every cell written: T_MAX = 0, M_MAX = 2, 8 blocks; m = 2, t = 1, F = x² (reducible). -/
def fullState : State :=
  { State.resetWith ⟨0, 2, 3, 1⟩ with
    ctrlEn := true
    cfg := { m := 2, t := 0, nb := 2, fpoly := 4, mvRows := 1, mvCols := 1, mvRs := 0, mvCs := 0 }
    p := [(0, 1), (1, 2), (512, 1), (513, 2), (1024, 1), (1025, 2), (1536, 1), (1537, 2), (2048, 1), (2049, 2),
      (2560, 1), (2561, 2), (3072, 1), (3073, 2), (3584, 1), (3585, 2)]
    g := [(0, 2), (1, 1)]
    sq := [(0, 1)]
    pos := [(0, 0), (1, 1), (2, 4), (3, 4)]
    bmem := (List.range 8).map fun a => (a, ⟨1, 1⟩) }

/-- The outcome is a next state with the property. -/
def after (o : Host.Outcome State Fault Refusal) (f : State → Bool) : Bool :=
  match o with
  | .next t => f t
  | _ => false

/-- The model stops at this read. -/
def stopsAt (o : Host.Outcome State Fault Refusal) (space : Space) (index : Nat) : Bool :=
  match o with
  | .fault f => f == .undefinedRead space index
  | _ => false

/-- The outcome is the fault (cause, info), with the destinations as they were. -/
def faulted (s : State) (o : Host.Outcome State Fault Refusal) (cause info : Nat) : Bool :=
  after o fun t => t.status.err && t.errRec.cause.toNat == cause && t.errRec.info.toNat == info &&
    decide (t.bmem = s.bmem) && decide (t.p = s.p) && t.cmdCount == s.cmdCount

/-- B(a), B(a + 1), .. hold these values. -/
def holds (s : State) (a : Nat) (vs : List Block) : Bool :=
  (List.range vs.length).all fun i => s.blockWord (a + i) == some (vs.getD i 0)

/-- P[i] holds these coefficients, zeros above. -/
def holdsPoly (s : State) (i : Nat) (p : List Elem) : Bool :=
  (List.range s.params.plen).all fun k => s.pSlot i k == some (p.getD k 0)

/-- FLAGS read this value. -/
def flagsAre (s : State) (v : Nat) : Bool := s.flagsWord.toNat == v

/-! ### Well-formedness: each check refuses an ill-formed command (30_encoding.md R154) -/

theorem test_ill_posset_immediate : ¬ Instr.WellFormed ⟨1, 5, 7, 2⟩ (.posset 0 64#17) := by decide
theorem test_ill_bcopy_count : ¬ Instr.WellFormed .reference (.bcopy 0 0 0) := by decide
theorem test_ill_cot2p_register : ¬ Instr.WellFormed .reference (.cot2p 8 0 1) := by decide
theorem test_ill_cot2p_stride : ¬ Instr.WellFormed .reference (.cot2p 0 0 0) := by decide
theorem test_ill_p2cot_register : ¬ Instr.WellFormed .reference (.p2cot 0 8 1) := by decide
theorem test_ill_p2cot_stride : ¬ Instr.WellFormed .reference (.p2cot 0 0 0) := by decide
theorem test_ill_pinv : ¬ Instr.WellFormed .reference (.pinv 8 0) := by decide
theorem test_ill_paddx : ¬ Instr.WellFormed .reference (.paddx 0 8) := by decide
theorem test_ill_psqrt : ¬ Instr.WellFormed .reference (.psqrt 0xFFFF 0) := by decide
theorem test_ill_pfrac_register : ¬ Instr.WellFormed .reference (.pfrac 0 1 8) := by decide
theorem test_ill_pfrac_same : ¬ Instr.WellFormed .reference (.pfrac 4 4 3) := by decide
theorem test_ill_ploc : ¬ Instr.WellFormed .reference (.ploc 0 8 0) := by decide
theorem test_ill_roots : ¬ Instr.WellFormed .reference (.roots 0 8) := by decide
theorem test_ill_pclr : ¬ Instr.WellFormed .reference (.pclr 8) := by decide
theorem test_ill_pmov : ¬ Instr.WellFormed .reference (.pmov 0 8) := by decide
theorem test_ill_psetc_register : ¬ Instr.WellFormed .reference (.psetc 8 0 0) := by decide
theorem test_ill_psetc_slot : ¬ Instr.WellFormed .reference (.psetc 0 128 0) := by decide
theorem test_ill_gset : ¬ Instr.WellFormed .reference (.gset 8) := by decide
theorem test_ill_sqset_row : ¬ Instr.WellFormed .reference (.sqset 64 0) := by decide
theorem test_ill_sqset_register : ¬ Instr.WellFormed .reference (.sqset 0 8) := by decide

/-! ### Decoding: OPC, FA, FB, FC, FD bit by bit (30_encoding.md R152, R153, R157) -/

/-- The command a reference machine decodes, none for a rejected word. -/
def decoded (w : Command) : Option Instr :=
  match decode .reference w with
  | .ok i => some i
  | .error _ => none

/-- The control family, format R: every operand bit 0. -/
theorem test_decode_nop :
    decoded (0b00000000#8 ++ 0b0000000000000000#16 ++ 0b0000000000000000#16 ++ 0b0000000000000000#16 ++
      0b00000000#8) = some .nop := by decide
theorem test_decode_sync : decoded 0x0100000000000000#64 = some .sync := by decide
/-- Format I: OPC, FA, Z, IMM. -/
theorem test_decode_csrw :
    decoded (0b00000010#8 ++ 0b0000000000100000#16 ++ 0b00000000#8 ++ 0b10000000000000000000000000000100#32) =
      some (.csrw 0x20 0x80000004) := by decide
theorem test_decode_posset : decoded 0x030004000001FFFF#64 = some (.posset 4 0x1FFFF) := by decide
/-- The dyadic family: d = 0x8022, a = 0x20, b = 0x4021. -/
theorem test_decode_dymul :
    decoded (0b00010000#8 ++ 0b1000000000100010#16 ++ 0b0000000000100000#16 ++ 0b0100000000100001#16 ++
      0b00000000#8) = some (.dymul 0x8022 0x20 0x4021) := by decide
theorem test_decode_dyadd : decoded 0x1100030001000200#64 = some (.dyadd 3 1 2) := by decide
theorem test_decode_dyreg : decoded 0x1200000010000000#64 = some (.dyreg 0x10) := by decide
theorem test_decode_dyinv : decoded 0x1300050006000000#64 = some (.dyinv 5 6) := by decide
theorem test_decode_bcopy : decoded 0x1400010000000300#64 = some (.bcopy 1 0 3) := by decide
/-- The matrix family: d = 0x11, M = 0x08, v = 0x10. -/
theorem test_decode_matvec :
    decoded (0b00100000#8 ++ 0b0000000000010001#16 ++ 0b0000000000001000#16 ++ 0b0000000000010000#16 ++
      0b00000000#8) = some (.matvec 0x11 8 0x10) := by decide
theorem test_decode_gauss : decoded 0x2100200000000000#64 = some (.gauss 0x20) := by decide
/-- The transfer family: Pd = 7, base = 0x1234, stride = 2. -/
theorem test_decode_cot2p :
    decoded (0b00110000#8 ++ 0b0000000000000111#16 ++ 0b0001001000110100#16 ++ 0b0000000000000010#16 ++
      0b00000000#8) = some (.cot2p 7 0x1234 2) := by decide
theorem test_decode_p2cot : decoded 0x3100100002000100#64 = some (.p2cot 0x10 2 1) := by decide
theorem test_decode_pinv : decoded 0x3200010000000000#64 = some (.pinv 1 0) := by decide
theorem test_decode_paddx : decoded 0x3300020001000000#64 = some (.paddx 2 1) := by decide
theorem test_decode_psqrt : decoded 0x3400030002000000#64 = some (.psqrt 3 2) := by decide
/-- The decoder family: Pa = 4, Pb = 5, Ps = 3. -/
theorem test_decode_pfrac :
    decoded (0b00110101#8 ++ 0b0000000000000100#16 ++ 0b0000000000000101#16 ++ 0b0000000000000011#16 ++
      0b00000000#8) = some (.pfrac 4 5 3) := by decide
theorem test_decode_ploc : decoded 0x3600060004000500#64 = some (.ploc 6 4 5) := by decide
theorem test_decode_roots : decoded 0x3700200006000000#64 = some (.roots 0x20 6) := by decide
theorem test_decode_correct : decoded 0x3800700040006000#64 = some (.correct 0x70 0x40 0x60) := by decide
theorem test_decode_decode : decoded 0x3900600050000000#64 = some (.decode 0x60 0x50) := by decide
theorem test_decode_pclr : decoded 0x3A00030000000000#64 = some (.pclr 3) := by decide
theorem test_decode_pmov : decoded 0x3B00010000000000#64 = some (.pmov 1 0) := by decide
theorem test_decode_psetc : decoded 0x3C00020001000700#64 = some (.psetc 2 1 7) := by decide
theorem test_decode_gset : decoded 0x3D00000002000000#64 = some (.gset 2) := by decide
theorem test_decode_sqset : decoded 0x3E00010002000000#64 = some (.sqset 1 2) := by decide

/-- 2.2.10, 2.5.10, 2.7.2, 2.7.8, 2.7.11, 2.7.12, 2.7.13: words that are no command. -/
theorem test_decode_rejects :
    decode .reference 0x10000100020003FF#64 = .error (.badOperand .fd) ∧
    decode .reference 0x3D00010000000000#64 = .error (.badOperand .fa) ∧
    decode .reference 0x0000010000000000#64 = .error (.badOperand .fa) ∧
    decode .reference 0x0200200100000001#64 = .error (.badOperand .zImm) ∧
    decode .reference 0x0300040000020000#64 = .error (.badOperand .zImm) ∧
    decode .reference 0x4000000000000000#64 = .error (.illegalOpcode 0x40) ∧
    decode .reference 0xFFFFFFFFFFFFFFFF#64 = .error (.illegalOpcode 0xFF) := by decide

/-- The table word reaches step as the first command after reset. -/
theorem test_fetch_word :
    decodeTableWord 64 0x0100000000000000 = some .sync ∧
    (after (step (State.reset.withFetchWord 64 0x0100000000000000)) fun t =>
      t.status.mark && t.status.finished && t.cmdCount == 1) = true := by decide

/-! ### One step of each command -/

/-- 2.7.1, 2.7.3: NOP needs no valid configuration and counts. -/
theorem test_nop :
    after (exec .nop { State.reset with cmdCount := 5 }) (fun t => t.cmdCount == 6 && !t.status.err) = true := by
  decide

/-- 2.7.4: DONE only when the FIFO is empty. -/
theorem test_sync :
    after (exec .sync { State.reset with fifo := [0] }) (fun t => t.status.mark && !t.status.finished) = true := by
  decide

/-- 2.7.6: bits 4:0 kept. -/
theorem test_csrw : after (exec (.csrw 0x20 0x25) State.reset) (fun t => t.csrRead 0x20 == 5) = true := by decide

/-- 2.7.7. -/
theorem test_csrw_access : faulted State.reset (exec (.csrw 8 1) State.reset) 3 8 = true := by decide

/-- 2.7.10. -/
theorem test_posset : after (exec (.posset 4 2) State.reset) (fun t => t.posEntry 4 == some 2) = true := by decide

/-- R404: x = 2^M_MAX is out of range. -/
theorem test_posset_range : faulted keyA (exec (.posset 32 2) keyA) 5 1 = true := by decide

/-- 2.2.1. -/
theorem test_dymul :
    after (exec (.dymul 0x22 0x20 0x21) (dyadicState.putBlocks 0x20 [6, 3]))
      (fun t => holds t 0x20 [6, 3, 0xF] && flagsAre t 0) = true := by decide

/-- 2.2.9: a block no one has written stops the model. -/
theorem test_dymul_undefined :
    exec (.dymul 0x10 0x20 0x30) dyadicState = .fault (.undefinedRead .bmem 0x20) := by rfl

/-- 2.2.2. -/
theorem test_dyadd :
    after (exec (.dyadd 3 1 2) (dyadicState.putBlocks 1 [0xA, 6])) (fun t => holds t 1 [0xA, 6, 0xC]) = true := by
  decide

/-- 2.2.12: F has degree 5 ≠ m. -/
theorem test_dyadd_config :
    faulted (machine 2 4 4 2 8 0x25) (exec (.dyadd 0 0 0) (machine 2 4 4 2 8 0x25)) 4 1 = true := by decide

/-- 2.2.3. -/
theorem test_dyreg :
    after (exec (.dyreg 0x10) (dyadicState.putBlocks 0x10 [0xB])) (flagsAre · 1) = true := by decide

/-- 2.2.4: a singular block is not written. -/
theorem test_dyinv_singular :
    after (exec (.dyinv 5 0) ((dyadicState.putBlocks 0 [6]).putBlocks 5 [0xA]))
      (fun t => flagsAre t 2 && holds t 5 [0xA] && !t.status.err) = true := by decide

/-- 2.2.5. -/
theorem test_dyinv :
    after (exec (.dyinv 5 0) (dyadicState.putBlocks 0 [7])) (fun t => flagsAre t 1 && holds t 5 [7]) = true := by
  decide

/-- 2.2.6: an overlapping copy. -/
theorem test_bcopy :
    after (exec (.bcopy 1 0 3) (dyadicState.putBlocks 0 [1, 2, 3, 4])) (fun t => holds t 0 [1, 1, 2, 3]) = true := by
  decide

/-- 2.2.7. -/
theorem test_bcopy_range : faulted State.reset (exec (.bcopy 0xFFF0 0 0x20) State.reset) 5 1 = true := by decide

/-- The dimensions of 2.4. -/
def withDims (s : State) (r c rs cs : BitVec 16) : State :=
  { s with cfg := { s.cfg with mvRows := r, mvCols := c, mvRs := rs, mvCs := cs } }

/-- 2.4.1: row stride 3, as B(0x09) and B(0x0C) do not take part. -/
theorem test_matvec :
    after (exec (.matvec 0x11 8 0x10)
        (((withDims matrixState 2 1 3 1).putBlocks 8 [0, 1, 0, 2, 0, 1]).putBlocks 0x10 [1]))
      (fun t => holds t 0x10 [1, 0, 2]) = true := by decide +kernel

/-- 2.4.2. -/
theorem test_matvec_syndrome :
    after (exec (.matvec 0x18 0 0x10)
        (((withDims matrixState 2 3 3 1).putBlocks 0 [2, 3, 1, 1, 1, 2]).putBlocks 0x10 [1, 0, 2]))
      (fun t => holds t 0x18 [0, 0]) = true := by decide +kernel

/-- 2.3.1. -/
theorem test_gauss :
    after (exec (.gauss 0) (matrixState.putBlocks 0 [2, 3, 1, 1, 1, 2]))
      (fun t => holds t 0 [0, 1, 0, 2, 0, 1] && flagsAre t 1) = true := by decide +kernel

/-- 2.3.2. -/
theorem test_gauss_singular :
    after (exec (.gauss 0) (matrixState.putBlocks 0 [1, 3, 0, 2, 1, 3]))
      (fun t => holds t 0 [1, 3, 0, 2, 1, 3] && flagsAre t 2) = true := by decide +kernel

/-- 2.5.1. -/
theorem test_cot2p :
    after (exec (.cot2p 0 0 1) (keyA.putBlocks 0 [0, 3, 0, 3, 1])) (holdsPoly · 0 [0x1A, 0x0A]) = true := by
  decide +kernel

/-- 2.5.3: stride 2 leaves the odd blocks alone. -/
theorem test_p2cot :
    after (exec (.p2cot 0x10 2 2) (((machine 1 4 4 1 8 0x13).putPoly 2 [3, 4]).putBlocks 0x11 [2, 0, 3]))
      (fun t => holds t 0x10 [1, 2, 1, 3, 2] && holds t 0x16 [0]) = true := by decide +kernel

/-- 2.6.1. -/
theorem test_pinv :
    after (exec (.pinv 1 0) (keyA.putPoly 0 [0x1A, 0x0A])) (holdsPoly · 1 [0x17, 0x0A]) = true := by decide +kernel

/-- 2.6.3. -/
theorem test_pinv_none :
    faulted (keyA.putPoly 0 [3, 1]) (exec (.pinv 1 0) (keyA.putPoly 0 [3, 1])) 6 1 = true := by decide +kernel

/-- 2.6.4. -/
theorem test_paddx :
    after (exec (.paddx 2 1) (keyA.putPoly 1 [0x17, 0x0A])) (holdsPoly · 2 [0x17, 0x0B]) = true := by decide +kernel

/-- 2.6.5. -/
theorem test_psqrt :
    after (exec (.psqrt 3 2) (keyA.putPoly 2 [0x17, 0x0B])) (holdsPoly · 3 [0x17, 0x16]) = true := by decide +kernel

/-- 2.6.15, Key B: PFRAC runs one iteration. -/
theorem test_pfrac :
    after (exec (.pfrac 4 5 3) (keyB.putPoly 3 [0x1F, 0x1C, 0x1A, 0x1C]))
      (fun t => holdsPoly t 4 [0x10, 0x15] && holdsPoly t 5 [6, 3]) = true := by decide +kernel

/-- 2.6.8. -/
theorem test_pfrac_same : faulted keyA (exec (.pfrac 4 4 3) keyA) 2 2 = true := by decide

/-- 2.6.15: the locator of Key B. -/
theorem test_ploc :
    after (exec (.ploc 6 4 5) ((keyB.putPoly 4 [0x10, 0x15]).putPoly 5 [6, 3]))
      (holdsPoly · 6 [8, 4, 0x0D, 1]) = true := by decide +kernel

/-- 2.6.10. -/
theorem test_roots :
    after (exec (.roots 0x20 6) (keyA.putPoly 6 [0x0B, 0x0A, 1]))
      (holds · 0x20 [2, 0, 0, 0, 0, 2, 0, 0, 0, 0, 0, 0, 0, 0, 0, 0]) = true := by decide +kernel

/-- 2.6.11. -/
theorem test_roots_fail :
    faulted (keyA.putPoly 6 [1, 1, 1]) (exec (.roots 0x20 6) (keyA.putPoly 6 [1, 1, 1])) 6 2 = true := by
  decide +kernel

/-- Program 3, step 12 (95_test_vectors.md 3.3): position 9 lies in the checksum and is ignored. -/
theorem test_correct :
    after (exec (.correct 0x40 0x10 0x20) (((({ keyA with pos := [(1, 1), (11, 9)] } : State).putBlocks 0x10
        [2, 3, 1, 0, 3, 2, 1, 0]).putBlocks 0x20 [2, 0, 0, 0, 0, 2, 0, 0, 0, 0, 0, 0, 0, 0, 0, 0])))
      (fun t => holds t 0x40 [0, 3, 1] && (t.block 0x43 == none)) = true := by decide +kernel

/-- 2.6.21: element 3 is absent from the support. -/
theorem test_correct_fail :
    let s := ((({ keyA with pos := [(3, 32)] } : State).putBlocks 0x10 [2, 3, 1, 0, 3, 2, 1, 0]).putBlocks 0x20
      [0, 2, 0, 0, 0, 0, 0, 0, 0, 0, 0, 0, 0, 0, 0, 0])
    faulted s (exec (.correct 0x40 0x10 0x20) s) 6 0x30003 = true := by decide +kernel

/-- 2.6.15: three errors under Key B. -/
theorem test_decode_command :
    after (exec (.decode 0x40 0) (keyB.putBlocks 0 [0b1110, 0b0011, 0b1001, 0b1100, 0b0110]))
      (holds · 0x40 [2, 2, 2, 0, 0, 0, 0, 0]) = true := by decide +kernel

/-- 2.6.14: the syndrome vanishes at a root of G. -/
theorem test_decode_command_fail :
    let s := keyB.putBlocks 0 [0b0011, 0b1001, 0b1111, 0b1010, 0b1111]
    faulted s (exec (.decode 0x40 0) s) 6 1 = true := by decide +kernel

/-- 2.5.5. -/
theorem test_pclr : after (exec (.pclr 3) keyA) (holdsPoly · 3 []) = true := by decide

/-- R303: PMOV copies all M_MAX bits, also those above m. -/
theorem test_pmov :
    after (exec (.pmov 1 0) ((machine 1 5 4 1 8 0x13).putSlots 0 0 [0x1A, 0x0A, 0, 0x1F]))
      (holdsPoly · 1 [0x1A, 0x0A, 0, 0x1F]) = true := by decide

/-- 2.5.7. -/
theorem test_psetc :
    after (exec (.psetc 2 1 0x27) (keyA.putPoly 2 [])) (holdsPoly · 2 [0, 7]) = true := by decide

/-- 2.5.8, with PLEN = 4. -/
theorem test_psetc_slot : faulted keyA (exec (.psetc 2 4 5) keyA) 2 2 = true := by decide

/-- 2.5.9. -/
theorem test_gset :
    after (exec (.gset 2) ((machine 1 5 5 1 8 0x25).putPoly 2 [9, 4, 1]))
      (fun t => t.gSlot 0 == some 9 && t.gSlot 1 == some 4 && t.gSlot 2 == some 1) = true := by decide

/-- 2.5.11. -/
theorem test_sqset :
    after (exec (.sqset 1 2) ((machine 1 5 5 1 8 0x25).putPoly 2 [9, 0x12]))
      (fun t => t.sqSlot 1 0 == some 9 && t.sqSlot 1 1 == some 0x12 && t.sqSlot 0 0 == none) = true := by decide

/-! ### The host port -/

/-- 2.8.4, 2.8.5: unmapped and misaligned accesses. -/
theorem test_port_errors :
    (State.reset.hostRead 0x1000 15).status.hostErr = true ∧
    (State.reset.hostWrite 0x81 0 15).status.hostErr = true ∧
    (State.reset.hostRead 0xBFC 15).status.hostErr = false := by decide

/-- 2.8.6, 2.8.7, 2.8.8: the reference address map. -/
theorem test_address_map :
    locate .reference 0x10604 = some (.p 3 1) ∧ locate .reference 0x18008 = some (.g 2) ∧
    locate .reference 0x20100 = some (.sq 1 0) ∧ locate .reference 0x80014 = some (.pos 5) ∧
    locate .reference 0x100018 = some (.bmem 3 0) ∧ locate .reference 0x10001C = some (.bmem 3 1) := by decide

/-- 2.8.13: the interrupt is up until DONE is cleared. -/
theorem test_interrupt :
    let s := { State.reset with ie := 2, status := { State.reset.status with finished := true } }
    s.irq = true ∧ (s.hostWrite 0x14 4 15).irq = false := by decide

/-! ### Witnesses: for each obligation with hypotheses, a state and operands that meet them -/

/-- DecodeEncodeRoundTrip, each bound of WellFormed reached. -/
theorem witness_decodeEncodeRoundTrip :
    Params.reference.Legal ∧ (⟨8, 9, 0, 1⟩ : Params).Legal ∧ (⟨0, 1, 16, 255⟩ : Params).Legal ∧
    Instr.WellFormed .reference (.psetc 7 127 0xFFFF) ∧ Instr.WellFormed .reference (.sqset 63 7) ∧
    Instr.WellFormed .reference (.posset 0xFFFF 0x1FFFF) ∧ Instr.WellFormed .reference (.bcopy 0xFFFF 0 1) ∧
    Instr.WellFormed .reference (.cot2p 7 0xFFFF 1) ∧ Instr.WellFormed .reference (.pfrac 7 6 7) := by decide

/-- EncodeDecodeRoundTrip. -/
theorem witness_encodeDecodeRoundTrip :
    decode .reference 0x3C0007007FFFFF00#64 = .ok (.psetc 7 127 0xFFFF) := by decide

/-- A running machine whose FIFO holds `w` and then a NOP. -/
def running (w : Command) : State := { keyA with fifo := [w, 0] }

/-- IllegalOpcodesRaise: the ends of the four ranges, the legal neighbours, and a running machine with an empty
agenda and with the sequencer's event first. -/
theorem witness_illegalOpcodesRaise :
    [0x04, 0x0F, 0x15, 0x1F, 0x22, 0x2F, 0x3F, 0x40, 0xFF].all illegalOpc = true ∧
    [0x00, 0x03, 0x10, 0x14, 0x20, 0x21, 0x30, 0x3E].all (fun k => !illegalOpc k) = true ∧
    (∀ w : Command, (running w).ctrlEn = true ∧ (running w).status.err = false ∧ (running w).fifo = w :: [0] ∧
      (running w).agenda = []) ∧
    ({ running 0xFFFFFFFFFFFFFFFF#64 with agenda := [.sequencer, .rst] } : State).agenda = .sequencer :: [.rst] ∧
    illegalOpc (opcOf 0xFFFFFFFFFFFFFFFF#64).toNat = true := by
  refine ⟨by decide, by decide, fun _ => ⟨rfl, rfl, rfl, rfl⟩, rfl, by decide⟩

/-- `f` is the first failing field check of the word, `before` and `after` the checks around it: the two hypotheses
on the checks that ReservedFieldsMustBeZero and IllegalOperandsRaise share. -/
def firstFails (p : Params) (w : Command) (before : List (FieldId × Bool)) (f : FieldId)
    (after : List (FieldId × Bool)) : Bool :=
  decide (fieldChecks p w = before ++ (f, false) :: after) && before.all fun c => c.2

/-- ReservedFieldsMustBeZero: a nonzero reserved field as the first failing one in each place (FA of DYREG, FB
of GAUSS, FC of PCLR, FD of DYMUL, POSSET's IMM at POS_W), after a field that passes and before one that fails;
an illegal operand that comes before the reserved field (PINV's Ps before FC). -/
theorem witness_reservedFieldsMustBeZero :
    (reservedClear .reference 0x1200010010000100#64 = false ∧
      firstFails .reference 0x1200010010000100#64 [] .fa [(.fb, true), (.fc, false), (.fd, true)] = true) ∧
    (reservedClear .reference 0x2100200001000000#64 = false ∧
      firstFails .reference 0x2100200001000000#64 [(.fa, true)] .fb [(.fc, true), (.fd, true)] = true) ∧
    (reservedClear .reference 0x3A00030000000101#64 = false ∧
      firstFails .reference 0x3A00030000000101#64 [(.fa, true), (.fb, true)] .fc [(.fd, false)] = true) ∧
    (reservedClear .reference 0x10000100020003FF#64 = false ∧
      firstFails .reference 0x10000100020003FF#64 [(.fa, true), (.fb, true), (.fc, true)] .fd [] = true) ∧
    (reservedClear .reference 0x3200010008000100#64 = false ∧
      firstFails .reference 0x3200010008000100#64 [(.fa, true)] .fb [(.fc, false), (.fd, true)] = true) ∧
    (reservedClear .reference 0x0300040000020000#64 = false ∧
      firstFails .reference 0x0300040000020000#64 [] .zImm [] = true) ∧
    reservedClear .reference 0x030004000001FFFF#64 = true ∧ reservedClear .reference 0x3200080008000000#64 = true ∧
    Params.reference.Legal := by decide +kernel

/-- The words of `witness_reservedFieldsMustBeZero` have legal opcodes; NOP with FA, SYNC with FD and both format
I words with Z. -/
theorem witness_reservedFieldsMustBeZero_words :
    ([0x1200010010000100#64, 0x2100200001000000#64, 0x3A00030000000101#64, 0x10000100020003FF#64,
      0x3200010008000100#64, 0x0300040000020000#64, 0x030004000001FFFF#64, 0x3200080008000000#64] :
      List Command).all (fun w => !illegalOpc (opcOf w).toNat) = true ∧
    opcOf 0x0000010000000000#64 = 0x00#8 ∧ faOf 0x0000010000000000#64 ≠ 0 ∧
    opcOf 0x01000000000000FF#64 = 0x01#8 ∧ fdOf 0x01000000000000FF#64 ≠ 0 ∧
    opcOf 0x0200200100000001#64 = 0x02#8 ∧ zOf 0x0200200100000001#64 ≠ 0 ∧
    opcOf 0x0300048000000000#64 = 0x03#8 ∧ zOf 0x0300048000000000#64 ≠ 0 ∧
    illegalOpc 0x3E = false := by decide +kernel

/-- R164: the word of an illegal reserved field decodes to nothing, and R160 gives the first failing field. -/
theorem test_decode_reserved :
    decode .reference 0x1200010010000100#64 = .error (.badOperand .fa) ∧
    decode .reference 0x3A00030000000101#64 = .error (.badOperand .fc) ∧
    decode .reference 0x3200010008000100#64 = .error (.badOperand .fb) ∧
    decode .reference 0x0300040000020000#64 = .error (.badOperand .zImm) := by decide

/-- StepRunsTheDecodedCommand, with an empty agenda and with the sequencer's event first, a read and a write. -/
theorem witness_stepRunsTheDecodedCommand :
    let s := running 0x0100000000000000#64
    s.ctrlEn = true ∧ s.status.err = false ∧ s.fifo = 0x0100000000000000#64 :: [0] ∧
    decode s.params 0x0100000000000000#64 = .ok .sync ∧ s.agenda = [] ∧
    ({ s with agenda := [.sequencer, .rst] } : State).agenda = .sequencer :: [.rst] ∧
    ({ s with agenda := [.read 0 15, .rst] } : State).agenda = .read 0 15 :: [.rst] ∧
    ({ s with agenda := [.write 0x20 9 15, .rst] } : State).agenda = .write 0x20 9 15 :: [.rst] := by decide

/-- R120: host transactions take effect in their order: CMD_LO is written and then read. -/
theorem test_host_steps :
    let s := { running 0 with agenda := [.write 0x20 9 15, .read 0x20 15] }
    after (Sys2Proof.core.run 2 s) (fun t => t.cmdLo == 9 && t.rdata == 9 && t.agenda == []) = true := by decide

/-- StepFaultsOnARejectedWord (2.2.10), with an empty agenda and with the sequencer's event first. -/
theorem witness_stepFaultsOnARejectedWord :
    let s := running 0x10000100020003FF#64
    s.ctrlEn = true ∧ s.status.err = false ∧ s.fifo = 0x10000100020003FF#64 :: [0] ∧ s.agenda = [] ∧
    ({ s with agenda := [.sequencer, .rst] } : State).agenda = .sequencer :: [.rst] ∧
    decode s.params 0x10000100020003FF#64 = .error (.badOperand .fd) := by decide

/-- NoStepWhenNotBusy: disabled, halted, and empty, with an empty agenda and with the sequencer's event first. -/
theorem witness_noStepWhenNotBusy :
    ({ running 0 with ctrlEn := false } : State).ctrlEn = false ∧
    ((running 0).takeFault .addrRange 1 0).status.err = true ∧ keyA.fifo = [] ∧ keyA.agenda = [] ∧
    ({ keyA with agenda := [.sequencer, .rst] } : State).agenda = .sequencer :: [.rst] := by decide

/-- FaultsArePrecise: causes 2 and 6. -/
theorem witness_faultsArePrecise :
    keyA.status.err = false ∧
    (∃ t, exec (.pfrac 4 4 3) keyA = .next t ∧ t.status.err = true ∧ t.errRec.cause = 2) ∧
    after (exec (.pinv 1 0) (keyA.putPoly 0 [3, 1])) (fun t => t.status.err && t.errRec.cause == 6) = true :=
  ⟨rfl, ⟨_, rfl, rfl, rfl⟩, by decide +kernel⟩

/-- RetiringCommandCounts: NOP (any command but SYNC) and SYNC, with an empty FIFO. -/
theorem witness_retiringCommandCounts :
    keyA.status.err = false ∧ exec .nop keyA = .next keyA.retire ∧ keyA.retire.status.err = false ∧
    ∃ t, exec .sync keyA = .next t ∧ t.status.err = false := by
  exact ⟨rfl, rfl, rfl, _, rfl, rfl⟩

/-- OnlyTheNamedCommandsWrite: each of the six changes happens. -/
theorem witness_onlyTheNamedCommandsWrite :
    after (exec (.gset 2) (keyA.putPoly 2 [1])) (fun t => decide (t.g ≠ keyA.g)) = true ∧
    after (exec (.sqset 1 2) (keyA.putPoly 2 [1])) (fun t => decide (t.sq ≠ keyA.sq)) = true ∧
    after (exec (.posset 0 1) keyA) (fun t => decide (t.pos ≠ keyA.pos)) = true ∧
    after (exec (.csrw 0x22 9) keyA) (fun t => decide (t.cfg ≠ keyA.cfg)) = true ∧
    after (exec (.dyreg 0) (keyA.putBlocks 0 [1])) (fun t => decide (t.flags ≠ keyA.flags)) = true ∧
    after (exec .sync keyA) (fun t => decide (t.status.mark ≠ keyA.status.mark)) = true := by decide

/-- StopsExactlyAtUndefinedCells: a stop, and a command that retires. -/
theorem witness_stopsExactlyAtUndefinedCells :
    exec (.pmov 1 0) keyA = .fault (.undefinedRead .p 0) ∧ cellGet keyA.p 0 = none ∧
    keyA.status.err = false ∧
    after (exec (.pmov 1 0) (keyA.putPoly 0 [3])) (fun t => !t.status.err) = true := ⟨rfl, rfl, rfl, by decide⟩

/-- StopsExactlyAtUndefinedCells: the checks pass and the second source block is undefined. -/
theorem witness_stopsExactlyAtUndefinedCells_checks :
    let s := dyadicState.putBlocks 0 [6]
    Instr.ConfigOk s (.dymul 2 0 1) ∧ (∀ r ∈ Instr.regions s (.dymul 2 0 1), r.2 < s.params.bmemLen) ∧
    ¬ Instr.SourcesDefined s (.dymul 2 0 1) :=
  ⟨⟨fun _ => by decide, trivial⟩, by decide, fun h => absurd h.2 (by decide)⟩

/-- StopsExactlyAtUndefinedCells: with CFGV and no slot of G written the four commands that read G stop. -/
theorem witness_stopsExactlyAtUndefinedCells_goppa :
    let s := { keyA with g := [] }
    s.Cfgv ∧ s.gSlot s.t = none ∧ exec (.decode 0x40 0) s = .fault (.undefinedRead .g 2) := ⟨by decide, rfl, rfl⟩

theorem fullState_allDefined : fullState.AllDefined :=
  ⟨by decide, by decide, by decide, by decide, by decide⟩

/-- CompletesWhenAllDefined. -/
theorem witness_completesWhenAllDefined : fullState.params.Legal ∧ fullState.AllDefined :=
  ⟨by decide, fullState_allDefined⟩

/-- ResetState: reset parameters at the ends of their ranges. -/
theorem witness_resetState :
    Params.reference.Legal ∧ (⟨8, 9, 0, 1⟩ : Params).Legal ∧ (⟨0, 16, 16, 255⟩ : Params).Legal := by decide

theorem fullState_inv : fullState.Inv :=
  ⟨by decide, by decide, by decide, by decide, by decide, by decide, by decide, by decide, by decide⟩

/-- StepKeepsInv. -/
theorem witness_stepKeepsInv : fullState.Inv ∧ step fullState = .next fullState := ⟨fullState_inv, rfl⟩

/-- QueuedWordsAreFixed: a step that takes the head, one that empties the FIFO and one that appends. -/
theorem witness_queuedWordsAreFixed :
    (∃ t, step (running 0) = .next t ∧ t.fifo = (running 0).fifo.tail) ∧
    (∃ t, step { running 0 with agenda := [.write 0x10 3 15] } = .next t ∧ t.fifo = []) ∧
    ∃ t, step { keyA with agenda := [.write 0x24 7 15] } = .next t ∧ t.fifo = [(7 : Word32) ++ keyA.cmdLo] := by
  exact ⟨⟨_, rfl, rfl⟩, ⟨_, rfl, rfl⟩, _, rfl, rfl⟩

/-- CsrwWritesOneRegister: the ends of the nine registers, and their neighbours. -/
theorem witness_csrwWritesOneRegister :
    (0x020 ≤ (0x020 : Field).toNat ∧ (0x020 : Field).toNat ≤ 0x028) ∧
    (0x020 ≤ (0x028 : Field).toNat ∧ (0x028 : Field).toNat ≤ 0x028) ∧
    (0x01F : Field).toNat < 0x020 ∧ 0x028 < (0x029 : Field).toNat ∧ 0x028 < (0xFFFF : Field).toNat := by decide

/-- PossetWritesOneEntry: the last entry, the first number past it, the largest value. -/
theorem witness_possetWritesOneEntry :
    (63 : PosEntry).toNat < 2 ^ keyA.params.posW ∧ (31 : Field).toNat < keyA.params.posLen ∧
    keyA.params.posLen ≤ (32 : Field).toNat := by decide

/-- DyadicProductLaws, the formula and the matrix product: the largest and the smallest block size, with the
last entry. -/
theorem witness_dyadicProduct : (8 : Nat) ≤ 8 ∧ 255 < 2 ^ 8 ∧ (0 : Nat) ≤ 8 ∧ 0 < 2 ^ 0 := by decide

/-- DyadicProductLaws, the laws: t = 4 and t = 256. -/
theorem witness_dyadicProductLaws :
    (2 ≤ 8 ∧ lowBits (2 ^ 2) (0xF : Block) = 0xF ∧ lowBits (2 ^ 2) (6 : Block) = 6 ∧
      lowBits (2 ^ 2) (3 : Block) = 3) ∧
    (8 : Nat) ≤ 8 ∧ lowBits (2 ^ 8) (BitVec.allOnes 256) = BitVec.allOnes 256 := by decide

/-- DymulAndDyaddWriteTheBlock: in the reference configuration with t = 32 and with t = 64, a word of which the
host has written lane 0 alone: it holds a block for t = 32 only, and no whole word (R108, R126; log entry 3). -/
theorem witness_partly_written_word :
    let s : State := { State.resetWith .reference with
      cfg := { m := 7, t := 5, nb := 8, fpoly := 0x83, mvRows := 0, mvCols := 0, mvRs := 0, mvCs := 0 } }
    let u := s.hostWrite 0x00100008 0x80000001 15
    s.params.Legal ∧ s.Cfgv ∧ u.cellRead (.bmem 1 0) = some 0x80000001 ∧ u.cellRead (.bmem 1 1) = none ∧
    u.block 1 = some 0x80000001 ∧ u.blockWord 1 = none ∧ u.block 0 = none ∧
    ({ u with cfg := { u.cfg with t := 6 } } : State).block 1 = none := by decide +kernel

/-- DymulAndDyaddWriteTheBlock: the last block of BMEM as destination, and a written word. -/
theorem witness_dymul_dyadd :
    let s := dyadicState.putBlocks 0x20 [6, 3]
    s.Cfgv ∧ (0x7F : Field).toNat < s.params.bmemLen ∧ (0x20 : Field).toNat < s.params.bmemLen ∧
    (0x21 : Field).toNat < s.params.bmemLen ∧ s.block 0x20 = some 6 ∧ s.block 0x21 = some 3 ∧ s.params.Legal ∧
    s.blockWord 0x20 = some 6 := by decide

/-- DyregAndDyinvTestTheParity: a regular and a singular block. -/
theorem witness_dyreg_dyinv :
    let s := dyadicState.putBlocks 0 [7, 6]
    s.params.Legal ∧ s.Cfgv ∧ (0x7F : Field).toNat < s.params.bmemLen ∧ (0 : Field).toNat < s.params.bmemLen ∧
    (1 : Field).toNat < s.params.bmemLen ∧ s.block 0 = some 7 ∧ parity s.t 7 = true ∧ s.block 1 = some 6 ∧
    parity s.t 6 = false := by decide

/-- BcopyMovesWholeWords: one word and, overlapping, three up to the end of BMEM. -/
theorem witness_bcopyMovesWholeWords :
    let s := dyadicState.putBlocks 0x7C [1, 2, 3]
    1 ≤ (3 : Field).toNat ∧ (0x7D : Field).toNat + (3 : Field).toNat - 1 < s.params.bmemLen ∧
    (0x7C : Field).toNat + (3 : Field).toNat - 1 < s.params.bmemLen ∧
    (∀ i < (3 : Field).toNat, s.blockWord ((0x7C : Field).toNat + i) = some (([1, 2, 3] : List Block).getD i 0)) ∧
    1 ≤ (1 : Field).toNat := by decide

/-- MatvecWritesTheProduct (2.4.2). -/
theorem witness_matvecWritesTheProduct :
    let s := ((withDims matrixState 2 3 3 1).putBlocks 0 [2, 3, 1, 1, 1, 2]).putBlocks 0x10 [1, 0, 2]
    s.Cfgv ∧ 2 = s.cfg.mvRows.toNat ∧ 3 = s.cfg.mvCols.toNat ∧
    (0x7E : Field).toNat + 2 - 1 < s.params.bmemLen ∧
    (0 : Field).toNat + (2 - 1) * s.cfg.mvRs.toNat + (3 - 1) * s.cfg.mvCs.toNat < s.params.bmemLen ∧
    (0x10 : Field).toNat + 3 - 1 < s.params.bmemLen ∧
    (∀ j < 2, ∀ i < 3, s.block ((0 : Field).toNat + j * s.cfg.mvRs.toNat + i * s.cfg.mvCs.toNat) =
      some (([2, 3, 1, 1, 1, 2] : List Block).getD (j * 3 + i) 0)) ∧
    ∀ i < 3, s.block ((0x10 : Field).toNat + i) = some (([1, 0, 2] : List Block).getD i 0) := by decide +kernel

/-- The matrix with these blocks row by row, three to a row. -/
def rowsOf3 (l : List Block) (j k : Nat) : Block := l.getD (j * 3 + k) 0

/-- GaussWritesBackOnSuccess: success (2.3.1) and no pivot (2.3.2). -/
theorem witness_gaussWritesBackOnSuccess :
    let s := matrixState.putBlocks 0 [2, 3, 1, 1, 1, 2]
    let u := matrixState.putBlocks 0 [1, 3, 0, 2, 1, 3]
    s.Cfgv ∧ s.m ≤ s.nb ∧ (0 : Field).toNat + s.m * s.nb - 1 < s.params.bmemLen ∧
    (∀ j < s.m, ∀ k < s.nb, s.block ((0 : Field).toNat + j * s.nb + k) =
      some (rowsOf3 [2, 3, 1, 1, 1, 2] j k)) ∧
    gaussJordan s.t s.m s.nb (tabulate s.m fun j => tabulate s.nb (rowsOf3 [2, 3, 1, 1, 1, 2] j)) =
      some [[0, 1, 0], [2, 0, 1]] ∧
    u.Cfgv ∧ u.m ≤ u.nb ∧
    (∀ j < u.m, ∀ k < u.nb, u.block ((0 : Field).toNat + j * u.nb + k) =
      some (rowsOf3 [1, 3, 0, 2, 1, 3] j k)) ∧
    gaussJordan u.t u.m u.nb (tabulate u.m fun j => tabulate u.nb (rowsOf3 [1, 3, 0, 2, 1, 3] j)) = none := by
  decide +kernel

/-- GaussReducesTheMatrix and GaussSucceedsIffParityInvertible (2.3.1). -/
theorem witness_gauss_laws :
    1 ≤ 8 ∧ 2 ≤ 3 ∧
    (∀ j < 2, ∀ k < 3, lowBits (2 ^ 1) (rowsOf3 [2, 3, 1, 1, 1, 2] j k) = rowsOf3 [2, 3, 1, 1, 1, 2] j k) ∧
    gaussJordan (2 ^ 1) 2 3 (tabulate 2 fun j => tabulate 3 (rowsOf3 [2, 3, 1, 1, 1, 2] j)) =
      some [[0, 1, 0], [2, 0, 1]] := by decide +kernel

/-- Cot2pTransposes: P7, the planes up to the end of BMEM, stride 2. -/
theorem witness_cot2pTransposes :
    let s := keyA.putStrided 0x77 2 [0, 3, 0, 3, 1]
    (7 : Field).toNat < 8 ∧ 1 ≤ (2 : Field).toNat ∧ s.Cfgv ∧
    (0x77 : Field).toNat + (s.m - 1) * (2 : Field).toNat < s.params.bmemLen ∧
    ∀ i < s.m, s.block ((0x77 : Field).toNat + i * (2 : Field).toNat) =
      some (([0, 3, 0, 3, 1] : List Block).getD i 0) := by decide +kernel

/-- P2cotTransposes and CotraceRoundTrip: a coefficient with a bit above m (R301: it is not stored). -/
theorem witness_p2cot_roundTrip :
    let s := (machine 1 5 4 1 8 0x13).putSlots 2 0 [0x13, 4]
    s.params.Legal ∧ (2 : Field).toNat < 8 ∧ (7 : Field).toNat < 8 ∧ 1 ≤ (1 : Field).toNat ∧ s.Cfgv ∧
    (0x7C : Field).toNat + (s.m - 1) * (1 : Field).toNat < s.params.bmemLen ∧
    ∀ j < s.t, s.pSlot (2 : Field).toNat j = some (([0x13, 4] : List Elem).getD j 0) := by decide +kernel

/-- RegisterTransfersWrite: P7 and the last slot. -/
theorem witness_registerTransfersWrite :
    let s := keyA.putPoly 0 [0x1A, 0x0A]
    (7 : Field).toNat < 8 ∧ (0 : Field).toNat < 8 ∧
    (∀ k < s.params.plen, s.pSlot (0 : Field).toNat k = some (([0x1A, 0x0A] : List Elem).getD k 0)) ∧
    (3 : Field).toNat < s.params.plen := by decide +kernel

/-- GsetAndSqsetLoadTheTables: the last row of SQ. -/
theorem witness_gsetAndSqsetLoadTheTables :
    let s := keyA.putPoly 2 [9, 4, 1]
    (2 : Field).toNat < 8 ∧ (1 : Field).toNat < s.params.tb ∧
    (∀ k ≤ s.params.tb, s.pSlot (2 : Field).toNat k = some (([9, 4, 1] : List Elem).getD k 0)) ∧
    ∀ k < s.params.tb, s.pSlot (2 : Field).toNat k = some (([9, 4, 1] : List Elem).getD k 0) := by decide +kernel

/-- FieldMultiplicationLaws and FieldInverseAndSquareRoot: GF(32) with its largest element, F = (z + 1)² for the
clauses on a reducible F, the largest m, and the largest exponent. -/
theorem witness_field :
    let k : Gf := ⟨5, 0x25⟩
    1 ≤ k.m ∧ k.m ≤ 16 ∧ k.f.getLsbD k.m = true ∧ k.f >>> (k.m + 1) = 0 ∧ k.irreducible = true ∧
    (0x1F : Elem).toNat < 2 ^ k.m ∧ (0 : Elem).toNat < 2 ^ k.m ∧ (0x1F : Elem) ≠ 0 ∧
    k.DegreeOk ∧ (⟨2, 5⟩ : Gf).DegreeOk ∧ (⟨2, 5⟩ : Gf).irreducible = false ∧ (⟨1, 3⟩ : Gf).DegreeOk ∧
    (⟨16, 0x1002D⟩ : Gf).DegreeOk ∧ (0xFFFF : Elem).toNat < 2 ^ 16 ∧ 2 ≤ k.m ∧ 131070 + 1 < 2 ^ 17 := by
  decide +kernel

/-- R19: a product by z that is reduced by F, and one that is not. -/
theorem test_fmul_reduces : fmul ⟨5, 0x25⟩ 0x12 2 = 1 ∧ fmul ⟨5, 0x25⟩ 5 2 = 0x0A := by decide +kernel

/-- PolynomialArithmetic: over GF(32), 0, a constant and G as divisors' bounds, and a dividend of higher degree. -/
theorem witness_polynomialArithmetic :
    let k : Gf := ⟨5, 0x25⟩
    k.DegreeOk ∧ k.irreducible = true ∧
    ([9, 4, 1, 7, 3, 0, 0x1F, 0x12] : Poly).all (fun c => decide (c.toNat < 2 ^ k.m)) = true ∧
    0 ≤ pdeg [7] ∧ 0 ≤ pdeg [9, 4, 1] ∧ pdeg [0] = -1 ∧ pdeg [9, 4, 1] < (3 : Nat) := by decide +kernel

/-- R19, 92_eei_decisions.md D5: finv(0) = 0, in GF(2) too. -/
theorem test_finv_zero : finv ⟨1, 3⟩ 0 = 0 ∧ finv ⟨1, 3⟩ 1 = 1 ∧ finv ⟨5, 0x25⟩ 0 = 0 := by decide +kernel

/-- PaddxAddsX and PinvWritesTheInverse: an invertible polynomial (2.6.1) and one without an inverse (2.6.3). -/
theorem witness_paddx_pinv :
    let s := (keyA.putPoly 0 [0x1A, 0x0A]).putPoly 7 [3, 1]
    (7 : Field).toNat < 8 ∧ s.Cfgv ∧ s.gf.irreducible = true ∧
    (∀ k < s.params.plen, s.pSlot (0 : Field).toNat k = some (([0x1A, 0x0A] : List Elem).getD k 0)) ∧
    (∀ k < s.params.plen, s.pSlot (7 : Field).toNat k = some (([3, 1] : List Elem).getD k 0)) ∧
    (∀ k ≤ s.t, s.gSlot k = some (([9, 4, 1] : List Elem).getD k 0)) ∧ lowBits s.m (1 : Elem) ≠ 0 ∧
    (pinvMod s.gf (tabulate (s.t + 1) fun k => lowBits s.m (([9, 4, 1] : List Elem).getD k 0))
      (tabulate s.params.plen fun k => lowBits s.m (([0x1A, 0x0A] : List Elem).getD k 0))).isSome = true ∧
    pinvMod s.gf (tabulate (s.t + 1) fun k => lowBits s.m (([9, 4, 1] : List Elem).getD k 0))
      (tabulate s.params.plen fun k => lowBits s.m (([3, 1] : List Elem).getD k 0)) = none := by decide +kernel

/-- InverseModuloGIsTheInverse: an inverse (2.6.1), and a common factor x + 3 (2.6.3). -/
theorem witness_inverseModuloGIsTheInverse :
    let k : Gf := ⟨5, 0x25⟩
    1 ≤ k.m ∧ k.m ≤ 16 ∧ k.f.getLsbD k.m = true ∧ k.f >>> (k.m + 1) = 0 ∧ k.irreducible = true ∧
    ([9, 4, 1] : Poly).all (fun c => decide (c.toNat < 2 ^ k.m)) = true ∧
    ([0x1A, 0x0A] : Poly).all (fun c => decide (c.toNat < 2 ^ k.m)) = true ∧
    1 ≤ pdeg [9, 4, 1] ∧ pinvMod k [9, 4, 1] [0x1A, 0x0A] = some [0x17, 0x0A] ∧
    ([3, 1] : Poly).all (fun c => decide (c.toNat < 2 ^ k.m)) = true ∧ pinvMod k [9, 4, 1] [3, 1] = none ∧
    (0x17 : Elem).toNat < 2 ^ k.m := by decide +kernel

/-- Key A's SQ holds the square roots of 1 and x modulo G. -/
theorem keyA_squares (i j : Nat) (hi : i < 2) :
    pcoeff (pmod ⟨5, 0x25⟩ (psq ⟨5, 0x25⟩ (([[1, 0], [9, 0x12]] : List Poly).getD i [])) [9, 4, 1]) j =
      if j = i then 1 else 0 := by
  have h0 : pmod ⟨5, 0x25⟩ (psq ⟨5, 0x25⟩ [1, 0]) [9, 4, 1] = [1, 0] := by decide +kernel
  have h1 : pmod ⟨5, 0x25⟩ (psq ⟨5, 0x25⟩ [9, 0x12]) [9, 4, 1] = [0, 1] := by decide +kernel
  obtain rfl | rfl : i = 0 ∨ i = 1 := by omega
  · rw [show ([[1, 0], [9, 0x12]] : List Poly).getD 0 [] = [1, 0] from rfl, h0]
    match j with
    | 0 => rfl
    | 1 => rfl
    | j + 2 => rfl
  · rw [show ([[1, 0], [9, 0x12]] : List Poly).getD 1 [] = [9, 0x12] from rfl, h1]
    match j with
    | 0 => rfl
    | 1 => rfl
    | j + 2 => rfl

/-- PsqrtSquaresToItsArgument (Key A: SQ[1]² = x modulo G) and PfracGivesTheFraction. -/
theorem witness_psqrtSquaresToItsArgument_pfracGivesTheFraction :
    let k : Gf := ⟨5, 0x25⟩
    1 ≤ k.m ∧ k.m ≤ 16 ∧ k.f.getLsbD k.m = true ∧ k.f >>> (k.m + 1) = 0 ∧ k.irreducible = true ∧ 1 ≤ 2 ∧
    pdeg [9, 4, 1] = (2 : Nat) ∧ ([9, 4, 1] : Poly).all (fun c => decide (c.toNat < 2 ^ k.m)) = true ∧
    ([0x17, 0x0B] : Poly).all (fun c => decide (c.toNat < 2 ^ k.m)) = true ∧
    (([1, 0] : Poly) ++ [9, 0x12]).all (fun c => decide (c.toNat < 2 ^ k.m)) = true := by decide +kernel

/-- R344, PfracGivesTheFraction: no iteration (τ of degree 2 = t/2 as it is, and b = 1), and the one iteration of
R344's example, from monic(G) also when G is not monic (G scaled by 2). -/
theorem test_pfrac_loop :
    let k : Gf := ⟨5, 0x25⟩
    let g : Poly := [0x18, 0x13, 0x17, 9, 1]
    let r := pfracMod k 4 g [0x1F, 0x1C, 0x1A, 0x1C]
    (pnorm (pfracMod k 4 g [3, 1, 2]).1, (pfracMod k 4 g [3, 1, 2]).2) = ([3, 1, 2], [1]) ∧
    (pnorm r.1, pnorm r.2) = ([0x10, 0x15], [6, 3]) ∧
    pfracMod k 4 (pscale k 2 g) [0x1F, 0x1C, 0x1A, 0x1C] = r := by decide +kernel

/-- PsqrtWritesTheRoot, PfracWritesBothParts and PlocWritesTheLocator. -/
theorem witness_psqrt_pfrac_ploc :
    let s := (keyA.putPoly 2 [0x17, 0x0B]).putPoly 3 [1]
    s.params.Legal ∧ (7 : Field).toNat < 8 ∧ (2 : Field).toNat < 8 ∧ (4 : Field) ≠ 5 ∧ s.Cfgv ∧
    s.gf.irreducible = true ∧
    (∀ k < s.params.plen, s.pSlot (2 : Field).toNat k = some (([0x17, 0x0B] : List Elem).getD k 0)) ∧
    (∀ k < s.t, s.pSlot (3 : Field).toNat k = some (([1] : List Elem).getD k 0)) ∧
    (∀ k ≤ s.t, s.gSlot k = some (([9, 4, 1] : List Elem).getD k 0)) ∧ lowBits s.m (1 : Elem) ≠ 0 ∧
    ∀ i < s.t, ∀ k < s.t, s.sqSlot i k = some (([1, 0, 9, 0x12] : List Elem).getD (2 * i + k) 0) := by
  decide +kernel

/-- RootsMarksTheRoots: a locator that splits (2.6.10) and one that does not (2.6.11), up to the last
block. -/
theorem witness_rootsMarksTheRoots :
    let s := (keyA.putPoly 6 [0x0B, 0x0A, 1]).putPoly 7 [1, 1, 1]
    (6 : Field).toNat < 8 ∧ (7 : Field).toNat < 8 ∧ s.Cfgv ∧
    (0x70 : Field).toNat + s.n / s.t - 1 < s.params.bmemLen ∧
    (∀ k < s.params.plen, s.pSlot (6 : Field).toNat k = some (([0x0B, 0x0A, 1] : List Elem).getD k 0)) ∧
    (∀ k < s.params.plen, s.pSlot (7 : Field).toNat k = some (([1, 1, 1] : List Elem).getD k 0)) ∧
    tabulate s.params.plen (fun k => lowBits s.m (([0x0B, 0x0A, 1] : List Elem).getD k 0)) = [0x0B, 0x0A, 1, 0] ∧
    (countOf s.n fun x => peval s.gf [0x0B, 0x0A, 1, 0] (BitVec.ofNat 16 x) == 0 : Int) =
      pdeg [0x0B, 0x0A, 1, 0] ∧
    tabulate s.params.plen (fun k => lowBits s.m (([1, 1, 1] : List Elem).getD k 0)) = [1, 1, 1, 0] ∧
    (countOf s.n fun x => peval s.gf [1, 1, 1, 0] (BitVec.ofNat 16 x) == 0 : Int) ≠ pdeg [1, 1, 1, 0] := by
  decide +kernel

/-- CorrectFlipsTheErrors: program 3's error vector (all positions present) and 2.6.21 (one absent). -/
theorem witness_correctFlipsTheErrors :
    let s := ((({ keyA with pos := [(1, 1), (3, 16), (11, 15)] } : State).putBlocks 0x10
      [2, 3, 1, 0, 3, 2, 1, 0]).putBlocks 0x20 [2, 0, 0, 0, 0, 2, 0, 0, 0, 0, 0, 0, 0, 0, 0, 0]).putBlocks 0x30
      [0, 2, 0, 0, 0, 0, 0, 0, 0, 0, 0, 0, 0, 0, 0, 0]
    let good : Nat → Block := fun b => ([2, 0, 0, 0, 0, 2] : List Block).getD b 0
    let bad : Nat → Block := fun b => ([0, 2] : List Block).getD b 0
    let pos : Nat → PosEntry := fun x => if x = 1 then 1 else if x = 3 then 16 else 15
    s.params.Legal ∧ s.Cfgv ∧ s.m ≤ s.nb ∧ s.cipherBits ≤ s.n / 2 ∧
    (s.m < s.nb → (0x7D : Field).toNat + s.nb - s.m - 1 < s.params.bmemLen) ∧
    (0x10 : Field).toNat + s.nb - 1 < s.params.bmemLen ∧ (0x30 : Field).toNat + s.n / s.t - 1 < s.params.bmemLen ∧
    (∀ b < s.n / s.t, s.block ((0x20 : Field).toNat + b) = some (good b)) ∧
    (∀ b < s.n / s.t, s.block ((0x30 : Field).toNat + b) = some (bad b)) ∧
    (∀ k < s.nb - s.m, s.block ((0x10 : Field).toNat + k) = some (([2, 3, 1] : List Block).getD k 0)) ∧
    (∀ x < s.n, (good (x / s.t)).getLsbD (x % s.t) = true →
      s.posEntry x = some (pos x) ∧ (pos x).toNat < s.cipherBits) ∧
    (∀ x < s.n, (bad (x / s.t)).getLsbD (x % s.t) = true → s.posEntry x = some (pos x)) ∧
    (bad (3 / s.t)).getLsbD (3 % s.t) = true ∧ s.cipherBits ≤ (pos 3).toNat ∧
    ∀ y < 3, (bad (y / s.t)).getLsbD (y % s.t) = true → (pos y).toNat < s.cipherBits := by decide +kernel

theorem keyA_goppaOk : keyA.GoppaOk := ⟨1, rfl, by decide⟩

/-- Key A with the syndromes of 2.6.18 (one error) at 0 and 2.6.17 (no inverse) at 8, one whose locator has no
roots at 0x10, and 0 at 0x18. -/
def syndromes : State :=
  (((keyA.putBlocks 0 [3, 3, 3, 0, 0]).putBlocks 8 [3, 1, 0, 0, 0]).putBlocks 0x10 [2, 1, 0, 0, 0]).putBlocks 0x18
    [0, 0, 0, 0, 0]

/-- The syndrome polynomial of the planes at `a`. -/
def syndromeAt (a : Nat) : Poly := ofPlanes 5 2 ((List.range 5).map fun i => (syndromes.block (a + i)).getD 0)

/-- The locator Key A gives a syndrome polynomial. -/
def keyALocator (syn : Poly) : Option Poly := syndromeLocator ⟨5, 0x25⟩ 2 [9, 4, 1] [[1, 0], [9, 0x12]] syn

theorem syndromes_goppaOk : syndromes.GoppaOk := ⟨1, rfl, by decide⟩

/-- DecodeWritesTheErrorVector: its hypotheses on the state. -/
theorem witness_decodeWritesTheErrorVector :
    syndromes.Cfgv ∧ syndromes.gf.irreducible = true ∧
    (0x70 : Field).toNat + syndromes.n / syndromes.t - 1 < syndromes.params.bmemLen ∧
    (0x18 : Field).toNat + syndromes.m - 1 < syndromes.params.bmemLen ∧
    (∀ i < syndromes.m, syndromes.block ((0 : Field).toNat + i) = some (([3, 3, 3, 0, 0] : List Block).getD i 0)) ∧
    (∀ i < syndromes.m, syndromes.block ((8 : Field).toNat + i) = some (([3, 1, 0, 0, 0] : List Block).getD i 0)) ∧
    (∀ i < syndromes.m, syndromes.block ((0x10 : Field).toNat + i) = some (([2, 1, 0, 0, 0] : List Block).getD i 0)) ∧
    (∀ i < syndromes.m, syndromes.block ((0x18 : Field).toNat + i) = some 0) ∧
    (∀ k ≤ syndromes.t, syndromes.gSlot k = some (([9, 4, 1] : List Elem).getD k 0)) ∧
    ∀ i < syndromes.t, ∀ k < syndromes.t,
      syndromes.sqSlot i k = some (([1, 0, 9, 0x12] : List Elem).getD (2 * i + k) 0) := by decide +kernel

/-- DecodeWritesTheErrorVector: the three outcomes, and S = 0. -/
theorem witness_decodeWritesTheErrorVector_outcomes :
    syndromeAt 0 = [7, 7] ∧ keyALocator [7, 7] = some [5, 1, 0, 0] ∧
    (countOf 32 fun x => peval ⟨5, 0x25⟩ [5, 1, 0, 0] (BitVec.ofNat 16 x) == 0 : Int) = pdeg [5, 1, 0, 0] ∧
    syndromeAt 8 = [3, 1] ∧ keyALocator [3, 1] = none ∧
    syndromeAt 0x10 = [2, 1] ∧ keyALocator [2, 1] = some [15, 5, 1, 0] ∧
    (countOf 32 fun x => peval ⟨5, 0x25⟩ [15, 5, 1, 0] (BitVec.ofNat 16 x) == 0 : Int) ≠ pdeg [15, 5, 1, 0] ∧
    syndromeAt 0x18 = [0, 0] ∧ keyALocator [0, 0] = some [1] := by decide +kernel

/-- StopsExactlyAtUndefinedCells: a syndrome with no inverse raises DECODE_FAIL 1 before the unwritten SQ is
read, which the clause on DECODE allows; one with an inverse stops. -/
theorem witness_stopsExactlyAtUndefinedCells_decode :
    let s := { syndromes with sq := [] }
    Instr.ConfigOk s (.decode 0x70 8) ∧ (∀ r ∈ Instr.regions s (.decode 0x70 8), r.2 < s.params.bmemLen) ∧
    ¬ Instr.SourcesDefined s (.decode 0x70 8) ∧ faulted s (exec (.decode 0x70 8) s) 6 1 = true ∧
    stopsAt (exec (.decode 0x70 0) s) .sq 0 = true :=
  ⟨⟨fun _ => by decide, 1, rfl, by decide⟩, by decide,
    fun h => absurd ((h.2.2 ⟨0, 0, by decide, by decide, by decide⟩).2 (by decide +kernel) 0 0 (by decide)
      (by decide)) (by decide), by decide +kernel, by decide +kernel⟩

/-- The seven commands of DecodeIsTheSequence. -/
def sequence : List Instr :=
  [.cot2p 0 0 1, .pinv 1 0, .paddx 2 1, .psqrt 3 2, .pfrac 4 5 3, .ploc 6 4 5, .roots 0x40 6]

/-- Key A in a consistent state, with the planes of 2.6.18. -/
def oneError : State := keyA.putBlocks 0 [3, 3, 3, 0, 0]

theorem oneError_inv : oneError.Inv :=
  ⟨by decide, by decide, by decide, by decide, by decide, by decide, by decide, by decide, by decide +kernel⟩

/-- DecodeIsTheSequence: S ≠ 0, and the sequence reaches its end. -/
theorem witness_decodeIsTheSequence :
    oneError.status.err = false ∧ oneError.Cfgv ∧ oneError.gf.irreducible = true ∧
    (0x40 : Field).toNat + oneError.n / oneError.t - 1 < oneError.params.bmemLen ∧
    (0 : Field).toNat + oneError.m - 1 < oneError.params.bmemLen ∧
    (∀ i < oneError.m, oneError.block ((0 : Field).toNat + i) = some (([3, 3, 3, 0, 0] : List Block).getD i 0)) ∧
    (0 < oneError.m ∧ 0 < oneError.t ∧ (3 : Block).getLsbD 0 = true) ∧
    after (execAll sequence oneError) (fun t => !t.status.err && holds t 0x42 [2]) = true := by decide +kernel

theorem oneError_goppaOk : oneError.GoppaOk := ⟨1, rfl, by decide⟩

/-- ReducibleFieldOutcomes: F = x², and each of the four commands with its regions in BMEM. -/
theorem witness_reducibleFieldOutcomes :
    fullState.params.Legal ∧ fullState.Cfgv ∧ fullState.gf.irreducible = false ∧
    Instr.WellFormed fullState.params (.pinv 7 0) ∧ Instr.WellFormed fullState.params (.psqrt 7 0) ∧
    Instr.WellFormed fullState.params (.pfrac 7 6 0) ∧ Instr.WellFormed fullState.params (.decode 4 6) ∧
    (∀ r ∈ Instr.regions fullState (.decode 4 6), r.2 < fullState.params.bmemLen) ∧
    ∀ r ∈ Instr.regions fullState (.pfrac 7 6 0), r.2 < fullState.params.bmemLen := by decide +kernel

theorem witness_reducibleFieldOutcomes_goppa : fullState.AllDefined ∧ fullState.GoppaOk :=
  ⟨fullState_allDefined, 1, rfl, by decide⟩

/-- IllegalOperandsRaise: the first illegal field in each place and of each kind at its bound (a row of SQ, a
slot, a second and a third register, a stride, a count, POSSET's immediate), with a later field illegal too; an
ill-formed command; PFRAC with equal registers. -/
theorem witness_illegalOperandsRaise :
    firstFails keyA.params (encode (.sqset 2 8)) [] .fa [(.fb, false), (.fc, true), (.fd, true)] = true ∧
    firstFails keyA.params (encode (.psetc 7 4 0)) [(.fa, true)] .fb [(.fc, true), (.fd, true)] = true ∧
    firstFails keyA.params (encode (.pinv 7 8)) [(.fa, true)] .fb [(.fc, true), (.fd, true)] = true ∧
    firstFails keyA.params (encode (.p2cot 0 8 0)) [(.fa, true)] .fb [(.fc, false), (.fd, true)] = true ∧
    firstFails keyA.params (encode (.ploc 7 7 8)) [(.fa, true), (.fb, true)] .fc [(.fd, true)] = true ∧
    firstFails keyA.params (encode (.cot2p 7 0 0)) [(.fa, true), (.fb, true)] .fc [(.fd, true)] = true ∧
    firstFails keyA.params (encode (.bcopy 0 0 0)) [(.fa, true), (.fb, true)] .fc [(.fd, true)] = true ∧
    firstFails keyA.params (encode (.posset 0 64)) [] .zImm [] = true ∧
    ¬ Instr.WellFormed keyA.params (.sqset 2 0) ∧ 8 ≤ (8 : Field).toNat ∧ (7 : Field).toNat < 8 ∧
    (0 : Field).toNat < 8 ∧ (7 : Field) = 7 := by decide +kernel

/-- R503: the first illegal field is reported, here the second register and the row of SQ. -/
theorem test_first_illegal_field :
    faulted keyA (exec (.pinv 7 8) keyA) 2 2 = true ∧ faulted keyA (exec (.sqset 2 8) keyA) 2 1 = true := by decide

/-- InvalidConfigurationRaises: after reset, and F of degree 5 with m = 4 (2.2.12). (CFGV does hold in
`witness_configurationChecksRaise`.) -/
theorem witness_invalidConfigurationRaises :
    Instr.WellFormed State.reset.params (.gauss 0) ∧ Instr.needsCfgv (.gauss 0) = true ∧ ¬ State.reset.Cfgv ∧
    ¬ (machine 2 4 4 2 8 0x25).Cfgv := by decide

/-- Key A with deg G = 1 (2.6.19). -/
def lowDegree : State := { keyA with g := [(0, 9), (1, 4), (2, 0)] }

/-- ConfigurationChecksRaise: NB = m − 1 (2.3.5), NB·t just above n/2 (2.6.20), no dimension, deg G ≠ t
(2.6.19). -/
theorem witness_configurationChecksRaise :
    ((machine 1 5 5 1 4 0x25).Cfgv ∧ (machine 1 5 5 1 4 0x25).nb < (machine 1 5 5 1 4 0x25).m) ∧
    ((machine 1 5 5 1 9 0x25).Cfgv ∧ (machine 1 5 5 1 9 0x25).n / 2 < (machine 1 5 5 1 9 0x25).cipherBits) ∧
    (keyA.Cfgv ∧ keyA.cfg.mvRows = 0) ∧ ((withDims keyA 1 0 1 1).Cfgv ∧ (withDims keyA 1 0 1 1).cfg.mvCols = 0) ∧
    (lowDegree.Cfgv ∧ lowDegree.gSlot lowDegree.t = some 0 ∧ lowBits lowDegree.m (0 : Elem) = 0) ∧
    (0 : Field).toNat < 8 ∧ (7 : Field).toNat < 8 ∧ (0 : Field) ≠ 1 := by decide

/-- RegionPastTheEndRaises: the first block past the end, in the first field and in the last. -/
theorem witness_regionPastTheEndRaises :
    Instr.WellFormed dyadicState.params (.dymul 0x80 0 0) ∧ dyadicState.Cfgv ∧
    Instr.regions dyadicState (.dymul 0x80 0 0) = [] ++ (.fa, 0x80) :: [(.fb, 0), (.fc, 0)] ∧
    Instr.regions dyadicState (.dymul 0x7F 0 0x80) = [(.fa, 0x7F), (.fb, 0)] ++ (.fc, 0x80) :: [] ∧
    (∀ r ∈ ([(.fa, 0x7F), (.fb, 0)] : List (FieldId × Nat)), r.2 < dyadicState.params.bmemLen) ∧
    dyadicState.params.bmemLen ≤ 0x80 := by decide

theorem witness_regionPastTheEndRaises_config : Instr.ConfigOk dyadicState (.dymul 0x80 0 0) :=
  ⟨fun _ => by decide, trivial⟩

/-- CommandPush: a FIFO with one place, and a full one. -/
theorem witness_commandPush :
    ({ keyA with fifo := [0] } : State).fifo.length < keyA.params.cqDepth ∧
    keyA.params.cqDepth ≤ (running 0).fifo.length := by decide

/-- BusyRefusesTheHost: a busy machine, a CSR at both ends of the nine, and a cell. -/
theorem witness_busyRefusesTheHost :
    (running 0).busy = true ∧ portWellFormed 0x80 15 = true ∧
    locate (running 0).params (0x80 : Word32).toNat = some (.csr 0x020) ∧ portWellFormed 0xA0 15 = true ∧
    locate (running 0).params (0xA0 : Word32).toNat = some (.csr 0x028) ∧ portWellFormed 0x10000 15 = true ∧
    locate (running 0).params (0x10000 : Word32).toNat = some (.p 0 0) := by decide

/-- BadAccessesSetHosterr: misaligned, a byte access, and unmapped on both sides of the CSR window's end. -/
theorem witness_badAccessesSetHosterr :
    (0x81 : Word32).toNat % 4 ≠ 0 ∧ (0b0111 : BitVec 4) ≠ 0b1111#4 ∧
    locate keyA.params (0x1000 : Word32).toNat = none ∧
    locate keyA.params (0xFFC : Word32).toNat = some (.csr 0x3FF) := by decide

/-- HostWriteThenRead: the last cell of each of the five windows. -/
theorem witness_hostWriteThenRead :
    keyA.params.Legal ∧ keyA.busy = false ∧
    portWellFormed 0x1007C 15 = true ∧ locate keyA.params (0x1007C : Word32).toNat = some (.p 7 3) ∧
    portWellFormed 0x18008 15 = true ∧ locate keyA.params (0x18008 : Word32).toNat = some (.g 2) ∧
    portWellFormed 0x2000C 15 = true ∧ locate keyA.params (0x2000C : Word32).toNat = some (.sq 1 1) ∧
    portWellFormed 0x8007C 15 = true ∧ locate keyA.params (0x8007C : Word32).toNat = some (.pos 31) ∧
    portWellFormed 0x1001FC 15 = true ∧ locate keyA.params (0x1001FC : Word32).toNat = some (.bmem 127 0) := by
  decide

/-- HostWriteThenRead: an address of the map, both ends of the nine registers, a read-only and an unlisted CSR. -/
theorem witness_hostWriteThenRead_csr :
    (0x1007C % 4 = 0 ∧ Target.Mapped keyA.params (.p 7 3) ∧ 0x1007C = Target.address keyA.params (.p 7 3)) ∧
    (0x020 ≤ (0x020 : Field).toNat ∧ (0x020 : Field).toNat ≤ 0x028 ∧ 0x020 ≤ (0x028 : Field).toNat) ∧
    (0x00A < 0x400 ∧ 0x00A ∉ [0x004, 0x005, 0x006, 0x008, 0x009] ∧ ¬ (0x020 ≤ 0x00A ∧ 0x00A ≤ 0x028)) ∧
    0x3FF < 0x400 ∧ 0x3FF ∉ [0x004, 0x005, 0x006, 0x008, 0x009] ∧ ¬ (0x020 ≤ 0x3FF ∧ 0x3FF ≤ 0x028) := by decide

/-- HostReadsAnswer: a written cell, a lane of a written word, an undefined cell, and the last CSR number. -/
theorem witness_hostReadsAnswer :
    let s := keyA.putBlocks 0 [3]
    s.params.Legal ∧ s.busy = false ∧ 0x3FF < 0x400 ∧ 0 < s.params.lanes ∧ s.blockWord 0 = some 3 ∧
    portWellFormed 0x18004 15 = true ∧ locate s.params (0x18004 : Word32).toNat = some (.g 1) ∧
    s.cellRead (.g 1) = some 4 ∧
    portWellFormed 0x10000 15 = true ∧ locate s.params (0x10000 : Word32).toNat = some (.p 0 0) ∧
    s.cellRead (.p 0 0) = none := by decide +kernel

/-- ResetReplacesTheState: RST, SRST (with EN and FLUSH also set), and a CTRL write without SRST. -/
theorem witness_resetReplacesTheState :
    ({ keyA with agenda := [.rst] } : State).agenda = .rst :: [] ∧ (7 : Word32).getLsbD 2 = true ∧
    ({ keyA with agenda := [.write 0x10 7 15] } : State).agenda = .write 0x10#32 7 0b1111#4 :: [] ∧
    (3 : Word32).getLsbD 2 = false := by decide

/-- StatusWriteEndsTheHalt. -/
theorem witness_statusWriteEndsTheHalt :
    (2 : Word32).getLsbD 1 = true ∧ ((running 0).takeFault .decodeFail 1 0).ctrlEn = true ∧
    ((running 0).takeFault .decodeFail 1 0).fifo ≠ [] := by decide

/-- CsrReadsAndInterrupt: a FIFO in range, legal parameters, and numbers between and after the listed ones. -/
theorem witness_csrReadsAndInterrupt :
    (running 0).fifo.length ≤ 255 ∧ (running 0).params.Legal ∧
    [0x003, 0x007, 0x00B, 0x011, 0x01F, 0x029, 0x3FF].all (fun k =>
      decide (k ∉ [0x000, 0x001, 0x002, 0x004, 0x005, 0x006, 0x008, 0x009, 0x00A] ∧ ¬ (0x00C ≤ k ∧ k ≤ 0x010) ∧
        ¬ (0x020 ≤ k ∧ k ≤ 0x028))) = true := by decide +kernel

/-- R67: each register of the error record at its own number, and CTRL and CMD_COUNT beside it. -/
theorem test_error_registers :
    let s := { running 0 with cmdCount := 7 }.takeFault .decodeFail 0x30003 0x0123456789ABCDEF#64
    [0x004, 0x00A, 0x00C, 0x00D, 0x00E, 0x00F, 0x010].map (fun k => (s.csrRead k).toNat) =
      [1, 7, 6, 0x30003, 0x89ABCDEF, 0x01234567, 7] := by decide +kernel

end Sys2Proof.Tests
end

/-! # The consistent states

Every step keeps `State.Inv`: the memories' part of it is kept by every write a command or the host makes, the rest
by how a command ends. -/

namespace Sys2Proof.Machine

/-! ### The memories' part of the invariant -/

/-- The part of `State.Inv` that a command's rule can touch: legal parameters and every memory in canonical form. -/
structure State.DataWf (s : State) : Prop where
  params : s.params.Legal
  p : CellsWf s.p (fun q => q / 512 < Config.nPreg ∧ q % 512 < s.params.plen) s.params.mMax
  g : CellsWf s.g (fun q => q < s.params.glen) s.params.mMax
  sq : CellsWf s.sq (fun q => q / 256 < s.params.tb ∧ q % 256 < s.params.tb) s.params.mMax
  pos : CellsWf s.pos (fun q => q < s.params.posLen) s.params.posW
  bmem : Memory.wf s.params s.bmem = true

theorem State.Inv.dataWf {s : State} (h : s.Inv) : s.DataWf :=
  ⟨h.params, h.p, h.g, h.sq, h.pos, h.bmem⟩

/-- A state with well-formed data, the FIFO no longer than before and the same error record is consistent. -/
theorem State.Inv.of_dataWf {s t : State} (h : s.Inv) (ht : t.DataWf) (hp : t.params = s.params)
    (hf : t.fifo.length ≤ s.fifo.length) (hc : t.errRec = s.errRec)
    (he : t.status.err = true → s.status.err = true) : t.Inv where
  params := ht.params
  fifo := by rw [hp]; exact Nat.le_trans hf h.fifo
  cause := by rw [hc]; exact h.cause
  halted := fun hh => by rw [hc]; exact h.halted (he hh)
  p := ht.p
  g := ht.g
  sq := ht.sq
  pos := ht.pos
  bmem := ht.bmem

/-! ### Widths and keys -/

theorem lowBits_toNat_lt_of_le {w k n : Nat} (h : k ≤ n) (v : BitVec w) : (lowBits k v).toNat < 2 ^ n :=
  Nat.lt_of_lt_of_le (toNat_lowBits_lt k v) (Nat.pow_le_pow_right (by omega) h)

theorem plen_le {p : Params} (h : p.Legal) : p.plen ≤ 512 := by
  have := tb_le h
  rw [Params.plen]; omega

theorem State.Cfgv.one_le_m {s : State} (h : s.Cfgv) : 1 ≤ s.m := h.1

theorem State.Cfgv.m_le {s : State} (h : s.Cfgv) : s.m ≤ s.params.mMax := h.2.1

theorem State.Cfgv.logT_le {s : State} (h : s.Cfgv) : s.logT ≤ s.params.tMax := by
  obtain ⟨-, -, ht, -⟩ := h
  exact ht

theorem State.Cfgv.logT_lt {s : State} (h : s.Cfgv) : s.logT < s.m := by
  obtain ⟨-, -, -, hlt, -⟩ := h
  exact hlt

/-! ### Every write keeps the data well formed -/

theorem putSlots_dataWf {s : State} (h : s.DataWf) {i k : Nat} {vs : List Elem} (hi : i < Config.nPreg)
    (hk : k + vs.length ≤ s.params.plen) (hv : ∀ v ∈ vs, v.toNat < 2 ^ s.params.mMax) :
    (s.putSlots i k vs).DataWf :=
  { h with
    p := cellsWf_cellPut h.p hv fun j hj => by
      have := plen_le h.params
      have hkey : pKey i k + j = 512 * i + (k + j) := by rw [pKey]; omega
      constructor
      · have : (pKey i k + j) / 512 = i := by omega
        omega
      · have : (pKey i k + j) % 512 = k + j := by omega
        show (pKey i k + j) % 512 < s.params.plen
        omega }

/-- `P[i] <- p`: the stored elements have m ≤ M_MAX bits, or are 0. -/
theorem putPoly_dataWf {s : State} (h : s.DataWf) {i : Nat} {p : Poly} (hi : i < Config.nPreg)
    (hp : s.m ≤ s.params.mMax ∨ p = []) : (s.putPoly i p).DataWf := by
  refine putSlots_dataWf h hi (by simp) fun v hv => ?_
  obtain ⟨k, -, rfl⟩ := mem_tabulate.1 hv
  rcases hp with hm | rfl
  · exact lowBits_toNat_lt_of_le hm _
  · simp

theorem putG_dataWf {s : State} (h : s.DataWf) {vs : List Elem} {k : Nat} (hk : k + vs.length ≤ s.params.glen)
    (hv : ∀ v ∈ vs, v.toNat < 2 ^ s.params.mMax) : ({ s with g := cellPut s.g k vs } : State).DataWf :=
  { h with g := cellsWf_cellPut h.g hv fun j hj => by show k + j < s.params.glen; omega }

theorem putSq_dataWf {s : State} (h : s.DataWf) {i k : Nat} {vs : List Elem} (hi : i < s.params.tb)
    (hk : k + vs.length ≤ s.params.tb) (hv : ∀ v ∈ vs, v.toNat < 2 ^ s.params.mMax) :
    ({ s with sq := cellPut s.sq (sqKey i k) vs } : State).DataWf :=
  { h with
    sq := cellsWf_cellPut h.sq hv fun j hj => by
      have := tb_le h.params
      have hkey : sqKey i k + j = 256 * i + (k + j) := by rw [sqKey]; omega
      constructor
      · have : (sqKey i k + j) / 256 = i := by omega
        show (sqKey i k + j) / 256 < s.params.tb
        omega
      · have : (sqKey i k + j) % 256 = k + j := by omega
        show (sqKey i k + j) % 256 < s.params.tb
        omega }

theorem putPos_dataWf {s : State} (h : s.DataWf) {x : Nat} {v : PosEntry} (hx : x < s.params.posLen)
    (hv : v.toNat < 2 ^ s.params.posW) : (s.putPos x v).DataWf :=
  { h with
    pos := cellsWf_cellPut h.pos (by simpa using hv) fun j hj => by
      have : j = 0 := by simpa using hj
      show x + j < s.params.posLen
      omega }

theorem putBlocks_dataWf {s : State} (h : s.DataWf) (hc : s.Cfgv) {a : Nat} {vs : List Block}
    (hr : a + vs.length ≤ s.params.bmemLen ∨ vs = []) : (s.putBlocks a vs).DataWf :=
  { h with bmem := putBlocks_wf h.params hc.logT_le h.bmem hr }

theorem putBlock_dataWf {s : State} (h : s.DataWf) (hc : s.Cfgv) {a : Nat} {v : Block}
    (ha : a < s.params.bmemLen) : (s.putBlock a v).DataWf :=
  putBlocks_dataWf h hc (.inl ha)

theorem putStrided_dataWf {s : State} (h : s.DataWf) (hc : s.Cfgv) {a stride : Nat} {vs : List Block}
    (hr : vs ≠ [] → a + (vs.length - 1) * stride < s.params.bmemLen) : (s.putStrided a stride vs).DataWf := by
  rw [putStrided_eq]
  exact { h with bmem := putStrided_wf h.params hc.logT_le h.bmem hr }

theorem setOutcome_dataWf {s : State} (h : s.DataWf) (b : Bool) : (s.setOutcome b).DataWf := { h with }

theorem drawn_dataWf {s : State} (h : s.DataWf) : s.drawn.DataWf := { h with }

theorem putConfig_dataWf {s : State} (h : s.DataWf) (k : Nat) (v : Word32) : (s.putConfig k v).DataWf := by
  unfold State.putConfig
  repeat' split
  all_goals exact { h with }

/-! ### What the checks and the reads give -/

/-- A check answers nothing but that it passed. -/
theorem exists_unit_iff {p : Unit → Prop} : (∃ u, p u) ↔ p () := ⟨fun ⟨_, h⟩ => h, fun h => ⟨(), h⟩⟩

theorem legal_preg {p : Params} {v : Field} : FieldKind.preg.legal p v = true ↔ v.toNat < Config.nPreg :=
  decide_eq_true_iff

theorem legal_slot {p : Params} {v : Field} : FieldKind.slot.legal p v = true ↔ v.toNat < p.plen :=
  decide_eq_true_iff

theorem legal_sqRow {p : Params} {v : Field} : FieldKind.sqRow.legal p v = true ↔ v.toNat < p.tb :=
  decide_eq_true_iff

theorem legal_positive {p : Params} {v : Field} : FieldKind.positive.legal p v = true ↔ 1 ≤ v.toNat :=
  decide_eq_true_iff

/-- A raw read of P gives as many values as asked for, each within the cell's width. -/
theorem readSlots_ok {s : State} (h : s.DataWf) {i n : Nat} {vs : List Elem} (hr : readSlots s i n = .ok vs) :
    vs.length = n ∧ ∀ v ∈ vs, v.toNat < 2 ^ s.params.mMax := by
  obtain ⟨hl, hf⟩ := collect_eq_ok.1 hr
  refine ⟨hl, fun v hv => ?_⟩
  obtain ⟨k, hk, rfl⟩ := List.getElem_of_mem hv
  exact cellsWf_get h.p (readCell_eq_ok.1 (hf k hk))

/-- The words BCOPY reads have no bit at TB or above. -/
theorem blockWord_high {s : State} (h : s.DataWf) {a : Nat} {v : Block} (hb : s.blockWord a = some v) {i : Nat}
    (hi : s.params.tb ≤ i) : v.getLsbD i = false := by
  obtain ⟨w, hg, -, rfl⟩ := blockWord_eq_some.1 hb
  obtain ⟨-, hw⟩ := (Memory.wf_iff.1 h.bmem).2 _ (cellGet_mem hg)
  obtain ⟨-, -, hhigh, -⟩ := (BWord.wf_iff h.params).1 hw
  exact hhigh i hi

/-! ### The shape of the eliminated matrix -/

/-- A list of `m` block rows of `nb` blocks each. -/
def IsMatrix (m nb : Nat) (w : List BlockRow) : Prop := w.length = m ∧ ∀ row ∈ w, row.length = nb

theorem IsMatrix.length_rowAt {m nb : Nat} {w : List BlockRow} (h : IsMatrix m nb w) {r : Nat} (hr : r < m) :
    (rowAt w r).length = nb := by
  obtain ⟨hl, hrow⟩ := h
  have hr' : r < w.length := by omega
  rw [rowAt, List.getD_eq_getElem _ _ hr']
  exact hrow _ (List.getElem_mem hr')

theorem IsMatrix.set {m nb : Nat} {w : List BlockRow} (h : IsMatrix m nb w) (r : Nat) {row : BlockRow}
    (hrow : row.length = nb) : IsMatrix m nb (w.set r row) := by
  refine ⟨by simpa using h.1, fun x hx => ?_⟩
  rcases List.mem_or_eq_of_mem_set hx with hx | rfl
  · exact h.2 x hx
  · exact hrow

theorem IsMatrix.eliminateRow {m nb t i c r : Nat} {w : List BlockRow} (h : IsMatrix m nb w) (hi : i < m)
    (hr : r < m) : IsMatrix m nb (eliminateRow t i c w r) :=
  h.set r (by simp [rowXor, rowScale, h.length_rowAt hi, h.length_rowAt hr])

/-- Row operations over a list of rows keep the shape. -/
theorem IsMatrix.foldl_eliminateRow {m nb t i c : Nat} {w : List BlockRow} (h : IsMatrix m nb w) (hi : i < m)
    {l : List Nat} (hl : ∀ r ∈ l, r < m) : IsMatrix m nb (l.foldl (Machine.eliminateRow t i c) w) :=
  List.foldlRecOn l _ h fun _ hb r hr => hb.eliminateRow hi (hl r hr)

theorem findPivot_lt {t m i c : Nat} {w : List BlockRow} {j : Nat} (h : findPivot t m i c w = some j) : j < m := by
  have := List.mem_range'_1.1 (List.mem_of_find?_eq_some h)
  omega

theorem IsMatrix.gaussStep {m nb t i : Nat} {w w' : List BlockRow} (h : IsMatrix m nb w) (hi : i < m)
    (hs : gaussStep t m nb w i = some w') : IsMatrix m nb w' := by
  simp only [Machine.gaussStep] at hs
  split at hs
  · cases hs
  next j hj =>
    have hjm := findPivot_lt hj
    have h1 : IsMatrix m nb (if j = i then w else w.set i (rowXor (rowAt w i) (rowAt w j))) := by
      split
      · exact h
      · exact h.set i (by simp [rowXor, h.length_rowAt hi, h.length_rowAt hjm])
    cases hs
    refine (h1.set i (by simpa [rowScale] using h1.length_rowAt hi)).foldl_eliminateRow hi fun r hr => ?_
    obtain ⟨-, hr⟩ := List.mem_range'_1.1 hr
    omega

theorem IsMatrix.gaussSteps {m nb t : Nat} {l : List Nat} (hl : ∀ i ∈ l, i < m) {w w' : List BlockRow}
    (h : IsMatrix m nb w) (hs : l.foldlM (Machine.gaussStep t m nb) w = some w') : IsMatrix m nb w' := by
  induction l generalizing w with
  | nil => cases hs; exact h
  | cons i l ih =>
    rw [List.foldlM_cons] at hs
    obtain ⟨u, hu, hs⟩ := Option.bind_eq_some_iff.1 hs
    exact ih (fun j hj => hl j (List.mem_cons_of_mem _ hj)) (h.gaussStep (hl i List.mem_cons_self) hu) hs

theorem IsMatrix.jordanPhase {m nb t : Nat} {w : List BlockRow} (h : IsMatrix m nb w) :
    IsMatrix m nb (jordanPhase t m nb w) := by
  refine List.foldlRecOn _ _ h fun b hb i hi => ?_
  have := List.mem_range'_1.1 (List.mem_reverse.1 hi)
  exact hb.foldl_eliminateRow (by omega) fun r hr => by have := List.mem_range.1 hr; omega

theorem IsMatrix.gaussJordan {m nb t : Nat} {w w' : List BlockRow} (h : IsMatrix m nb w)
    (hs : gaussJordan t m nb w = some w') : IsMatrix m nb w' := by
  obtain ⟨u, hu, rfl⟩ := Option.map_eq_some_iff.1 hs
  exact (h.gaussSteps (fun i hi => List.mem_range.1 hi) hu).jordanPhase

theorem IsMatrix.length_flatten {m nb : Nat} {w : List BlockRow} (h : IsMatrix m nb w) :
    w.flatten.length = m * nb := by
  obtain ⟨hl, hrow⟩ := h
  rw [List.length_flatten, List.map_congr_left hrow, List.map_const', hl, List.sum_replicate, smul_eq_mul]

/-! ### Lengths of the error vectors -/

@[simp] theorem length_flipBit (t : Nat) (v : List Block) (p : Nat) : (flipBit t v p).length = v.length := by
  simp [flipBit]

theorem length_applyErrors (t plain : Nat) (w : List Block) (ps : List Nat) :
    (applyErrors t plain w ps).length = w.length := by
  refine List.foldlRecOn (motive := fun v : List Block => v.length = w.length) ps _ rfl fun v hv p _ => ?_
  split <;> simp [hv]

/-- With a valid configuration an error vector has at least one block. -/
theorem vector_blocks_pos {s : State} (hc : s.Cfgv) : 1 ≤ s.n / s.t := by
  have hlt := hc.logT_lt
  rw [State.n, State.t, Nat.pow_div (by omega) (by omega)]
  exact Nat.one_le_two_pow

/-! ### Every rule keeps the data well formed -/

/-- Under either kind of field polynomial: what is written is the free result or the exact one. -/
theorem underField_dataWf {s w s' : State} {e : Run State} (h : underField s w e = .ok s') (hw : w.DataWf)
    (he : e = .ok s' → s'.DataWf) : s'.DataWf := by
  rcases underField_ok h with ⟨-, hok⟩ | ⟨-, rfl⟩
  · exact he hok
  · exact drawn_dataWf hw

theorem rulePosset_dataWf {x : Field} {imm : PosEntry} {s s' : State} (h : s.DataWf)
    (hr : rulePosset x imm s = .ok s') : s'.DataWf := by
  simp only [rulePosset, run_bind_eq_ok, exists_unit_iff, run_pure, require_eq_ok, decide_eq_true_iff] at hr
  obtain ⟨himm, hx, hs⟩ := hr
  cases hs
  exact putPos_dataWf h hx himm

theorem ruleDymul_dataWf {d a b : Field} {s s' : State} (h : s.DataWf) (hr : ruleDymul d a b s = .ok s') :
    s'.DataWf := by
  simp only [ruleDymul, run_bind_eq_ok, exists_unit_iff, run_pure, checkCfgv_eq_ok, checkRegion_eq_ok] at hr
  obtain ⟨hc, hd, -, -, x, -, y, -, hs⟩ := hr
  cases hs
  exact putBlock_dataWf h hc hd

theorem ruleDyadd_dataWf {d a b : Field} {s s' : State} (h : s.DataWf) (hr : ruleDyadd d a b s = .ok s') :
    s'.DataWf := by
  simp only [ruleDyadd, run_bind_eq_ok, exists_unit_iff, run_pure, checkCfgv_eq_ok, checkRegion_eq_ok] at hr
  obtain ⟨hc, hd, -, -, x, -, y, -, hs⟩ := hr
  cases hs
  exact putBlock_dataWf h hc hd

theorem ruleDyreg_dataWf {a : Field} {s s' : State} (h : s.DataWf) (hr : ruleDyreg a s = .ok s') : s'.DataWf := by
  simp only [ruleDyreg, run_bind_eq_ok, exists_unit_iff, run_pure] at hr
  obtain ⟨-, -, x, -, hs⟩ := hr
  cases hs
  exact setOutcome_dataWf h _

theorem ruleDyinv_dataWf {d a : Field} {s s' : State} (h : s.DataWf) (hr : ruleDyinv d a s = .ok s') :
    s'.DataWf := by
  simp only [ruleDyinv, run_bind_eq_ok, exists_unit_iff, run_pure, checkCfgv_eq_ok, checkRegion_eq_ok] at hr
  obtain ⟨hc, hd, -, x, -, hs⟩ := hr
  split at hs
  · cases hs; exact putBlock_dataWf (setOutcome_dataWf h _) hc hd
  · cases hs; exact setOutcome_dataWf h _

theorem ruleBcopy_dataWf {d src count : Field} {s s' : State} (h : s.DataWf)
    (hr : ruleBcopy d src count s = .ok s') : s'.DataWf := by
  simp only [ruleBcopy, run_bind_eq_ok, exists_unit_iff, run_pure, checkOperands_eq_ok, checkRegion_eq_ok,
    List.mem_singleton, forall_eq, legal_positive] at hr
  obtain ⟨hcount, hd, -, ws, hws, hs⟩ := hr
  cases hs
  obtain ⟨hl, hread⟩ := collect_eq_ok.1 hws
  refine { h with bmem := putWords_wf h.params h.bmem (fun v hv i hi => ?_) (by omega) }
  obtain ⟨k, hk, rfl⟩ := List.getElem_of_mem hv
  exact blockWord_high h (readCell_eq_ok.1 (hread k hk)) hi

theorem ruleMatvec_dataWf {d mat v : Field} {s s' : State} (h : s.DataWf) (hr : ruleMatvec d mat v s = .ok s') :
    s'.DataWf := by
  simp only [ruleMatvec, run_bind_eq_ok, exists_unit_iff, run_pure, checkCfgv_eq_ok, checkRegion_eq_ok,
    require_eq_ok, decide_eq_true_iff] at hr
  obtain ⟨hc, hdim, hd, -, -, rows, hrows, xs, -, hs⟩ := hr
  cases hs
  obtain ⟨hl, -⟩ := collect_eq_ok.1 hrows
  exact putBlocks_dataWf h hc (.inl (by rw [List.length_map]; omega))

theorem ruleGauss_dataWf {base : Field} {s s' : State} (h : s.DataWf) (hr : ruleGauss base s = .ok s') :
    s'.DataWf := by
  simp only [ruleGauss, run_bind_eq_ok, exists_unit_iff, run_pure, checkCfgv_eq_ok, checkRegion_eq_ok,
    require_eq_ok, decide_eq_true_iff] at hr
  obtain ⟨hc, hnb, hbase, w, hw, hs⟩ := hr
  split at hs
  · cases hs; exact setOutcome_dataWf h _
  next w' hg =>
    cases hs
    obtain ⟨hl, hread⟩ := collect_eq_ok.1 hw
    have hshape : IsMatrix s.m s.nb w := ⟨hl, fun row hrow => by
      obtain ⟨j, hj, rfl⟩ := List.getElem_of_mem hrow
      exact (collect_eq_ok.1 (hread j hj)).1⟩
    have hlen : w'.flatten.length = s.m * s.nb := (hshape.gaussJordan hg).length_flatten
    have hpos : 1 ≤ s.m * s.nb := Nat.mul_pos hc.one_le_m (Nat.le_trans hc.one_le_m hnb)
    refine putBlocks_dataWf (s := s.setOutcome true) (setOutcome_dataWf h _) hc (.inl ?_)
    show base.toNat + w'.flatten.length ≤ s.params.bmemLen
    omega

theorem ruleCot2p_dataWf {pd base stride : Field} {s s' : State} (h : s.DataWf)
    (hr : ruleCot2p pd base stride s = .ok s') : s'.DataWf := by
  simp only [ruleCot2p, run_bind_eq_ok, exists_unit_iff, run_pure, checkOperands_eq_ok, checkCfgv_eq_ok,
    List.forall_mem_cons, legal_preg] at hr
  obtain ⟨⟨hpd, -⟩, hc, -, planes, -, hs⟩ := hr
  cases hs
  exact putPoly_dataWf h hpd (.inl hc.m_le)

theorem ruleP2cot_dataWf {base ps stride : Field} {s s' : State} (h : s.DataWf)
    (hr : ruleP2cot base ps stride s = .ok s') : s'.DataWf := by
  simp only [ruleP2cot, run_bind_eq_ok, exists_unit_iff, run_pure, checkCfgv_eq_ok, checkRegion_eq_ok] at hr
  obtain ⟨-, hc, hbase, e, -, hs⟩ := hr
  cases hs
  exact putStrided_dataWf h hc fun _ => by simpa [toPlanes] using hbase

/-- A decoder command writes the polynomial it computed, or a free one, to a register. -/
theorem rulePinv_dataWf {pd ps : Field} {s s' : State} (h : s.DataWf) (hr : rulePinv pd ps s = .ok s') :
    s'.DataWf := by
  simp only [rulePinv, run_bind_eq_ok, exists_unit_iff, checkOperands_eq_ok, checkCfgv_eq_ok,
    List.forall_mem_cons, legal_preg] at hr
  obtain ⟨⟨hpd, -⟩, hc, -, p, -, g, -, hu⟩ := hr
  refine underField_dataWf hu (putPoly_dataWf h hpd (.inl hc.m_le)) fun hs => ?_
  split at hs
  · cases hs
  · cases hs; exact putPoly_dataWf h hpd (.inl hc.m_le)

theorem rulePaddx_dataWf {pd ps : Field} {s s' : State} (h : s.DataWf) (hr : rulePaddx pd ps s = .ok s') :
    s'.DataWf := by
  simp only [rulePaddx, run_bind_eq_ok, exists_unit_iff, run_pure, checkOperands_eq_ok, checkCfgv_eq_ok,
    List.forall_mem_cons, legal_preg] at hr
  obtain ⟨⟨hpd, -⟩, hc, p, -, hs⟩ := hr
  cases hs
  exact putPoly_dataWf h hpd (.inl hc.m_le)

theorem rulePsqrt_dataWf {pd ps : Field} {s s' : State} (h : s.DataWf) (hr : rulePsqrt pd ps s = .ok s') :
    s'.DataWf := by
  simp only [rulePsqrt, run_bind_eq_ok, exists_unit_iff, checkOperands_eq_ok, checkCfgv_eq_ok,
    List.forall_mem_cons, legal_preg] at hr
  obtain ⟨⟨hpd, -⟩, hc, -, p, -, g, -, sq, -, hu⟩ := hr
  refine underField_dataWf hu (putPoly_dataWf h hpd (.inl hc.m_le)) fun hs => ?_
  cases hs
  exact putPoly_dataWf h hpd (.inl hc.m_le)

theorem rulePfrac_dataWf {pa pb ps : Field} {s s' : State} (h : s.DataWf) (hr : rulePfrac pa pb ps s = .ok s') :
    s'.DataWf := by
  simp only [rulePfrac, run_bind_eq_ok, exists_unit_iff, checkOperands_eq_ok, checkCfgv_eq_ok,
    List.forall_mem_cons, legal_preg] at hr
  obtain ⟨⟨hpa, hpb, -⟩, -, hc, -, p, -, g, -, hu⟩ := hr
  have hboth : ∀ a b : Poly, ((s.putPoly pa.toNat a).putPoly pb.toNat b).DataWf := fun a b =>
    putPoly_dataWf (putPoly_dataWf h hpa (.inl hc.m_le)) hpb (.inl hc.m_le)
  refine underField_dataWf hu (hboth _ _) fun hs => ?_
  cases hs
  exact hboth _ _

theorem rulePloc_dataWf {pd pa pb : Field} {s s' : State} (h : s.DataWf) (hr : rulePloc pd pa pb s = .ok s') :
    s'.DataWf := by
  simp only [rulePloc, run_bind_eq_ok, exists_unit_iff, run_pure, checkOperands_eq_ok, checkCfgv_eq_ok,
    List.forall_mem_cons, legal_preg] at hr
  obtain ⟨⟨hpd, -⟩, hc, a, -, b, -, hs⟩ := hr
  cases hs
  exact putPoly_dataWf h hpd (.inl hc.m_le)

/-- An error vector fits the region of ROOTS and DECODE. -/
theorem putVector_dataWf {s : State} (h : s.DataWf) (hc : s.Cfgv) {e : Nat}
    (he : e + s.n / s.t - 1 < s.params.bmemLen) {ev : List Block} (hl : ev.length = s.n / s.t) :
    (s.putBlocks e ev).DataWf := by
  have := vector_blocks_pos hc
  exact putBlocks_dataWf h hc (.inl (by omega))

theorem length_of_rootVector {s : State} {sigma : Poly} {ev : List Block} (h : rootVector s sigma = .ok ev) :
    ev.length = s.n / s.t := by
  simp only [rootVector, run_bind_eq_ok, exists_unit_iff, run_pure] at h
  obtain ⟨-, hev⟩ := h
  cases hev
  simp [rootBlocks]

theorem ruleRoots_dataWf {e ps : Field} {s s' : State} (h : s.DataWf) (hr : ruleRoots e ps s = .ok s') :
    s'.DataWf := by
  simp only [ruleRoots, run_bind_eq_ok, exists_unit_iff, run_pure, checkCfgv_eq_ok, checkRegion_eq_ok] at hr
  obtain ⟨-, hc, he, sigma, -, ev, hev, hs⟩ := hr
  cases hs
  exact putVector_dataWf h hc he (length_of_rootVector hev)

theorem ruleCorrect_dataWf {d c e : Field} {s s' : State} (h : s.DataWf) (hr : ruleCorrect d c e s = .ok s') :
    s'.DataWf := by
  simp only [ruleCorrect, run_bind_eq_ok, exists_unit_iff, run_pure, checkCfgv_eq_ok, checkRegion_eq_ok,
    require_eq_ok, decide_eq_true_iff] at hr
  obtain ⟨hc, -, hd, -, -, ev, -, w, hw, ps, -, hs⟩ := hr
  cases hs
  have hl : (applyErrors s.t s.plainBits w ps).length = s.nb - s.m := by
    rw [length_applyErrors]; exact (collect_eq_ok.1 hw).1
  refine putBlocks_dataWf h hc ?_
  by_cases hlt : s.m < s.nb
  · have := hd hlt
    exact .inl (by omega)
  · exact .inr (List.length_eq_zero_iff.1 (by omega))

theorem ruleDecode_dataWf {e syn : Field} {s s' : State} (h : s.DataWf) (hr : ruleDecode e syn s = .ok s') :
    s'.DataWf := by
  simp only [ruleDecode, run_bind_eq_ok, exists_unit_iff, run_pure, checkCfgv_eq_ok,
    checkRegion_eq_ok] at hr
  obtain ⟨hc, -, he, -, planes, -, g, -, hu⟩ := hr
  refine underField_dataWf hu (putVector_dataWf h hc he (by simp [freeVector])) fun hs => ?_
  simp only [run_bind_eq_ok] at hs
  obtain ⟨sigma, -, ev, hev, hs⟩ := hs
  cases hs
  exact putVector_dataWf h hc he (length_of_rootVector hev)

theorem rulePclr_dataWf {pd : Field} {s s' : State} (h : s.DataWf) (hr : rulePclr pd s = .ok s') : s'.DataWf := by
  simp only [rulePclr, run_bind_eq_ok, exists_unit_iff, run_pure, checkOperands_eq_ok, List.mem_singleton,
    forall_eq, legal_preg] at hr
  obtain ⟨hpd, hs⟩ := hr
  cases hs
  exact putPoly_dataWf h hpd (.inr rfl)

theorem rulePmov_dataWf {pd ps : Field} {s s' : State} (h : s.DataWf) (hr : rulePmov pd ps s = .ok s') :
    s'.DataWf := by
  simp only [rulePmov, run_bind_eq_ok, exists_unit_iff, run_pure, checkOperands_eq_ok, List.forall_mem_cons,
    legal_preg] at hr
  obtain ⟨⟨hpd, -⟩, vs, hvs, hs⟩ := hr
  cases hs
  obtain ⟨hl, hv⟩ := readSlots_ok h hvs
  exact putSlots_dataWf h hpd (by omega) hv

theorem rulePsetc_dataWf {pd k value : Field} {s s' : State} (h : s.DataWf) (hr : rulePsetc pd k value s = .ok s') :
    s'.DataWf := by
  simp only [rulePsetc, run_bind_eq_ok, exists_unit_iff, run_pure, checkOperands_eq_ok,
    List.forall_mem_cons, legal_preg, legal_slot] at hr
  obtain ⟨⟨hpd, hk, -⟩, hs⟩ := hr
  cases hs
  exact putSlots_dataWf h hpd hk (by simpa using toNat_lowBits_lt s.params.mMax value)

theorem ruleGset_dataWf {ps : Field} {s s' : State} (h : s.DataWf) (hr : ruleGset ps s = .ok s') : s'.DataWf := by
  simp only [ruleGset, run_bind_eq_ok, exists_unit_iff, run_pure] at hr
  obtain ⟨-, vs, hvs, hs⟩ := hr
  cases hs
  obtain ⟨hl, hv⟩ := readSlots_ok h hvs
  exact putG_dataWf h (by omega) hv

theorem ruleSqset_dataWf {i ps : Field} {s s' : State} (h : s.DataWf) (hr : ruleSqset i ps s = .ok s') :
    s'.DataWf := by
  simp only [ruleSqset, run_bind_eq_ok, exists_unit_iff, run_pure, checkOperands_eq_ok,
    List.forall_mem_cons, legal_sqRow] at hr
  obtain ⟨⟨hi, -⟩, vs, hvs, hs⟩ := hr
  cases hs
  obtain ⟨hl, hv⟩ := readSlots_ok h hvs
  exact putSq_dataWf h hi (by omega) hv

/-- A rule that ends well keeps the data well formed. -/
theorem rule_ok_dataWf {i : Instr} {s s' : State} (h : s.DataWf) (hr : ruleOf i s = .ok s') : s'.DataWf := by
  cases i with
  | nop => cases hr; exact h
  | sync => cases hr; exact { h with }
  | csrw csr imm =>
    simp only [ruleOf, ruleCsrw, run_bind_eq_ok, exists_unit_iff, run_pure] at hr
    obtain ⟨-, hs⟩ := hr
    cases hs
    exact putConfig_dataWf h _ _
  | posset x imm => exact rulePosset_dataWf h hr
  | dymul d a b => exact ruleDymul_dataWf h hr
  | dyadd d a b => exact ruleDyadd_dataWf h hr
  | dyreg a => exact ruleDyreg_dataWf h hr
  | dyinv d a => exact ruleDyinv_dataWf h hr
  | bcopy d src count => exact ruleBcopy_dataWf h hr
  | matvec d mat v => exact ruleMatvec_dataWf h hr
  | gauss base => exact ruleGauss_dataWf h hr
  | cot2p pd base stride => exact ruleCot2p_dataWf h hr
  | p2cot base ps stride => exact ruleP2cot_dataWf h hr
  | pinv pd ps => exact rulePinv_dataWf h hr
  | paddx pd ps => exact rulePaddx_dataWf h hr
  | psqrt pd ps => exact rulePsqrt_dataWf h hr
  | pfrac pa pb ps => exact rulePfrac_dataWf h hr
  | ploc pd pa pb => exact rulePloc_dataWf h hr
  | roots e ps => exact ruleRoots_dataWf h hr
  | correct d c e => exact ruleCorrect_dataWf h hr
  | decode e syn => exact ruleDecode_dataWf h hr
  | pclr pd => exact rulePclr_dataWf h hr
  | pmov pd ps => exact rulePmov_dataWf h hr
  | psetc pd k value => exact rulePsetc_dataWf h hr
  | gset ps => exact ruleGset_dataWf h hr
  | sqset i ps => exact ruleSqset_dataWf h hr

/-! ### How a command ends -/

theorem retire_inv {s : State} (h : s.Inv) : s.retire.Inv := { h with }

theorem drawn_inv {s : State} (h : s.Inv) : s.drawn.Inv := { h with }

theorem Cause.code_bounds (c : Cause) : c.code.toNat ≤ 6 ∧ c.code ≠ 0 := by
  cases c <;> decide

/-- A fault leaves a cause on record. -/
theorem takeFault_inv {s : State} (h : s.Inv) (c : Cause) (info : Word32) (w : Command) :
    (s.takeFault c info w).Inv :=
  { h with
    cause := c.code_bounds.1
    halted := fun _ => c.code_bounds.2 }

theorem rule_ok_inv {i : Instr} {s s' : State} (h : s.Inv) (hr : ruleOf i s = .ok s') : s'.Inv := by
  have same := rule_ok_same hr
  exact h.of_dataWf (rule_ok_dataWf h.dataWf hr) same.params (by rw [same.fifo]) same.errRec
    fun he => by rwa [← same.err]

/-- A command keeps the consistent states, however it ends. -/
theorem exec_inv {i : Instr} {s t : State} (h : s.Inv) (he : exec i s = .next t) :
    t.Inv ∧ t.params = s.params := by
  rw [exec_eq_commit] at he
  rcases commit_eq_next.1 he with ⟨s', hr, rfl⟩ | ⟨c, info, -, rfl⟩ | ⟨c, info, -, rfl⟩
  · exact ⟨retire_inv (rule_ok_inv h hr), (rule_ok_same hr).params⟩
  · exact ⟨takeFault_inv h _ _ _, rfl⟩
  · exact ⟨takeFault_inv (drawn_inv h) _ _ _, rfl⟩

theorem runWord_inv {s t : State} {w : Command} (h : s.Inv) (hr : runWord s w = .next t) :
    t.Inv ∧ t.params = s.params := by
  unfold runWord at hr
  split at hr
  · exact exec_inv h hr
  · cases hr; exact ⟨takeFault_inv h _ _ _, rfl⟩

/-- Taking the head of the FIFO leaves it no longer than it was. -/
theorem sequencerTurn_inv {s t : State} (h : s.Inv) (hr : sequencerTurn s = .next t) :
    t.Inv ∧ t.params = s.params := by
  unfold sequencerTurn at hr
  split at hr
  · split at hr
    · cases hr; exact ⟨h, rfl⟩
    next w rest hf =>
      have hrest : ({ s with fifo := rest } : State).Inv :=
        { h with fifo := by have := h.fifo; rw [hf, List.length_cons] at this; exact Nat.le_of_succ_le this }
      have hafter := runWord_inv hrest hr
      exact hafter
  · cases hr; exact ⟨h, rfl⟩

/-! ### The host's writes -/

theorem hostError_inv {s : State} (h : s.Inv) : s.hostError.Inv := { h with }

theorem answer_inv {s : State} (h : s.Inv) (v : Word32) : (s.answer v).Inv := { h with }

theorem answerFree_inv {s : State} (h : s.Inv) (width : Nat) : (s.answerFree width).Inv := { h with }

/-- The reset state of a legal configuration is consistent. -/
theorem resetWith_inv {p : Params} (hp : p.Legal) : (State.resetWith p).Inv where
  params := hp
  fifo := Nat.zero_le _
  cause := Nat.zero_le _
  halted := fun h => by cases h
  p := ⟨.nil, by simp [State.resetWith]⟩
  g := ⟨.nil, by simp [State.resetWith]⟩
  sq := ⟨.nil, by simp [State.resetWith]⟩
  pos := ⟨.nil, by simp [State.resetWith]⟩
  bmem := resetWith_wf p

theorem doReset_inv {s : State} (h : s.Inv) : s.doReset.Inv := { resetWith_inv h.params with }

theorem writeCtrl_inv {s : State} (h : s.Inv) (v : Word32) :
    (s.writeCtrl v).Inv ∧ (s.writeCtrl v).params = s.params := by
  unfold State.writeCtrl
  split
  · exact ⟨doReset_inv h, rfl⟩
  · refine ⟨{ h with fifo := ?_ }, rfl⟩
    show (if v.getLsbD 1 then [] else s.fifo).length ≤ s.params.cqDepth
    split
    · exact Nat.zero_le _
    · exact h.fifo

/-- Clearing sticky bits sets none: the machine is halted afterwards only if it was. -/
theorem clearStatus_inv {s : State} (h : s.Inv) (v : Word32) : (s.clearStatus v).Inv :=
  { h with halted := fun he => h.halted ((Bool.and_eq_true _ _).mp he).1 }

theorem pushCommand_inv {s : State} (h : s.Inv) (v : Word32) :
    (s.pushCommand v).Inv ∧ (s.pushCommand v).params = s.params := by
  unfold State.pushCommand
  split
  next hlt => exact ⟨{ h with fifo := by show (s.fifo ++ _).length ≤ _; simpa using hlt }, rfl⟩
  next => exact ⟨{ h with }, rfl⟩

theorem putConfig_inv {s : State} (h : s.Inv) (k : Nat) (v : Word32) :
    (s.putConfig k v).Inv ∧ (s.putConfig k v).params = s.params := by
  have same := putConfig_same s k v
  exact ⟨h.of_dataWf (putConfig_dataWf h.dataWf k v) same.params (by rw [same.fifo]) same.errRec
    fun he => by rwa [← same.err], same.params⟩

theorem csrWrite_inv {s : State} (h : s.Inv) (k : Nat) (v : Word32) :
    (s.csrWrite k v).Inv ∧ (s.csrWrite k v).params = s.params := by
  unfold State.csrWrite
  split_ifs
  · exact writeCtrl_inv h v
  · exact ⟨clearStatus_inv h v, rfl⟩
  · exact ⟨{ h with }, rfl⟩
  · exact ⟨{ h with }, rfl⟩
  · exact pushCommand_inv h v
  · exact ⟨hostError_inv h, rfl⟩
  · exact putConfig_inv h k v
  · exact ⟨h, rfl⟩

/-! ### The address map -/

theorem windowIndex_eq_some {base size addr q : Nat} (h : windowIndex base size addr = some q) :
    q < size := by
  unfold windowIndex at h
  split at h
  · cases h; omega
  · cases h

/-- A mapped address names a cell the configuration has. -/
theorem locate_mapped {p : Params} {addr : Nat} {target : Target} (h : locate p addr = some target) :
    target.Mapped p := by
  have htb : 0 < p.tb := Nat.two_pow_pos _
  have hplen : 0 < p.plen := by rw [Params.plen]; omega
  have hlanes : 0 < p.lanes := Nat.le_max_left _ _
  simp only [locate] at h
  split at h
  next q hq => cases h; exact windowIndex_eq_some hq
  next =>
  split at h
  next q hq =>
    cases h
    exact ⟨Nat.div_lt_of_lt_mul (Nat.mul_comm _ _ ▸ windowIndex_eq_some hq), Nat.mod_lt _ hplen⟩
  next =>
  split at h
  next q hq => cases h; exact windowIndex_eq_some hq
  next =>
  split at h
  next q hq => cases h; exact ⟨Nat.div_lt_of_lt_mul (windowIndex_eq_some hq), Nat.mod_lt _ htb⟩
  next =>
  split at h
  next q hq => cases h; exact windowIndex_eq_some hq
  next =>
  split at h
  next q hq =>
    cases h
    exact ⟨Nat.div_lt_of_lt_mul (Nat.mul_comm _ _ ▸ windowIndex_eq_some hq), Nat.mod_lt _ hlanes⟩
  next => cases h

/-- A host write of a cell cuts the value to the cell's width. -/
theorem cellWrite_inv {s : State} (h : s.Inv) (v : Word32) {target : Target} (ht : target.Mapped s.params) :
    (s.cellWrite v target).Inv ∧ (s.cellWrite v target).params = s.params := by
  have hd := h.dataWf
  have hv : ∀ u ∈ [lowBits s.params.mMax (v.setWidth 16)], u.toNat < 2 ^ s.params.mMax := by
    simpa using toNat_lowBits_lt s.params.mMax (v.setWidth 16)
  have keep : ∀ t : State, t.DataWf → t.params = s.params → t.fifo = s.fifo → t.errRec = s.errRec →
      t.status = s.status → t.Inv ∧ t.params = s.params := fun t htd hp hf hc hs =>
    ⟨h.of_dataWf htd hp (by rw [hf]) hc fun he => by rwa [hs] at he, hp⟩
  cases target with
  | csr k => exact csrWrite_inv h k v
  | p i k => exact keep _ (putSlots_dataWf hd ht.1 ht.2 hv) rfl rfl rfl rfl
  | g k => exact keep _ (putG_dataWf hd ht hv) rfl rfl rfl rfl
  | sq i k => exact keep _ (putSq_dataWf hd ht.1 ht.2 hv) rfl rfl rfl rfl
  | pos x => exact keep _ (putPos_dataWf hd ht (toNat_lowBits_lt _ _)) rfl rfl rfl rfl
  | bmem a l => exact keep _ { hd with bmem := putLane_wf hd.params hd.bmem ht.1 ht.2 v } rfl rfl rfl rfl

/-! ### Transactions and steps -/

theorem hostRead_inv {s : State} (h : s.Inv) (addr : Word32) (be : BitVec 4) :
    (s.hostRead addr be).Inv ∧ (s.hostRead addr be).params = s.params := by
  unfold State.hostRead
  split
  · split
    · exact ⟨answer_inv (hostError_inv h) _, rfl⟩
    · exact ⟨answer_inv h _, rfl⟩
    · split
      · exact ⟨answer_inv (hostError_inv h) _, rfl⟩
      · split
        · exact ⟨answer_inv h _, rfl⟩
        · exact ⟨answerFree_inv h _, rfl⟩
  · exact ⟨answer_inv (hostError_inv h) _, rfl⟩

theorem hostWrite_inv {s : State} (h : s.Inv) (addr data : Word32) (be : BitVec 4) :
    (s.hostWrite addr data be).Inv ∧ (s.hostWrite addr data be).params = s.params := by
  unfold State.hostWrite
  split
  · split
    · exact ⟨hostError_inv h, rfl⟩
    · exact csrWrite_inv h _ data
    next target _ hl =>
      split
      · exact ⟨hostError_inv h, rfl⟩
      · exact cellWrite_inv h data (locate_mapped hl)
  · exact ⟨hostError_inv h, rfl⟩

theorem runEvent_inv {s t : State} {e : Event} (h : s.Inv) (hr : runEvent s e = .next t) :
    t.Inv ∧ t.params = s.params := by
  cases e with
  | read addr be => cases hr; exact hostRead_inv h addr be
  | write addr data be => cases hr; exact hostWrite_inv h addr data be
  | rst => cases hr; exact ⟨doReset_inv h, rfl⟩
  | sequencer => exact sequencerTurn_inv h hr

theorem step_inv {s t : State} (h : s.Inv) (hs : step s = .next t) : t.Inv ∧ t.params = s.params := by
  unfold step nextEvent at hs
  split at hs
  · exact sequencerTurn_inv h hs
  next e rest _ =>
    have hrest : ({ s with agenda := rest } : State).Inv := { h with }
    have hafter := runEvent_inv hrest hs
    exact hafter

/-- Settles O15: every event of `step` keeps the consistent states, by `runEvent_inv` and `sequencerTurn_inv`. -/
theorem stepKeepsInv : Obligations.StepKeepsInv := fun _ _ h hs => step_inv h hs

end Sys2Proof.Machine

/-! # The configuration check

CFGV in terms of the configuration registers (10_state.md R64), and the fault of every command that needs it. -/

namespace Sys2Proof.Machine

/-! ### The configuration registers as the host reads them -/

theorem toNat_csrRead_m (s : State) : (s.csrRead 0x020).toNat = s.m := by
  show (s.cfg.m.setWidth 32).toNat = s.cfg.m.toNat
  exact BitVec.toNat_setWidth_of_le (by omega)

theorem toNat_csrRead_t (s : State) : (s.csrRead 0x021).toNat = s.logT := by
  show (s.cfg.t.setWidth 32).toNat = s.cfg.t.toNat
  exact BitVec.toNat_setWidth_of_le (by omega)

theorem toNat_csrRead_nb (s : State) : (s.csrRead 0x022).toNat = s.nb := by
  show (s.cfg.nb.setWidth 32).toNat = s.cfg.nb.toNat
  exact BitVec.toNat_setWidth_of_le (by omega)

theorem csrRead_fpoly (s : State) : s.csrRead 0x023 = s.cfg.fpoly.setWidth 32 := rfl

theorem setWidth_csrRead_fpoly (s : State) : (s.csrRead 0x023).setWidth 17 = s.cfg.fpoly := by
  rw [csrRead_fpoly, BitVec.setWidth_setWidth_of_le _ (by omega), BitVec.setWidth_eq]

theorem getLsbD_csrRead_fpoly (s : State) (i : Nat) :
    (s.csrRead 0x023).getLsbD i = s.cfg.fpoly.getLsbD i := by
  rw [csrRead_fpoly, BitVec.getLsbD, BitVec.toNat_setWidth_of_le (by omega), BitVec.getLsbD]

/-- F has no bit at k or above in the register exactly when it has none in the CSR's value. -/
theorem csrRead_fpoly_shift_eq_zero (s : State) (k : Nat) :
    s.csrRead 0x023 >>> k = 0 ↔ s.cfg.fpoly >>> k = 0 := by
  rw [← BitVec.toNat_inj, ← BitVec.toNat_inj, BitVec.toNat_ushiftRight, BitVec.toNat_ushiftRight,
    csrRead_fpoly, BitVec.toNat_setWidth_of_le (by omega)]
  rfl

theorem cfgv_iff_csrRead (s : State) :
    s.Cfgv ↔
      1 ≤ (s.csrRead 0x020).toNat ∧ (s.csrRead 0x020).toNat ≤ s.params.mMax ∧
      (s.csrRead 0x021).toNat ≤ s.params.tMax ∧ (s.csrRead 0x021).toNat < (s.csrRead 0x020).toNat ∧
      (s.csrRead 0x023).getLsbD (s.csrRead 0x020).toNat = true ∧
      s.csrRead 0x023 >>> ((s.csrRead 0x020).toNat + 1) = 0 := by
  rw [toNat_csrRead_m, toNat_csrRead_t, getLsbD_csrRead_fpoly, csrRead_fpoly_shift_eq_zero]

/-! ### The fault -/

/-- After operand checks that pass, a failing CFGV check is the end of the rule (30_encoding.md R160). -/
theorem operands_then_cfgv_raise {s : State} (h : ¬ s.Cfgv) {fields : List (FieldId × FieldKind × Field)}
    (hf : ∀ e ∈ fields, e.2.1.legal s.params e.2.2 = true) (k : Unit → Run State) :
    (do checkOperands s fields; checkCfgv s >>= k) = .error (.raise .badConfig 1) := by
  rw [checkOperands_eq_ok.2 hf, run_ok_bind, checkCfgv_of_not h, run_error_bind]

theorem cfgv_raise {s : State} (h : ¬ s.Cfgv) (k : Unit → Run State) :
    (checkCfgv s >>= k) = .error (.raise .badConfig 1) := by
  rw [checkCfgv_of_not h, run_error_bind]

/-- PFRAC's operand check has a second part, its two destinations being different. -/
theorem rulePfrac_cfgv_raise {s : State} (h : ¬ s.Cfgv) {pa pb ps : Field} (hpa : isPreg pa) (hpb : isPreg pb)
    (hps : isPreg ps) (hne : pa ≠ pb) : rulePfrac pa pb ps s = .error (.raise .badConfig 1) := by
  have hops : checkOperands s [(.fa, .preg, pa), (.fb, .preg, pb), (.fc, .preg, ps)] = .ok () :=
    checkOperands_eq_ok.2 (by simp [legal_preg, hpa, hpb, hps])
  have hreq : require (pa != pb) .badOperand (BitVec.ofNat 32 FieldId.fb.code) = .ok () :=
    require_eq_ok.2 (bne_iff_ne.2 hne)
  rw [rulePfrac, hops, run_ok_bind, hreq, run_ok_bind]
  exact cfgv_raise h _

theorem rule_cfgv_raise {i : Instr} {s : State} (hw : i.WellFormed s.params) (hn : Instr.needsCfgv i = true)
    (h : ¬ s.Cfgv) : ruleOf i s = .error (.raise .badConfig 1) := by
  cases i with
  | nop => cases hn
  | sync => cases hn
  | csrw csr imm => cases hn
  | posset x imm => cases hn
  | bcopy d src count => cases hn
  | pclr pd => cases hn
  | pmov pd ps => cases hn
  | psetc pd k value => cases hn
  | gset ps => cases hn
  | sqset i ps => cases hn
  | dymul d a b => exact cfgv_raise h _
  | dyadd d a b => exact cfgv_raise h _
  | dyreg a => exact cfgv_raise h _
  | dyinv d a => exact cfgv_raise h _
  | matvec d mat v => exact cfgv_raise h _
  | gauss base => exact cfgv_raise h _
  | correct d c e => exact cfgv_raise h _
  | decode e syn => exact cfgv_raise h _
  | cot2p pd base stride =>
    exact operands_then_cfgv_raise h (by simpa [legal_preg, legal_positive] using hw) _
  | p2cot base ps stride =>
    exact operands_then_cfgv_raise h (by simpa [legal_preg, legal_positive] using hw) _
  | pinv pd ps => exact operands_then_cfgv_raise h (by simpa [legal_preg] using hw) _
  | paddx pd ps => exact operands_then_cfgv_raise h (by simpa [legal_preg] using hw) _
  | psqrt pd ps => exact operands_then_cfgv_raise h (by simpa [legal_preg] using hw) _
  | pfrac pa pb ps =>
    obtain ⟨hpa, hpb, hps, hne⟩ := hw
    exact rulePfrac_cfgv_raise h hpa hpb hps hne
  | ploc pd pa pb => exact operands_then_cfgv_raise h (by simpa [legal_preg] using hw) _
  | roots e ps => exact operands_then_cfgv_raise h (by simpa [legal_preg] using hw) _

/-- Settles O50: the registers give CFGV (`cfgv_iff_csrRead`), and each rule that needs it stops at its check. -/
theorem invalidConfigurationRaises : Obligations.InvalidConfigurationRaises := by
  refine ⟨fun s => ⟨?_, ?_, ?_, ?_, ?_, rfl, rfl, cfgv_iff_csrRead s⟩, fun i s hw hn h =>
    exec_of_raise (rule_cfgv_raise hw hn h)⟩
  · exact (toNat_csrRead_m s).symm
  · rw [toNat_csrRead_t, State.t]
  · rw [toNat_csrRead_m, State.n]
  · exact (toNat_csrRead_nb s).symm
  · rw [toNat_csrRead_m, setWidth_csrRead_fpoly, State.gf]

end Sys2Proof.Machine

/-! # The dyadic product

The blocks of t = 2^e bits under XOR and `dymul` (00_scope.md R15 to R18). Every law is a law of `xorSum` over the
indices below 2^e, on which XOR with a fixed index is a permutation. -/

namespace Sys2Proof.Machine

/-! ### Sums over the indices below 2^e -/

/-- `xorSum` is the sum of the ring of Booleans, whose addition is XOR. -/
theorem xorSum_eq_sum (n : Nat) (f : Nat → Bool) : xorSum n f = ∑ i ∈ Finset.range n, f i := by
  induction n with
  | zero => rfl
  | succ n ih => rw [Finset.sum_range_succ, xorSum, ih]; rfl

/-- XOR with a fixed index permutes the indices. -/
theorem xorSum_xor_index {e k : Nat} (hk : k < 2 ^ e) (f : Nat → Bool) :
    xorSum (2 ^ e) (fun i => f (i ^^^ k)) = xorSum (2 ^ e) f := by
  rw [xorSum_eq_sum, xorSum_eq_sum]
  have hmem : ∀ i ∈ Finset.range (2 ^ e), i ^^^ k ∈ Finset.range (2 ^ e) := fun i hi =>
    Finset.mem_range.2 (Nat.xor_lt_two_pow (Finset.mem_range.1 hi) hk)
  exact Finset.sum_nbij' (· ^^^ k) (· ^^^ k) hmem hmem (fun i _ => Nat.xor_xor_cancel_right i k)
    (fun i _ => Nat.xor_xor_cancel_right i k) fun _ _ => rfl

/-- The terms of a sum that is symmetric under XOR with a nonzero index cancel in pairs. -/
theorem xorSum_eq_false_of_symmetric {e k : Nat} (hk : k < 2 ^ e) (h0 : k ≠ 0) {f : Nat → Bool}
    (hf : ∀ i, f (i ^^^ k) = f i) : xorSum (2 ^ e) f = false := by
  rw [xorSum_eq_sum]
  refine Finset.sum_involution (fun i _ => i ^^^ k) (fun i _ => ?_) (fun i _ _ he => h0 ?_)
    (fun i hi => Finset.mem_range.2 (Nat.xor_lt_two_pow (Finset.mem_range.1 hi) hk))
    fun i _ => Nat.xor_xor_cancel_right i k
  · rw [hf]; exact Bool.xor_self _
  · simpa using he

theorem xorSum_and_right (n : Nat) (b : Bool) (f : Nat → Bool) :
    xorSum n (fun i => f i && b) = (xorSum n f && b) := by
  simp only [Bool.and_comm _ b, xorSum_and]

/-! ### The bits of a product -/

theorem getLsbD_dymul {e : Nat} (he : e ≤ 8) (a b : Block) (k : Nat) :
    (dymul (2 ^ e) a b).getLsbD k =
      (decide (k < 2 ^ e) && xorSum (2 ^ e) fun i => a.getLsbD i && b.getLsbD (i ^^^ k)) := by
  rw [dymul, getLsbD_bitsOf]
  by_cases hk : k < 2 ^ e
  · have : k < 256 := Nat.lt_of_lt_of_le hk (Nat.pow_le_pow_right (by omega) he)
    simp [hk, this]
  · simp [hk]

theorem getLsbD_dymul_of_lt {e : Nat} (he : e ≤ 8) (a b : Block) {k : Nat} (hk : k < 2 ^ e) :
    (dymul (2 ^ e) a b).getLsbD k = xorSum (2 ^ e) fun i => a.getLsbD i && b.getLsbD (i ^^^ k) := by
  rw [getLsbD_dymul he, decide_eq_true hk, Bool.true_and]

/-- A product is the block that has the given bits below 2^e and none above. -/
theorem dymul_eq_of_bits {e : Nat} (he : e ≤ 8) {a b v : Block} (hv : ∀ k, 2 ^ e ≤ k → v.getLsbD k = false)
    (h : ∀ k, k < 2 ^ e → xorSum (2 ^ e) (fun i => a.getLsbD i && b.getLsbD (i ^^^ k)) = v.getLsbD k) :
    dymul (2 ^ e) a b = v := by
  refine BitVec.eq_of_getLsbD_eq fun k _ => ?_
  by_cases hk : k < 2 ^ e
  · rw [getLsbD_dymul_of_lt he a b hk, h k hk]
  · rw [getLsbD_dymul he, decide_eq_false hk, Bool.false_and, hv k (by omega)]

theorem dymul_high {e : Nat} (he : e ≤ 8) (a b : Block) {k : Nat} (hk : 2 ^ e ≤ k) :
    (dymul (2 ^ e) a b).getLsbD k = false := by
  rw [getLsbD_dymul he, decide_eq_false (by omega), Bool.false_and]

/-- A block cut to t bits has none at t and above. -/
theorem high_of_lowBits {t : Nat} {b : Block} (hb : lowBits t b = b) {k : Nat} (hk : t ≤ k) :
    b.getLsbD k = false := by
  rw [← hb, getLsbD_lowBits, decide_eq_false (by omega), Bool.false_and]

/-! ### The laws -/

/-- The matrix of a product is the product of the matrices (00_scope.md R15, R16). -/
theorem dyadicEntry_dymul {e : Nat} (he : e ≤ 8) (a b : Block) {i j : Nat} (hi : i < 2 ^ e) (hj : j < 2 ^ e) :
    dyadicEntry (dymul (2 ^ e) a b) i j = xorSum (2 ^ e) fun k => dyadicEntry a i k && dyadicEntry b k j := by
  rw [dyadicEntry, getLsbD_dymul_of_lt he a b (Nat.xor_lt_two_pow hi hj),
    ← xorSum_xor_index hi fun k => dyadicEntry a i k && dyadicEntry b k j]
  refine xorSum_congr fun k _ => ?_
  rw [dyadicEntry, dyadicEntry, Nat.xor_comm k i, Nat.xor_xor_cancel_left, Nat.xor_comm i k, Nat.xor_assoc]

theorem dymul_comm {e : Nat} (he : e ≤ 8) (a b : Block) : dymul (2 ^ e) a b = dymul (2 ^ e) b a := by
  refine dymul_eq_of_bits he (fun k hk => dymul_high he b a hk) fun k hk => ?_
  rw [getLsbD_dymul_of_lt he b a hk, ← xorSum_xor_index hk]
  refine xorSum_congr fun i _ => ?_
  rw [Nat.xor_xor_cancel_right, Bool.and_comm]

theorem dymul_assoc {e : Nat} (he : e ≤ 8) (a b c : Block) :
    dymul (2 ^ e) (dymul (2 ^ e) a b) c = dymul (2 ^ e) a (dymul (2 ^ e) b c) := by
  refine dymul_eq_of_bits he (fun k hk => dymul_high he _ _ hk) fun k hk => ?_
  calc xorSum (2 ^ e) (fun i => (dymul (2 ^ e) a b).getLsbD i && c.getLsbD (i ^^^ k))
      = xorSum (2 ^ e) (fun i => xorSum (2 ^ e) fun j =>
          a.getLsbD j && (b.getLsbD (j ^^^ i) && c.getLsbD (i ^^^ k))) := by
        refine xorSum_congr fun i hi => ?_
        rw [getLsbD_dymul_of_lt he a b hi, ← xorSum_and_right]
        exact xorSum_congr fun j _ => Bool.and_assoc _ _ _
    _ = xorSum (2 ^ e) (fun j => a.getLsbD j &&
          xorSum (2 ^ e) fun i => b.getLsbD (j ^^^ i) && c.getLsbD (i ^^^ k)) := by
        rw [xorSum_comm]
        exact xorSum_congr fun j _ => xorSum_and _ _ _
    _ = xorSum (2 ^ e) (fun j => a.getLsbD j && (dymul (2 ^ e) b c).getLsbD (j ^^^ k)) := by
        refine xorSum_congr fun j hj => ?_
        rw [getLsbD_dymul_of_lt he b c (Nat.xor_lt_two_pow hj hk),
          ← xorSum_xor_index hj fun i => b.getLsbD i && c.getLsbD (i ^^^ (j ^^^ k))]
        congr 1
        refine xorSum_congr fun i _ => ?_
        rw [Nat.xor_comm j i, ← Nat.xor_assoc (i ^^^ j), Nat.xor_xor_cancel_right]
    _ = (dymul (2 ^ e) a (dymul (2 ^ e) b c)).getLsbD k := (getLsbD_dymul_of_lt he _ _ hk).symm

theorem dymul_xor {e : Nat} (he : e ≤ 8) (a b c : Block) :
    dymul (2 ^ e) a (b ^^^ c) = dymul (2 ^ e) a b ^^^ dymul (2 ^ e) a c := by
  refine dymul_eq_of_bits he (fun k hk => ?_) fun k hk => ?_
  · rw [BitVec.getLsbD_xor, dymul_high he a b hk, dymul_high he a c hk, Bool.xor_self]
  · rw [BitVec.getLsbD_xor, getLsbD_dymul_of_lt he a b hk, getLsbD_dymul_of_lt he a c hk, ← xorSum_xor]
    refine xorSum_congr fun i _ => ?_
    rw [BitVec.getLsbD_xor, Bool.and_xor_distrib_left]

theorem one_dymul {e : Nat} (he : e ≤ 8) {b : Block} (hb : lowBits (2 ^ e) b = b) : dymul (2 ^ e) 1 b = b := by
  refine dymul_eq_of_bits he (fun k hk => high_of_lowBits hb hk) fun k hk => ?_
  rw [xorSum_single (Nat.two_pow_pos e)]
  · simp
  · intro i _ hi
    simp [hi]

/-- A block's square is its parity times e0 (00_scope.md R18, 40_dyadic.md R205). -/
theorem dymul_self {e : Nat} (he : e ≤ 8) (a : Block) :
    dymul (2 ^ e) a a = if parity (2 ^ e) a then 1 else 0 := by
  have hbits : ∀ k, (if parity (2 ^ e) a then (1 : Block) else 0).getLsbD k =
      (parity (2 ^ e) a && decide (k = 0)) := by
    intro k
    cases parity (2 ^ e) a <;> simp
  refine dymul_eq_of_bits he (fun k hk => ?_) fun k hk => ?_
  · have := Nat.two_pow_pos e
    rw [hbits, decide_eq_false (by omega), Bool.and_false]
  · rw [hbits]
    by_cases h0 : k = 0
    · subst h0
      simp [parity]
    · rw [decide_eq_false h0, Bool.and_false]
      refine xorSum_eq_false_of_symmetric hk h0 fun i => ?_
      rw [Nat.xor_xor_cancel_right, Bool.and_comm]

/-- A product is the row vector b times D(a) (00_scope.md R16). -/
theorem getLsbD_dymul_row {e : Nat} (he : e ≤ 8) (a b : Block) {j : Nat} (hj : j < 2 ^ e) :
    (dymul (2 ^ e) a b).getLsbD j = xorSum (2 ^ e) fun i => b.getLsbD i && dyadicEntry a i j := by
  rw [dymul_comm he, getLsbD_dymul_of_lt he b a hj]
  rfl

theorem parity_dymul {e : Nat} (he : e ≤ 8) (a b : Block) :
    parity (2 ^ e) (dymul (2 ^ e) a b) = (parity (2 ^ e) a && parity (2 ^ e) b) := by
  calc parity (2 ^ e) (dymul (2 ^ e) a b)
      = xorSum (2 ^ e) (fun k => xorSum (2 ^ e) fun i => a.getLsbD i && b.getLsbD (i ^^^ k)) :=
        xorSum_congr fun k hk => getLsbD_dymul_of_lt he a b hk
    _ = xorSum (2 ^ e) (fun i => a.getLsbD i && parity (2 ^ e) b) := by
        rw [xorSum_comm]
        refine xorSum_congr fun i hi => ?_
        rw [xorSum_and, parity, ← xorSum_xor_index hi fun k => b.getLsbD k]
        simp only [Nat.xor_comm i]
    _ = (parity (2 ^ e) a && parity (2 ^ e) b) := xorSum_and_right _ _ _

/-- Settles O20: the laws above, each by reindexing or exchanging sums over the indices below 2^e. -/
theorem dyadicProductLaws : Obligations.DyadicProductLaws :=
  ⟨fun _ _ _ => rfl, fun _ k a b he => getLsbD_dymul he a b k,
    fun _ _ _ a b he hi hj => dyadicEntry_dymul he a b hi hj,
    fun _ a b c he _ hb _ => ⟨dymul_comm he a b, dymul_assoc he a b c, dymul_xor he a b c, one_dymul he hb,
      dymul_self he a, fun _ hj => getLsbD_dymul_row he a b hj, parity_dymul he a b⟩⟩

end Sys2Proof.Machine

/-! # Binary polynomials

A natural number as the polynomial over GF(2) whose coefficients are its bits. XOR is the sum, a shift is a product
by a power of X, and the model's reduction `gf2Mod` is the remainder. -/

namespace Sys2Proof.Machine

open Polynomial

/-- The polynomial over GF(2) whose coefficient of X^i is bit i of `v`. -/
noncomputable def bitPoly (v : Nat) : (ZMod 2)[X] :=
  ∑ i ∈ Finset.range v, if v.testBit i then X ^ i else 0

theorem coeff_bitPoly (v i : Nat) : (bitPoly v).coeff i = if v.testBit i then 1 else 0 := by
  have hterm : ∀ j, (if v.testBit j then X ^ j else 0 : (ZMod 2)[X]).coeff i =
      if j = i then (if v.testBit i then 1 else 0) else 0 := by
    intro j
    by_cases hj : j = i
    · subst hj; split <;> simp
    · split <;> simp [coeff_X_pow, Ne.symm hj]
  rw [bitPoly, finsetSum_coeff, Finset.sum_congr rfl fun j _ => hterm j, Finset.sum_ite_eq']
  by_cases hi : i ∈ Finset.range v
  · rw [if_pos hi]
  · have hv : v < 2 ^ i := Nat.lt_of_le_of_lt (by simpa using hi) Nat.lt_two_pow_self
    simp [Nat.testBit_lt_two_pow hv]

theorem coeff_bitPoly_eq_zero {v i : Nat} : (bitPoly v).coeff i = 0 ↔ v.testBit i = false := by
  rw [coeff_bitPoly]; cases v.testBit i <;> simp

theorem bitPoly_inj {u v : Nat} (h : bitPoly u = bitPoly v) : u = v := by
  refine Nat.eq_of_testBit_eq fun i => ?_
  have hi := congrArg (fun p => p.coeff i) h
  simp only [coeff_bitPoly] at hi
  cases hu : u.testBit i <;> cases hv : v.testBit i <;> simp [hu, hv] at hi ⊢

@[simp] theorem bitPoly_zero : bitPoly 0 = 0 := rfl

theorem bitPoly_eq_zero {v : Nat} : bitPoly v = 0 ↔ v = 0 :=
  ⟨fun h => bitPoly_inj (h.trans bitPoly_zero.symm), fun h => by rw [h, bitPoly_zero]⟩

@[simp] theorem bitPoly_one : bitPoly 1 = 1 := by
  simp [bitPoly]

theorem bitPoly_xor (u v : Nat) : bitPoly (u ^^^ v) = bitPoly u + bitPoly v := by
  ext i
  rw [coeff_add, coeff_bitPoly, coeff_bitPoly, coeff_bitPoly, Nat.testBit_xor]
  cases u.testBit i <;> cases v.testBit i <;> decide

theorem bitPoly_shiftLeft (v n : Nat) : bitPoly (v <<< n) = bitPoly v * X ^ n := by
  ext i
  rw [coeff_mul_X_pow', coeff_bitPoly, coeff_bitPoly, Nat.testBit_shiftLeft]
  by_cases h : n ≤ i <;> simp [h]

theorem bitPoly_two : bitPoly 2 = X := by
  simpa using bitPoly_shiftLeft 1 1

/-- Sum and difference are the same over GF(2). -/
theorem bitPoly_sub_xor (u v : Nat) : bitPoly u - bitPoly (u ^^^ v) = bitPoly v := by
  rw [bitPoly_xor, sub_add_cancel_left, CharTwo.neg_eq]

theorem degree_bitPoly_lt {v n : Nat} : (bitPoly v).degree < n ↔ v < 2 ^ n := by
  rw [degree_lt_iff_coeff_zero]
  simp only [coeff_bitPoly_eq_zero]
  exact ⟨fun h => Nat.lt_pow_two_of_testBit v h, fun h i hi =>
    Nat.testBit_lt_two_pow (Nat.lt_of_lt_of_le h (Nat.pow_le_pow_right (by omega) hi))⟩

/-- A number with top bit e is a monic polynomial of degree e. -/
theorem natDegree_bitPoly {v e : Nat} (hv : v < 2 ^ (e + 1)) (he : v.testBit e = true) :
    (bitPoly v).natDegree = e := by
  refine natDegree_eq_of_le_of_coeff_ne_zero (natDegree_le_iff_coeff_eq_zero.2 fun i hi => ?_) ?_
  · exact coeff_bitPoly_eq_zero.2
      (Nat.testBit_lt_two_pow (Nat.lt_of_lt_of_le hv (Nat.pow_le_pow_right (by omega) hi)))
  · rw [coeff_bitPoly, he]; exact one_ne_zero

theorem monic_bitPoly {v e : Nat} (hv : v < 2 ^ (e + 1)) (he : v.testBit e = true) : (bitPoly v).Monic := by
  rw [Monic, leadingCoeff, natDegree_bitPoly hv he, coeff_bitPoly, he]; rfl

/-- Every binary polynomial is that of its bits. -/
theorem exists_bitPoly (p : (ZMod 2)[X]) : ∃ v, bitPoly v = p := by
  refine ⟨Nat.ofBits fun i : Fin (p.natDegree + 1) => decide (p.coeff i = 1), ?_⟩
  ext i
  rw [coeff_bitPoly]
  by_cases hi : i < p.natDegree + 1
  · rw [Nat.testBit_ofBits_lt _ _ hi]
    generalize p.coeff i = c
    revert c
    decide
  · rw [Nat.testBit_ofBits_ge _ _ (by omega), coeff_eq_zero_of_natDegree_lt (by omega)]
    rfl

/-! ### The remainder -/

/-- The division subtracts multiples of the divisor. -/
theorem bitPoly_dvd_sub_gf2Mod (d e n v : Nat) : bitPoly d ∣ bitPoly v - bitPoly (gf2Mod d e n v) := by
  induction n generalizing v with
  | zero => simp [gf2Mod]
  | succ n ih =>
    rw [gf2Mod]
    split
    · have hstep : bitPoly d ∣ bitPoly v - bitPoly (v ^^^ d <<< n) := by
        rw [bitPoly_sub_xor, bitPoly_shiftLeft]; exact dvd_mul_right _ _
      simpa using dvd_add hstep (ih (v ^^^ d <<< n))
    · exact ih v

section Remainder

variable {d e : Nat} (hd : d < 2 ^ (e + 1)) (he : d.testBit e = true)
include hd he

/-- One step of the division clears the top bit. -/
theorem clear_top_lt {n v : Nat} (hv : v < 2 ^ (e + (n + 1))) :
    (if v.testBit (e + n) then v ^^^ (d <<< n) else v) < 2 ^ (e + n) := by
  refine Nat.lt_pow_two_of_testBit _ fun i hi => ?_
  have hhigh : e + n < i → v.testBit i = false := fun h =>
    Nat.testBit_lt_two_pow (Nat.lt_of_lt_of_le hv (Nat.pow_le_pow_right (by omega) (by omega)))
  split
  next ht =>
    rw [Nat.testBit_xor, Nat.testBit_shiftLeft, decide_eq_true (show i ≥ n by omega), Bool.true_and]
    rcases Nat.eq_or_lt_of_le hi with rfl | hlt
    · rw [ht, Nat.add_sub_cancel, he]; rfl
    · rw [hhigh hlt, Nat.testBit_lt_two_pow (Nat.lt_of_lt_of_le hd (Nat.pow_le_pow_right (by omega) (by omega)))]
      rfl
  next ht =>
    rcases Nat.eq_or_lt_of_le hi with rfl | hlt
    · simpa using ht
    · exact hhigh hlt

theorem gf2Mod_lt {n v : Nat} (hv : v < 2 ^ (e + n)) : gf2Mod d e n v < 2 ^ e := by
  induction n generalizing v with
  | zero => exact hv
  | succ n ih => exact ih (clear_top_lt hd he hv)

/-- The remainder is 0 exactly when the divisor divides. -/
theorem gf2Mod_eq_zero_iff {n v : Nat} (hv : v < 2 ^ (e + n)) : gf2Mod d e n v = 0 ↔ bitPoly d ∣ bitPoly v := by
  have hdvd := bitPoly_dvd_sub_gf2Mod d e n v
  constructor
  · intro h; simpa [h] using hdvd
  · intro h
    have hr : bitPoly d ∣ bitPoly (gf2Mod d e n v) := by simpa using dvd_sub h hdvd
    have hdeg : (bitPoly (gf2Mod d e n v)).degree < (bitPoly d).degree := by
      rw [degree_eq_natDegree (monic_bitPoly hd he).ne_zero, natDegree_bitPoly hd he]
      exact degree_bitPoly_lt.2 (gf2Mod_lt hd he hv)
    exact bitPoly_eq_zero.1 (eq_zero_of_dvd_of_degree_lt hr hdeg)

end Remainder

end Sys2Proof.Machine

/-! # The field

A field element stands for the residue class of its bits modulo F, in the quotient of the binary polynomials by F
(00_scope.md R19). The classes of m-bit elements are different, `fmul` is the product and XOR the sum, so every law of
the quotient ring is one of the model. -/

namespace Sys2Proof.Machine

open Polynomial

/-- The binary polynomials modulo F. -/
noncomputable abbrev Gf.Ring (k : Gf) : Type := AdjoinRoot (bitPoly k.f.toNat)

/-- The residue class an element stands for. -/
noncomputable def Gf.val (k : Gf) (a : Elem) : k.Ring := AdjoinRoot.mk _ (bitPoly a.toNat)

/-! ### The field polynomial -/

theorem Gf.DegreeOk.one_le {k : Gf} (h : k.DegreeOk) : 1 ≤ k.m := h.1

theorem Gf.DegreeOk.le {k : Gf} (h : k.DegreeOk) : k.m ≤ 16 := h.2.1

theorem Gf.DegreeOk.lt {k : Gf} (h : k.DegreeOk) : k.f.toNat < 2 ^ (k.m + 1) := by
  obtain ⟨-, -, -, hhigh⟩ := h
  have h0 := congrArg BitVec.toNat hhigh
  rw [BitVec.toNat_ushiftRight, Nat.shiftRight_eq_div_pow] at h0
  exact (Nat.div_eq_zero_iff_lt (Nat.two_pow_pos _)).1 h0

theorem Gf.DegreeOk.top {k : Gf} (h : k.DegreeOk) : k.f.toNat.testBit k.m = true := by
  obtain ⟨-, -, htop, -⟩ := h
  exact htop

theorem Gf.DegreeOk.two_pow_le {k : Gf} (h : k.DegreeOk) : 2 ^ k.m ≤ 2 ^ 16 :=
  Nat.pow_le_pow_right (by omega) h.le

theorem Gf.DegreeOk.one_lt {k : Gf} (h : k.DegreeOk) : 1 < 2 ^ k.m :=
  Nat.one_lt_two_pow (by have := h.one_le; omega)

theorem Gf.DegreeOk.natDegree {k : Gf} (h : k.DegreeOk) : (bitPoly k.f.toNat).natDegree = k.m :=
  natDegree_bitPoly h.lt h.top

theorem Gf.DegreeOk.monic {k : Gf} (h : k.DegreeOk) : (bitPoly k.f.toNat).Monic :=
  monic_bitPoly h.lt h.top

/-! ### The value of an element -/

/-- Different m-bit elements stand for different classes. -/
theorem Gf.val_inj {k : Gf} (h : k.DegreeOk) {a b : Elem} (ha : a.toNat < 2 ^ k.m) (hb : b.toNat < 2 ^ k.m)
    (hab : k.val a = k.val b) : a = b := by
  have hdvd : bitPoly k.f.toNat ∣ bitPoly (a.toNat ^^^ b.toNat) := by
    rw [bitPoly_xor, ← CharTwo.sub_eq_add]
    exact AdjoinRoot.mk_eq_mk.1 hab
  have hdeg : (bitPoly (a.toNat ^^^ b.toNat)).degree < (bitPoly k.f.toNat).degree := by
    rw [degree_eq_natDegree h.monic.ne_zero, h.natDegree]
    exact degree_bitPoly_lt.2 (Nat.xor_lt_two_pow ha hb)
  have hxor := bitPoly_eq_zero.1 (eq_zero_of_dvd_of_degree_lt hdvd hdeg)
  exact BitVec.eq_of_toNat_eq (Nat.xor_eq_zero_iff.1 hxor)

@[simp] theorem Gf.val_zero (k : Gf) : k.val 0 = 0 := by
  simp [Gf.val]

@[simp] theorem Gf.val_one (k : Gf) : k.val 1 = 1 := by
  simp [Gf.val]

theorem Gf.val_xor (k : Gf) (a b : Elem) : k.val (a ^^^ b) = k.val a + k.val b := by
  rw [Gf.val, BitVec.toNat_xor, bitPoly_xor, map_add]; rfl

theorem Gf.val_eq_zero {k : Gf} (h : k.DegreeOk) {a : Elem} (ha : a.toNat < 2 ^ k.m) : k.val a = 0 ↔ a = 0 :=
  ⟨fun h0 => Gf.val_inj h ha (Nat.two_pow_pos _) (h0.trans k.val_zero.symm), fun h0 => by rw [h0, Gf.val_zero]⟩

theorem xor_toNat_lt {m : Nat} {a b : Elem} (ha : a.toNat < 2 ^ m) (hb : b.toNat < 2 ^ m) :
    (a ^^^ b).toNat < 2 ^ m := by
  rw [BitVec.toNat_xor]; exact Nat.xor_lt_two_pow ha hb

/-! ### The carry-less product -/

theorem toNat_shiftLeft_of_lt {w : Nat} {v : BitVec w} {j n : Nat} (hv : v.toNat < 2 ^ j) (hn : j + n ≤ w) :
    (v <<< n).toNat = v.toNat <<< n := by
  rw [BitVec.toNat_shiftLeft, Nat.mod_eq_of_lt]
  rw [Nat.shiftLeft_eq]
  calc v.toNat * 2 ^ n < 2 ^ j * 2 ^ n := Nat.mul_lt_mul_of_pos_right hv (Nat.two_pow_pos n)
    _ = 2 ^ (j + n) := (Nat.pow_add 2 j n).symm
    _ ≤ 2 ^ w := Nat.pow_le_pow_right (by omega) hn

theorem shiftLeft_lt_two_pow {u j n : Nat} (h : u < 2 ^ j) : u <<< n < 2 ^ (j + n) := by
  rw [Nat.shiftLeft_eq, Nat.pow_add]
  exact Nat.mul_lt_mul_of_pos_right h (Nat.two_pow_pos n)

/-- One more bit of a factor. -/
theorem mod_two_pow_succ_xor (b n : Nat) :
    b % 2 ^ (n + 1) = (b % 2 ^ n) ^^^ (if b.testBit n then 1 <<< n else 0) := by
  have hterm : ∀ i, (if b.testBit n then 1 <<< n else 0).testBit i = (b.testBit n && decide (n = i)) := by
    intro i
    cases b.testBit n <;> simp [Nat.one_shiftLeft, Nat.testBit_two_pow]
  refine Nat.eq_of_testBit_eq fun i => ?_
  rw [Nat.testBit_xor, Nat.testBit_mod_two_pow, Nat.testBit_mod_two_pow, hterm]
  rcases Nat.lt_trichotomy i n with h | rfl | h
  · simp [h, Nat.lt_succ_of_lt h, Nat.ne_of_gt h]
  · simp
  · simp [Nat.not_lt.2 (Nat.le_of_lt h), Nat.not_lt.2 h, Nat.ne_of_lt h]

theorem clmul_spec {m : Nat} (hm : m ≤ 16) {a : Elem} (ha : a.toNat < 2 ^ m) (b : Elem) {n : Nat} (hn : n ≤ 16) :
    (clmul a b n).toNat < 2 ^ (m + n) ∧
      bitPoly (clmul a b n).toNat = bitPoly a.toNat * bitPoly (b.toNat % 2 ^ n) := by
  induction n with
  | zero => simp [clmul, Nat.mod_one]
  | succ n ih =>
    obtain ⟨hlt, hmul⟩ := ih (by omega)
    have hwide : (a.setWidth 32).toNat = a.toNat := BitVec.toNat_setWidth_of_le (by omega)
    have hshift : (a.setWidth 32 <<< n).toNat = a.toNat <<< n := by
      rw [toNat_shiftLeft_of_lt (j := m) (by rw [hwide]; exact ha) (by omega), hwide]
    have hle : 2 ^ (m + n) ≤ 2 ^ (m + (n + 1)) := Nat.pow_le_pow_right (by omega) (by omega)
    rw [clmul, BitVec.toNat_xor, mod_two_pow_succ_xor, bitPoly_xor, bitPoly_xor, hmul, mul_add, BitVec.getLsbD]
    split
    · rw [hshift, bitPoly_shiftLeft, bitPoly_shiftLeft, bitPoly_one, one_mul]
      exact ⟨Nat.xor_lt_two_pow (Nat.lt_of_lt_of_le hlt hle)
        (Nat.lt_of_lt_of_le (shiftLeft_lt_two_pow ha) hle), rfl⟩
    · simpa using Nat.lt_of_lt_of_le hlt hle

/-! ### The reduction -/

/-- The machine's reduction is the remainder by F. -/
theorem toNat_reduceBits {k : Gf} (h : k.DegreeOk) {n : Nat} (hn : n ≤ k.m) (v : BitVec 32) :
    (reduceBits k n v).toNat = gf2Mod k.f.toNat k.m n v.toNat := by
  induction n generalizing v with
  | zero => rfl
  | succ n ih =>
    have hm := h.le
    have hwide : (k.f.setWidth 32).toNat = k.f.toNat := BitVec.toNat_setWidth_of_le (by omega)
    have hshift : (k.f.setWidth 32 <<< n).toNat = k.f.toNat <<< n := by
      rw [toNat_shiftLeft_of_lt (j := k.m + 1) (by rw [hwide]; exact h.lt) (by omega), hwide]
    rw [reduceBits, gf2Mod, ih (by omega), BitVec.getLsbD]
    split
    · rw [BitVec.toNat_xor, hshift]
    · rfl

theorem toNat_fmul {k : Gf} (h : k.DegreeOk) {a : Elem} (ha : a.toNat < 2 ^ k.m) (b : Elem) :
    (fmul k a b).toNat = gf2Mod k.f.toNat k.m k.m (clmul a b k.m).toNat := by
  obtain ⟨hlt, -⟩ := clmul_spec h.le ha b h.le
  have hr := gf2Mod_lt h.lt h.top hlt
  rw [fmul, BitVec.toNat_setWidth, toNat_reduceBits h (Nat.le_refl _),
    Nat.mod_eq_of_lt (Nat.lt_of_lt_of_le hr h.two_pow_le)]

theorem fmul_lt {k : Gf} (h : k.DegreeOk) {a : Elem} (ha : a.toNat < 2 ^ k.m) (b : Elem) :
    (fmul k a b).toNat < 2 ^ k.m := by
  rw [toNat_fmul h ha]
  exact gf2Mod_lt h.lt h.top (clmul_spec h.le ha b h.le).1

/-- `fmul` is the product of the residue classes. -/
theorem Gf.val_fmul {k : Gf} (h : k.DegreeOk) {a b : Elem} (ha : a.toNat < 2 ^ k.m) (hb : b.toNat < 2 ^ k.m) :
    k.val (fmul k a b) = k.val a * k.val b := by
  obtain ⟨-, hmul⟩ := clmul_spec h.le ha b h.le
  rw [Nat.mod_eq_of_lt hb] at hmul
  have hred := bitPoly_dvd_sub_gf2Mod k.f.toNat k.m k.m (clmul a b k.m).toNat
  rw [← toNat_fmul h ha, hmul] at hred
  rw [Gf.val, Gf.val, Gf.val, ← map_mul]
  exact (AdjoinRoot.mk_eq_mk.2 hred).symm

/-! ### The laws of multiplication -/

theorem fmul_comm {k : Gf} (h : k.DegreeOk) {a b : Elem} (ha : a.toNat < 2 ^ k.m) (hb : b.toNat < 2 ^ k.m) :
    fmul k a b = fmul k b a :=
  Gf.val_inj h (fmul_lt h ha b) (fmul_lt h hb a) (by rw [Gf.val_fmul h ha hb, Gf.val_fmul h hb ha, mul_comm])

theorem fmul_assoc {k : Gf} (h : k.DegreeOk) {a b c : Elem} (ha : a.toNat < 2 ^ k.m) (hb : b.toNat < 2 ^ k.m)
    (hc : c.toNat < 2 ^ k.m) : fmul k (fmul k a b) c = fmul k a (fmul k b c) := by
  have hab := fmul_lt h ha b
  have hbc := fmul_lt h hb c
  refine Gf.val_inj h (fmul_lt h hab c) (fmul_lt h ha _) ?_
  rw [Gf.val_fmul h hab hc, Gf.val_fmul h ha hb, Gf.val_fmul h ha hbc, Gf.val_fmul h hb hc, mul_assoc]

theorem fmul_xor {k : Gf} (h : k.DegreeOk) {a b c : Elem} (ha : a.toNat < 2 ^ k.m) (hb : b.toNat < 2 ^ k.m)
    (hc : c.toNat < 2 ^ k.m) : fmul k a (b ^^^ c) = fmul k a b ^^^ fmul k a c := by
  refine Gf.val_inj h (fmul_lt h ha _) (xor_toNat_lt (fmul_lt h ha b) (fmul_lt h ha c)) ?_
  rw [Gf.val_fmul h ha (xor_toNat_lt hb hc), Gf.val_xor, Gf.val_xor, Gf.val_fmul h ha hb, Gf.val_fmul h ha hc, mul_add]

theorem fmul_one {k : Gf} (h : k.DegreeOk) {a : Elem} (ha : a.toNat < 2 ^ k.m) : fmul k a 1 = a :=
  Gf.val_inj h (fmul_lt h ha 1) ha (by
    rw [Gf.val_fmul h ha (b := 1) h.one_lt, Gf.val_one, mul_one])

/-- The shift by one with F added when bit m − 1 is 1, as a number: it has m bits, so no bit is lost in 16. -/
theorem toNat_shift_reduce {k : Gf} (h : k.DegreeOk) {a : Elem} (ha : a.toNat < 2 ^ k.m) :
    (a <<< 1 ^^^ if a.getLsbD (k.m - 1) then k.f.setWidth 16 else 0).toNat =
      gf2Mod k.f.toNat k.m 1 (a.toNat <<< 1) := by
  have hm1 := h.one_le
  have hlt : gf2Mod k.f.toNat k.m 1 (a.toNat <<< 1) < 2 ^ 16 :=
    Nat.lt_of_lt_of_le (gf2Mod_lt h.lt h.top (shiftLeft_lt_two_pow ha)) h.two_pow_le
  have hbit : (a.toNat <<< 1).testBit k.m = a.getLsbD (k.m - 1) := by
    rw [Nat.testBit_shiftLeft, decide_eq_true hm1, Bool.true_and, BitVec.getLsbD]
  rw [← Nat.mod_eq_of_lt hlt, gf2Mod, gf2Mod, Nat.add_zero, hbit, BitVec.toNat_xor, BitVec.toNat_shiftLeft]
  split
  · rw [Nat.xor_mod_two_pow, BitVec.toNat_setWidth, Nat.shiftLeft_zero]
  · simp

/-- The product by z. -/
theorem fmul_two {k : Gf} (h : k.DegreeOk) (hm : 2 ≤ k.m) {a : Elem} (ha : a.toNat < 2 ^ k.m) :
    fmul k a 2 = a <<< 1 ^^^ if a.getLsbD (k.m - 1) then k.f.setWidth 16 else 0 := by
  have h2 : (2 : Elem).toNat < 2 ^ k.m :=
    Nat.lt_of_lt_of_le (by decide : (2 : Elem).toNat < 2 ^ 2) (Nat.pow_le_pow_right (by omega) hm)
  refine Gf.val_inj h (fmul_lt h ha 2) ?_ ?_
  · rw [toNat_shift_reduce h ha]
    exact gf2Mod_lt h.lt h.top (shiftLeft_lt_two_pow ha)
  · have hred := bitPoly_dvd_sub_gf2Mod k.f.toNat k.m 1 (a.toNat <<< 1)
    rw [← toNat_shift_reduce h ha, bitPoly_shiftLeft] at hred
    have htwo : bitPoly (2 : Elem).toNat = X := bitPoly_two
    rw [Gf.val_fmul h ha h2, Gf.val, Gf.val, Gf.val, htwo, ← map_mul, ← pow_one X]
    exact AdjoinRoot.mk_eq_mk.2 hred

/-- Settles O33: the laws of the quotient ring, carried over by `Gf.val`. -/
theorem fieldMultiplicationLaws : Obligations.FieldMultiplicationLaws := fun _ _ b _ h ha hb hc =>
  ⟨fmul_lt h ha b, fmul_comm h ha hb, fmul_assoc h ha hb hc, fmul_xor h ha hb hc, fmul_one h ha,
    fun hm => fmul_two h hm ha⟩

end Sys2Proof.Machine

/-! # Powers, inverses and square roots

`fpow` is the power of the residue class, so for an irreducible F, where the quotient is the field of 2^m elements,
`finv` and `fsqrt` are Fermat's inverse and the inverse of the Frobenius map. -/

namespace Sys2Proof.Machine

open Polynomial

/-! ### Powers -/

/-- One step of square and multiply brings in the next lower bit of the exponent. -/
theorem exponent_step (e n : Nat) (hn : n ≤ 16) :
    e / 2 ^ (16 - n) = 2 * (e / 2 ^ (17 - n)) + (e.testBit (16 - n)).toNat := by
  have hpow : 2 ^ (17 - n) = 2 ^ (16 - n) * 2 := by rw [← Nat.pow_succ]; congr 1; omega
  rw [hpow, ← Nat.div_div_eq_div_mul, Nat.toNat_testBit]
  omega

/-- After n steps the power is that of the top n of 17 exponent bits. -/
theorem fpowBits_spec {k : Gf} (h : k.DegreeOk) {a : Elem} (ha : a.toNat < 2 ^ k.m) {e : Nat} (he : e < 2 ^ 17)
    {n : Nat} (hn : n ≤ 17) :
    (fpowBits k a e n).toNat < 2 ^ k.m ∧ k.val (fpowBits k a e n) = k.val a ^ (e / 2 ^ (17 - n)) := by
  induction n with
  | zero =>
    rw [Nat.div_eq_of_lt (by simpa using he), pow_zero]
    exact ⟨h.one_lt, k.val_one⟩
  | succ n ih =>
    obtain ⟨hlt, hval⟩ := ih (by omega)
    have hsq := fmul_lt h hlt (fpowBits k a e n)
    have hsqval : k.val (fmul k (fpowBits k a e n) (fpowBits k a e n)) = k.val a ^ (2 * (e / 2 ^ (17 - n))) := by
      rw [Gf.val_fmul h hlt hlt, hval, ← pow_add, ← Nat.two_mul]
    rw [show 17 - (n + 1) = 16 - n by omega, exponent_step e n (by omega)]
    simp only [fpowBits]
    split
    next hbit => exact ⟨fmul_lt h hsq a, by rw [Gf.val_fmul h hsq ha, hsqval, hbit, Bool.toNat_true, pow_succ]⟩
    next hbit => exact ⟨hsq, by rw [hsqval, Bool.eq_false_of_not_eq_true hbit, Bool.toNat_false, Nat.add_zero]⟩

theorem fpow_lt {k : Gf} (h : k.DegreeOk) {a : Elem} (ha : a.toNat < 2 ^ k.m) {e : Nat} (he : e < 2 ^ 17) :
    (fpow k a e).toNat < 2 ^ k.m := (fpowBits_spec h ha he (Nat.le_refl _)).1

theorem Gf.val_fpow {k : Gf} (h : k.DegreeOk) {a : Elem} (ha : a.toNat < 2 ^ k.m) {e : Nat} (he : e < 2 ^ 17) :
    k.val (fpow k a e) = k.val a ^ e := by
  rw [fpow, (fpowBits_spec h ha he (Nat.le_refl _)).2, Nat.sub_self, pow_zero, Nat.div_one]

theorem fpow_zero {k : Gf} (h : k.DegreeOk) {a : Elem} (ha : a.toNat < 2 ^ k.m) : fpow k a 0 = 1 :=
  Gf.val_inj h (fpow_lt h ha (by decide)) h.one_lt (by rw [Gf.val_fpow h ha (by decide), pow_zero, Gf.val_one])

theorem fpow_succ {k : Gf} (h : k.DegreeOk) {a : Elem} (ha : a.toNat < 2 ^ k.m) {e : Nat} (he : e + 1 < 2 ^ 17) :
    fpow k a (e + 1) = fmul k (fpow k a e) a := by
  have he' : e < 2 ^ 17 := by omega
  have hlt := fpow_lt h ha he'
  refine Gf.val_inj h (fpow_lt h ha he) (fmul_lt h hlt a) ?_
  rw [Gf.val_fpow h ha he, Gf.val_fmul h hlt ha, Gf.val_fpow h ha he', pow_succ]

theorem finv_zero (k : Gf) : finv k 0 = 0 := if_pos rfl

theorem finv_of_ne_zero (k : Gf) {a : Elem} (ha : a ≠ 0) : finv k a = fpow k a (2 ^ k.m - 2) := if_neg ha

theorem inverse_exponent_lt {k : Gf} (h : k.DegreeOk) : 2 ^ k.m - 2 < 2 ^ 17 := by
  have := h.two_pow_le
  omega

theorem root_exponent_lt {k : Gf} (h : k.DegreeOk) : 2 ^ (k.m - 1) < 2 ^ 17 :=
  Nat.pow_lt_pow_right (by omega) (by have := h.le; omega)

theorem finv_lt {k : Gf} (h : k.DegreeOk) {a : Elem} (ha : a.toNat < 2 ^ k.m) : (finv k a).toNat < 2 ^ k.m := by
  by_cases h0 : a = 0
  · subst h0; exact ha
  · rw [finv_of_ne_zero k h0]; exact fpow_lt h ha (inverse_exponent_lt h)

theorem fsqrt_lt {k : Gf} (h : k.DegreeOk) {a : Elem} (ha : a.toNat < 2 ^ k.m) : (fsqrt k a).toNat < 2 ^ k.m :=
  fpow_lt h ha (root_exponent_lt h)

/-! ### Trial division -/

theorem Gf.irreducible_eq_true {k : Gf} :
    k.irreducible = true ↔ ∀ d, 2 ≤ d → d < 2 ^ (k.m / 2 + 1) → gf2Mod d d.log2 17 k.f.toNat ≠ 0 := by
  simp only [Gf.irreducible, List.all_eq_true, List.mem_range, Bool.or_eq_true, decide_eq_true_iff, bne_iff_ne]
  exact ⟨fun h d h2 hd => (h d hd).resolve_left (by omega), fun h d hd =>
    (Nat.lt_or_ge d 2).imp_right fun h2 => h d h2 hd⟩

/-- The remainder by a trial divisor is 0 exactly when it divides F. -/
theorem trial_eq_zero_iff (k : Gf) {d : Nat} (hd : d ≠ 0) :
    gf2Mod d d.log2 17 k.f.toNat = 0 ↔ bitPoly d ∣ bitPoly k.f.toNat :=
  gf2Mod_eq_zero_iff Nat.lt_log2_self (Nat.testBit_log2 hd)
    (Nat.lt_of_lt_of_le k.f.isLt (Nat.pow_le_pow_right (by omega) (by omega)))

theorem natDegree_bitPoly_log2 {d : Nat} (hd : d ≠ 0) : (bitPoly d).natDegree = d.log2 :=
  natDegree_bitPoly Nat.lt_log2_self (Nat.testBit_log2 hd)

/-- The trial divisors are the polynomials of degree 1 to m/2. -/
theorem trial_range_iff (d n : Nat) : (2 ≤ d ∧ d < 2 ^ (n + 1)) ↔ (bitPoly d).natDegree ∈ Finset.Ioc 0 n := by
  by_cases hd : d = 0
  · subst hd; simp
  · have hlow : d.log2 < 1 ↔ d < 2 ^ 1 := Nat.log2_lt hd
    have hhigh : d.log2 < n + 1 ↔ d < 2 ^ (n + 1) := Nat.log2_lt hd
    rw [natDegree_bitPoly_log2 hd, Finset.mem_Ioc]
    omega

/-- The model's test is irreducibility over GF(2) (44_decoder.md R340; log entry 15). -/
theorem Gf.irreducible_iff {k : Gf} (h : k.DegreeOk) : k.irreducible = true ↔ Irreducible (bitPoly k.f.toNat) := by
  have hne1 : bitPoly k.f.toNat ≠ 1 := fun he => by
    have hdeg := h.natDegree
    rw [he, natDegree_one] at hdeg
    have := h.one_le
    omega
  rw [h.monic.irreducible_iff_lt_natDegree_lt hne1, h.natDegree, Gf.irreducible_eq_true]
  constructor
  · intro htrial q _ hq
    obtain ⟨d, rfl⟩ := exists_bitPoly q
    obtain ⟨h2, hlt⟩ := (trial_range_iff d _).2 hq
    exact fun hdvd => htrial d h2 hlt ((trial_eq_zero_iff k (by omega)).2 hdvd)
  · intro hirr d h2 hlt h0
    have hd : d ≠ 0 := by omega
    exact hirr _ (monic_bitPoly Nat.lt_log2_self (Nat.testBit_log2 hd)) ((trial_range_iff d _).1 ⟨h2, hlt⟩)
      ((trial_eq_zero_iff k hd).1 h0)

/-! ### The field of 2^m elements -/

/-- The quotient by an irreducible F has 2^m elements. -/
theorem Gf.card_ring {k : Gf} (h : k.DegreeOk) : Nat.card k.Ring = 2 ^ k.m := by
  have hfin : Module.finrank (ZMod 2) k.Ring = k.m := by
    rw [(AdjoinRoot.powerBasis' h.monic).finrank, AdjoinRoot.powerBasis'_dim, h.natDegree]
  have : Module.Finite (ZMod 2) k.Ring := (AdjoinRoot.powerBasis' h.monic).finite
  rw [Module.natCard_eq_pow_finrank (K := ZMod 2), hfin, Nat.card_zmod]

/-- Fermat's little theorem in the field of 2^m elements. -/
theorem Gf.pow_card {k : Gf} (h : k.DegreeOk) (hirr : k.irreducible = true) (x : k.Ring) : x ^ 2 ^ k.m = x := by
  have : Fact (Irreducible (bitPoly k.f.toNat)) := ⟨(Gf.irreducible_iff h).1 hirr⟩
  have : Finite k.Ring := Nat.finite_of_card_ne_zero (by rw [Gf.card_ring h]; exact (Nat.two_pow_pos _).ne')
  have := Fintype.ofFinite k.Ring
  rw [← Gf.card_ring h, Nat.card_eq_fintype_card]
  exact FiniteField.pow_card x

theorem Gf.ring_mul_eq_zero {k : Gf} (h : k.DegreeOk) (hirr : k.irreducible = true) {x y : k.Ring} :
    x * y = 0 ↔ x = 0 ∨ y = 0 := by
  have : Fact (Irreducible (bitPoly k.f.toNat)) := ⟨(Gf.irreducible_iff h).1 hirr⟩
  exact mul_eq_zero

/-- `finv` inverts every nonzero element (00_scope.md R19). -/
theorem fmul_finv {k : Gf} (h : k.DegreeOk) (hirr : k.irreducible = true) {a : Elem} (ha : a.toNat < 2 ^ k.m)
    (h0 : a ≠ 0) : fmul k a (finv k a) = 1 := by
  have hlt := finv_lt h ha
  refine Gf.val_inj h (fmul_lt h ha _) h.one_lt ?_
  have hexp : 2 ^ k.m = 2 ^ k.m - 2 + 1 + 1 := by have := h.one_lt; omega
  have hmul : k.val a * (k.val a * k.val a ^ (2 ^ k.m - 2) - 1) = 0 := by
    rw [mul_sub, mul_one, ← pow_succ', ← pow_succ', ← hexp, Gf.pow_card h hirr, sub_self]
  have hval : k.val a ≠ 0 := fun he => h0 ((Gf.val_eq_zero h ha).1 he)
  rw [Gf.val_fmul h ha hlt, finv_of_ne_zero k h0, Gf.val_fpow h ha (inverse_exponent_lt h), Gf.val_one]
  exact sub_eq_zero.1 (((Gf.ring_mul_eq_zero h hirr).1 hmul).resolve_left hval)

/-- `fsqrt` is the square root (00_scope.md R19). -/
theorem fmul_fsqrt_self {k : Gf} (h : k.DegreeOk) (hirr : k.irreducible = true) {a : Elem}
    (ha : a.toNat < 2 ^ k.m) : fmul k (fsqrt k a) (fsqrt k a) = a := by
  have hlt := fsqrt_lt h ha
  refine Gf.val_inj h (fmul_lt h hlt _) ha ?_
  have hexp : 2 ^ (k.m - 1) * 2 = 2 ^ k.m := by rw [← pow_succ, Nat.sub_add_cancel h.one_le]
  rw [Gf.val_fmul h hlt hlt, fsqrt, Gf.val_fpow h ha (root_exponent_lt h), ← pow_two, ← pow_mul, hexp,
    Gf.pow_card h hirr]

/-! ### A reducible F -/

/-- A binary polynomial of degree below m is an m-bit element. -/
theorem exists_elem {k : Gf} (h : k.DegreeOk) {p : (ZMod 2)[X]} (hp : p.degree < k.m) :
    ∃ a : Elem, a.toNat < 2 ^ k.m ∧ bitPoly a.toNat = p := by
  obtain ⟨v, rfl⟩ := exists_bitPoly p
  have hv := degree_bitPoly_lt.1 hp
  have ha : (BitVec.ofNat 16 v).toNat = v := by
    rw [BitVec.toNat_ofNat, Nat.mod_eq_of_lt (Nat.lt_of_lt_of_le hv h.two_pow_le)]
  exact ⟨BitVec.ofNat 16 v, by rw [ha]; exact hv, by rw [ha]⟩

/-- The factors of a reducible F are zero divisors. -/
theorem exists_zero_divisors {k : Gf} (h : k.DegreeOk) (hred : k.irreducible = false) :
    ∃ a b : Elem, a ≠ 0 ∧ b ≠ 0 ∧ a.toNat < 2 ^ k.m ∧ b.toNat < 2 ^ k.m ∧ fmul k a b = 0 := by
  have htrial : ∃ d, 2 ≤ d ∧ d < 2 ^ (k.m / 2 + 1) ∧ gf2Mod d d.log2 17 k.f.toNat = 0 := by
    by_contra hno
    push Not at hno
    rw [Gf.irreducible_eq_true.2 hno] at hred
    cases hred
  obtain ⟨d, h2, hlt, h0⟩ := htrial
  obtain ⟨q, hq⟩ := (trial_eq_zero_iff k (by omega)).1 h0
  obtain ⟨hpos, hhalf⟩ := Finset.mem_Ioc.1 ((trial_range_iff d _).1 ⟨h2, hlt⟩)
  have hF := h.monic.ne_zero
  rw [hq] at hF
  have hd0 := left_ne_zero_of_mul hF
  have hq0 := right_ne_zero_of_mul hF
  have hdeg : (bitPoly d).natDegree + q.natDegree = k.m := by rw [← natDegree_mul hd0 hq0, ← hq, h.natDegree]
  have hm := h.one_le
  have hdlt : (bitPoly d).natDegree < k.m := by omega
  have hqlt : q.natDegree < k.m := by omega
  obtain ⟨a, ha, hav⟩ := exists_elem h ((natDegree_lt_iff_degree_lt hd0).1 hdlt)
  obtain ⟨b, hb, hbv⟩ := exists_elem h ((natDegree_lt_iff_degree_lt hq0).1 hqlt)
  refine ⟨a, b, ?_, ?_, ha, hb, (Gf.val_eq_zero h (fmul_lt h ha b)).1 ?_⟩
  · rintro rfl; exact hd0 (hav.symm.trans bitPoly_zero)
  · rintro rfl; exact hq0 (hbv.symm.trans bitPoly_zero)
  · rw [Gf.val_fmul h ha hb, Gf.val, Gf.val, hav, hbv, ← map_mul, ← hq]
    exact AdjoinRoot.mk_self

/-- Settles O34: powers are those of the residue class; Fermat for an irreducible F, its factors for a reducible
one. -/
theorem fieldInverseAndSquareRoot : Obligations.FieldInverseAndSquareRoot :=
  ⟨finv_zero,
    fun k _ h ha => ⟨fpow_zero h ha, fun _ he => fpow_succ h ha he, finv_of_ne_zero k, rfl⟩,
    fun _ _ h hirr ha => ⟨fmul_finv h hirr ha, fmul_fsqrt_self h hirr ha⟩,
    fun _ h hred => exists_zero_divisors h hred⟩

end Sys2Proof.Machine

/-! # Polynomials over the field

The coefficients of the model's polynomial operations (00_scope.md R20), and, for m-bit coefficients, the polynomial
over the quotient ring that a coefficient list stands for: the operations are those of that ring of polynomials. -/

namespace Sys2Proof.Machine

open Polynomial

/-! ### Coefficients and size -/

@[simp] theorem pcoeff_nil (n : Nat) : pcoeff [] n = 0 := rfl

@[simp] theorem pcoeff_cons_zero (a : Elem) (p : Poly) : pcoeff (a :: p) 0 = a := rfl

@[simp] theorem pcoeff_cons_succ (a : Elem) (p : Poly) (n : Nat) : pcoeff (a :: p) (n + 1) = pcoeff p n := by
  simp [pcoeff]

theorem pcoeff_of_length_le {p : Poly} {n : Nat} (h : p.length ≤ n) : pcoeff p n = 0 :=
  List.getD_eq_default _ _ h

/-- A zero is kept only below a nonzero coefficient. -/
theorem pnorm_cons (a : Elem) (p : Poly) : pnorm (a :: p) = if pnorm p = [] ∧ a = 0 then [] else a :: pnorm p := by
  rw [pnorm]
  cases pnorm p with
  | nil => by_cases ha : a = 0 <;> simp [ha]
  | cons b q => simp

@[simp] theorem pcoeff_pnorm (p : Poly) (n : Nat) : pcoeff (pnorm p) n = pcoeff p n := by
  induction p generalizing n with
  | nil => rfl
  | cons a p ih =>
    rw [pnorm_cons]
    split
    next hz =>
      obtain ⟨hp, rfl⟩ := hz
      cases n with
      | zero => rfl
      | succ n => rw [pcoeff_cons_succ, ← ih, hp, pcoeff_nil, pcoeff_nil]
    next =>
      cases n with
      | zero => rfl
      | succ n => rw [pcoeff_cons_succ, pcoeff_cons_succ, ih]

theorem psize_cons (a : Elem) (p : Poly) : psize (a :: p) = if psize p = 0 ∧ a = 0 then 0 else psize p + 1 := by
  rw [psize, psize, pnorm_cons]
  simp only [List.length_eq_zero_iff]
  split <;> simp

theorem pcoeff_of_psize_le {p : Poly} {n : Nat} (h : psize p ≤ n) : pcoeff p n = 0 := by
  rw [← pcoeff_pnorm]; exact pcoeff_of_length_le h

/-- The last counted coefficient is not 0. -/
theorem plead_ne_zero {p : Poly} (h : 0 < psize p) : plead p ≠ 0 := by
  rw [plead]
  induction p with
  | nil => cases h
  | cons a p ih =>
    rw [psize_cons] at h ⊢
    split at h
    · cases h
    next hz =>
      rw [if_neg hz, Nat.add_sub_cancel]
      cases hp : psize p with
      | zero => exact fun ha => hz ⟨hp, ha⟩
      | succ n =>
        rw [pcoeff_cons_succ]
        simpa [hp] using ih (by omega)

theorem psize_le_iff {p : Poly} {n : Nat} : psize p ≤ n ↔ ∀ i, n ≤ i → pcoeff p i = 0 := by
  constructor
  · exact fun h i hi => pcoeff_of_psize_le (Nat.le_trans h hi)
  · intro h
    by_contra hlt
    exact plead_ne_zero (by omega) (h (psize p - 1) (by omega))

/-- Polynomials that are 0 at the same places have the same size. -/
theorem psize_congr {p q : Poly} (h : ∀ i, pcoeff p i = 0 ↔ pcoeff q i = 0) : psize p = psize q :=
  Nat.le_antisymm (psize_le_iff.2 fun i hi => (h i).2 (pcoeff_of_psize_le hi))
    (psize_le_iff.2 fun i hi => (h i).1 (pcoeff_of_psize_le hi))

theorem psize_le_length (p : Poly) : psize p ≤ p.length :=
  psize_le_iff.2 fun _ hi => pcoeff_of_length_le hi

/-! ### Degree -/

theorem toNat_pdeg (p : Poly) : (pdeg p).toNat = psize p - 1 := by
  rw [pdeg]; omega

theorem pdeg_nonneg {p : Poly} : 0 ≤ pdeg p ↔ 0 < psize p := by
  rw [pdeg]; omega

theorem pcoeff_of_pdeg_lt {p : Poly} {n : Nat} (h : pdeg p < n) : pcoeff p n = 0 :=
  pcoeff_of_psize_le (by rw [pdeg] at h; omega)

theorem pcoeff_pdeg_ne_zero {p : Poly} (h : 0 ≤ pdeg p) : pcoeff p (pdeg p).toNat ≠ 0 := by
  rw [toNat_pdeg]; exact plead_ne_zero (pdeg_nonneg.1 h)

theorem pzero_iff {p : Poly} : pzero p = true ↔ pdeg p = -1 := by
  rw [pzero, beq_iff_eq, pdeg]; omega

/-! ### The coefficients of the operations -/

theorem zero_clmul (b : Elem) (n : Nat) : clmul 0 b n = 0 := by
  induction n with
  | zero => rfl
  | succ n ih => rw [clmul, ih]; simp

theorem clmul_zero (a : Elem) (n : Nat) : clmul a 0 n = 0 := by
  induction n with
  | zero => rfl
  | succ n ih => rw [clmul, ih]; simp

theorem reduceBits_zero (k : Gf) (n : Nat) : reduceBits k n 0 = 0 := by
  induction n with
  | zero => rfl
  | succ n ih => simpa [reduceBits] using ih

@[simp] theorem fmul_zero (k : Gf) (a : Elem) : fmul k a 0 = 0 := by
  rw [fmul, clmul_zero, reduceBits_zero]; rfl

@[simp] theorem zero_fmul (k : Gf) (a : Elem) : fmul k 0 a = 0 := by
  rw [fmul, zero_clmul, reduceBits_zero]; rfl

theorem pcoeff_padd (p q : Poly) (n : Nat) : pcoeff (padd p q) n = pcoeff p n ^^^ pcoeff q n := by
  induction p generalizing q n with
  | nil => simp [padd]
  | cons a p ih =>
    cases q with
    | nil => simp [padd]
    | cons b q =>
      cases n with
      | zero => rfl
      | succ n => simpa [padd] using ih q n

theorem pcoeff_pscale (k : Gf) (c : Elem) (p : Poly) (n : Nat) : pcoeff (pscale k c p) n = fmul k c (pcoeff p n) := by
  simp only [pcoeff, pscale, List.getD_eq_getElem?_getD, List.getElem?_map]
  cases p[n]? with
  | none => exact (fmul_zero k c).symm
  | some a => rfl

theorem elemSum_succ (n : Nat) (f : Nat → Elem) : elemSum (n + 1) f = elemSum n f ^^^ f n := by
  simp [elemSum, List.range_succ]

/-- A sum with its first term split off. -/
theorem elemSum_succ_first (n : Nat) (f : Nat → Elem) : elemSum (n + 1) f = f 0 ^^^ elemSum n fun i => f (i + 1) := by
  induction n with
  | zero => simp [elemSum]
  | succ n ih => rw [elemSum_succ, ih, elemSum_succ, BitVec.xor_assoc]

theorem elemSum_zero (n : Nat) : elemSum n (fun _ => 0) = 0 := by
  induction n with
  | zero => rfl
  | succ n ih => rw [elemSum_succ, ih]; rfl

/-- The convolution product. -/
theorem pcoeff_pmul (k : Gf) (p q : Poly) (n : Nat) :
    pcoeff (pmul k p q) n = elemSum (n + 1) fun i => fmul k (pcoeff p i) (pcoeff q (n - i)) := by
  induction p generalizing n with
  | nil => simp only [pmul, pcoeff_nil, zero_fmul, elemSum_zero]
  | cons a p ih =>
    rw [pmul, pcoeff_padd, pcoeff_pscale, elemSum_succ_first, pcoeff_cons_zero, Nat.sub_zero]
    congr 1
    cases n with
    | zero => rfl
    | succ n =>
      rw [pcoeff_cons_succ, ih]
      simp only [pcoeff_cons_succ, Nat.add_sub_add_right]

theorem pcoeff_psq (k : Gf) (p : Poly) (n : Nat) :
    pcoeff (psq k p) (2 * n) = fmul k (pcoeff p n) (pcoeff p n) ∧ pcoeff (psq k p) (2 * n + 1) = 0 := by
  induction p generalizing n with
  | nil => exact ⟨(zero_fmul k 0).symm, rfl⟩
  | cons a p ih =>
    cases n with
    | zero => simp [psq]
    | succ n => simpa [psq, Nat.mul_succ] using ih n

theorem pcoeff_pmonic (k : Gf) (p : Poly) (n : Nat) :
    pcoeff (pmonic k p) n = fmul k (finv k (pcoeff p (pdeg p).toNat)) (pcoeff p n) := by
  rw [pmonic]
  split
  next hz =>
    have h0 : pcoeff p n = 0 := pcoeff_of_pdeg_lt (by rw [pzero_iff.1 hz]; omega)
    rw [h0, fmul_zero, pcoeff_nil]
  next => rw [pcoeff_pscale, plead, toNat_pdeg]

/-! ### Coefficients of m bits -/

theorem coeffs_iff {k : Gf} {p : Poly} : k.Coeffs p ↔ ∀ n, (pcoeff p n).toNat < 2 ^ k.m := by
  constructor
  · intro h n
    by_cases hn : n < p.length
    · rw [pcoeff, List.getD_eq_getElem _ _ hn]; exact h _ (List.getElem_mem hn)
    · rw [pcoeff_of_length_le (by omega)]; exact Nat.two_pow_pos _
  · intro h c hc
    obtain ⟨n, hn, rfl⟩ := List.getElem_of_mem hc
    have := h n
    rwa [pcoeff, List.getD_eq_getElem _ _ hn] at this

theorem coeffs_padd {k : Gf} {p q : Poly} (hp : k.Coeffs p) (hq : k.Coeffs q) : k.Coeffs (padd p q) :=
  coeffs_iff.2 fun n => by rw [pcoeff_padd]; exact xor_toNat_lt (coeffs_iff.1 hp n) (coeffs_iff.1 hq n)

theorem coeffs_pscale {k : Gf} (h : k.DegreeOk) {c : Elem} (hc : c.toNat < 2 ^ k.m) (p : Poly) :
    k.Coeffs (pscale k c p) :=
  coeffs_iff.2 fun n => by rw [pcoeff_pscale]; exact fmul_lt h hc _

theorem coeffs_nil (k : Gf) : k.Coeffs [] := List.forall_mem_nil _

theorem coeffs_cons {k : Gf} {a : Elem} {p : Poly} : k.Coeffs (a :: p) ↔ a.toNat < 2 ^ k.m ∧ k.Coeffs p :=
  List.forall_mem_cons

theorem coeffs_pmul {k : Gf} (h : k.DegreeOk) {p : Poly} (hp : k.Coeffs p) (q : Poly) : k.Coeffs (pmul k p q) := by
  induction p with
  | nil => exact coeffs_nil k
  | cons a p ih =>
    obtain ⟨ha, hp⟩ := coeffs_cons.1 hp
    exact coeffs_padd (coeffs_pscale h ha q) (coeffs_cons.2 ⟨Nat.two_pow_pos _, ih hp⟩)

theorem coeffs_psq {k : Gf} (h : k.DegreeOk) {p : Poly} (hp : k.Coeffs p) : k.Coeffs (psq k p) := by
  induction p with
  | nil => exact coeffs_nil k
  | cons a p ih =>
    obtain ⟨ha, hp⟩ := coeffs_cons.1 hp
    exact coeffs_cons.2 ⟨fmul_lt h ha a, coeffs_cons.2 ⟨Nat.two_pow_pos _, ih hp⟩⟩

/-! ### The polynomial a list stands for -/

/-- The polynomial over the quotient ring with the given coefficients. -/
noncomputable def Gf.poly (k : Gf) : Poly → k.Ring[X]
  | [] => 0
  | a :: p => C (k.val a) + X * k.poly p

theorem Gf.coeff_poly (k : Gf) (p : Poly) (n : Nat) : (k.poly p).coeff n = k.val (pcoeff p n) := by
  induction p generalizing n with
  | nil => rw [Gf.poly, coeff_zero, pcoeff_nil, Gf.val_zero]
  | cons a p ih => cases n <;> simp [Gf.poly, ih]

/-- Lists of m-bit coefficients that stand for one polynomial have the same coefficients. -/
theorem Gf.poly_inj {k : Gf} (h : k.DegreeOk) {p q : Poly} (hp : k.Coeffs p) (hq : k.Coeffs q)
    (hpq : k.poly p = k.poly q) (n : Nat) : pcoeff p n = pcoeff q n := by
  refine Gf.val_inj h (coeffs_iff.1 hp n) (coeffs_iff.1 hq n) ?_
  rw [← Gf.coeff_poly, hpq, Gf.coeff_poly]

/-- Only the coefficients count, not zeros at the end. -/
theorem Gf.poly_congr (k : Gf) {p q : Poly} (h : ∀ n, pcoeff p n = pcoeff q n) : k.poly p = k.poly q := by
  ext n
  rw [Gf.coeff_poly, Gf.coeff_poly, h]

theorem Gf.poly_padd (k : Gf) (p q : Poly) : k.poly (padd p q) = k.poly p + k.poly q := by
  ext n
  rw [coeff_add, Gf.coeff_poly, Gf.coeff_poly, Gf.coeff_poly, pcoeff_padd, Gf.val_xor]

theorem Gf.poly_pscale {k : Gf} (h : k.DegreeOk) {c : Elem} (hc : c.toNat < 2 ^ k.m) {p : Poly} (hp : k.Coeffs p) :
    k.poly (pscale k c p) = C (k.val c) * k.poly p := by
  ext n
  rw [coeff_C_mul, Gf.coeff_poly, Gf.coeff_poly, pcoeff_pscale, Gf.val_fmul h hc (coeffs_iff.1 hp n)]

theorem Gf.poly_pmul {k : Gf} (h : k.DegreeOk) {p q : Poly} (hp : k.Coeffs p) (hq : k.Coeffs q) :
    k.poly (pmul k p q) = k.poly p * k.poly q := by
  induction p with
  | nil => simp [pmul, Gf.poly]
  | cons a p ih =>
    obtain ⟨ha, hp⟩ := coeffs_cons.1 hp
    rw [pmul, Gf.poly_padd, Gf.poly_pscale h ha hq, Gf.poly, Gf.poly, ih hp, Gf.val_zero, C_0]
    ring

/-- The quotient ring has characteristic 2. -/
theorem Gf.two_eq_zero (k : Gf) : (2 : k.Ring[X]) = 0 := by
  have h2 : (2 : ZMod 2) = 0 := rfl
  calc (2 : k.Ring[X]) = C (AdjoinRoot.of (bitPoly k.f.toNat) 2) := by rw [map_ofNat, map_ofNat]
    _ = 0 := by rw [h2, map_zero, map_zero]

theorem Gf.poly_psq {k : Gf} (h : k.DegreeOk) {p : Poly} (hp : k.Coeffs p) : k.poly (psq k p) = k.poly p ^ 2 := by
  induction p with
  | nil => simp [psq, Gf.poly]
  | cons a p ih =>
    obtain ⟨ha, hp⟩ := coeffs_cons.1 hp
    rw [psq, Gf.poly, Gf.poly, Gf.poly, ih hp, Gf.val_fmul h ha ha, Gf.val_zero, C_0, C_mul]
    linear_combination -(C (k.val a) * X * k.poly p) * k.two_eq_zero

theorem psq_eq_pmul {k : Gf} (h : k.DegreeOk) {p : Poly} (hp : k.Coeffs p) (n : Nat) :
    pcoeff (psq k p) n = pcoeff (pmul k p p) n :=
  Gf.poly_inj h (coeffs_psq h hp) (coeffs_pmul h hp p) (by rw [Gf.poly_psq h hp, Gf.poly_pmul h hp hp, pow_two]) n

/-! ### The monic multiple -/

theorem fmul_eq_zero {k : Gf} (h : k.DegreeOk) (hirr : k.irreducible = true) {a b : Elem} (ha : a.toNat < 2 ^ k.m)
    (hb : b.toNat < 2 ^ k.m) : fmul k a b = 0 ↔ a = 0 ∨ b = 0 := by
  rw [← Gf.val_eq_zero h (fmul_lt h ha b), Gf.val_fmul h ha hb, Gf.ring_mul_eq_zero h hirr, Gf.val_eq_zero h ha,
    Gf.val_eq_zero h hb]

theorem finv_ne_zero {k : Gf} (h : k.DegreeOk) (hirr : k.irreducible = true) {a : Elem} (ha : a.toNat < 2 ^ k.m)
    (h0 : a ≠ 0) : finv k a ≠ 0 := by
  intro he
  have hone := fmul_finv h hirr ha h0
  rw [he, fmul_zero] at hone
  exact absurd hone (by decide)

theorem pmonic_spec {k : Gf} (h : k.DegreeOk) (hirr : k.irreducible = true) {p : Poly} (hp : k.Coeffs p)
    (hd : 0 ≤ pdeg p) : pdeg (pmonic k p) = pdeg p ∧ pcoeff (pmonic k p) (pdeg p).toNat = 1 := by
  have hlead := coeffs_iff.1 hp (pdeg p).toNat
  have hne := pcoeff_pdeg_ne_zero hd
  have hinv := finv_lt h hlead
  constructor
  · rw [pdeg, pdeg]
    congr 2
    refine psize_congr fun n => ?_
    rw [pcoeff_pmonic, fmul_eq_zero h hirr hinv (coeffs_iff.1 hp n)]
    exact or_iff_right (finv_ne_zero h hirr hlead hne)
  · rw [pcoeff_pmonic, fmul_comm h hinv hlead, fmul_finv h hirr hlead hne]

/-! ### Division -/

theorem length_padd (p q : Poly) : (padd p q).length = max p.length q.length := by
  induction p generalizing q with
  | nil => simp [padd]
  | cons a p ih =>
    cases q with
    | nil => simp [padd]
    | cons b q => simp [padd, ih, Nat.add_max_add_right]

/-- Cutting a list after its first d entries drops only a zero when the entry d is the last one and 0. -/
theorem pcoeff_take {p : Poly} {d : Nat} (hl : p.length ≤ d + 1) (h0 : pcoeff p d = 0) (n : Nat) :
    pcoeff (p.take d) n = pcoeff p n := by
  by_cases hn : n < d
  · simp [pcoeff, hn]
  · rw [pcoeff_of_length_le (Nat.le_trans (List.length_take_le _ _) (by omega))]
    rcases Nat.eq_or_lt_of_le (Nat.not_lt.1 hn) with rfl | hlt
    · exact h0.symm
    · exact (pcoeff_of_length_le (by omega)).symm

/-- What one pass of the long division by `b` gives: a = q·b + r with r of at most d coefficients. -/
structure DivSpec (k : Gf) (a b : Poly) (d : Nat) (qr : Poly × Poly) : Prop where
  quotient : k.Coeffs qr.1
  remainder : k.Coeffs qr.2
  short : qr.2.length ≤ d
  eq : k.poly a = k.poly qr.1 * k.poly b + k.poly qr.2

/-- The long division by a polynomial of d + 1 coefficients whose last has the inverse `li`. -/
theorem pdivAux_spec {k : Gf} (h : k.DegreeOk) {b : Poly} {d : Nat} {li : Elem} (hb : k.Coeffs b)
    (hl : b.length = d + 1) (hli : li.toNat < 2 ^ k.m) (hinv : fmul k (pcoeff b d) li = 1) {a : Poly}
    (ha : k.Coeffs a) : DivSpec k a b d (pdivAux k b d li a) := by
  induction a with
  | nil => exact ⟨coeffs_nil k, coeffs_nil k, Nat.zero_le _, by simp [pdivAux, Gf.poly]⟩
  | cons a0 a ih =>
    obtain ⟨ha0, ha⟩ := coeffs_cons.1 ha
    obtain ⟨hq, hr, hshort, heq⟩ := ih ha
    rw [pdivAux]
    set qr := pdivAux k b d li a
    have hr' : k.Coeffs (a0 :: qr.2) := coeffs_cons.2 ⟨ha0, hr⟩
    have htop := coeffs_iff.1 hr' d
    set c := fmul k (pcoeff (a0 :: qr.2) d) li with hc
    have hclt : c.toNat < 2 ^ k.m := fmul_lt h htop li
    have hlead := coeffs_iff.1 hb d
    have hcancel : pcoeff (padd (a0 :: qr.2) (pscale k c b)) d = 0 := by
      rw [pcoeff_padd, pcoeff_pscale, hc, fmul_assoc h htop hli hlead, fmul_comm h hli hlead, hinv,
        fmul_one h htop, BitVec.xor_self]
      rfl
    have hlen : (padd (a0 :: qr.2) (pscale k c b)).length ≤ d + 1 := by
      rw [length_padd, pscale, List.length_map, hl, List.length_cons]
      omega
    have htake := pcoeff_take hlen hcancel
    have hsum := coeffs_padd hr' (coeffs_pscale h hclt b)
    refine ⟨coeffs_cons.2 ⟨hclt, hq⟩, coeffs_iff.2 fun n => by rw [htake]; exact coeffs_iff.1 hsum n,
      List.length_take_le _ _, ?_⟩
    rw [k.poly_congr htake, Gf.poly_padd, Gf.poly_pscale h hclt hb, Gf.poly, Gf.poly, Gf.poly, heq]
    linear_combination -(C (k.val c) * k.poly b) * k.two_eq_zero

/-- `divmod` by a nonzero polynomial over the field of an irreducible F. -/
theorem pdivmod_divSpec {k : Gf} (h : k.DegreeOk) (hirr : k.irreducible = true) {a b : Poly} (ha : k.Coeffs a)
    (hb : k.Coeffs b) (hd : 0 ≤ pdeg b) : DivSpec k a b (psize b - 1) (pdivmod k a b) := by
  have hpos := pdeg_nonneg.1 hd
  have hnorm : k.Coeffs (pnorm b) := coeffs_iff.2 fun n => by rw [pcoeff_pnorm]; exact coeffs_iff.1 hb n
  have hlead : (plead b).toNat < 2 ^ k.m := coeffs_iff.1 hb _
  have hinv : fmul k (pcoeff (pnorm b) (psize b - 1)) (finv k (plead b)) = 1 := by
    rw [pcoeff_pnorm]; exact fmul_finv h hirr hlead (plead_ne_zero hpos)
  have hlen : (pnorm b).length = psize b - 1 + 1 := by
    show psize b = _
    omega
  have hspec := pdivAux_spec h hnorm hlen (finv_lt h hlead) hinv ha
  exact { hspec with eq := by rw [← k.poly_congr (pcoeff_pnorm b)]; exact hspec.eq }

theorem pdivmod_spec {k : Gf} (h : k.DegreeOk) (hirr : k.irreducible = true) {a b : Poly} (ha : k.Coeffs a)
    (hb : k.Coeffs b) (hd : 0 ≤ pdeg b) :
    (∀ n, pcoeff a n = pcoeff (pmul k (pdivmod k a b).1 b) n ^^^ pcoeff (pdivmod k a b).2 n) ∧
      pdeg (pdivmod k a b).2 < pdeg b ∧ k.Coeffs (pdivmod k a b).1 ∧ k.Coeffs (pdivmod k a b).2 := by
  obtain ⟨hq, hr, hshort, heq⟩ := pdivmod_divSpec h hirr ha hb hd
  refine ⟨fun n => ?_, ?_, hq, hr⟩
  · rw [← pcoeff_padd]
    refine Gf.poly_inj h ha (coeffs_padd (coeffs_pmul h hq b) hr) ?_ n
    rw [Gf.poly_padd, Gf.poly_pmul h hq hb, heq]
  · have hpos := pdeg_nonneg.1 hd
    have hsize := psize_le_length (pdivmod k a b).2
    rw [pdeg, pdeg]
    omega

/-- Settles O35: the coefficients of each operation, and division by the invariant `DivSpec`. -/
theorem polynomialArithmetic : Obligations.PolynomialArithmetic :=
  ⟨fun p => ⟨by rw [pdeg]; omega, fun _ => pcoeff_of_pdeg_lt, pcoeff_pdeg_ne_zero, pzero_iff⟩,
    fun k p q n => ⟨pcoeff_padd p q n, pcoeff_pmul k p q n, (pcoeff_psq k p n).1, (pcoeff_psq k p n).2,
      pcoeff_pmonic k p n⟩,
    fun _ _ n h hp => psq_eq_pmul h hp n,
    fun _ _ h hirr hp hd => pmonic_spec h hirr hp hd,
    fun _ _ _ _ => ⟨rfl, rfl⟩,
    fun _ _ _ h hirr ha hb hd => by
      obtain ⟨heq, hdeg, hq, hr⟩ := pdivmod_spec h hirr ha hb hd
      exact ⟨heq, hdeg, hq, hr, rfl⟩⟩

end Sys2Proof.Machine

/-! # The control and status registers

What every CSR reads (10_state.md R57 to R67), the interrupt output, a CSR access through the host port, and the state
after reset. -/

namespace Sys2Proof.Machine

/-! ### Fields of a word by its value -/

/-- A bit of a word is the parity of its value divided by the bit's weight. -/
theorem getLsbD_of_toNat {w : Nat} {v : BitVec w} {i : Nat} {b : Bool} (h : v.toNat / 2 ^ i % 2 = b.toNat) :
    v.getLsbD i = b := by
  rw [BitVec.getLsbD, Nat.testBit_eq_decide_div_mod_eq, h]
  cases b <;> rfl

theorem toNat_extractLsb'_div {w : Nat} (v : BitVec w) (lo len : Nat) :
    (v.extractLsb' lo len).toNat = v.toNat / 2 ^ lo % 2 ^ len := by
  rw [BitVec.extractLsb'_toNat, Nat.shiftRight_eq_div_pow]

theorem ushiftRight_eq_zero {w : Nat} {v : BitVec w} {k : Nat} (h : v.toNat < 2 ^ k) : v >>> k = 0 := by
  apply BitVec.eq_of_toNat_eq
  rw [BitVec.toNat_ushiftRight, Nat.shiftRight_eq_div_pow, Nat.div_eq_of_lt h]
  rfl

/-! ### STATUS, IE and the interrupt -/

theorem toNat_sticky (s : State) :
    s.sticky.toNat = s.status.err.toNat + 2 * s.status.finished.toNat + 4 * s.status.mark.toNat +
      8 * s.status.ovf.toNat + 16 * s.status.hostErr.toNat := by
  have h0 := s.status.err.toNat_le
  have h1 := s.status.finished.toNat_le
  have h2 := s.status.mark.toNat_le
  have h3 := s.status.ovf.toNat_le
  have h4 := s.status.hostErr.toNat_le
  rw [State.sticky, BitVec.toNat_ofNat]
  exact Nat.mod_eq_of_lt (by omega)

/-- STATUS as a number: BUSY, the sticky bits and, for a FIFO within the bound of R9, CQ_LEVEL. -/
theorem toNat_csrRead_status {s : State} (h : s.fifo.length ≤ 255) :
    (s.csrRead 0x005).toNat = s.busy.toNat + 2 * s.sticky.toNat + 256 * s.fifo.length := by
  have hb := s.busy.toNat_le
  have hs := s.sticky.isLt
  show (BitVec.ofNat 32 (s.busy.toNat + 2 * s.sticky.toNat + 256 * (s.fifo.length % 256))).toNat = _
  rw [BitVec.toNat_ofNat, Nat.mod_eq_of_lt (by omega : s.fifo.length < 256)]
  exact Nat.mod_eq_of_lt (by omega)

theorem toNat_csrRead_ie (s : State) : (s.csrRead 0x006).toNat = 2 * s.ie.toNat := by
  have h := s.ie.isLt
  show (BitVec.ofNat 32 (2 * s.ie.toNat)).toNat = _
  rw [BitVec.toNat_ofNat]
  exact Nat.mod_eq_of_lt (by omega)

theorem status_busy_bit {s : State} (h : s.fifo.length ≤ 255) : (s.csrRead 0x005).getLsbD 0 = s.busy := by
  have hb := s.busy.toNat_le
  refine getLsbD_of_toNat ?_
  rw [toNat_csrRead_status h]
  omega

/-- Bits 5:1 of STATUS are the sticky bits (10_state.md R65). -/
theorem status_sticky_field {s : State} (h : s.fifo.length ≤ 255) :
    (s.csrRead 0x005).extractLsb' 1 5 = s.sticky := by
  have hb := s.busy.toNat_le
  have hs := s.sticky.isLt
  apply BitVec.eq_of_toNat_eq
  rw [toNat_extractLsb'_div, toNat_csrRead_status h]
  omega

theorem status_level_field {s : State} (h : s.fifo.length ≤ 255) :
    ((s.csrRead 0x005).extractLsb' 8 8).toNat = s.fifo.length := by
  have hb := s.busy.toNat_le
  have hs := s.sticky.isLt
  rw [toNat_extractLsb'_div, toNat_csrRead_status h]
  omega

theorem status_reserved_field {s : State} (h : s.fifo.length ≤ 255) : (s.csrRead 0x005).extractLsb' 6 2 = 0 := by
  have hb := s.busy.toNat_le
  have hs := s.sticky.isLt
  apply BitVec.eq_of_toNat_eq
  rw [toNat_extractLsb'_div, toNat_csrRead_status h]
  show _ = 0
  omega

theorem status_high {s : State} (h : s.fifo.length ≤ 255) : s.csrRead 0x005 >>> 16 = 0 := by
  have hb := s.busy.toNat_le
  have hs := s.sticky.isLt
  refine ushiftRight_eq_zero ?_
  rw [toNat_csrRead_status h]
  omega

/-- Bit k + 1 of STATUS is sticky bit k. -/
theorem status_sticky_bit {s : State} (h : s.fifo.length ≤ 255) {k : Nat} (hk : k < 5) :
    (s.csrRead 0x005).getLsbD (k + 1) = s.sticky.getLsbD k := by
  rw [← status_sticky_field h, BitVec.getLsbD_extractLsb', decide_eq_true hk, Bool.true_and, Nat.add_comm]

theorem sticky_bits (s : State) :
    s.sticky.getLsbD 0 = s.status.err ∧ s.sticky.getLsbD 1 = s.status.finished ∧
    s.sticky.getLsbD 2 = s.status.mark ∧ s.sticky.getLsbD 3 = s.status.ovf ∧
    s.sticky.getLsbD 4 = s.status.hostErr := by
  have h0 := s.status.err.toNat_le
  have h1 := s.status.finished.toNat_le
  have h2 := s.status.mark.toNat_le
  have h3 := s.status.ovf.toNat_le
  have h4 := s.status.hostErr.toNat_le
  refine ⟨?_, ?_, ?_, ?_, ?_⟩ <;> (refine getLsbD_of_toNat ?_; rw [toNat_sticky]; omega)

/-- Bits 5:1 of IE are the enables (10_state.md R66). -/
theorem ie_field (s : State) : (s.csrRead 0x006).extractLsb' 1 5 = s.ie := by
  have hi := s.ie.isLt
  apply BitVec.eq_of_toNat_eq
  rw [toNat_extractLsb'_div, toNat_csrRead_ie]
  omega

theorem ie_bit (s : State) {k : Nat} (hk : k < 5) : (s.csrRead 0x006).getLsbD (k + 1) = s.ie.getLsbD k := by
  rw [← ie_field s, BitVec.getLsbD_extractLsb', decide_eq_true hk, Bool.true_and, Nat.add_comm]

theorem ie_bit_zero (s : State) : (s.csrRead 0x006).getLsbD 0 = false := by
  refine getLsbD_of_toNat ?_
  rw [toNat_csrRead_ie]
  show _ = 0
  omega

theorem ie_high (s : State) : s.csrRead 0x006 >>> 6 = 0 := by
  have hi := s.ie.isLt
  refine ushiftRight_eq_zero ?_
  rw [toNat_csrRead_ie]
  omega

/-- `irq` from what STATUS and IE read (60_exceptions.md R511). -/
theorem irq_eq_csrRead {s : State} (h : s.fifo.length ≤ 255) :
    s.irq = ((s.csrRead 0x005).extractLsb' 1 5 &&& (s.csrRead 0x006).extractLsb' 1 5 != 0) := by
  rw [status_sticky_field h, ie_field, State.irq]

/-! ### PARAMS, FLAGS and the numbers that are not listed -/

/-- PARAMS as a number: each of the four parameters fits its byte (10_state.md R60). -/
theorem toNat_paramsWord {p : Params} (h : p.Legal) :
    (paramsWord p).toNat = p.tMax + 256 * p.mMax + 65536 * p.bmemAw + 16777216 * p.cqDepth := by
  obtain ⟨ht, htm, hm, hb, -, hc⟩ := h
  rw [paramsWord, BitVec.toNat_ofNat]
  exact Nat.mod_eq_of_lt (by omega)

theorem params_fields {p : Params} (h : p.Legal) :
    ((paramsWord p).extractLsb' 0 8).toNat = p.tMax ∧ ((paramsWord p).extractLsb' 8 8).toNat = p.mMax ∧
    ((paramsWord p).extractLsb' 16 8).toNat = p.bmemAw ∧ ((paramsWord p).extractLsb' 24 8).toNat = p.cqDepth := by
  have hp := toNat_paramsWord h
  obtain ⟨ht, htm, hm, hb, -, hc⟩ := h
  refine ⟨?_, ?_, ?_, ?_⟩ <;> (rw [toNat_extractLsb'_div, hp]; omega)

/-- A word is its four bytes. -/
theorem eq_append_bytes (v : Word32) :
    v.extractLsb' 24 8 ++ v.extractLsb' 16 8 ++ v.extractLsb' 8 8 ++ v.extractLsb' 0 8 = v := by
  refine BitVec.eq_of_getLsbD_eq fun i hi => ?_
  simp only [BitVec.getLsbD_append, BitVec.getLsbD_extractLsb']
  split_ifs with h0 h1 h2
  · simp [h0]
  · rw [decide_eq_true (by omega), Bool.true_and]; congr 1; omega
  · rw [decide_eq_true (by omega), Bool.true_and]; congr 1; omega
  · rw [decide_eq_true (by omega), Bool.true_and]; congr 1; omega

/-- PARAMS holds the four parameters in its bytes, T_MAX in the lowest. -/
theorem paramsWord_eq_append {p : Params} (h : p.Legal) :
    paramsWord p =
      BitVec.ofNat 8 p.cqDepth ++ BitVec.ofNat 8 p.bmemAw ++ BitVec.ofNat 8 p.mMax ++ BitVec.ofNat 8 p.tMax := by
  obtain ⟨ht, hm, hb, hc⟩ := params_fields h
  rw [← ht, ← hm, ← hb, ← hc]
  simp only [BitVec.ofNat_toNat, BitVec.setWidth_eq]
  exact (eq_append_bytes _).symm

theorem toNat_flagsWord (s : State) : s.flagsWord.toNat = s.flags.reg.toNat + 2 * s.flags.sing.toNat := by
  have h0 := s.flags.reg.toNat_le
  have h1 := s.flags.sing.toNat_le
  rw [State.flagsWord, BitVec.toNat_ofNat]
  exact Nat.mod_eq_of_lt (by omega)

/-- FLAGS: REG in bit 0, SING in bit 1, the rest 0 (10_state.md R59). -/
theorem flagsWord_bits (s : State) :
    s.flagsWord.getLsbD 0 = s.flags.reg ∧ s.flagsWord.getLsbD 1 = s.flags.sing ∧ s.flagsWord >>> 2 = 0 := by
  have h0 := s.flags.reg.toNat_le
  have h1 := s.flags.sing.toNat_le
  have hv := toNat_flagsWord s
  refine ⟨getLsbD_of_toNat ?_, getLsbD_of_toNat ?_, ushiftRight_eq_zero ?_⟩ <;> (rw [hv]; omega)

/-- A number that is not listed reads 0 (10_state.md R61, 20_memory.md R105); CMD_HI too (R57). -/
theorem csrRead_unlisted (s : State) {k : Nat} (h1 : k ∉ [0x000, 0x001, 0x002, 0x004, 0x005, 0x006, 0x008, 0x00A])
    (h2 : ¬ (0x00C ≤ k ∧ k ≤ 0x010)) (h3 : ¬ (0x020 ≤ k ∧ k ≤ 0x028)) : s.csrRead k = 0 := by
  simp only [List.mem_cons, List.not_mem_nil, or_false, not_or] at h1
  unfold State.csrRead
  repeat rw [if_neg (by omega)]

/-- Settles O60: each field of STATUS, IE, PARAMS and FLAGS by its place in the word's value; the other registers are
read whole. -/
theorem csrReadsAndInterrupt : Obligations.CsrReadsAndInterrupt := by
  refine ⟨fun s h => ?_, fun s => ?_, fun s h => params_fields h, fun s => ?_, fun s k h1 h2 h3 => ?_⟩
  · obtain ⟨herr, hfin, hmark, hovf, hhost⟩ := sticky_bits s
    exact ⟨status_busy_bit h, (status_sticky_bit h (by omega)).trans herr,
      (status_sticky_bit h (by omega)).trans hfin, (status_sticky_bit h (by omega)).trans hmark,
      (status_sticky_bit h (by omega)).trans hovf, (status_sticky_bit h (by omega)).trans hhost,
      status_level_field h, status_high h, status_reserved_field h, fun k hk => ie_bit s hk, ie_bit_zero s,
      ie_high s, irq_eq_csrRead h⟩
  · refine ⟨rfl, rfl, ?_, rfl, rfl, rfl, ?_, rfl, rfl, rfl, rfl⟩
    · show BitVec.ofNat 32 s.ctrlEn.toNat = _
      cases s.ctrlEn <;> rfl
    · exact BitVec.toNat_setWidth_of_le (b := s.errRec.cause) (by omega)
  · obtain ⟨hreg, hsing, hhigh⟩ := flagsWord_bits s
    exact ⟨toNat_csrRead_m s, toNat_csrRead_t s, toNat_csrRead_nb s,
      BitVec.toNat_setWidth_of_le (b := s.cfg.fpoly) (by omega),
      BitVec.toNat_setWidth_of_le (b := s.cfg.mvRows) (by omega),
      BitVec.toNat_setWidth_of_le (b := s.cfg.mvCols) (by omega),
      BitVec.toNat_setWidth_of_le (b := s.cfg.mvRs) (by omega),
      BitVec.toNat_setWidth_of_le (b := s.cfg.mvCs) (by omega), hreg, hsing, hhigh⟩
  · exact csrRead_unlisted s (fun h => h1 (by simp at h ⊢; tauto)) h2 h3

/-! ### The state after reset -/

theorem csrRead_resetWith {p : Params} {k : Nat} (hk : 3 ≤ k) : (State.resetWith p).csrRead k = 0 := by
  by_cases hl : k ≤ 0x028
  · interval_cases k <;> rfl
  · exact csrRead_unlisted _ (by simp; omega) (by omega) (by omega)

/-- With no interrupt enabled irq is 0. -/
theorem irq_resetWith (p : Params) : (State.resetWith p).irq = false := by
  have hie : (State.resetWith p).ie = 0 := rfl
  rw [State.irq, hie]
  simp

/-- Settles O14: `resetWith_inv`, the reset values of the registers, and the bytes of PARAMS. -/
theorem resetState : Obligations.ResetState :=
  ⟨fun _ h => ⟨resetWith_inv h, rfl, irq_resetWith _, rfl, rfl, paramsWord_eq_append h, fun _ hk => csrRead_resetWith hk,
    rfl, rfl, rfl, rfl, rfl, rfl⟩, rfl, rfl⟩

/-! ### CSR accesses through the port -/

/-- The byte address of a CSR is a multiple of 4 (20_memory.md R103, R104). -/
theorem portWellFormed_csr (k : Nat) : portWellFormed (BitVec.ofNat 32 (4 * k)) 0b1111#4 = true := by
  have h : (BitVec.ofNat 32 (4 * k)).extractLsb' 0 2 = 0 := by
    apply BitVec.eq_of_toNat_eq
    rw [toNat_extractLsb'_div, BitVec.toNat_ofNat]
    show _ = 0
    omega
  rw [portWellFormed, h]
  rfl

theorem locate_csr (p : Params) {k : Nat} (hk : k < 0x400) :
    locate p (BitVec.ofNat 32 (4 * k)).toNat = some (.csr k) := by
  have ha : (BitVec.ofNat 32 (4 * k)).toNat = 4 * k := by
    rw [BitVec.toNat_ofNat]
    exact Nat.mod_eq_of_lt (by omega)
  have hw : windowIndex 0 0x400 (4 * k) = some k := by
    rw [windowIndex, if_pos (by omega)]
    congr 1
    omega
  rw [ha, locate, hw]

theorem hostWrite_csr (s : State) {k : Nat} (hk : k < 0x400) (v : Word32) :
    s.hostWrite (BitVec.ofNat 32 (4 * k)) v 0b1111#4 = s.csrWrite k v := by
  rw [State.hostWrite, if_pos (portWellFormed_csr k), locate_csr s.params hk]

theorem hostRead_csr (s : State) {k : Nat} (hk : k < 0x400) :
    s.hostRead (BitVec.ofNat 32 (4 * k)) 0b1111#4 = s.answer (s.csrRead k) := by
  rw [State.hostRead, if_pos (portWellFormed_csr k), locate_csr s.params hk]

theorem pushCommand_of_lt {s : State} (h : s.fifo.length < s.params.cqDepth) (v : Word32) :
    s.pushCommand v = { s with fifo := s.fifo ++ [v ++ s.cmdLo] } := if_pos h

theorem pushCommand_of_full {s : State} (h : s.params.cqDepth ≤ s.fifo.length) (v : Word32) :
    s.pushCommand v = { s with status := { s.status with ovf := true } } := if_neg (Nat.not_lt.2 h)

/-- Settles O53: a CMD_HI write is `pushCommand`, which tests the FIFO's level. -/
theorem commandPush : Obligations.CommandPush := fun s v =>
  ⟨fun h => (hostWrite_csr s (k := 9) (by omega) v).trans (pushCommand_of_lt h v),
    fun h => (hostWrite_csr s (k := 9) (by omega) v).trans (pushCommand_of_full h v),
    hostWrite_csr s (k := 8) (by omega) v, hostRead_csr s (k := 8) (by omega), hostRead_csr s (k := 9) (by omega)⟩

/-- With ERR clear, EN set and a word queued the sequencer is busy (10_state.md R58). -/
theorem busy_eq_true {s : State} (he : s.ctrlEn = true) (hr : s.status.err = false) (hf : s.fifo ≠ []) :
    s.busy = true := by
  rw [State.busy, he, hr, List.isEmpty_eq_false_iff.2 hf]
  rfl

/-- Settles O59: a STATUS write is `clearStatus`. -/
theorem statusWriteEndsTheHalt : Obligations.StatusWriteEndsTheHalt := fun s v => by
  have hw : s.hostWrite 0x14#32 v 0b1111#4 = s.clearStatus v := hostWrite_csr s (k := 5) (by omega) v
  refine ⟨hw, fun hv he hf => ?_⟩
  rw [hw]
  exact busy_eq_true he (by simp [hv]) hf

end Sys2Proof.Machine

/-! # The sequencer and the queue

When the sequencer's turn does nothing (10_state.md R58, 60_exceptions.md R507), and what a step does to the FIFO
(10_state.md R54 to R57). -/

namespace Sys2Proof.Machine

/-! ### The idle sequencer -/

theorem busy_eq_false {s : State} (h : s.ctrlEn = false ∨ s.status.err = true ∨ s.fifo = []) : s.busy = false := by
  rcases h with h | h | h <;> simp [State.busy, h]

theorem sequencerTurn_of_not_busy {s : State} (h : s.busy = false) : sequencerTurn s = .next s := by
  rw [sequencerTurn, h]
  rfl

theorem step_of_agenda_nil {s : State} (h : s.agenda = []) : step s = sequencerTurn s := by
  rw [step, nextEvent, h]

theorem step_of_agenda_cons {s : State} {e : Event} {es : List Event} (h : s.agenda = e :: es) :
    step s = runEvent { s with agenda := es } e := by
  rw [step, nextEvent, h]

/-- Settles O8: BUSY is 0, and `sequencerTurn` tests it. -/
theorem noStepWhenNotBusy : Obligations.NoStepWhenNotBusy := fun s h =>
  ⟨busy_eq_false h, sequencerTurn_of_not_busy (busy_eq_false h),
    fun ha => (step_of_agenda_nil ha).trans (sequencerTurn_of_not_busy (busy_eq_false h)),
    fun es ha => (step_of_agenda_cons ha).trans
      (sequencerTurn_of_not_busy (s := { s with agenda := es }) (busy_eq_false h))⟩

/-! ### The FIFO after one event -/

theorem exec_fifo {i : Instr} {s t : State} (h : exec i s = .next t) : t.fifo = s.fifo := by
  rw [exec_eq_commit] at h
  rcases commit_eq_next.1 h with ⟨s', hr, rfl⟩ | ⟨c, info, -, rfl⟩ | ⟨c, info, -, rfl⟩
  · exact (rule_ok_same hr).fifo
  · rfl
  · rfl

theorem runWord_fifo {s t : State} {w : Command} (h : runWord s w = .next t) : t.fifo = s.fifo := by
  unfold runWord at h
  split at h
  · exact exec_fifo h
  · cases h; rfl

/-- The sequencer takes the head of the FIFO or leaves the FIFO alone. -/
theorem sequencerTurn_fifo {s t : State} (h : sequencerTurn s = .next t) : t.fifo = s.fifo ∨ t.fifo = s.fifo.tail := by
  unfold sequencerTurn at h
  split at h
  · split at h
    · cases h; exact .inl rfl
    next w rest hf =>
      rw [hf]
      exact .inr (runWord_fifo h)
  · cases h; exact .inl rfl

theorem hostRead_fifo (s : State) (addr : Word32) (be : BitVec 4) : (s.hostRead addr be).fifo = s.fifo := by
  unfold State.hostRead
  repeat' split
  all_goals rfl

/-- The FIFO after a host write: as it was, emptied by a reset or FLUSH, or one word longer. -/
def HostFifo (s : State) (v : Word32) (fifo : List Command) : Prop :=
  fifo = s.fifo ∨ fifo = [] ∨ s.fifo.length < s.params.cqDepth ∧ fifo = s.fifo ++ [v ++ s.cmdLo]

theorem writeCtrl_fifo (s : State) (v : Word32) : (s.writeCtrl v).fifo = s.fifo ∨ (s.writeCtrl v).fifo = [] := by
  unfold State.writeCtrl
  split
  · exact .inr rfl
  · show (if v.getLsbD 1 then [] else s.fifo) = s.fifo ∨ (if v.getLsbD 1 then [] else s.fifo) = []
    split
    · exact .inr rfl
    · exact .inl rfl

theorem pushCommand_fifo (s : State) (v : Word32) : HostFifo s v (s.pushCommand v).fifo := by
  unfold State.pushCommand
  split
  next hlt => exact .inr (.inr ⟨hlt, rfl⟩)
  next => exact .inl rfl

theorem csrWrite_fifo (s : State) (k : Nat) (v : Word32) : HostFifo s v (s.csrWrite k v).fifo := by
  unfold State.csrWrite
  split_ifs
  · exact (writeCtrl_fifo s v).imp_right .inl
  · exact .inl rfl
  · exact .inl rfl
  · exact .inl rfl
  · exact pushCommand_fifo s v
  · exact .inl rfl
  · exact .inl (putConfig_same s k v).fifo
  · exact .inl rfl

theorem cellWrite_fifo (s : State) (v : Word32) (target : Target) : HostFifo s v (s.cellWrite v target).fifo := by
  cases target with
  | csr k => exact csrWrite_fifo s k v
  | _ => exact .inl rfl

theorem hostWrite_fifo (s : State) (addr v : Word32) (be : BitVec 4) : HostFifo s v (s.hostWrite addr v be).fifo := by
  unfold State.hostWrite
  split
  · split
    · exact .inl rfl
    · exact csrWrite_fifo s _ v
    · split
      · exact .inl rfl
      · exact cellWrite_fifo s v _
  · exact .inl rfl

/-- Settles O16: `sequencerTurn_fifo`, and one case for each event of the agenda. -/
theorem queuedWordsAreFixed : Obligations.QueuedWordsAreFixed := by
  intro s t h
  cases ha : s.agenda with
  | nil =>
    rw [step_of_agenda_nil ha] at h
    exact (sequencerTurn_fifo h).imp_right .inl
  | cons e es =>
    rw [step_of_agenda_cons ha] at h
    cases e with
    | read addr be => cases h; exact .inl (hostRead_fifo _ addr be)
    | rst => cases h; exact .inr (.inr (.inl rfl))
    | sequencer => exact (sequencerTurn_fifo h).imp_right .inl
    | write addr v be =>
      cases h
      rcases hostWrite_fifo { s with agenda := es } addr v be with hf | hf | ⟨hlt, hf⟩
      · exact .inl hf
      · exact .inr (.inr (.inl hf))
      · exact .inr (.inr (.inr ⟨addr, v, be, es, rfl, hlt, hf⟩))

end Sys2Proof.Machine

/-! # What a command writes

The one form of every rule's result, and from it what a command that retires leaves alone (10_state.md R43, R47, R51,
R55, R59, R61, R65). -/

namespace Sys2Proof.Machine

/-- `t` is `s` written by the command `i` in the way of its rule: by one of the named writes to its destination, with
some value. The decoder's commands under a reducible F count a free value too (44_decoder.md R340). -/
def Instr.Writes (s : State) : Instr → State → Prop
  | .nop, t => t = s
  | .sync, t => t = { s with status := { s.status with mark := true } }
  | .csrw csr imm, t => t = s.putConfig csr.toNat imm
  | .posset x imm, t => t = s.putPos x.toNat imm
  | .dymul d _ _, t => ∃ v, t = s.putBlock d.toNat v
  | .dyadd d _ _, t => ∃ v, t = s.putBlock d.toNat v
  | .dyreg _, t => ∃ b, t = s.setOutcome b
  | .dyinv d _, t => t = s.setOutcome false ∨ ∃ v, t = (s.setOutcome true).putBlock d.toNat v
  | .bcopy d _ _, t => ∃ vs, t = s.putWords d.toNat vs
  | .matvec d _ _, t => ∃ vs, t = s.putBlocks d.toNat vs
  | .gauss base, t => t = s.setOutcome false ∨ ∃ vs, t = (s.setOutcome true).putBlocks base.toNat vs
  | .cot2p pd _ _, t => ∃ q, t = s.putPoly pd.toNat q
  | .p2cot base _ stride, t => ∃ vs, t = s.putStrided base.toNat stride.toNat vs
  | .pinv pd _, t => ∃ q, t = s.putPoly pd.toNat q ∨ t = (s.putPoly pd.toNat q).drawn
  | .paddx pd _, t => ∃ q, t = s.putPoly pd.toNat q
  | .psqrt pd _, t => ∃ q, t = s.putPoly pd.toNat q ∨ t = (s.putPoly pd.toNat q).drawn
  | .pfrac pa pb _, t => ∃ a b, t = (s.putPoly pa.toNat a).putPoly pb.toNat b ∨
      t = ((s.putPoly pa.toNat a).putPoly pb.toNat b).drawn
  | .ploc pd _ _, t => ∃ q, t = s.putPoly pd.toNat q
  | .roots e _, t => ∃ vs, t = s.putBlocks e.toNat vs
  | .correct d _ _, t => ∃ vs, t = s.putBlocks d.toNat vs
  | .decode e _, t => ∃ vs, t = s.putBlocks e.toNat vs ∨ t = (s.putBlocks e.toNat vs).drawn
  | .pclr pd, t => ∃ q, t = s.putPoly pd.toNat q
  | .pmov pd _, t => ∃ vs, t = s.putSlots pd.toNat 0 vs
  | .psetc pd k _, t => ∃ v, t = s.putSlots pd.toNat k.toNat [v]
  | .gset _, t => ∃ vs, t = s.putG vs
  | .sqset i _, t => ∃ vs, t = s.putSqRow i.toNat vs

/-- Every state with which `r` ends well has the property `p`. -/
def EndsIn (p : State → Prop) (r : Run State) : Prop := ∀ t, r = .ok t → p t

theorem EndsIn.ok {p : State → Prop} {t : State} (h : p t) : EndsIn p (.ok t) := fun _ ht => by
  cases ht; exact h

theorem EndsIn.error {p : State → Prop} {e : Stop} : EndsIn p (.error e) := fun _ ht => by cases ht

theorem EndsIn.bind {α : Type} {p : State → Prop} {x : Run α} {f : α → Run State} (h : ∀ a, EndsIn p (f a)) :
    EndsIn p (x >>= f) := fun t ht => by
  obtain ⟨a, -, ha⟩ := run_bind_eq_ok.1 ht
  exact h a t ha

theorem EndsIn.underField {p : State → Prop} {s w : State} {e : Run State} (hw : p w.drawn) (he : EndsIn p e) :
    EndsIn p (underField s w e) := fun t ht => by
  rcases underField_ok ht with ⟨-, hok⟩ | ⟨-, rfl⟩
  · exact he t hok
  · exact hw

theorem ruleDyinv_writes (d a : Field) (s : State) : EndsIn (Instr.Writes s (.dyinv d a)) (ruleDyinv d a s) := by
  refine .bind fun _ => .bind fun _ => .bind fun _ => .bind fun x => ?_
  split
  · exact .ok (.inr ⟨x, rfl⟩)
  · exact .ok (.inl rfl)

theorem ruleGauss_writes (base : Field) (s : State) : EndsIn (Instr.Writes s (.gauss base)) (ruleGauss base s) := by
  refine .bind fun _ => .bind fun _ => .bind fun _ => .bind fun _ => ?_
  split
  · exact .ok (.inl rfl)
  next w' _ => exact .ok (.inr ⟨w'.flatten, rfl⟩)

theorem rulePinv_writes (pd ps : Field) (s : State) : EndsIn (Instr.Writes s (.pinv pd ps)) (rulePinv pd ps s) := by
  refine .bind fun _ => .bind fun _ => .bind fun _ => .bind fun _ => .bind fun _ => .underField ⟨_, .inr rfl⟩ ?_
  split
  · exact .error
  next u _ => exact .ok ⟨u, .inl rfl⟩

theorem rulePsqrt_writes (pd ps : Field) (s : State) :
    EndsIn (Instr.Writes s (.psqrt pd ps)) (rulePsqrt pd ps s) :=
  .bind fun _ => .bind fun _ => .bind fun _ => .bind fun _ => .bind fun _ => .bind fun _ =>
    .underField ⟨_, .inr rfl⟩ (.ok ⟨_, .inl rfl⟩)

theorem rulePfrac_writes (pa pb ps : Field) (s : State) :
    EndsIn (Instr.Writes s (.pfrac pa pb ps)) (rulePfrac pa pb ps s) :=
  .bind fun _ => .bind fun _ => .bind fun _ => .bind fun _ => .bind fun _ => .bind fun _ =>
    .underField ⟨_, _, .inr rfl⟩ (.ok ⟨_, _, .inl rfl⟩)

theorem ruleDecode_writes (e syn : Field) (s : State) :
    EndsIn (Instr.Writes s (.decode e syn)) (ruleDecode e syn s) :=
  .bind fun _ => .bind fun _ => .bind fun _ => .bind fun _ => .bind fun _ => .bind fun _ =>
    .underField ⟨_, .inr rfl⟩ (.bind fun _ => .bind fun _ => .ok ⟨_, .inl rfl⟩)

/-- WHAT A RULE CAN DO: when it ends well it has made the write of its command and no other. -/
theorem rule_writes (i : Instr) (s : State) : EndsIn (Instr.Writes s i) (ruleOf i s) := by
  cases i with
  | nop => exact .ok rfl
  | sync => exact .ok rfl
  | csrw csr imm => exact .bind fun _ => .ok rfl
  | posset x imm => exact .bind fun _ => .bind fun _ => .ok rfl
  | dymul d a b =>
    exact .bind fun _ => .bind fun _ => .bind fun _ => .bind fun _ => .bind fun _ => .bind fun _ => .ok ⟨_, rfl⟩
  | dyadd d a b =>
    exact .bind fun _ => .bind fun _ => .bind fun _ => .bind fun _ => .bind fun _ => .bind fun _ => .ok ⟨_, rfl⟩
  | dyreg a => exact .bind fun _ => .bind fun _ => .bind fun _ => .ok ⟨_, rfl⟩
  | dyinv d a => exact ruleDyinv_writes d a s
  | bcopy d src count => exact .bind fun _ => .bind fun _ => .bind fun _ => .bind fun _ => .ok ⟨_, rfl⟩
  | matvec d mat v =>
    exact .bind fun _ => .bind fun _ => .bind fun _ => .bind fun _ => .bind fun _ => .bind fun _ => .bind fun _ =>
      .ok ⟨_, rfl⟩
  | gauss base => exact ruleGauss_writes base s
  | cot2p pd base stride => exact .bind fun _ => .bind fun _ => .bind fun _ => .bind fun _ => .ok ⟨_, rfl⟩
  | p2cot base ps stride => exact .bind fun _ => .bind fun _ => .bind fun _ => .bind fun _ => .ok ⟨_, rfl⟩
  | pinv pd ps => exact rulePinv_writes pd ps s
  | paddx pd ps => exact .bind fun _ => .bind fun _ => .bind fun _ => .ok ⟨_, rfl⟩
  | psqrt pd ps => exact rulePsqrt_writes pd ps s
  | pfrac pa pb ps => exact rulePfrac_writes pa pb ps s
  | ploc pd pa pb => exact .bind fun _ => .bind fun _ => .bind fun _ => .bind fun _ => .ok ⟨_, rfl⟩
  | roots e ps => exact .bind fun _ => .bind fun _ => .bind fun _ => .bind fun _ => .bind fun _ => .ok ⟨_, rfl⟩
  | correct d c e =>
    exact .bind fun _ => .bind fun _ => .bind fun _ => .bind fun _ => .bind fun _ => .bind fun _ => .bind fun _ =>
      .bind fun _ => .ok ⟨_, rfl⟩
  | decode e syn => exact ruleDecode_writes e syn s
  | pclr pd => exact .bind fun _ => .ok ⟨_, rfl⟩
  | pmov pd ps => exact .bind fun _ => .bind fun _ => .ok ⟨_, rfl⟩
  | psetc pd k value => exact .bind fun _ => .ok ⟨_, rfl⟩
  | gset ps => exact .bind fun _ => .bind fun _ => .ok ⟨_, rfl⟩
  | sqset i ps => exact .bind fun _ => .bind fun _ => .ok ⟨_, rfl⟩

/-! ### The tables and registers with a single writer -/

/-- `t` has the tables, the configuration, FLAGS and STATUS.MARK of `s`. -/
structure SameTables (s t : State) : Prop where
  g : t.g = s.g
  sq : t.sq = s.sq
  pos : t.pos = s.pos
  cfg : t.cfg = s.cfg
  flags : t.flags = s.flags
  mark : t.status.mark = s.status.mark

/-- What a change of each of these says of the command `i` (10_state.md R43, R47, R51, R59, R61, R65). -/
structure NamedWriter (i : Instr) (s t : State) : Prop where
  g : t.g ≠ s.g → ∃ ps, i = .gset ps
  sq : t.sq ≠ s.sq → ∃ r ps, i = .sqset r ps
  pos : t.pos ≠ s.pos → ∃ x imm, i = .posset x imm
  cfg : t.cfg ≠ s.cfg → ∃ csr imm, i = .csrw csr imm
  flags : t.flags ≠ s.flags →
    (∃ a, i = .dyreg a) ∨ (∃ d a, i = .dyinv d a) ∨ (∃ base, i = .gauss base) ∨ ∃ csr imm, i = .csrw csr imm
  mark : t.status.mark ≠ s.status.mark → i = .sync

theorem SameTables.named {s t : State} (h : SameTables s t) (i : Instr) : NamedWriter i s t :=
  ⟨fun hne => absurd h.g hne, fun hne => absurd h.sq hne, fun hne => absurd h.pos hne, fun hne => absurd h.cfg hne,
    fun hne => absurd h.flags hne, fun hne => absurd h.mark hne⟩

theorem SameTables.refl (s : State) : SameTables s s := ⟨rfl, rfl, rfl, rfl, rfl, rfl⟩

theorem SameTables.trans {s t u : State} (h : SameTables s t) (k : SameTables t u) : SameTables s u :=
  ⟨k.g.trans h.g, k.sq.trans h.sq, k.pos.trans h.pos, k.cfg.trans h.cfg, k.flags.trans h.flags,
    k.mark.trans h.mark⟩

theorem sameTables_takeFault (s : State) (c : Cause) (info : Word32) (w : Command) :
    SameTables s (s.takeFault c info w) := ⟨rfl, rfl, rfl, rfl, rfl, rfl⟩

theorem sameTables_drawn (s : State) : SameTables s s.drawn := ⟨rfl, rfl, rfl, rfl, rfl, rfl⟩

theorem sameTables_putBlocks (s : State) (a : Nat) (vs : List Block) : SameTables s (s.putBlocks a vs) :=
  ⟨rfl, rfl, rfl, rfl, rfl, rfl⟩

theorem sameTables_putWords (s : State) (a : Nat) (vs : List Block) : SameTables s (s.putWords a vs) :=
  ⟨rfl, rfl, rfl, rfl, rfl, rfl⟩

theorem sameTables_putSlots (s : State) (i k : Nat) (vs : List Elem) : SameTables s (s.putSlots i k vs) :=
  ⟨rfl, rfl, rfl, rfl, rfl, rfl⟩

theorem sameTables_putStrided (s : State) (a stride : Nat) (vs : List Block) :
    SameTables s (s.putStrided a stride vs) := by
  rw [putStrided_eq]
  exact ⟨rfl, rfl, rfl, rfl, rfl, rfl⟩

/-- Writing a configuration register changes the configuration and FLAGS alone. -/
theorem putConfig_eq (s : State) (k : Nat) (v : Word32) :
    s.putConfig k v = { s with cfg := (s.putConfig k v).cfg, flags := (s.putConfig k v).flags } := by
  unfold State.putConfig
  repeat' split
  all_goals rfl

theorem putConfig_named (csr : Field) (imm : Word32) (s : State) :
    NamedWriter (.csrw csr imm) s (s.putConfig csr.toNat imm) := by
  rw [putConfig_eq]
  exact ⟨fun h => absurd rfl h, fun h => absurd rfl h, fun h => absurd rfl h, fun _ => ⟨csr, imm, rfl⟩,
    fun _ => .inr (.inr (.inr ⟨csr, imm, rfl⟩)), fun h => absurd rfl h⟩

/-- A state that differs from `s` in FLAGS and BMEM alone, for a command that may write FLAGS. -/
theorem namedWriter_of_flags {i : Instr} {s : State} {flags : FlagBits} {bmem : Memory}
    (hi : (∃ a, i = .dyreg a) ∨ (∃ d a, i = .dyinv d a) ∨ (∃ base, i = .gauss base) ∨ ∃ csr imm, i = .csrw csr imm) :
    NamedWriter i s { s with flags := flags, bmem := bmem } :=
  ⟨fun h => absurd rfl h, fun h => absurd rfl h, fun h => absurd rfl h, fun h => absurd rfl h, fun _ => hi,
    fun h => absurd rfl h⟩

/-- Each command's write changes only what the command is named for. -/
theorem writes_named {i : Instr} {s t : State} (h : Instr.Writes s i t) : NamedWriter i s t := by
  cases i with
  | nop => cases h; exact (SameTables.refl s).named _
  | sync =>
    cases h
    exact ⟨fun h => absurd rfl h, fun h => absurd rfl h, fun h => absurd rfl h, fun h => absurd rfl h,
      fun h => absurd rfl h, fun _ => rfl⟩
  | csrw csr imm => cases h; exact putConfig_named csr imm s
  | posset x imm =>
    cases h
    exact ⟨fun h => absurd rfl h, fun h => absurd rfl h, fun _ => ⟨x, imm, rfl⟩, fun h => absurd rfl h,
      fun h => absurd rfl h, fun h => absurd rfl h⟩
  | gset ps =>
    obtain ⟨vs, rfl⟩ := h
    exact ⟨fun _ => ⟨ps, rfl⟩, fun h => absurd rfl h, fun h => absurd rfl h, fun h => absurd rfl h,
      fun h => absurd rfl h, fun h => absurd rfl h⟩
  | sqset r ps =>
    obtain ⟨vs, rfl⟩ := h
    exact ⟨fun h => absurd rfl h, fun _ => ⟨r, ps, rfl⟩, fun h => absurd rfl h, fun h => absurd rfl h,
      fun h => absurd rfl h, fun h => absurd rfl h⟩
  | dyreg a => obtain ⟨b, rfl⟩ := h; exact namedWriter_of_flags (.inl ⟨a, rfl⟩)
  | dyinv d a =>
    rcases h with rfl | ⟨v, rfl⟩
    · exact namedWriter_of_flags (.inr (.inl ⟨d, a, rfl⟩))
    · exact namedWriter_of_flags (.inr (.inl ⟨d, a, rfl⟩))
  | gauss base =>
    rcases h with rfl | ⟨vs, rfl⟩
    · exact namedWriter_of_flags (.inr (.inr (.inl ⟨base, rfl⟩)))
    · exact namedWriter_of_flags (.inr (.inr (.inl ⟨base, rfl⟩)))
  | dymul d a b => obtain ⟨v, rfl⟩ := h; exact (sameTables_putBlocks s _ _).named _
  | dyadd d a b => obtain ⟨v, rfl⟩ := h; exact (sameTables_putBlocks s _ _).named _
  | bcopy d src count => obtain ⟨vs, rfl⟩ := h; exact (sameTables_putWords s _ _).named _
  | matvec d mat v => obtain ⟨vs, rfl⟩ := h; exact (sameTables_putBlocks s _ _).named _
  | cot2p pd base stride => obtain ⟨q, rfl⟩ := h; exact (sameTables_putSlots s _ _ _).named _
  | p2cot base ps stride => obtain ⟨vs, rfl⟩ := h; exact (sameTables_putStrided s _ _ _).named _
  | pinv pd ps =>
    obtain ⟨q, rfl | rfl⟩ := h
    · exact (sameTables_putSlots s _ _ _).named _
    · exact ((sameTables_putSlots s _ _ _).trans (sameTables_drawn _)).named _
  | paddx pd ps => obtain ⟨q, rfl⟩ := h; exact (sameTables_putSlots s _ _ _).named _
  | psqrt pd ps =>
    obtain ⟨q, rfl | rfl⟩ := h
    · exact (sameTables_putSlots s _ _ _).named _
    · exact ((sameTables_putSlots s _ _ _).trans (sameTables_drawn _)).named _
  | pfrac pa pb ps =>
    obtain ⟨a, b, rfl | rfl⟩ := h
    · exact ((sameTables_putSlots s _ _ _).trans (sameTables_putSlots _ _ _ _)).named _
    · exact (((sameTables_putSlots s _ _ _).trans (sameTables_putSlots _ _ _ _)).trans (sameTables_drawn _)).named _
  | ploc pd pa pb => obtain ⟨q, rfl⟩ := h; exact (sameTables_putSlots s _ _ _).named _
  | roots e ps => obtain ⟨vs, rfl⟩ := h; exact (sameTables_putBlocks s _ _).named _
  | correct d c e => obtain ⟨vs, rfl⟩ := h; exact (sameTables_putBlocks s _ _).named _
  | decode e syn =>
    obtain ⟨vs, rfl | rfl⟩ := h
    · exact (sameTables_putBlocks s _ _).named _
    · exact ((sameTables_putBlocks s _ _).trans (sameTables_drawn _)).named _
  | pclr pd => obtain ⟨q, rfl⟩ := h; exact (sameTables_putSlots s _ _ _).named _
  | pmov pd ps => obtain ⟨vs, rfl⟩ := h; exact (sameTables_putSlots s _ _ _).named _
  | psetc pd k value => obtain ⟨v, rfl⟩ := h; exact (sameTables_putSlots s _ _ _).named _

theorem exec_named {i : Instr} {s t : State} (h : exec i s = .next t) : NamedWriter i s t := by
  rw [exec_eq_commit] at h
  rcases commit_eq_next.1 h with ⟨s', hr, rfl⟩ | ⟨c, info, -, rfl⟩ | ⟨c, info, -, rfl⟩
  · obtain ⟨hg, hsq, hpos, hcfg, hflags, hmark⟩ := writes_named (rule_writes i s s' hr)
    exact ⟨hg, hsq, hpos, hcfg, hflags, hmark⟩
  · exact (sameTables_takeFault s c info _).named i
  · exact ((sameTables_drawn s).trans (sameTables_takeFault _ c info _)).named i

/-- Settles O11: a command that retires has made its own write (`rule_writes`); one that faults has made none. -/
theorem onlyTheNamedCommandsWrite : Obligations.OnlyTheNamedCommandsWrite := fun _ _ _ h => by
  obtain ⟨hg, hsq, hpos, hcfg, hflags, hmark⟩ := exec_named h
  exact ⟨hg, hsq, hpos, hcfg, hflags, hmark⟩

/-! ### A command that retires -/

/-- States with the same control fields differ in the data fields alone. -/
theorem SameControl.eq {s t : State} (h : SameControl s t) :
    t = { s with
          status := { s.status with mark := t.status.mark }
          cfg := t.cfg, flags := t.flags, p := t.p, g := t.g, sq := t.sq, pos := t.pos, bmem := t.bmem
          draws := t.draws } := by
  obtain ⟨hparams, hen, herr, hfin, hovf, hhost, hie, hlo, hcount, hrec, hfifo, hagenda, hrdata⟩ := h
  obtain ⟨_, _, ⟨_, _, _, _, _⟩, _, _, _, _, _, _, _, _, _, _, _, _, _, _, _⟩ := t
  cases hparams; cases hen; cases herr; cases hfin; cases hovf; cases hhost; cases hie; cases hlo; cases hcount
  cases hrec; cases hfifo; cases hagenda; cases hrdata
  rfl

theorem SameControl.retire {s t : State} (h : SameControl s t) : SameControl s.retire t.retire where
  params := h.params
  ctrlEn := h.ctrlEn
  err := h.err
  finished := by show (t.status.finished || t.fifo.isEmpty) = _; rw [h.finished, h.fifo]; rfl
  ovf := h.ovf
  hostErr := h.hostErr
  ie := h.ie
  cmdLo := h.cmdLo
  cmdCount := congrArg (· + 1) h.cmdCount
  errRec := h.errRec
  fifo := h.fifo
  agenda := h.agenda
  rdata := h.rdata

/-- A next state with STATUS.ERR clear is that of a command that retired. -/
theorem exec_retired {i : Instr} {s t : State} (h : exec i s = .next t) (he : t.status.err = false) :
    ∃ s', ruleOf i s = .ok s' ∧ t = s'.retire := by
  rw [exec_eq_commit] at h
  rcases commit_eq_next.1 h with hr | ⟨c, info, -, rfl⟩ | ⟨c, info, -, rfl⟩
  · exact hr
  · cases he
  · cases he

/-- Settles O10: the rule left the control fields alone (`rule_ok_same`), and only SYNC's writes MARK. -/
theorem retiringCommandCounts : Obligations.RetiringCommandCounts := by
  refine ⟨fun _ => rfl, fun i s t _ h he => ⟨?_, fun hi => ?_⟩⟩
  · obtain ⟨s', hr, rfl⟩ := exec_retired h he
    exact (rule_ok_same hr).retire.eq
  · by_contra hne
    exact hi ((exec_named h).mark hne)

end Sys2Proof.Machine

/-! # Undefined cells and the configuration checks

Where a rule stops the model (10_state.md R46, 20_memory.md R126): only at a read of a cell without a defined value, and
always when a command whose checks pass reads one. And the faults of the configuration checks beyond CFGV (R48). -/

namespace Sys2Proof.Machine

/-! ### The check of G's degree -/

theorem checkOperands_bind {s : State} {fields : List (FieldId × FieldKind × Field)}
    (hf : ∀ e ∈ fields, e.2.1.legal s.params e.2.2 = true) (k : Unit → Run State) :
    (checkOperands s fields >>= k) = k () := by
  rw [checkOperands_eq_ok.2 hf, run_ok_bind]

theorem checkCfgv_bind {s : State} (h : s.Cfgv) (k : Unit → Run State) : (checkCfgv s >>= k) = k () := by
  rw [checkCfgv_eq_ok.2 h, run_ok_bind]

/-- The four commands whose configuration check reads slot t of G (10_state.md R48). -/
def Instr.ReadsGoppa (i : Instr) : Prop :=
  (∃ pd ps, i = .pinv pd ps) ∨ (∃ pd ps, i = .psqrt pd ps) ∨ (∃ pa pb ps, i = .pfrac pa pb ps) ∨
    ∃ e syn, i = .decode e syn

/-- With legal operands and CFGV these four end where the check of G's degree does (30_encoding.md R160). -/
theorem rule_of_checkGoppa_error {i : Instr} {s : State} {e : Stop} (hi : Instr.ReadsGoppa i)
    (hw : i.WellFormed s.params) (hc : s.Cfgv) (he : checkGoppa s = .error e) : ruleOf i s = .error e := by
  have stop : ∀ k : Unit → Run State, (checkGoppa s >>= k) = .error e := fun k => by rw [he, run_error_bind]
  rcases hi with ⟨pd, ps, rfl⟩ | ⟨pd, ps, rfl⟩ | ⟨pa, pb, ps, rfl⟩ | ⟨e', syn, rfl⟩
  · have hops : ∀ f ∈ [(FieldId.fa, FieldKind.preg, pd), (.fb, .preg, ps)], f.2.1.legal s.params f.2.2 = true := by
      simpa [legal_preg] using hw
    exact (checkOperands_bind hops _).trans ((checkCfgv_bind hc _).trans (stop _))
  · have hops : ∀ f ∈ [(FieldId.fa, FieldKind.preg, pd), (.fb, .preg, ps)], f.2.1.legal s.params f.2.2 = true := by
      simpa [legal_preg] using hw
    exact (checkOperands_bind hops _).trans ((checkCfgv_bind hc _).trans (stop _))
  · obtain ⟨hpa, hpb, hps, hne⟩ := hw
    have hops : ∀ f ∈ [(FieldId.fa, FieldKind.preg, pa), (.fb, .preg, pb), (.fc, .preg, ps)],
        f.2.1.legal s.params f.2.2 = true := by
      simp [legal_preg, hpa, hpb, hps]
    have hreq : require (pa != pb) .badOperand (BitVec.ofNat 32 FieldId.fb.code) = .ok () :=
      require_eq_ok.2 (bne_iff_ne.2 hne)
    refine (checkOperands_bind hops _).trans ?_
    rw [hreq, run_ok_bind]
    exact (checkCfgv_bind hc _).trans (stop _)
  · exact (checkCfgv_bind hc _).trans (stop _)

/-- After CFGV a failing check is the end of the rule. -/
theorem cfgv_then_raise {s : State} (hc : s.Cfgv) {p : Prop} [Decidable p] (hp : ¬ p) (info : Word32)
    (k : Unit → Run State) :
    (do checkCfgv s; require (decide p) .badConfig info >>= k) = .error (.raise .badConfig info) := by
  rw [checkCfgv_eq_ok.2 hc, run_ok_bind, decide_eq_false hp, require_false, run_error_bind]

theorem ruleGauss_badConfig (base : Field) {s : State} (hc : s.Cfgv) (h : s.nb < s.m) :
    ruleGauss base s = .error (.raise .badConfig 2) :=
  cfgv_then_raise hc (Nat.not_le.2 h) 2 _

theorem ruleCorrect_badConfig (d c e : Field) {s : State} (hc : s.Cfgv) (h : s.nb < s.m ∨ s.n / 2 < s.cipherBits) :
    ruleCorrect d c e s = .error (.raise .badConfig 2) :=
  cfgv_then_raise hc (p := s.m ≤ s.nb ∧ s.cipherBits ≤ s.n / 2) (by omega) 2 _

theorem ruleMatvec_badConfig (d mat v : Field) {s : State} (hc : s.Cfgv) (h : s.cfg.mvRows = 0 ∨ s.cfg.mvCols = 0) :
    ruleMatvec d mat v s = .error (.raise .badConfig 3) := by
  refine cfgv_then_raise hc (p := 1 ≤ s.cfg.mvRows.toNat ∧ 1 ≤ s.cfg.mvCols.toNat) ?_ 3 _
  rcases h with h | h <;> simp [h]

/-- Settles O51: each rule ends at its configuration check. -/
theorem configurationChecksRaise : Obligations.ConfigurationChecksRaise := by
  refine fun s a b c hc => ⟨fun h => exec_of_raise (ruleGauss_badConfig a hc h),
    fun h => exec_of_raise (ruleCorrect_badConfig a b c hc h),
    fun h => exec_of_raise (ruleMatvec_badConfig a b c hc h), fun v hv h0 => ?_⟩
  have hg : checkGoppa s = .error (.raise .badConfig 4) := checkGoppa_eq_error.2 (.inr ⟨v, hv, h0, rfl⟩)
  have raise : ∀ i, Instr.ReadsGoppa i → i.WellFormed s.params →
      exec i s = .next (s.takeFault .badConfig 4 (encode i)) := fun i hi hw =>
    exec_of_raise (rule_of_checkGoppa_error hi hw hc hg)
  exact ⟨raise _ (.inr (.inr (.inr ⟨a, b, rfl⟩))) trivial, fun ha hb =>
    ⟨raise _ (.inl ⟨a, b, rfl⟩) ⟨ha, hb⟩, raise _ (.inr (.inl ⟨a, b, rfl⟩)) ⟨ha, hb⟩, fun hps hne =>
      raise _ (.inr (.inr (.inl ⟨a, b, c, rfl⟩))) ⟨ha, hb, hps, hne⟩⟩⟩

/-! ### Reads stop only at undefined cells -/

/-- The fault names a cell that holds no defined value in `s`. -/
def UndefinedCell (s : State) (f : Fault) : Prop :=
  ∃ k, (f = .undefinedRead .p k ∧ cellGet s.p k = none) ∨ (f = .undefinedRead .g k ∧ cellGet s.g k = none) ∨
    (f = .undefinedRead .sq k ∧ cellGet s.sq k = none) ∨ (f = .undefinedRead .pos k ∧ cellGet s.pos k = none) ∨
    (f = .undefinedRead .bmem k ∧ (s.block k = none ∨ s.blockWord k = none))

/-- The only way for `x` not to succeed is to stop the model at an undefined cell. -/
def OnlyStops {α : Type} (s : State) (x : Run α) : Prop :=
  ∀ e, x = .error e → ∃ f, e = .stuck f ∧ UndefinedCell s f

theorem onlyStops_readCell {α : Type} {s : State} {space : Space} {index : Nat} {v : Option α}
    (h : v = none → UndefinedCell s (.undefinedRead space index)) : OnlyStops s (readCell space index v) := by
  intro e he
  obtain ⟨hv, rfl⟩ := readCell_eq_error.1 he
  exact ⟨_, rfl, h hv⟩

theorem OnlyStops.ok {α : Type} {s : State} {a : α} : OnlyStops s (.ok a : Run α) := fun _ he => by cases he

theorem OnlyStops.bind {α β : Type} {s : State} {x : Run α} {f : α → Run β} (hx : OnlyStops s x)
    (hf : ∀ a, OnlyStops s (f a)) : OnlyStops s (x >>= f) := by
  intro e he
  rcases run_bind_eq_error.1 he with hxe | ⟨a, -, hfe⟩
  · exact hx e hxe
  · exact hf a e hfe

theorem OnlyStops.collect {α : Type} {s : State} {n : Nat} {f : Nat → Run α} (hf : ∀ i, OnlyStops s (f i)) :
    OnlyStops s (collect n f) := by
  intro e he
  obtain ⟨i, -, hi⟩ := collect_eq_error he
  exact hf i e hi

theorem onlyStops_readBlock (s : State) (a : Nat) : OnlyStops s (readBlock s a) :=
  onlyStops_readCell fun h => ⟨a, .inr (.inr (.inr (.inr ⟨rfl, .inl h⟩)))⟩

theorem onlyStops_readWord (s : State) (a : Nat) : OnlyStops s (readCell .bmem a (s.blockWord a)) :=
  onlyStops_readCell fun h => ⟨a, .inr (.inr (.inr (.inr ⟨rfl, .inr h⟩)))⟩

theorem onlyStops_readBlocks (s : State) (a n : Nat) : OnlyStops s (readBlocks s a n) :=
  .collect fun i => onlyStops_readBlock s (a + i)

theorem onlyStops_readSlots (s : State) (i n : Nat) : OnlyStops s (readSlots s i n) :=
  .collect fun k => onlyStops_readCell fun h => ⟨pKey i k, .inl ⟨rfl, h⟩⟩

theorem onlyStops_readPolyTo (s : State) (i n : Nat) : OnlyStops s (readPolyTo s i n) :=
  .bind (onlyStops_readSlots s i n) fun _ => .ok

theorem onlyStops_readG (s : State) : OnlyStops s (readG s) :=
  .bind (.collect fun k => onlyStops_readCell fun h => ⟨k, .inr (.inl ⟨rfl, h⟩)⟩) fun _ => .ok

theorem onlyStops_readSq (s : State) : OnlyStops s (readSq s) :=
  .collect fun i => .bind
    (.collect fun k => onlyStops_readCell fun h => ⟨sqKey i k, .inr (.inr (.inl ⟨rfl, h⟩))⟩) fun _ => .ok

theorem onlyStops_readPos (s : State) (x : Nat) : OnlyStops s (readPos s x) :=
  .bind (onlyStops_readCell fun h => ⟨x, .inr (.inr (.inr (.inl ⟨rfl, h⟩)))⟩) fun _ => .ok

/-! ### Reads that succeed have read defined cells -/

theorem isSome_of_readCell {α : Type} {space : Space} {index : Nat} {v : Option α} {x : α}
    (h : readCell space index v = .ok x) : v.isSome = true := by
  rw [readCell_eq_ok.1 h]
  rfl

theorem collect_ok_at {α : Type} {n : Nat} {f : Nat → Run α} {vs : List α} (h : collect n f = .ok vs) {i : Nat}
    (hi : i < n) : ∃ v, vs[i]? = some v ∧ f i = .ok v := by
  obtain ⟨hl, hf⟩ := collect_eq_ok.1 h
  have hi' : i < vs.length := by omega
  exact ⟨vs[i], List.getElem?_eq_getElem hi', hf i hi'⟩

theorem isSome_of_readBlocks {s : State} {a n : Nat} {vs : List Block} (h : readBlocks s a n = .ok vs) {i : Nat}
    (hi : i < n) : (s.block (a + i)).isSome = true := by
  obtain ⟨v, -, hv⟩ := collect_ok_at h hi
  exact isSome_of_readCell hv

/-- The blocks a read gives are those of the memory. -/
theorem getD_of_readBlocks {s : State} {a n : Nat} {vs : List Block} (h : readBlocks s a n = .ok vs) {i : Nat}
    (hi : i < n) : vs.getD i 0 = (s.block (a + i)).getD 0 := by
  obtain ⟨v, hget, hv⟩ := collect_ok_at h hi
  rw [readBlock_eq_ok.1 hv, List.getD_eq_getElem?_getD, hget, Option.getD_some]

theorem isSome_of_readSlots {s : State} {i n : Nat} {vs : List Elem} (h : readSlots s i n = .ok vs) {k : Nat}
    (hk : k < n) : (s.pSlot i k).isSome = true := by
  obtain ⟨v, -, hv⟩ := collect_ok_at h hk
  exact isSome_of_readCell hv

theorem isSome_of_readPolyTo {s : State} {i n : Nat} {p : Poly} (h : readPolyTo s i n = .ok p) {k : Nat}
    (hk : k < n) : (s.pSlot i k).isSome = true := by
  obtain ⟨vs, hvs, -⟩ := run_bind_eq_ok.1 h
  exact isSome_of_readSlots hvs hk

theorem isSome_of_readG {s : State} {g : Poly} (h : readG s = .ok g) {k : Nat} (hk : k ≤ s.t) :
    (s.gSlot k).isSome = true := by
  obtain ⟨vs, hvs, -⟩ := run_bind_eq_ok.1 h
  obtain ⟨v, -, hv⟩ := collect_ok_at hvs (Nat.lt_succ_of_le hk)
  exact isSome_of_readCell hv

theorem isSome_of_readSq {s : State} {sq : List Poly} (h : readSq s = .ok sq) {i k : Nat} (hi : i < s.t)
    (hk : k < s.t) : (s.sqSlot i k).isSome = true := by
  obtain ⟨row, -, hrow⟩ := collect_ok_at h hi
  obtain ⟨vs, hvs, -⟩ := run_bind_eq_ok.1 hrow
  obtain ⟨v, -, hv⟩ := collect_ok_at hvs hk
  exact isSome_of_readCell hv

/-! ### A rule and the cells its command reads -/

/-- The checks of a command pass: its operands (30_encoding.md R154), configuration (R160 step 4) and regions
(step 5). -/
structure Instr.Checked (s : State) (i : Instr) : Prop where
  wf : i.WellFormed s.params
  cfg : Instr.ConfigOk s i
  regions : ∀ r ∈ Instr.regions s i, r.2 < s.params.bmemLen

/-- The commands that may raise DECODE_FAIL before they have read every cell (log entry 10). -/
def Instr.MayFailFirst (i : Instr) : Prop := (∃ d c e, i = .correct d c e) ∨ ∃ e syn, i = .decode e syn

/-- `r`, a rule of the command `i` or what is left of it, stops only at undefined cells, ends well only when the
command's source cells are defined, and stops, when the checks pass and they are not. -/
structure StopsAtSources (s : State) (i : Instr) (r : Run State) : Prop where
  undefined : ∀ f, r = .error (.stuck f) → UndefinedCell s f
  sources : ∀ t, r = .ok t → Instr.SourcesDefined s i
  stops : Instr.Checked s i → ¬ Instr.SourcesDefined s i →
    (∃ f, r = .error (.stuck f)) ∨ Instr.MayFailFirst i ∧ ∃ info, r = .error (.raise .decodeFail info)

/-- `x` does not stop the model. -/
def NeverStuck {α : Type} (x : Run α) : Prop := ∀ f, x ≠ .error (.stuck f)

theorem NeverStuck.ok {α : Type} {a : α} : NeverStuck (.ok a : Run α) := fun _ h => by cases h

theorem NeverStuck.raise {α : Type} {c : Cause} {info : Word32} : NeverStuck (.error (.raise c info) : Run α) :=
  fun _ h => by cases h

theorem NeverStuck.bind {α β : Type} {x : Run α} {f : α → Run β} (hx : NeverStuck x) (hf : ∀ a, NeverStuck (f a)) :
    NeverStuck (x >>= f) := fun e h => by
  rcases run_bind_eq_error.1 h with hxe | ⟨a, -, hfe⟩
  · exact hx e hxe
  · exact hf a e hfe

theorem neverStuck_require (ok : Bool) (c : Cause) (info : Word32) : NeverStuck (require ok c info) := fun _ h => by
  obtain ⟨-, he⟩ := require_eq_error.1 h
  cases he

theorem neverStuck_checkOperands (s : State) (fields : List (FieldId × FieldKind × Field)) :
    NeverStuck (checkOperands s fields) := fun _ h => by
  obtain ⟨_, he⟩ := checkOperands_eq_error h
  cases he

theorem neverStuck_underField {s w : State} {e : Run State} (he : s.gf.irreducible = true → NeverStuck e) :
    NeverStuck (underField s w e) := by
  unfold underField
  split
  · exact he ‹_›
  · repeat' split
    all_goals intro f h; cases h

section Rules

variable {s : State} {i : Instr}

/-- Once the source cells are known to be defined, the rest of the rule must not stop. -/
theorem StopsAtSources.done {r : Run State} (hd : Instr.SourcesDefined s i) (hr : NeverStuck r) :
    StopsAtSources s i r :=
  ⟨fun f hf => absurd hf (hr f), fun _ _ => hd, fun _ hn => absurd hd hn⟩

/-- A check that passes when the command's checks do. -/
theorem StopsAtSources.check {x : Run Unit} {k : Unit → Run State}
    (hx : ∀ f, x = .error (.stuck f) → UndefinedCell s f) (hok : Instr.Checked s i → x = .ok ())
    (hk : x = .ok () → StopsAtSources s i (k ())) : StopsAtSources s i (x >>= k) where
  undefined f hf := by
    rcases run_bind_eq_error.1 hf with hxf | ⟨⟨⟩, hxo, hkf⟩
    · exact hx f hxf
    · exact (hk hxo).undefined f hkf
  sources t ht := by
    obtain ⟨⟨⟩, hxo, hkt⟩ := run_bind_eq_ok.1 ht
    exact (hk hxo).sources t hkt
  stops hc hn := by
    have hxo := hok hc
    rw [hxo, run_ok_bind]
    exact (hk hxo).stops hc hn

theorem StopsAtSources.operands {fields : List (FieldId × FieldKind × Field)} {k : Unit → Run State}
    (hf : i.WellFormed s.params → ∀ e ∈ fields, e.2.1.legal s.params e.2.2 = true)
    (hk : StopsAtSources s i (k ())) : StopsAtSources s i (checkOperands s fields >>= k) :=
  .check (fun f h => absurd h (neverStuck_checkOperands s fields f)) (fun hc => checkOperands_eq_ok.2 (hf hc.wf))
    fun _ => hk

theorem StopsAtSources.required {ok : Bool} {c : Cause} {info : Word32} {k : Unit → Run State}
    (hc : Instr.Checked s i → ok = true) (hk : StopsAtSources s i (k ())) :
    StopsAtSources s i (require ok c info >>= k) :=
  .check (fun f h => absurd h (neverStuck_require ok c info f)) (fun h => require_eq_ok.2 (hc h)) fun _ => hk

theorem StopsAtSources.cfgv {k : Unit → Run State} (hi : Instr.needsCfgv i = true)
    (hk : s.Cfgv → StopsAtSources s i (k ())) : StopsAtSources s i (checkCfgv s >>= k) :=
  .check (fun f h => absurd h (neverStuck_require _ _ _ f)) (fun hc => checkCfgv_eq_ok.2 (hc.cfg.1 hi))
    fun h => hk (checkCfgv_eq_ok.1 h)

theorem StopsAtSources.region {f : FieldId} {last : Nat} {k : Unit → Run State}
    (hm : (f, last) ∈ Instr.regions s i) (hk : StopsAtSources s i (k ())) :
    StopsAtSources s i (checkRegion s f last >>= k) :=
  .check (fun g h => absurd h (neverStuck_require _ _ _ g)) (fun hc => checkRegion_eq_ok.2 (hc.regions _ hm))
    fun _ => hk

/-- The check of G's degree is a read too. -/
theorem StopsAtSources.goppa {k : Unit → Run State} (hi : Instr.ConfigOk s i → s.GoppaOk)
    (hk : (s.gSlot s.t).isSome = true → StopsAtSources s i (k ())) : StopsAtSources s i (checkGoppa s >>= k) := by
  refine .check (fun f h => ?_) (fun hc => checkGoppa_eq_ok.2 (hi hc.cfg)) fun h => hk ?_
  · rcases checkGoppa_eq_error.1 h with ⟨hg, he⟩ | ⟨v, -, -, he⟩
    · cases he
      exact ⟨s.t, .inr (.inl ⟨rfl, hg⟩)⟩
    · cases he
  · obtain ⟨v, hv, -⟩ := checkGoppa_eq_ok.1 h
    rw [hv]
    rfl

/-- A part that ends early only by a stop at an undefined cell, or by DECODE_FAIL where the command may raise it
first. -/
theorem StopsAtSources.part {α : Type} {x : Run α} {k : α → Run State}
    (hx : ∀ e, x = .error e → (∃ f, e = .stuck f ∧ UndefinedCell s f) ∨
      Instr.MayFailFirst i ∧ ∃ info, e = .raise .decodeFail info)
    (hk : ∀ a, x = .ok a → StopsAtSources s i (k a)) : StopsAtSources s i (x >>= k) where
  undefined f hf := by
    rcases run_bind_eq_error.1 hf with hxf | ⟨a, hxo, hkf⟩
    · rcases hx _ hxf with ⟨g, hg, hu⟩ | ⟨-, info, hg⟩
      · cases hg; exact hu
      · cases hg
    · exact (hk a hxo).undefined f hkf
  sources t ht := by
    obtain ⟨a, hxo, hkt⟩ := run_bind_eq_ok.1 ht
    exact (hk a hxo).sources t hkt
  stops hc hn := by
    cases hxo : x with
    | error e =>
      rcases hx e hxo with ⟨f, rfl, -⟩ | ⟨hi, info, rfl⟩
      · exact .inl ⟨f, rfl⟩
      · exact .inr ⟨hi, info, rfl⟩
    | ok a => exact (hk a hxo).stops hc hn

theorem StopsAtSources.read {α : Type} {x : Run α} {k : α → Run State} (hx : OnlyStops s x)
    (hk : ∀ a, x = .ok a → StopsAtSources s i (k a)) : StopsAtSources s i (x >>= k) :=
  .part (fun e he => .inl (hx e he)) hk

end Rules

/-! ### The block commands -/

theorem ruleDymul_stops (d a b : Field) (s : State) : StopsAtSources s (.dymul d a b) (ruleDymul d a b s) :=
  .cfgv rfl fun _ => .region (by simp [Instr.regions]) <| .region (by simp [Instr.regions]) <|
    .region (by simp [Instr.regions]) <| .read (onlyStops_readBlock _ _) fun _ hx =>
      .read (onlyStops_readBlock _ _) fun _ hy => .done ⟨isSome_of_readCell hx, isSome_of_readCell hy⟩ .ok

theorem ruleDyadd_stops (d a b : Field) (s : State) : StopsAtSources s (.dyadd d a b) (ruleDyadd d a b s) :=
  .cfgv rfl fun _ => .region (by simp [Instr.regions]) <| .region (by simp [Instr.regions]) <|
    .region (by simp [Instr.regions]) <| .read (onlyStops_readBlock _ _) fun _ hx =>
      .read (onlyStops_readBlock _ _) fun _ hy => .done ⟨isSome_of_readCell hx, isSome_of_readCell hy⟩ .ok

theorem ruleDyreg_stops (a : Field) (s : State) : StopsAtSources s (.dyreg a) (ruleDyreg a s) :=
  .cfgv rfl fun _ => .region (by simp [Instr.regions]) <| .read (onlyStops_readBlock _ _) fun _ hx =>
    .done (isSome_of_readCell hx) .ok

theorem ruleDyinv_stops (d a : Field) (s : State) : StopsAtSources s (.dyinv d a) (ruleDyinv d a s) := by
  refine .cfgv rfl fun _ => .region (by simp [Instr.regions]) <| .region (by simp [Instr.regions]) <|
    .read (onlyStops_readBlock _ _) fun _ hx => .done (isSome_of_readCell hx) ?_
  split
  · exact .ok
  · exact .ok

theorem ruleBcopy_stops (d src count : Field) (s : State) :
    StopsAtSources s (.bcopy d src count) (ruleBcopy d src count s) := by
  refine .operands (fun hw => by simpa [legal_positive] using hw) <| .region (by simp [Instr.regions]) <|
    .region (by simp [Instr.regions]) <| .read (.collect fun _ => onlyStops_readWord _ _) fun _ hws =>
      .done (fun i hi => ?_) .ok
  obtain ⟨v, -, hv⟩ := collect_ok_at hws hi
  exact isSome_of_readCell hv

theorem ruleMatvec_stops (d mat v : Field) (s : State) :
    StopsAtSources s (.matvec d mat v) (ruleMatvec d mat v s) := by
  refine .cfgv rfl fun _ => .required (fun hc => decide_eq_true hc.cfg.2) <| .region (by simp [Instr.regions]) <|
    .region (by simp [Instr.regions]) <| .region (by simp [Instr.regions]) <|
      .read (.collect fun _ => .collect fun _ => onlyStops_readBlock _ _) fun _ hrows =>
        .read (onlyStops_readBlocks _ _ _) fun _ hxs =>
          .done ⟨fun j i hj hi => ?_, fun i hi => isSome_of_readBlocks hxs hi⟩ .ok
  obtain ⟨row, -, hrow⟩ := collect_ok_at hrows hj
  obtain ⟨x, -, hx⟩ := collect_ok_at hrow hi
  exact isSome_of_readCell hx

theorem ruleGauss_stops (base : Field) (s : State) : StopsAtSources s (.gauss base) (ruleGauss base s) := by
  refine .cfgv rfl fun _ => .required (fun hc => decide_eq_true hc.cfg.2) <| .region (by simp [Instr.regions]) <|
    .read (.collect fun _ => onlyStops_readBlocks _ _ _) fun _ hw => .done (fun j k hj hk => ?_) ?_
  · obtain ⟨row, -, hrow⟩ := collect_ok_at hw hj
    exact isSome_of_readBlocks hrow hk
  · split
    · exact .ok
    · exact .ok

/-! ### The transfers -/

theorem ruleCot2p_stops (pd base stride : Field) (s : State) :
    StopsAtSources s (.cot2p pd base stride) (ruleCot2p pd base stride s) := by
  refine .operands (fun hw => by simpa [legal_preg, legal_positive] using hw) <| .cfgv rfl fun _ =>
    .region (by simp [Instr.regions]) <| .read (.collect fun _ => onlyStops_readBlock _ _) fun _ hpl =>
      .done (fun i hi => ?_) .ok
  obtain ⟨v, -, hv⟩ := collect_ok_at hpl hi
  exact isSome_of_readCell hv

theorem ruleP2cot_stops (base ps stride : Field) (s : State) :
    StopsAtSources s (.p2cot base ps stride) (ruleP2cot base ps stride s) :=
  .operands (fun hw => by simpa [legal_preg, legal_positive] using hw) <| .cfgv rfl fun _ =>
    .region (by simp [Instr.regions]) <| .read (onlyStops_readPolyTo _ _ _) fun _ he =>
      .done (fun _ hj => isSome_of_readPolyTo he hj) .ok

theorem rulePmov_stops (pd ps : Field) (s : State) : StopsAtSources s (.pmov pd ps) (rulePmov pd ps s) :=
  .operands (fun hw => by simpa [legal_preg] using hw) <| .read (onlyStops_readSlots _ _ _) fun _ hvs =>
    .done (fun _ hk => isSome_of_readSlots hvs hk) .ok

theorem ruleGset_stops (ps : Field) (s : State) : StopsAtSources s (.gset ps) (ruleGset ps s) :=
  .operands (fun hw => by simpa [legal_preg] using hw) <| .read (onlyStops_readSlots _ _ _) fun _ hvs =>
    .done (fun _ hk => isSome_of_readSlots hvs hk) .ok

theorem ruleSqset_stops (i ps : Field) (s : State) : StopsAtSources s (.sqset i ps) (ruleSqset i ps s) :=
  .operands (fun hw => by simpa [legal_preg, legal_sqRow] using hw) <| .read (onlyStops_readSlots _ _ _) fun _ hvs =>
    .done (fun _ hk => isSome_of_readSlots hvs hk) .ok

/-! ### The locator steps -/

theorem rulePinv_stops (pd ps : Field) (s : State) : StopsAtSources s (.pinv pd ps) (rulePinv pd ps s) := by
  refine .operands (fun hw => by simpa [legal_preg] using hw) <| .cfgv rfl fun _ => .goppa (fun hc => hc.2) fun _ =>
    .read (onlyStops_readPolyTo _ _ _) fun _ hp => .read (onlyStops_readG _) fun _ hg =>
      .done ⟨fun _ hk => isSome_of_readPolyTo hp hk, fun _ hk => isSome_of_readG hg hk⟩
        (neverStuck_underField fun _ => ?_)
  split
  · exact .raise
  · exact .ok

theorem rulePaddx_stops (pd ps : Field) (s : State) : StopsAtSources s (.paddx pd ps) (rulePaddx pd ps s) :=
  .operands (fun hw => by simpa [legal_preg] using hw) <| .cfgv rfl fun _ =>
    .read (onlyStops_readPolyTo _ _ _) fun _ hp => .done (fun _ hk => isSome_of_readPolyTo hp hk) .ok

theorem rulePsqrt_stops (pd ps : Field) (s : State) : StopsAtSources s (.psqrt pd ps) (rulePsqrt pd ps s) :=
  .operands (fun hw => by simpa [legal_preg] using hw) <| .cfgv rfl fun _ => .goppa (fun hc => hc.2) fun _ =>
    .read (onlyStops_readPolyTo _ _ _) fun _ hp => .read (onlyStops_readG _) fun _ hg =>
      .read (onlyStops_readSq _) fun _ hsq =>
        .done ⟨fun _ hk => isSome_of_readPolyTo hp hk, fun _ hk => isSome_of_readG hg hk,
          fun _ _ hi hk => isSome_of_readSq hsq hi hk⟩ (neverStuck_underField fun _ => .ok)

theorem rulePfrac_stops (pa pb ps : Field) (s : State) :
    StopsAtSources s (.pfrac pa pb ps) (rulePfrac pa pb ps s) := by
  refine .check (fun f h => absurd h (neverStuck_checkOperands _ _ f)) (fun hc => checkOperands_eq_ok.2 ?_) fun _ =>
    .required (fun hc => ?_) <| .cfgv rfl fun _ => .goppa (fun hc => hc.2) fun _ =>
      .read (onlyStops_readPolyTo _ _ _) fun _ hp => .read (onlyStops_readG _) fun _ hg =>
        .done ⟨fun _ hk => isSome_of_readPolyTo hp hk, fun _ hk => isSome_of_readG hg hk⟩
          (neverStuck_underField fun _ => .ok)
  · obtain ⟨hpa, hpb, hps, -⟩ := hc.wf
    simp [legal_preg, hpa, hpb, hps]
  · obtain ⟨-, -, -, hne⟩ := hc.wf
    exact bne_iff_ne.2 hne

theorem rulePloc_stops (pd pa pb : Field) (s : State) : StopsAtSources s (.ploc pd pa pb) (rulePloc pd pa pb s) :=
  .operands (fun hw => by simpa [legal_preg] using hw) <| .cfgv rfl fun _ =>
    .read (onlyStops_readPolyTo _ _ _) fun _ ha => .read (onlyStops_readPolyTo _ _ _) fun _ hb =>
      .done (fun _ hk => ⟨isSome_of_readPolyTo ha hk, isSome_of_readPolyTo hb hk⟩) .ok

theorem neverStuck_rootVector (s : State) (sigma : Poly) : NeverStuck (rootVector s sigma) :=
  .bind (neverStuck_require _ _ _) fun _ => .ok

theorem ruleRoots_stops (e ps : Field) (s : State) : StopsAtSources s (.roots e ps) (ruleRoots e ps s) :=
  .operands (fun hw => by simpa [legal_preg] using hw) <| .cfgv rfl fun _ => .region (by simp [Instr.regions]) <|
    .read (onlyStops_readPolyTo _ _ _) fun _ hp =>
      .done (fun _ hk => isSome_of_readPolyTo hp hk) (.bind (neverStuck_rootVector _ _) fun _ => .ok)

/-! ### CORRECT -/

/-- Pass 1 of CORRECT ends early only at an undefined POS entry or with DECODE_FAIL (44_decoder.md R347). -/
theorem errorPositions_error {s : State} {ev : List Block} {xs : List Nat} {e : Stop}
    (h : errorPositions s ev xs = .error e) :
    (∃ f, e = .stuck f ∧ UndefinedCell s f) ∨ ∃ info, e = .raise .decodeFail info := by
  induction xs with
  | nil => cases h
  | cons x xs ih =>
    rw [errorPositions] at h
    split at h
    · rcases run_bind_eq_error.1 h with hpos | ⟨v, -, h⟩
      · exact .inl (onlyStops_readPos s x e hpos)
      · rcases run_bind_eq_error.1 h with hreq | ⟨-, -, h⟩
        · exact .inr ⟨_, (require_eq_error.1 hreq).2⟩
        · rcases run_bind_eq_error.1 h with hrest | ⟨vs, -, h⟩
          · exact ih hrest
          · cases h
    · exact ih h

/-- Pass 1 that succeeds has read POS for every set element. -/
theorem errorPositions_ok {s : State} {ev : List Block} {xs ps : List Nat} (h : errorPositions s ev xs = .ok ps) :
    ∀ x ∈ xs, vectorBit s.t ev x = true → (s.posEntry x).isSome = true := by
  induction xs generalizing ps with
  | nil => intro x hx; cases hx
  | cons y ys ih =>
    intro x hx hbit
    rw [errorPositions] at h
    split at h
    next hy =>
      obtain ⟨v, hv, h⟩ := run_bind_eq_ok.1 h
      obtain ⟨-, -, h⟩ := run_bind_eq_ok.1 h
      obtain ⟨vs, hvs, -⟩ := run_bind_eq_ok.1 h
      rcases List.mem_cons.1 hx with rfl | hx
      · obtain ⟨w, hw, -⟩ := run_bind_eq_ok.1 hv
        exact isSome_of_readCell hw
      · exact ih hvs x hx hbit
    next hy =>
      rcases List.mem_cons.1 hx with rfl | hx
      · exact absurd hbit hy
      · exact ih h x hx hbit

/-- With CFGV the n/t blocks of an error vector hold all its n bits. -/
theorem block_index_lt {s : State} (hc : s.Cfgv) {x : Nat} (hx : x < s.n) : x / s.t < s.n / s.t := by
  have hdvd : s.t ∣ s.n := Nat.pow_dvd_pow 2 (Nat.le_of_lt hc.logT_lt)
  exact Nat.div_lt_div_of_lt_of_dvd hdvd hx

theorem ruleCorrect_stops (d c e : Field) (s : State) :
    StopsAtSources s (.correct d c e) (ruleCorrect d c e s) := by
  refine .cfgv rfl fun hcfg => .required (fun hc => decide_eq_true hc.cfg.2) <| .required (fun hc => ?_) <|
    .region (by simp [Instr.regions]) <| .region (by simp [Instr.regions]) <|
      .read (onlyStops_readBlocks _ _ _) fun ev hev => .read (onlyStops_readBlocks _ _ _) fun _ hw =>
        .part (fun e he => (errorPositions_error he).imp_right fun h => ⟨.inl ⟨_, _, _, rfl⟩, h⟩) fun _ hps =>
          .done ⟨fun b hb => isSome_of_readBlocks hev hb, fun k hk => isSome_of_readBlocks hw hk,
            fun x hx hbit => ?_⟩ .ok
  · refine decide_eq_true fun hlt => hc.regions (.fa, d.toNat + s.nb - s.m - 1) ?_
    simp [Instr.regions, hlt]
  · refine errorPositions_ok hps x (List.mem_range.2 hx) ?_
    rw [vectorBit, getD_of_readBlocks hev (block_index_lt hcfg hx)]
    exact hbit

/-! ### DECODE -/

theorem State.Cfgv.m_le_sixteen {s : State} (h : s.Cfgv) : s.m ≤ 16 := by
  obtain ⟨-, -, -, -, htop, -⟩ := h
  have := BitVec.lt_of_getLsbD htop
  omega

/-- The syndrome polynomial is 0 only when every bit of its planes is. -/
theorem plane_bit_of_pzero {m t : Nat} {planes : List Block} (hm : m ≤ 16) (h : pzero (ofPlanes m t planes) = true)
    {i j : Nat} (hi : i < m) (hj : j < t) : (planes.getD i 0).getLsbD j = false := by
  have hsize : psize (ofPlanes m t planes) = 0 := beq_iff_eq.1 h
  have hcoeff : planeElem m planes j = 0 := by
    have := pcoeff_of_psize_le (p := ofPlanes m t planes) (n := j) (by omega)
    rwa [pcoeff, ofPlanes, getD_tabulate, if_pos hj] at this
  have hbit : (planeElem m planes j).getLsbD i = false := by rw [hcoeff]; exact BitVec.getLsbD_zero
  rw [planeElem, getLsbD_bitsOf, decide_eq_true (by omega : i < 16), decide_eq_true hi] at hbit
  exact hbit

theorem onlyStops_readGFor (s : State) (syn : Poly) : OnlyStops s (readGFor s syn) := by
  unfold readGFor
  split
  · exact .ok
  · exact onlyStops_readG s

/-- The composition of the locator steps ends early only at an undefined row of SQ or with DECODE_FAIL. -/
theorem locatorOf_error {s : State} {g syn : Poly} {e : Stop} (h : locatorOf s g syn = .error e) :
    (∃ f, e = .stuck f ∧ UndefinedCell s f) ∨ ∃ info, e = .raise .decodeFail info := by
  unfold locatorOf at h
  split at h
  · cases h
  · split at h
    · cases h; exact .inr ⟨1, rfl⟩
    · rcases run_bind_eq_error.1 h with hsq | ⟨sq, -, h⟩
      · exact .inl (onlyStops_readSq s e hsq)
      · cases h

/-- The locator of a nonzero syndrome has read SQ. -/
theorem locatorOf_ok {s : State} {g syn sigma : Poly} (h : locatorOf s g syn = .ok sigma) (h0 : pzero syn = false)
    {i k : Nat} (hi : i < s.t) (hk : k < s.t) : (s.sqSlot i k).isSome = true := by
  rw [locatorOf, h0, if_neg Bool.false_ne_true] at h
  split at h
  · cases h
  · obtain ⟨sq, hsq, -⟩ := run_bind_eq_ok.1 h
    exact isSome_of_readSq hsq hi hk

theorem underField_of_irreducible {s w : State} {e : Run State} (h : s.gf.irreducible = true) :
    underField s w e = e := if_pos h

theorem ruleDecode_stops (e syn : Field) (s : State) : StopsAtSources s (.decode e syn) (ruleDecode e syn s) := by
  refine .cfgv rfl fun hcfg => .goppa (fun hc => hc.2) fun htop => .region (by simp [Instr.regions]) <|
    .region (by simp [Instr.regions]) <| .read (onlyStops_readBlocks _ _ _) fun planes hpl =>
      .read (onlyStops_readGFor _ _) fun g hg => ?_
  have nonzero : (∃ i j, i < s.m ∧ j < s.t ∧ ((s.block (syn.toNat + i)).getD 0).getLsbD j = true) →
      pzero (ofPlanes s.m s.t planes) = false := by
    rintro ⟨i, j, hi, hj, hbit⟩
    rw [← getD_of_readBlocks hpl hi] at hbit
    by_contra hz
    rw [plane_bit_of_pzero hcfg.m_le_sixteen (Bool.eq_true_of_not_eq_false hz) hi hj] at hbit
    cases hbit
  have gDefined : pzero (ofPlanes s.m s.t planes) = false → ∀ k, k ≤ s.t → (s.gSlot k).isSome = true := by
    intro h0 k hk
    rw [readGFor, h0] at hg
    exact isSome_of_readG hg hk
  have planesDefined : ∀ i, i < s.m → (s.block (syn.toNat + i)).isSome = true := fun i hi =>
    isSome_of_readBlocks hpl hi
  cases hirr : s.gf.irreducible with
  | false =>
    refine .done ⟨planesDefined, htop, fun hbit => ⟨gDefined (nonzero hbit), fun h => ?_⟩⟩
      (neverStuck_underField fun h => ?_)
    · rw [hirr] at h; cases h
    · rw [hirr] at h; cases h
  | true =>
    rw [underField_of_irreducible hirr]
    refine .part (fun e he => (locatorOf_error he).imp_right fun h => ⟨.inr ⟨_, _, rfl⟩, h⟩) fun sigma hsigma =>
      .done ⟨planesDefined, htop, fun hbit => ⟨gDefined (nonzero hbit), fun _ i k hi hk => ?_⟩⟩
        (.bind (neverStuck_rootVector _ _) fun _ => .ok)
    exact locatorOf_ok hsigma (nonzero hbit) hi hk

/-! ### Every command -/

/-- WHERE A RULE STOPS: at an undefined cell, and, when the checks pass, whenever a source cell is undefined. -/
theorem rule_stops (i : Instr) (s : State) : StopsAtSources s i (ruleOf i s) := by
  cases i with
  | nop => exact .done trivial .ok
  | sync => exact .done trivial .ok
  | csrw csr imm => exact .done trivial (.bind (neverStuck_require _ _ _) fun _ => .ok)
  | posset x imm =>
    exact .done trivial (.bind (neverStuck_require _ _ _) fun _ => .bind (neverStuck_require _ _ _) fun _ => .ok)
  | dymul d a b => exact ruleDymul_stops d a b s
  | dyadd d a b => exact ruleDyadd_stops d a b s
  | dyreg a => exact ruleDyreg_stops a s
  | dyinv d a => exact ruleDyinv_stops d a s
  | bcopy d src count => exact ruleBcopy_stops d src count s
  | matvec d mat v => exact ruleMatvec_stops d mat v s
  | gauss base => exact ruleGauss_stops base s
  | cot2p pd base stride => exact ruleCot2p_stops pd base stride s
  | p2cot base ps stride => exact ruleP2cot_stops base ps stride s
  | pinv pd ps => exact rulePinv_stops pd ps s
  | paddx pd ps => exact rulePaddx_stops pd ps s
  | psqrt pd ps => exact rulePsqrt_stops pd ps s
  | pfrac pa pb ps => exact rulePfrac_stops pa pb ps s
  | ploc pd pa pb => exact rulePloc_stops pd pa pb s
  | roots e ps => exact ruleRoots_stops e ps s
  | correct d c e => exact ruleCorrect_stops d c e s
  | decode e syn => exact ruleDecode_stops e syn s
  | pclr pd => exact .done trivial (.bind (neverStuck_checkOperands _ _) fun _ => .ok)
  | pmov pd ps => exact rulePmov_stops pd ps s
  | psetc pd k value => exact .done trivial (.bind (neverStuck_checkOperands _ _) fun _ => .ok)
  | gset ps => exact ruleGset_stops ps s
  | sqset r ps => exact ruleSqset_stops r ps s

theorem exec_of_stuck {i : Instr} {s : State} {f : Fault} (h : ruleOf i s = .error (.stuck f)) :
    exec i s = .fault f := by
  rw [exec_eq_commit, h, commit_stuck]

/-- Settles O12: `rule_stops` for every command, and the check of G's degree for the four that read it. -/
theorem stopsExactlyAtUndefinedCells : Obligations.StopsExactlyAtUndefinedCells := by
  refine fun i s => ⟨fun q hq => ?_, fun f hf => ?_, fun t _ ht he => ?_, fun hw hc hr hn => ?_,
    fun hw hc hg hi => ?_⟩
  · rw [exec_eq_commit] at hq
    exact commit_ne_refused hq
  · rw [exec_eq_commit] at hf
    exact (rule_stops i s).undefined f (commit_eq_fault.1 hf)
  · obtain ⟨s', hs', -⟩ := exec_retired ht he
    exact (rule_stops i s).sources s' hs'
  · rcases (rule_stops i s).stops ⟨hw, hc, hr⟩ hn with ⟨f, hf⟩ | ⟨hi, info, hf⟩
    · exact .inl ⟨f, exec_of_stuck hf⟩
    · exact .inr ⟨hi, info, exec_of_raise hf⟩
  · exact exec_of_stuck (rule_of_checkGoppa_error hi hw hc (checkGoppa_eq_error.2 (.inl ⟨hg, rfl⟩)))

end Sys2Proof.Machine

/-! # Transactions of the host port

What a read and a write of each kind do (20_memory.md R103 to R114): malformed and unmapped accesses, CSR numbers, and
the cells of the data windows, while BUSY and not. -/

namespace Sys2Proof.Machine

/-! ### Well-formed transactions -/

/-- A transaction is well-formed when its address is a multiple of 4 and all its bytes are enabled (20_memory.md
R103). -/
theorem portWellFormed_iff {addr : Word32} {be : BitVec 4} :
    portWellFormed addr be = true ↔ addr.toNat % 4 = 0 ∧ be = 0b1111#4 := by
  have h : addr.extractLsb' 0 2 = 0 ↔ addr.toNat % 4 = 0 := by
    rw [← BitVec.toNat_inj, toNat_extractLsb'_div, pow_zero, Nat.div_one]
    rfl
  rw [portWellFormed, Bool.and_eq_true, beq_iff_eq, beq_iff_eq, h]

section Transactions

variable {s : State} {addr data : Word32} {be : BitVec 4} {target : Target}

/-! ### Malformed and unmapped accesses -/

theorem hostRead_bad (h : portWellFormed addr be = false ∨ locate s.params addr.toNat = none) :
    s.hostRead addr be = s.hostError.answer 0 := by
  unfold State.hostRead
  split
  next hw =>
    rw [h.resolve_left (by simp [hw])]
  · rfl

theorem hostWrite_bad (h : portWellFormed addr be = false ∨ locate s.params addr.toNat = none) :
    s.hostWrite addr data be = s.hostError := by
  unfold State.hostWrite
  split
  next hw =>
    rw [h.resolve_left (by simp [hw])]
  · rfl

/-! ### Accesses of a mapped address -/

theorem hostRead_of_csr (hw : portWellFormed addr be = true) {k : Nat}
    (hl : locate s.params addr.toNat = some (.csr k)) : s.hostRead addr be = s.answer (s.csrRead k) := by
  rw [State.hostRead, if_pos hw, hl]

theorem hostWrite_of_csr (hw : portWellFormed addr be = true) {k : Nat}
    (hl : locate s.params addr.toNat = some (.csr k)) : s.hostWrite addr data be = s.csrWrite k data := by
  rw [State.hostWrite, if_pos hw, hl]

section Cell

variable (hw : portWellFormed addr be = true) (hl : locate s.params addr.toNat = some target)
  (hc : ∀ k, target ≠ .csr k)

include hw hl hc

/-- A read of a cell: refused while BUSY, else answered with the cell's value, or a free one where none is defined. -/
theorem hostRead_cell : s.hostRead addr be =
    if s.busy then s.hostError.answer 0
    else (s.cellRead target).elim (s.answerFree (cellWidth s.params target)) s.answer := by
  rw [State.hostRead, if_pos hw, hl]
  cases target with
  | csr k => exact absurd rfl (hc k)
  | _ => dsimp only; cases s.cellRead _ <;> rfl

/-- A write of a cell: refused while BUSY. -/
theorem hostWrite_cell :
    s.hostWrite addr data be = if s.busy then s.hostError else s.cellWrite data target := by
  rw [State.hostWrite, if_pos hw, hl]
  cases target with
  | csr k => exact absurd rfl (hc k)
  | _ => rfl

end Cell

/-- WHAT A READ CAN DO: it answers, with an access error, with a value, or with a free value. -/
theorem hostRead_cases (s : State) (addr : Word32) (be : BitVec 4) :
    s.hostRead addr be = s.hostError.answer 0 ∨ (∃ v, s.hostRead addr be = s.answer v) ∨
      ∃ width, s.hostRead addr be = s.answerFree width := by
  unfold State.hostRead
  split
  · split
    · exact .inl rfl
    · exact .inr (.inl ⟨_, rfl⟩)
    · split
      · exact .inl rfl
      · split
        · exact .inr (.inl ⟨_, rfl⟩)
        · exact .inr (.inr ⟨_, rfl⟩)
  · exact .inl rfl

end Transactions

/-! ### Writes of the configuration registers and of the numbers that ignore them -/

theorem isConfigCsr_iff {k : Nat} : isConfigCsr k = true ↔ 0x020 ≤ k ∧ k ≤ 0x028 := by
  simp [isConfigCsr]

theorem csrWrite_config (s : State) {k : Nat} (h1 : 0x020 ≤ k) (h2 : k ≤ 0x028) (v : Word32) :
    s.csrWrite k v = if s.busy then s.hostError else s.putConfig k v := by
  unfold State.csrWrite
  repeat rw [if_neg (by omega)]
  rw [if_pos (isConfigCsr_iff.2 ⟨h1, h2⟩)]

/-- Read-only and unlisted numbers ignore a write (10_state.md R61, R68). -/
theorem csrWrite_ignored (s : State) {k : Nat} (h1 : k ∉ [0x004, 0x005, 0x006, 0x008, 0x009])
    (h2 : ¬ (0x020 ≤ k ∧ k ≤ 0x028)) (v : Word32) : s.csrWrite k v = s := by
  simp only [List.mem_cons, List.not_mem_nil, or_false, not_or] at h1
  obtain ⟨h4, h5, h6, h8, h9⟩ := h1
  rw [State.csrWrite, if_neg h4, if_neg h5, if_neg h6, if_neg h8, if_neg h9, if_neg (h2 ∘ isConfigCsr_iff.1)]

/-- Settles O54: a refused access is a host error and nothing else. -/
theorem busyRefusesTheHost : Obligations.BusyRefusesTheHost := by
  intro s addr data target hb hw hl
  have cell : (∀ k, target ≠ .csr k) → s.hostRead addr 0b1111#4 = s.hostError.answer 0 ∧
      s.hostWrite addr data 0b1111#4 = s.hostError := fun hc =>
    ⟨(hostRead_cell hw hl hc).trans (if_pos hb), (hostWrite_cell hw hl hc).trans (if_pos hb)⟩
  cases target with
  | csr k =>
    refine ⟨hostRead_of_csr hw hl, fun h1 h2 => ?_⟩
    rw [hostWrite_of_csr hw hl, csrWrite_config s h1 h2, if_pos hb]
    rfl
  | _ => exact cell (by simp)

/-- Settles O55: `hostRead_bad` and `hostWrite_bad`; the CSR window is the first of the map. -/
theorem badAccessesSetHosterr : Obligations.BadAccessesSetHosterr := by
  refine ⟨fun s addr data be h => ?_, fun p k hk => ?_⟩
  · have hbad : portWellFormed addr be = false ∨ locate s.params addr.toNat = none := by
      rw [← or_assoc] at h
      refine h.imp_left fun hm => Bool.eq_false_iff.2 fun hw => ?_
      obtain ⟨haddr, hbe⟩ := portWellFormed_iff.1 hw
      exact hm.elim (absurd haddr) (absurd hbe)
    exact ⟨hostRead_bad hbad, hostWrite_bad hbad⟩
  · have hl := locate_csr p hk
    rwa [BitVec.toNat_ofNat, Nat.mod_eq_of_lt (by omega)] at hl

/-! ### What a read answers -/

theorem cellRead_lane {s : State} (hp : s.params.Legal) {a l : Nat} (hl : l < s.params.lanes) {w : Block}
    (h : s.blockWord a = some w) : s.cellRead (.bmem a l) = some (w.extractLsb' (32 * l) 32) := by
  obtain ⟨word, hget, hlanes, rfl⟩ := blockWord_eq_some.1 h
  have hl' : word.lanes.getLsbD l = true := by
    have hall := congrArg (fun v => BitVec.getLsbD v l) (beq_iff_eq.1 hlanes)
    simpa [getLsbD_allLanes hp, hl] using hall
  simp [State.cellRead, hget, hl']

/-- Settles O57: `hostRead_cases` for the frame, and the answer to a read of each kind. -/
theorem hostReadsAnswer : Obligations.HostReadsAnswer := by
  refine ⟨fun s addr be => ?_, fun s k hk => hostRead_csr s hk, fun s i k a l w =>
    ⟨rfl, rfl, rfl, rfl, fun hp hl h => cellRead_lane hp hl h⟩, fun s addr target hb hw hl hc => ⟨fun v hv => ?_,
    fun hv => ⟨lowBits (cellWidth s.params target) (Config.freeRead s.draws), ?_, ?_⟩⟩⟩
  · rcases hostRead_cases s addr be with h | ⟨v, h⟩ | ⟨width, h⟩ <;> (rw [h]; rfl)
  · rw [hostRead_cell hw hl hc, if_neg (by simp [hb]), hv]
    rfl
  · rw [hostRead_cell hw hl hc, if_neg (by simp [hb]), hv]
    rfl
  · have hfits := toNat_lowBits_lt (cellWidth s.params target) (Config.freeRead s.draws)
    cases target with
    | csr k => exact absurd rfl (hc k)
    | _ => exact hfits

end Sys2Proof.Machine

/-! # Host writes and the reads after them

The address map in both directions (20_memory.md R104), a cell and every other cell after a host write (R106 to R108),
and the writes of IE and of the configuration registers (10_state.md R63, R66). -/

namespace Sys2Proof.Machine

/-! ### The windows of the map -/

theorem windowIndex_word {base size q : Nat} (h : q < size) : windowIndex base size (base + 4 * q) = some q := by
  rw [windowIndex, if_pos (by omega)]
  congr 1
  omega

theorem windowIndex_outside {base size addr : Nat} (h : addr < base ∨ base + 4 * size ≤ addr) :
    windowIndex base size addr = none :=
  if_neg (by omega)

/-- Inside a window, at a word boundary, the address is that of its word. -/
theorem windowIndex_address {base size addr q : Nat} (h : windowIndex base size addr = some q)
    (hb : base % 4 = 0) (ha : addr % 4 = 0) : addr = base + 4 * q := by
  unfold windowIndex at h
  split at h
  · cases h; omega
  · cases h

/-- The same for a window of rows of n words. -/
theorem windowIndex_row_address {base size addr q : Nat} (n : Nat) (h : windowIndex base size addr = some q)
    (hb : base % 4 = 0) (ha : addr % 4 = 0) : addr = base + (q / n * n + q % n) * 4 := by
  rw [Nat.div_add_mod', Nat.mul_comm]
  exact windowIndex_address h hb ha

theorem row_index_lt {m n i k : Nat} (hi : i < m) (hk : k < n) : i * n + k < m * n :=
  calc i * n + k < (i + 1) * n := by rw [Nat.succ_mul]; omega
    _ ≤ m * n := Nat.mul_le_mul_right n hi

theorem row_div {n i k : Nat} (hk : k < n) : (i * n + k) / n = i := by
  rw [Nat.mul_comm, Nat.mul_add_div (by omega), Nat.div_eq_of_lt hk, Nat.add_zero]

theorem row_mod {n i k : Nat} (hk : k < n) : (i * n + k) % n = k := by
  rw [Nat.mul_comm, Nat.mul_add_mod, Nat.mod_eq_of_lt hk]

/-- An address the map knows, at a word boundary, is the one R104 gives its target. -/
theorem locate_address {p : Params} {addr : Nat} {target : Target} (h : locate p addr = some target)
    (ha : addr % 4 = 0) : addr = target.address p := by
  simp only [locate] at h
  split at h
  next q hq => cases h; exact (windowIndex_address hq rfl ha).trans (Nat.zero_add _)
  next =>
  split at h
  next q hq => cases h; exact windowIndex_row_address _ hq rfl ha
  next =>
  split at h
  next q hq => cases h; exact windowIndex_address hq rfl ha
  next =>
  split at h
  next q hq => cases h; exact windowIndex_row_address _ hq rfl ha
  next =>
  split at h
  next q hq => cases h; exact windowIndex_address hq rfl ha
  next =>
  split at h
  next q hq => cases h; exact windowIndex_row_address _ hq rfl ha
  next => cases h

/-- The sizes of the windows in a legal configuration leave them apart (20_memory.md R104). -/
theorem window_sizes {p : Params} (h : p.Legal) :
    Config.nPreg * p.plen ≤ 0x1000 ∧ p.glen ≤ 0x101 ∧ p.tb * p.tb ≤ 0x10000 ∧ p.posLen ≤ 0x10000 := by
  have htb := tb_le h
  have hsq : p.tb * p.tb ≤ 256 * 256 := Nat.mul_le_mul htb htb
  obtain ⟨-, -, hm, -⟩ := h
  have hpos : p.posLen ≤ 2 ^ 16 := Nat.pow_le_pow_right (by omega) hm
  rw [Config.nPreg, Params.plen, Params.glen]
  omega

/-- The address R104 gives a target is mapped to it: no earlier window of the map holds it. -/
theorem locate_of_address {p : Params} (h : p.Legal) {target : Target} (ht : target.Mapped p) :
    locate p (target.address p) = some target := by
  obtain ⟨hP, hG, hSq, hPos⟩ := window_sizes h
  cases target with
  | csr k => rw [locate, Target.address, ← Nat.zero_add (4 * k), windowIndex_word ht]
  | p i k =>
    have hq := row_index_lt ht.1 ht.2
    rw [locate, Target.address, Nat.mul_comm _ 4, windowIndex_outside (by omega), windowIndex_word hq]
    simp only [row_div ht.2, row_mod ht.2]
  | g k =>
    rw [locate, Target.address, windowIndex_outside (by omega), windowIndex_outside (by omega), windowIndex_word ht]
  | sq i k =>
    have hq := row_index_lt ht.1 ht.2
    rw [locate, Target.address, Nat.mul_comm _ 4, windowIndex_outside (by omega), windowIndex_outside (by omega),
      windowIndex_outside (by omega), windowIndex_word hq]
    simp only [row_div ht.2, row_mod ht.2]
  | pos x =>
    rw [locate, Target.address, windowIndex_outside (by omega), windowIndex_outside (by omega),
      windowIndex_outside (by omega), windowIndex_outside (by omega), windowIndex_word ht]
  | bmem a l =>
    have hq := row_index_lt ht.1 ht.2
    rw [locate, Target.address, Nat.mul_comm _ 4, windowIndex_outside (by omega), windowIndex_outside (by omega),
      windowIndex_outside (by omega), windowIndex_outside (by omega), windowIndex_outside (by omega),
      windowIndex_word hq]
    simp only [row_div ht.2, row_mod ht.2]

theorem locate_eq_some_iff {p : Params} (h : p.Legal) {addr : Nat} (ha : addr % 4 = 0) {target : Target} :
    locate p addr = some target ↔ target.Mapped p ∧ addr = target.address p := by
  refine ⟨fun hl => ⟨locate_mapped hl, locate_address hl ha⟩, ?_⟩
  rintro ⟨ht, rfl⟩
  exact locate_of_address h ht

/-! ### One lane of a BMEM word -/

/-- LANES is TB / 32, and 1 for a word of at most 32 bits (20_memory.md R104). -/
theorem lanes_cases {p : Params} (h : p.Legal) : p.lanes = 1 ∧ p.tb ≤ 32 ∨ 32 ≤ p.tb ∧ p.tb = 32 * p.lanes := by
  obtain ⟨tMax, mMax, aw, cq⟩ := p
  have ht : tMax ≤ 8 := h.1
  simp only [Params.lanes, Params.tb]
  interval_cases tMax <;> simp

theorem getLsbD_lanes_putLane (p : Params) (w : BWord) (l : Nat) (v : Word32) {k : Nat} (hk : k < 8) :
    (w.putLane p l v).lanes.getLsbD k = (w.lanes.getLsbD k || decide (k = l)) := by
  rw [BWord.putLane, BitVec.getLsbD_or, getLsbD_one_shift l k hk]

/-- Bit i of lane k after a write of lane l. -/
theorem getLsbD_lane_putLane (p : Params) (w : BWord) (l : Nat) (v : Word32) {k i : Nat} (hk : k < 8) (hi : i < 32) :
    ((w.putLane p l v).bits.extractLsb' (32 * k) 32).getLsbD i =
      (decide (32 * k + i < p.tb) && if k = l then v.getLsbD i else w.bits.getLsbD (32 * k + i)) := by
  have hdiv : (32 * k + i) / 32 = k := by omega
  have hmod : (32 * k + i) % 32 = i := by omega
  have h256 : 32 * k + i < 256 := by omega
  simp only [BWord.putLane, BitVec.getLsbD_extractLsb', getLsbD_lowBits, getLsbD_bitsOf, hdiv, hmod,
    decide_eq_true hi, decide_eq_true h256, Bool.true_and]

theorem lane_putLane_same {p : Params} (h : p.Legal) (w : BWord) {l : Nat} (hl : l < p.lanes) (v : Word32) :
    (w.putLane p l v).bits.extractLsb' (32 * l) 32 = lowBits (min 32 p.tb) v := by
  have h8 := (lanes_bounds h).2.1
  refine BitVec.eq_of_getLsbD_eq fun i hi => ?_
  rw [getLsbD_lane_putLane p w l v (by omega) hi, if_pos rfl, getLsbD_lowBits]
  congr 1
  rcases lanes_cases h with hc | hc <;> (rw [decide_eq_decide]; omega)

theorem lane_putLane_other {p : Params} (h : p.Legal) (w : BWord) {k l : Nat} (hk : k < p.lanes) (hl : l < p.lanes)
    (hkl : k ≠ l) (v : Word32) :
    (w.putLane p l v).bits.extractLsb' (32 * k) 32 = w.bits.extractLsb' (32 * k) 32 := by
  have h8 := (lanes_bounds h).2.1
  have htb : 32 * k + 32 ≤ p.tb := by rcases lanes_cases h with hc | hc <;> omega
  refine BitVec.eq_of_getLsbD_eq fun i hi => ?_
  rw [getLsbD_lane_putLane p w l v (by omega) hi, if_neg hkl, decide_eq_true (by omega), BitVec.getLsbD_extractLsb',
    decide_eq_true hi]

/-! ### A cell after a host write -/

theorem setWidth_lowBits_setWidth {w k : Nat} (hk : k ≤ w) (v : Word32) :
    (lowBits k (v.setWidth w)).setWidth 32 = lowBits k v := by
  refine BitVec.eq_of_getLsbD_eq fun i hi => ?_
  rw [BitVec.getLsbD_setWidth, getLsbD_lowBits, getLsbD_lowBits, BitVec.getLsbD_setWidth, decide_eq_true hi,
    Bool.true_and]
  by_cases hik : i < k
  · rw [decide_eq_true (by omega : i < w), Bool.true_and]
  · rw [decide_eq_false hik, Bool.false_and, Bool.false_and]

/-- A READ AFTER A WRITE of a cell: the low bits of the data, zero-extended (20_memory.md R106 to R108). -/
theorem cellRead_cellWrite_same {s : State} (hp : s.params.Legal) {target : Target} (ht : target.Mapped s.params)
    (hc : ∀ k, target ≠ .csr k) (v : Word32) :
    (s.cellWrite v target).cellRead target = some (lowBits (cellWidth s.params target) v) := by
  obtain ⟨-, -, hm, -⟩ := id hp
  have elem : (lowBits s.params.mMax (v.setWidth 16)).setWidth 32 = lowBits s.params.mMax v :=
    setWidth_lowBits_setWidth hm v
  have written {w : Nat} (c : Cells (BitVec w)) (q : Nat) (x : BitVec w) :
      (cellGet (cellPut c q [x]) q).map (·.setWidth 32) = some (x.setWidth 32) := by
    rw [cellGet_cellPut_one, if_pos rfl, Option.map_some]
  cases target with
  | csr k => exact absurd rfl (hc k)
  | p i k => exact (written _ _ _).trans (congrArg some elem)
  | g k => exact (written _ _ _).trans (congrArg some elem)
  | sq i k => exact (written _ _ _).trans (congrArg some elem)
  | pos x => exact (written _ _ _).trans (congrArg some (setWidth_lowBits_setWidth (by rw [Params.posW]; omega) v))
  | bmem a l =>
    have h8 := (lanes_bounds hp).2.1
    have hl := ht.2
    simp only [State.cellRead, State.cellWrite, cellGet_cellPut_one, if_true]
    rw [getLsbD_lanes_putLane _ _ _ _ (by omega), decide_eq_true rfl, Bool.or_true, if_pos rfl,
      lane_putLane_same hp _ hl]
    rfl

/-- Another lane of the block a host write touched. -/
theorem cellRead_putLane_other {s : State} (hp : s.params.Legal) {a k l : Nat} (hk : k < s.params.lanes)
    (hl : l < s.params.lanes) (hkl : k ≠ l) (v : Word32) :
    (s.cellWrite v (.bmem a l)).cellRead (.bmem a k) = s.cellRead (.bmem a k) := by
  have h8 := (lanes_bounds hp).2.1
  simp only [State.cellRead, State.cellWrite, cellGet_cellPut_one, if_true]
  rw [getLsbD_lanes_putLane _ _ _ _ (by omega), lane_putLane_other hp _ hk hl hkl, decide_eq_false hkl, Bool.or_false]
  cases cellGet s.bmem a with
  | none => simp
  | some w => rfl

theorem pKey_inj {i j k l : Nat} (hk : k < 512) (hl : l < 512) (h : pKey i k = pKey j l) : i = j ∧ k = l := by
  rw [pKey, pKey] at h
  omega

theorem sqKey_inj {i j k l : Nat} (hk : k < 256) (hl : l < 256) (h : sqKey i k = sqKey j l) : i = j ∧ k = l := by
  rw [sqKey, sqKey] at h
  omega

/-- EVERY OTHER CELL after a host write of a cell: as before, and so is every CSR. -/
theorem cellRead_cellWrite_other {s : State} (hp : s.params.Legal) {target other : Target}
    (ht : target.Mapped s.params) (ho : other.Mapped s.params) (hne : other ≠ target) (hc : ∀ k, target ≠ .csr k)
    (v : Word32) : (s.cellWrite v target).cellRead other = s.cellRead other := by
  have htb := tb_le hp
  have hplen := plen_le hp
  have unwritten {α : Type} (c : Cells α) {q r : Nat} (x : α) (hqr : r ≠ q) :
      cellGet (cellPut c q [x]) r = cellGet c r := by
    rw [cellGet_cellPut_one, if_neg hqr]
  cases target with
  | csr k => exact absurd rfl (hc k)
  | p i k =>
    cases other with
    | p j l =>
      refine congrArg (Option.map _) (unwritten s.p _ fun h => hne ?_)
      obtain ⟨rfl, rfl⟩ := pKey_inj (by omega) (by omega) h
      rfl
    | _ => rfl
  | g k =>
    cases other with
    | g l => exact congrArg (Option.map _) (unwritten s.g _ fun h => hne (congrArg _ h))
    | _ => rfl
  | sq i k =>
    cases other with
    | sq j l =>
      refine congrArg (Option.map _) (unwritten s.sq _ fun h => hne ?_)
      obtain ⟨rfl, rfl⟩ := sqKey_inj (by omega) (by omega) h
      rfl
    | _ => rfl
  | pos x =>
    cases other with
    | pos y => exact congrArg (Option.map _) (unwritten s.pos _ fun h => hne (congrArg _ h))
    | _ => rfl
  | bmem a l =>
    cases other with
    | bmem b k =>
      by_cases hab : b = a
      · subst hab
        exact cellRead_putLane_other hp ho.2 ht.2 (fun h => hne (congrArg _ h)) v
      · simp only [State.cellRead, State.cellWrite, unwritten s.bmem _ hab]
    | _ => rfl

theorem cellWrite_busy (s : State) {target : Target} (hc : ∀ k, target ≠ .csr k) (v : Word32) :
    (s.cellWrite v target).busy = s.busy := by
  cases target with
  | csr k => exact absurd rfl (hc k)
  | _ => rfl

theorem cellWrite_params (s : State) {target : Target} (hc : ∀ k, target ≠ .csr k) (v : Word32) :
    (s.cellWrite v target).params = s.params := by
  cases target with
  | csr k => exact absurd rfl (hc k)
  | _ => rfl

/-- The data of a read of the cell just written. -/
theorem rdata_of_write_read {s : State} (hp : s.params.Legal) (hb : s.busy = false) {addr data : Word32}
    {target : Target} (hw : portWellFormed addr 0b1111#4 = true) (hl : locate s.params addr.toNat = some target)
    (hc : ∀ k, target ≠ .csr k) :
    ((s.cellWrite data target).hostRead addr 0b1111#4).rdata = lowBits (cellWidth s.params target) data := by
  have hl' : locate (s.cellWrite data target).params addr.toNat = some target := by rwa [cellWrite_params s hc]
  rw [hostRead_cell hw hl' hc, cellWrite_busy s hc, if_neg (by simp [hb]),
    cellRead_cellWrite_same hp (locate_mapped hl) hc]
  rfl

/-! ### IE and the configuration registers -/

theorem and_ie_mask (n : Nat) : n &&& 0x3E = 2 * (n / 2 % 32) := by
  have hdiv : (n &&& 0x3E) / 2 = n / 2 % 32 := by
    rw [Nat.and_div_two]
    exact Nat.and_two_pow_sub_one_eq_mod (n / 2) 5
  have hmod : (n &&& 0x3E) % 2 = 0 := by
    have h := Nat.and_mod_two_pow (a := n) (b := 0x3E) (n := 1)
    rwa [pow_one, Nat.and_zero] at h
  omega

theorem csrRead_ie_of_write (s : State) (v : Word32) :
    ({ s with ie := v.extractLsb' 1 5 } : State).csrRead 0x006 = v &&& 0x3E#32 := by
  apply BitVec.eq_of_toNat_eq
  rw [toNat_csrRead_ie, toNat_extractLsb'_div, BitVec.toNat_and]
  exact (and_ie_mask v.toNat).symm

/-- How many bits a configuration register or FLAGS stores (10_state.md R59, R63). -/
def configWidth (c : Nat) : Nat :=
  if c = 0x020 then 5 else if c = 0x021 then 4 else if c = 0x023 then 17 else if c = 0x028 then 2 else 16

theorem setWidth_setWidth_lowBits {k : Nat} (hk : k ≤ 32) (v : Word32) : (v.setWidth k).setWidth 32 = lowBits k v := by
  apply BitVec.eq_of_toNat_eq
  rw [BitVec.toNat_setWidth_of_le hk, BitVec.toNat_setWidth, toNat_lowBits]

theorem flagsWord_of_write (s : State) (v : Word32) :
    ({ s with flags := { reg := v.getLsbD 0, sing := v.getLsbD 1 } } : State).flagsWord = lowBits 2 v := by
  apply BitVec.eq_of_toNat_eq
  rw [toNat_flagsWord, toNat_lowBits, BitVec.getLsbD, BitVec.getLsbD, Nat.toNat_testBit, Nat.toNat_testBit]
  omega

/-- A register written reads the low bits of the data (10_state.md R59, R63). -/
theorem csrRead_putConfig_same (s : State) {c : Nat} (h1 : 0x020 ≤ c) (h2 : c ≤ 0x028) (v : Word32) :
    (s.putConfig c v).csrRead c = lowBits (configWidth c) v := by
  rcases Nat.lt_or_eq_of_le h2 with hlt | rfl
  · have hle : configWidth c ≤ 32 := by rw [configWidth]; split_ifs <;> omega
    interval_cases c <;> exact setWidth_setWidth_lowBits hle v
  · exact flagsWord_of_write s v

/-- Every other CSR reads as before. -/
theorem csrRead_putConfig_other (s : State) {c k : Nat} (h1 : 0x020 ≤ c) (h2 : c ≤ 0x028) (hkc : k ≠ c)
    (v : Word32) : (s.putConfig c v).csrRead k = s.csrRead k := by
  interval_cases c <;> (simp only [State.csrRead, if_neg hkc]; rfl)

/-- The command CSRW writes its register as the host does (45_control.md R403). -/
theorem exec_csrw_config (s : State) {csr : Field} (h1 : 0x020 ≤ csr.toNat) (h2 : csr.toNat ≤ 0x028) (v : Word32) :
    exec (.csrw csr v) s = .next (s.putConfig csr.toNat v).retire := by
  refine exec_of_rule ?_
  rw [ruleOf, ruleCsrw, require_eq_ok.2 (isConfigCsr_iff.2 ⟨h1, h2⟩), run_ok_bind, run_pure]

/-- Settles O56: `locate_eq_some_iff` for the map, `rdata_of_write_read` and `cellRead_cellWrite_other` for the cells,
and the CSR writes by their numbers. -/
theorem hostWriteThenRead : Obligations.HostWriteThenRead := by
  refine ⟨fun p target addr hp ha => locate_eq_some_iff hp ha, fun s addr data target hp hb hw hl hc => ?_,
    fun s v => ?_, fun s v csr hb h1 h2 => ?_, fun s v k hk hlist hcfg => ?_⟩
  · have hwrite : s.hostWrite addr data 0b1111#4 = s.cellWrite data target :=
      (hostWrite_cell hw hl hc).trans (if_neg (by simp [hb]))
    rw [hwrite]
    refine ⟨?_, fun other otherAddr hne ho =>
      cellRead_cellWrite_other hp (locate_mapped hl) (locate_mapped ho) hne hc data⟩
    have hread := rdata_of_write_read (data := data) hp hb hw hl hc
    cases target with
    | csr k => exact absurd rfl (hc k)
    | _ => exact hread
  · have hwrite : s.hostWrite 0x18#32 v 0b1111#4 = { s with ie := v.extractLsb' 1 5 } :=
      hostWrite_csr s (k := 6) (by omega) v
    exact ⟨hwrite, by rw [hwrite, csrRead_ie_of_write]⟩
  · have hwrite : s.hostWrite (BitVec.ofNat 32 (4 * csr.toNat)) v 0b1111#4 = s.putConfig csr.toNat v := by
      rw [hostWrite_csr s (by omega), csrWrite_config s h1 h2, if_neg (by simp [hb])]
    refine ⟨_, hwrite, putConfig_eq s _ v, fun k _ _ hne => csrRead_putConfig_other s h1 h2 hne v, ?_,
      exec_csrw_config s h1 h2 v⟩
    rw [csrRead_putConfig_same s h1 h2]
    generalize csr.toNat = c at h1 h2
    interval_cases c <;> rfl
  · rw [hostWrite_csr s hk, csrWrite_ignored s hlist hcfg]

end Sys2Proof.Machine

/-! # Regions past the end of BMEM

A rule tests its command's regions in field order (30_encoding.md R160 step 5, 60_exceptions.md R503), and nothing it
reads comes before them. -/

namespace Sys2Proof.Machine

/-- `r`, a rule or what is left of it, raises ADDR_RANGE for the first of the regions `rs` that reaches past the end of
BMEM (20_memory.md R102). -/
def RaisesAtFirst (s : State) (rs : List (FieldId × Nat)) (r : Run State) : Prop :=
  ∀ (before after : List (FieldId × Nat)) (f : FieldId) (last : Nat), rs = before ++ (f, last) :: after →
    (∀ b ∈ before, b.2 < s.params.bmemLen) → s.params.bmemLen ≤ last →
    r = .error (.raise .addrRange (BitVec.ofNat 32 f.code))

section Rules

variable {s : State} {rs : List (FieldId × Nat)}

/-- Without a region there is nothing to raise. -/
theorem RaisesAtFirst.nil {r : Run State} : RaisesAtFirst s [] r := fun before after f last h => by simp at h

/-- A region that fits leaves the rest of the list to the rest of the rule. -/
theorem RaisesAtFirst.region {f : FieldId} {last : Nat} {k : Unit → Run State} (hk : RaisesAtFirst s rs (k ())) :
    RaisesAtFirst s ((f, last) :: rs) (checkRegion s f last >>= k) := by
  intro before after g top h hfit hpast
  cases before with
  | nil =>
    cases h
    rw [checkRegion_of_not (Nat.not_lt.2 hpast), run_error_bind]
  | cons b before =>
    cases h
    rw [checkRegion_eq_ok.2 (hfit _ List.mem_cons_self), run_ok_bind]
    exact hk before after g top rfl (fun b hb => hfit b (List.mem_cons_of_mem _ hb)) hpast

/-- An earlier check that passes. -/
theorem RaisesAtFirst.check {x : Run Unit} {k : Unit → Run State} (hx : x = .ok ())
    (hk : RaisesAtFirst s rs (k ())) : RaisesAtFirst s rs (x >>= k) := by
  rwa [hx, run_ok_bind]

theorem RaisesAtFirst.operands {fields : List (FieldId × FieldKind × Field)} {k : Unit → Run State}
    (hf : ∀ e ∈ fields, e.2.1.legal s.params e.2.2 = true) (hk : RaisesAtFirst s rs (k ())) :
    RaisesAtFirst s rs (checkOperands s fields >>= k) :=
  .check (checkOperands_eq_ok.2 hf) hk

theorem RaisesAtFirst.cfgv {k : Unit → Run State} (hc : s.Cfgv) (hk : RaisesAtFirst s rs (k ())) :
    RaisesAtFirst s rs (checkCfgv s >>= k) :=
  .check (checkCfgv_eq_ok.2 hc) hk

theorem RaisesAtFirst.config {p : Prop} [Decidable p] {info : Word32} {k : Unit → Run State} (hp : p)
    (hk : RaisesAtFirst s rs (k ())) : RaisesAtFirst s rs (require (decide p) .badConfig info >>= k) :=
  .check (require_eq_ok.2 (decide_eq_true hp)) hk

end Rules

/-- CORRECT's region d, which is empty when NB = m (44_decoder.md R347). -/
theorem ruleCorrect_raisesAtFirst (d c e : Field) {s : State} (hc : Instr.ConfigOk s (.correct d c e)) :
    RaisesAtFirst s (Instr.regions s (.correct d c e)) (ruleCorrect d c e s) := by
  obtain ⟨hcfgv, hsizes⟩ := hc
  refine .cfgv (hcfgv rfl) <| .config hsizes ?_
  simp only [Instr.regions]
  by_cases hlt : s.m < s.nb
  · have hd : require (decide (s.m < s.nb → d.toNat + s.nb - s.m - 1 < s.params.bmemLen)) .addrRange
        (BitVec.ofNat 32 FieldId.fa.code) = checkRegion s .fa (d.toNat + s.nb - s.m - 1) := by
      simp only [hlt, true_imp_iff, checkRegion]
    rw [if_pos hlt, hd]
    exact .region <| .region <| .region .nil
  · rw [if_neg hlt]
    exact .check (require_eq_ok.2 (decide_eq_true fun h => absurd h hlt)) <| .region <| .region .nil

/-- EVERY RULE TESTS ITS REGIONS IN FIELD ORDER, once its operand and configuration checks have passed. -/
theorem rule_raisesAtFirst (i : Instr) {s : State} (hw : i.WellFormed s.params) (hc : Instr.ConfigOk s i) :
    RaisesAtFirst s (Instr.regions s i) (ruleOf i s) := by
  cases i with
  | dymul d a b => exact .cfgv (hc.1 rfl) <| .region <| .region <| .region .nil
  | dyadd d a b => exact .cfgv (hc.1 rfl) <| .region <| .region <| .region .nil
  | dyreg a => exact .cfgv (hc.1 rfl) <| .region .nil
  | dyinv d a => exact .cfgv (hc.1 rfl) <| .region <| .region .nil
  | bcopy d src count => exact .operands (by simpa [legal_positive] using hw) <| .region <| .region .nil
  | matvec d mat v => exact .cfgv (hc.1 rfl) <| .config hc.2 <| .region <| .region <| .region .nil
  | gauss base => exact .cfgv (hc.1 rfl) <| .config hc.2 <| .region .nil
  | cot2p pd base stride =>
    exact .operands (by simpa [legal_preg, legal_positive] using hw) <| .cfgv (hc.1 rfl) <| .region .nil
  | p2cot base ps stride =>
    exact .operands (by simpa [legal_preg, legal_positive] using hw) <| .cfgv (hc.1 rfl) <| .region .nil
  | roots e ps => exact .operands (by simpa [legal_preg] using hw) <| .cfgv (hc.1 rfl) <| .region .nil
  | correct d c e => exact ruleCorrect_raisesAtFirst d c e hc
  | decode e syn =>
    exact .cfgv (hc.1 rfl) <| .check (checkGoppa_eq_ok.2 hc.2) <| .region <| .region .nil
  | _ => exact .nil

/-- Settles O52: `rule_raisesAtFirst` for every command. -/
theorem regionPastTheEndRaises : Obligations.RegionPastTheEndRaises :=
  fun i _ before after f last hw hc hr hfit hpast =>
    exec_of_raise (rule_raisesAtFirst i hw hc before after f last hr hfit hpast)

end Sys2Proof.Machine

/-! # The encoding

The decoder and the encoder read one table, `rowsR` (30_encoding.md R157, R164): its opcodes are distinct, they are the
legal ones but for CSRW's and POSSET's, and a row's kinds are those of `operandKinds`. Everything about a word of format
R is then said once, for any row of the table. -/

namespace Sys2Proof.Machine

/-! ### The rows of the opcode table -/

/-- The opcode alone selects the row (30_encoding.md R157). -/
theorem find_row : ∀ r ∈ rowsR, rowsR.find? (fun q => q.opc == r.opc) = some r := by
  simp only [rowsR, List.forall_mem_cons, List.not_mem_nil, false_imp_iff, implies_true, and_true]
  exact ⟨rfl, rfl, rfl, rfl, rfl, rfl, rfl, rfl, rfl, rfl, rfl, rfl, rfl, rfl, rfl, rfl, rfl, rfl, rfl, rfl, rfl, rfl,
    rfl, rfl⟩

theorem row_opc_ne : ∀ r ∈ rowsR, r.opc ≠ opcCsrw ∧ r.opc ≠ opcPosset := by decide

/-- A row's field kinds are those the statements read from R164. -/
theorem operandKinds_row : ∀ r ∈ rowsR, operandKinds r.opc.toNat = some (r.fa, r.fb, r.fc) := by decide

/-- The legal opcodes are those of format I and those of the rows (30_encoding.md R157, R158). -/
theorem legalOpc_iff : ∀ k : BitVec 8,
    illegalOpc k.toNat = false ↔ k = opcCsrw ∨ k = opcPosset ∨ ∃ r ∈ rowsR, r.opc = k := by decide

/-- What a row builds is encoded with the row's opcode, its reserved fields being 0. -/
theorem encode_build : ∀ r ∈ rowsR, ∀ a b c, r.fa.clear a = true → r.fb.clear b = true → r.fc.clear c = true →
    encode (r.build a b c) = wordR r.opc a b c := by
  intro r hr a b c ha hb hc
  fin_cases hr
  all_goals simp_all [FieldKind.clear, encode]

/-! ### The decoder, by the word's opcode -/

section Word

variable {p : Params} {w : Command} {r : RowR}

theorem decode_of_csrw (h : opcOf w = opcCsrw) : decode p w = decodeCsrw w := if_pos h

theorem decode_of_posset (h : opcOf w = opcPosset) : decode p w = decodePosset p w := by
  rw [decode, if_neg (h ▸ (by decide)), if_pos h]

theorem decode_of_row (hr : r ∈ rowsR) (h : r.opc = opcOf w) : decode p w = decodeR p r w := by
  obtain ⟨hcsrw, hposset⟩ := row_opc_ne r hr
  rw [decode, ← h, if_neg hcsrw, if_neg hposset, find_row r hr]

/-- Outside the table the opcode is rejected, whatever the other bits hold (30_encoding.md R158). -/
theorem decode_of_illegalOpc (h : illegalOpc (opcOf w).toNat = true) :
    decode p w = .error (.illegalOpcode (opcOf w)) := by
  obtain ⟨hcsrw, hposset, hrow⟩ : opcOf w ≠ opcCsrw ∧ opcOf w ≠ opcPosset ∧ ∀ r ∈ rowsR, r.opc ≠ opcOf w := by
    simpa [h] using (legalOpc_iff (opcOf w)).not
  have hnone : rowsR.find? (fun q => q.opc == opcOf w) = none :=
    List.find?_eq_none.2 fun r hr => by simpa using hrow r hr
  rw [decode, if_neg hcsrw, if_neg hposset, hnone]

theorem fieldChecks_of_row (hr : r ∈ rowsR) (h : r.opc = opcOf w) :
    fieldChecks p w = [(.fa, r.fa.legal p (faOf w)), (.fb, r.fb.legal p (fbOf w)), (.fc, r.fc.legal p (fcOf w)),
      (.fd, fdOf w == 0)] := by
  rw [fieldChecks, ← h, operandKinds_row r hr]

theorem reservedClear_of_csrw (h : opcOf w = opcCsrw) : reservedClear p w = (zOf w == 0) := by
  rw [reservedClear, formatIOk, h]
  exact Bool.and_true _

theorem reservedClear_of_posset (h : opcOf w = opcPosset) :
    reservedClear p w = (zOf w == 0 && decide ((immOf w).toNat < 2 ^ p.posW)) := by
  rw [reservedClear, formatIOk, h]
  rfl

/-- A word of format I has one check, that of its reserved bits. -/
theorem fieldChecks_of_formatI (h : opcOf w = opcCsrw ∨ opcOf w = opcPosset) :
    fieldChecks p w = [(.zImm, reservedClear p w)] := by
  rcases h with h | h <;> (rw [fieldChecks, reservedClear, h]; rfl)

/-- A field is clear unless it is reserved and nonzero. -/
theorem clear_eq (k : FieldKind) (v : Field) : k.clear v = (k != .reserved || v == 0) := by cases k <;> rfl

/-- A reserved field is legal exactly when it is clear, so a legal field is clear. -/
theorem clear_of_legal {k : FieldKind} {v : Field} (h : k.legal p v = true) : k.clear v = true := by
  cases k with
  | reserved => exact h
  | _ => rfl

theorem reservedClear_of_row (hr : r ∈ rowsR) (h : r.opc = opcOf w) :
    reservedClear p w = (r.fa.clear (faOf w) && r.fb.clear (fbOf w) && r.fc.clear (fcOf w) && fdOf w == 0) := by
  rw [reservedClear, ← h, operandKinds_row r hr]
  simp only [clear_eq]

/-- A word of format R is its row's command, or it is rejected with its first failing field. -/
theorem decode_row_eq (hr : r ∈ rowsR) (h : r.opc = opcOf w) :
    decode p w =
      if reservedClear p w then .ok (r.build (faOf w) (fbOf w) (fcOf w))
      else .error (.badOperand ((firstBad (fieldChecks p w)).getD .fd)) := by
  rw [decode_of_row hr h, reservedClear_of_row hr h, fieldChecks_of_row hr h]
  rfl

theorem decode_csrw_eq (h : opcOf w = opcCsrw) :
    decode p w = if reservedClear p w then .ok (.csrw (faOf w) (immOf w)) else .error (.badOperand .zImm) := by
  rw [decode_of_csrw h, reservedClear_of_csrw h]
  rfl

/-- POSSET's immediate has also to fit the command's 17 bits, which legal parameters imply. -/
theorem decode_posset_eq (h : opcOf w = opcPosset) :
    decode p w =
      if reservedClear p w && decide ((immOf w).toNat < 2 ^ 17) then
        .ok (.posset (faOf w) ((immOf w).setWidth 17))
      else .error (.badOperand .zImm) := by
  rw [decode_of_posset h, reservedClear_of_posset h]
  rfl

/-- WHAT DECODES: each of the three formats, with its reserved fields 0. -/
theorem decode_eq_ok {i : Instr} (h : decode p w = .ok i) :
    reservedClear p w = true ∧
    ((opcOf w = opcCsrw ∧ .csrw (faOf w) (immOf w) = i) ∨
      (opcOf w = opcPosset ∧ (immOf w).toNat < 2 ^ 17 ∧ .posset (faOf w) ((immOf w).setWidth 17) = i) ∨
      ∃ r ∈ rowsR, r.opc = opcOf w ∧ r.build (faOf w) (fbOf w) (fcOf w) = i) := by
  cases hl : illegalOpc (opcOf w).toNat with
  | true => rw [decode_of_illegalOpc hl] at h; cases h
  | false =>
    rcases (legalOpc_iff _).1 hl with ho | ho | ⟨r, hr, ho⟩
    · rw [decode_csrw_eq ho] at h
      split at h
      next hc => cases h; exact ⟨hc, .inl ⟨ho, rfl⟩⟩
      next => cases h
    · rw [decode_posset_eq ho] at h
      split at h
      next hc =>
        cases h
        obtain ⟨hc, himm⟩ : reservedClear p w = true ∧ (immOf w).toNat < 2 ^ 17 := by simpa using hc
        exact ⟨hc, .inr (.inl ⟨ho, himm, rfl⟩)⟩
      next => cases h
    · rw [decode_row_eq hr ho] at h
      split at h
      next hc => cases h; exact ⟨hc, .inr (.inr ⟨r, hr, ho, rfl⟩)⟩
      next => cases h

end Word

/-! ### Encoding what was decoded -/

/-- Settles O2: a word that decodes is its fields put together, and those are the command's operands. -/
theorem encodeDecodeRoundTrip : Obligations.EncodeDecodeRoundTrip := by
  intro p w i h
  obtain ⟨hc, ⟨ho, rfl⟩ | ⟨ho, himm, rfl⟩ | ⟨r, hr, ho, rfl⟩⟩ := decode_eq_ok h
  · rw [reservedClear_of_csrw ho, beq_iff_eq] at hc
    calc
      wordI opcCsrw (faOf w) (immOf w) = wordI (opcOf w) (faOf w) (immOf w) := by rw [ho]
      _ = w := wordI_of_fields hc
  · rw [reservedClear_of_posset ho, Bool.and_eq_true, beq_iff_eq] at hc
    have hi : ((immOf w).setWidth 17).setWidth 32 = immOf w :=
      BitVec.eq_of_toNat_eq (by simp only [BitVec.toNat_setWidth]; omega)
    calc
      wordI opcPosset (faOf w) (((immOf w).setWidth 17).setWidth 32) = wordI (opcOf w) (faOf w) (immOf w) := by
        rw [hi, ho]
      _ = w := wordI_of_fields hc.1
  · rw [reservedClear_of_row hr ho] at hc
    simp only [Bool.and_eq_true, beq_iff_eq] at hc
    obtain ⟨⟨⟨ha, hb⟩, hc⟩, hd⟩ := hc
    rw [encode_build r hr _ _ _ ha hb hc, ho, wordR_of_fields hd]

/-! ### Decoding what was encoded -/

/-- The command is built by a row of the table from fields that are 0 where the row reserves them. -/
def InFormatR (i : Instr) : Prop :=
  ∃ r ∈ rowsR, ∃ a b c, r.fa.clear a = true ∧ r.fb.clear b = true ∧ r.fc.clear c = true ∧ i = r.build a b c

theorem inFormatR_row {r : RowR} {i : Instr} (opc : BitVec 8)
    (hr : rowsR.find? (fun q => q.opc == opc) = some r) (a b c : Field) (ha : r.fa.clear a = true := by rfl)
    (hb : r.fb.clear b = true := by rfl) (hc : r.fc.clear c = true := by rfl)
    (hi : i = r.build a b c := by rfl) : InFormatR i :=
  ⟨r, List.mem_of_find?_eq_some hr, a, b, c, ha, hb, hc, hi⟩

/-- Every command has one of the three formats. -/
theorem instr_formats (i : Instr) :
    (∃ csr imm, i = .csrw csr imm) ∨ (∃ x imm, i = .posset x imm) ∨ InFormatR i := by
  cases i with
  | csrw csr imm => exact .inl ⟨csr, imm, rfl⟩
  | posset x imm => exact .inr (.inl ⟨x, imm, rfl⟩)
  | nop => exact .inr (.inr (inFormatR_row 0x00#8 rfl 0 0 0))
  | sync => exact .inr (.inr (inFormatR_row 0x01#8 rfl 0 0 0))
  | dymul d a b => exact .inr (.inr (inFormatR_row 0x10#8 rfl d a b))
  | dyadd d a b => exact .inr (.inr (inFormatR_row 0x11#8 rfl d a b))
  | dyreg a => exact .inr (.inr (inFormatR_row 0x12#8 rfl 0 a 0))
  | dyinv d a => exact .inr (.inr (inFormatR_row 0x13#8 rfl d a 0))
  | bcopy d src count => exact .inr (.inr (inFormatR_row 0x14#8 rfl d src count))
  | matvec d mat v => exact .inr (.inr (inFormatR_row 0x20#8 rfl d mat v))
  | gauss base => exact .inr (.inr (inFormatR_row 0x21#8 rfl base 0 0))
  | cot2p pd base stride => exact .inr (.inr (inFormatR_row 0x30#8 rfl pd base stride))
  | p2cot base ps stride => exact .inr (.inr (inFormatR_row 0x31#8 rfl base ps stride))
  | pinv pd ps => exact .inr (.inr (inFormatR_row 0x32#8 rfl pd ps 0))
  | paddx pd ps => exact .inr (.inr (inFormatR_row 0x33#8 rfl pd ps 0))
  | psqrt pd ps => exact .inr (.inr (inFormatR_row 0x34#8 rfl pd ps 0))
  | pfrac pa pb ps => exact .inr (.inr (inFormatR_row 0x35#8 rfl pa pb ps))
  | ploc pd pa pb => exact .inr (.inr (inFormatR_row 0x36#8 rfl pd pa pb))
  | roots e ps => exact .inr (.inr (inFormatR_row 0x37#8 rfl e ps 0))
  | correct d c e => exact .inr (.inr (inFormatR_row 0x38#8 rfl d c e))
  | decode e syn => exact .inr (.inr (inFormatR_row 0x39#8 rfl e syn 0))
  | pclr pd => exact .inr (.inr (inFormatR_row 0x3A#8 rfl pd 0 0))
  | pmov pd ps => exact .inr (.inr (inFormatR_row 0x3B#8 rfl pd ps 0))
  | psetc pd k value => exact .inr (.inr (inFormatR_row 0x3C#8 rfl pd k value))
  | gset ps => exact .inr (.inr (inFormatR_row 0x3D#8 rfl 0 ps 0))
  | sqset row ps => exact .inr (.inr (inFormatR_row 0x3E#8 rfl row ps 0))

/-- A command of format R decodes from its encoding, whatever its operands hold. -/
theorem decode_encode_formatR {p : Params} {i : Instr} (h : InFormatR i) : decode p (encode i) = .ok i := by
  obtain ⟨r, hr, a, b, c, ha, hb, hc, rfl⟩ := h
  have ho : r.opc = opcOf (wordR r.opc a b c) := (opcOf_wordR ..).symm
  rw [encode_build r hr a b c ha hb hc, decode_row_eq hr ho, reservedClear_of_row hr ho]
  simp [faOf_wordR, fbOf_wordR, fcOf_wordR, fdOf_wordR, ha, hb, hc]

theorem decode_encode_csrw (p : Params) (csr : Field) (imm : Word32) :
    decode p (encode (.csrw csr imm)) = .ok (.csrw csr imm) := by
  have ho : opcOf (encode (.csrw csr imm)) = opcCsrw := opcOf_wordI ..
  rw [decode_csrw_eq ho, reservedClear_of_csrw ho, encode, zOf_wordI, faOf_wordI, immOf_wordI]
  rfl

theorem opcOf_encode_posset (x : Field) (imm : PosEntry) : opcOf (encode (.posset x imm)) = opcPosset := opcOf_wordI ..

/-- POSSET's immediate, as wide as IMM, keeps its value. -/
theorem toNat_immOf_posset (x : Field) (imm : PosEntry) : (immOf (encode (.posset x imm))).toNat = imm.toNat := by
  rw [encode, immOf_wordI, BitVec.toNat_setWidth]
  omega

theorem reservedClear_encode_posset (p : Params) (x : Field) (imm : PosEntry) :
    reservedClear p (encode (.posset x imm)) = decide (imm.toNat < 2 ^ p.posW) := by
  rw [reservedClear_of_posset (opcOf_encode_posset ..), toNat_immOf_posset, encode, zOf_wordI]
  exact Bool.true_and _

/-- A POSSET whose immediate has no bit at POS_W or above decodes from its encoding. -/
theorem decode_encode_posset {p : Params} (x : Field) {imm : PosEntry} (h : imm.toNat < 2 ^ p.posW) :
    decode p (encode (.posset x imm)) = .ok (.posset x imm) := by
  have himm : (immOf (encode (.posset x imm))).setWidth 17 = imm :=
    BitVec.eq_of_toNat_eq (by rw [BitVec.toNat_setWidth, toNat_immOf_posset]; omega)
  rw [decode_posset_eq (opcOf_encode_posset ..), reservedClear_encode_posset, himm, toNat_immOf_posset, encode,
    faOf_wordI, decide_eq_true h, decide_eq_true imm.isLt]
  rfl

/-- Settles O1: one argument for the rows of the table, and one for each command of format I. -/
theorem decodeEncodeRoundTrip : Obligations.DecodeEncodeRoundTrip := by
  intro p i _ hw
  rcases instr_formats i with ⟨csr, imm, rfl⟩ | ⟨x, imm, rfl⟩ | hi
  · exact decode_encode_csrw p csr imm
  · exact decode_encode_posset x hw
  · exact decode_encode_formatR hi

/-- Settles O5: the words, evaluated. -/
theorem exampleWordsDecode : Obligations.ExampleWordsDecode := by
  refine ⟨?_, ?_, ?_, ?_, ?_, ?_⟩
  all_goals decide

/-! ### Illegal opcodes -/

/-- A legal opcode is never rejected as an illegal one (30_encoding.md R158). -/
theorem decode_ne_illegalOpcode {p : Params} {w : Command} (h : illegalOpc (opcOf w).toNat = false) (opc : BitVec 8) :
    decode p w ≠ .error (.illegalOpcode opc) := by
  rcases (legalOpc_iff _).1 h with ho | ho | ⟨r, hr, ho⟩
  · rw [decode_csrw_eq ho]
    split <;> simp
  · rw [decode_posset_eq ho]
    split <;> simp
  · rw [decode_row_eq hr ho]
    split <;> simp

/-- While BUSY the sequencer's turn takes the head of the FIFO (45_control.md R400). -/
theorem sequencerTurn_of_head {s : State} {w : Command} {rest : List Command} (hen : s.ctrlEn = true)
    (herr : s.status.err = false) (hf : s.fifo = w :: rest) :
    sequencerTurn s = runWord { s with fifo := rest } w := by
  have hbusy : s.busy = true := by simp [State.busy, hen, herr, hf]
  rw [sequencerTurn, if_pos hbusy, hf]

/-- The sequencer has its turn when its event is next, and when no event is to come (log entries 6 and 7). -/
theorem step_of_sequencer_next {s : State} {es : List Event}
    (h : s.agenda = .sequencer :: es ∨ s.agenda = [] ∧ es = []) :
    step s = sequencerTurn { s with agenda := es } := by
  rcases h with h | ⟨h, rfl⟩
  · rw [step_of_agenda_cons h, runEvent]
  · rw [step_of_agenda_nil h, ← h]

/-- The two halves of the faulting word, as the error record holds them (60_exceptions.md R505). -/
theorem takeFault_eq (s : State) (c : Cause) (info : Word32) (w : Command) :
    s.takeFault c info w =
      { s with
        errRec :=
          { cause := c.code, info := info, cmdLo := w.extractLsb' 0 32, cmdHi := w.extractLsb' 32 32,
            index := s.cmdCount }
        status := { s.status with err := true } } := by
  have hlo : w.extractLsb' 0 32 = w.setWidth 32 := by ext; simp
  rw [hlo]
  rfl

/-- Settles O3: the step takes the head of the FIFO, which decodes to no command (`decode_of_illegalOpc`). -/
theorem illegalOpcodesRaise : Obligations.IllegalOpcodesRaise := by
  refine ⟨rfl, fun s w rest es hen herr hf ha ho => ?_, fun p w ho => decode_ne_illegalOpcode ho _⟩
  rw [step_of_sequencer_next ha, sequencerTurn_of_head (s := { s with agenda := es }) hen herr hf, runWord,
    decode_of_illegalOpc ho]
  exact congrArg _ (takeFault_eq ..)

/-! ### Reserved fields -/

/-- A word of format R whose fields all pass has its reserved fields 0. -/
theorem reservedClear_of_checks {p : Params} {w : Command} {r : RowR} (hr : r ∈ rowsR) (ho : r.opc = opcOf w)
    (h : ∀ c ∈ fieldChecks p w, c.2 = true) : reservedClear p w = true := by
  rw [fieldChecks_of_row hr ho] at h
  simp only [List.forall_mem_cons] at h
  obtain ⟨ha, hb, hc, hd, -⟩ := h
  rw [reservedClear_of_row hr ho, clear_of_legal ha, clear_of_legal hb, clear_of_legal hc, hd]
  rfl

/-- A word of a legal opcode with a nonzero reserved field is rejected with its first failing field
(30_encoding.md R155, R160 step 2). -/
theorem decode_of_not_reservedClear {p : Params} {w : Command} (hl : illegalOpc (opcOf w).toNat = false)
    (h : reservedClear p w = false) :
    ∃ f, firstBad (fieldChecks p w) = some f ∧ decode p w = .error (.badOperand f) := by
  have formatI (ho : opcOf w = opcCsrw ∨ opcOf w = opcPosset) : firstBad (fieldChecks p w) = some .zImm := by
    rw [fieldChecks_of_formatI ho, h]
    rfl
  rcases (legalOpc_iff _).1 hl with ho | ho | ⟨r, hr, ho⟩
  · exact ⟨.zImm, formatI (.inl ho), by rw [decode_csrw_eq ho, h]; rfl⟩
  · exact ⟨.zImm, formatI (.inr ho), by rw [decode_posset_eq ho, h]; rfl⟩
  · cases hb : firstBad (fieldChecks p w) with
    | none =>
      rw [reservedClear_of_checks hr ho (firstBad_eq_none.1 hb)] at h
      cases h
    | some f => exact ⟨f, rfl, by rw [decode_row_eq hr ho, h, hb]; rfl⟩

/-- With its reserved fields 0 a word of a legal opcode is a command, whatever its operands hold (log entry 18). -/
theorem decode_of_reservedClear {p : Params} {w : Command} (hp : p.Legal) (hl : illegalOpc (opcOf w).toNat = false)
    (h : reservedClear p w = true) : ∃ i, decode p w = .ok i := by
  rcases (legalOpc_iff _).1 hl with ho | ho | ⟨r, hr, ho⟩
  · exact ⟨_, by rw [decode_csrw_eq ho, if_pos h]⟩
  · have himm : (immOf w).toNat < 2 ^ 17 := by
      have hw : 2 ^ p.posW ≤ 2 ^ 17 := Nat.pow_le_pow_right (by decide) (Nat.succ_le_succ hp.2.2.1)
      rw [reservedClear_of_posset ho, Bool.and_eq_true, decide_eq_true_iff] at h
      exact h.2.trans_le hw
    exact ⟨_, by rw [decode_posset_eq ho, h, decide_eq_true himm]; rfl⟩
  · exact ⟨_, by rw [decode_row_eq hr ho, if_pos h]⟩

/-- A row whose fields are all reserved has one word; of any other the first nonzero field is reported. -/
theorem decode_all_reserved {p : Params} {w : Command} {r : RowR} (hr : r ∈ rowsR) (ho : r.opc = opcOf w)
    (ha : r.fa = .reserved) (hb : r.fb = .reserved) (hc : r.fc = .reserved) :
    decode p w =
      if faOf w ≠ 0 then .error (.badOperand .fa)
      else if fbOf w ≠ 0 then .error (.badOperand .fb)
      else if fcOf w ≠ 0 then .error (.badOperand .fc)
      else if fdOf w ≠ 0 then .error (.badOperand .fd)
      else .ok (r.build (faOf w) (fbOf w) (fcOf w)) := by
  rw [decode_row_eq hr ho, reservedClear_of_row hr ho, fieldChecks_of_row hr ho, ha, hb, hc]
  simp only [FieldKind.clear, FieldKind.legal]
  by_cases h1 : faOf w = 0#16
  case neg => simp [h1, firstBad]
  by_cases h2 : fbOf w = 0#16
  case neg => simp [h1, h2, firstBad]
  by_cases h3 : fcOf w = 0#16
  case neg => simp [h1, h2, h3, firstBad]
  by_cases h4 : fdOf w = 0#8
  · simp [h1, h2, h3, h4]
  · simp [h1, h2, h3, h4, firstBad]

/-- Every legal opcode but the two of format I has its field kinds in R164. -/
theorem operandKinds_isSome {k : Nat} (hk : k < 256) (hl : illegalOpc k = false) (h2 : k ≠ 0x02) (h3 : k ≠ 0x03) :
    (operandKinds k).isSome = true := by
  obtain ⟨o, rfl⟩ : ∃ o : BitVec 8, o.toNat = k := ⟨BitVec.ofNat 8 k, by simp [Nat.mod_eq_of_lt hk]⟩
  rcases (legalOpc_iff o).1 hl with rfl | rfl | ⟨r, hr, rfl⟩
  · exact absurd rfl h2
  · exact absurd rfl h3
  · rw [operandKinds_row r hr]
    rfl

/-- Settles O4: `decode_of_not_reservedClear`, `decode_of_reservedClear` and, for NOP and SYNC,
`decode_all_reserved`. -/
theorem reservedFieldsMustBeZero : Obligations.ReservedFieldsMustBeZero := by
  refine ⟨fun p w before after f hl hc hf hb => ?_, fun p w hl hc => ?_, fun p w hp hl hc =>
    decode_of_reservedClear hp hl hc, fun k => operandKinds_isSome, fun p w => ⟨?_, ?_⟩⟩
  · obtain ⟨g, hg, hd⟩ := decode_of_not_reservedClear hl hc
    rw [firstBad_eq_some.2 ⟨before, after, hf, hb⟩] at hg
    cases hg
    exact hd
  · obtain ⟨f, hf, -⟩ := decode_of_not_reservedClear hl hc
    obtain ⟨before, after, h⟩ := firstBad_eq_some.1 hf
    exact ⟨before, f, after, h⟩
  · rintro (ho | ho)
    · rw [show (if opcOf w = 0x00#8 then Instr.nop else .sync) = .nop from if_pos ho]
      exact decode_all_reserved (r := rowsR[0]) (List.getElem_mem _) ho.symm rfl rfl rfl
    · rw [show (if opcOf w = 0x00#8 then Instr.nop else .sync) = .sync from if_neg (by rw [ho]; decide)]
      exact decode_all_reserved (r := rowsR[1]) (List.getElem_mem _) ho.symm rfl rfl rfl
  · intro ho hz
    rcases ho with ho | ho
    · rw [decode_csrw_eq ho, reservedClear_of_csrw ho, beq_eq_false_iff_ne.2 hz]
      rfl
    · rw [decode_posset_eq ho, reservedClear_of_posset ho, beq_eq_false_iff_ne.2 hz]
      rfl

/-! ### Illegal operands -/

/-- The operand checks of a command's rule (30_encoding.md R160 step 2): those of `fieldChecks` that can fail on an
encoded command. -/
def Instr.operandChecks (p : Params) : Instr → List (FieldId × Bool)
  | .posset _ imm => [(.zImm, decide (imm.toNat < 2 ^ p.posW))]
  | .bcopy _ _ count => [(.fc, FieldKind.positive.legal p count)]
  | .cot2p pd _ stride => [(.fa, FieldKind.preg.legal p pd), (.fc, FieldKind.positive.legal p stride)]
  | .p2cot _ ps stride => [(.fb, FieldKind.preg.legal p ps), (.fc, FieldKind.positive.legal p stride)]
  | .pinv pd ps => [(.fa, FieldKind.preg.legal p pd), (.fb, FieldKind.preg.legal p ps)]
  | .paddx pd ps => [(.fa, FieldKind.preg.legal p pd), (.fb, FieldKind.preg.legal p ps)]
  | .psqrt pd ps => [(.fa, FieldKind.preg.legal p pd), (.fb, FieldKind.preg.legal p ps)]
  | .pfrac pa pb ps =>
    [(.fa, FieldKind.preg.legal p pa), (.fb, FieldKind.preg.legal p pb), (.fc, FieldKind.preg.legal p ps)]
  | .ploc pd pa pb =>
    [(.fa, FieldKind.preg.legal p pd), (.fb, FieldKind.preg.legal p pa), (.fc, FieldKind.preg.legal p pb)]
  | .roots _ ps => [(.fb, FieldKind.preg.legal p ps)]
  | .pclr pd => [(.fa, FieldKind.preg.legal p pd)]
  | .pmov pd ps => [(.fa, FieldKind.preg.legal p pd), (.fb, FieldKind.preg.legal p ps)]
  | .psetc pd k _ => [(.fa, FieldKind.preg.legal p pd), (.fb, FieldKind.slot.legal p k)]
  | .gset ps => [(.fb, FieldKind.preg.legal p ps)]
  | .sqset i ps => [(.fa, FieldKind.sqRow.legal p i), (.fb, FieldKind.preg.legal p ps)]
  | _ => []

/-- The field checks of an encoded command of format R are those of its operands. -/
theorem fieldChecks_wordR (p : Params) {opc : BitVec 8} {ka kb kc : FieldKind}
    (h : operandKinds opc.toNat = some (ka, kb, kc)) (a b c : Field) :
    fieldChecks p (wordR opc a b c) =
      [(.fa, ka.legal p a), (.fb, kb.legal p b), (.fc, kc.legal p c), (.fd, true)] := by
  rw [fieldChecks, opcOf_wordR, h, faOf_wordR, fbOf_wordR, fcOf_wordR, fdOf_wordR]
  rfl

/-- The first illegal field of an encoded command is the first its rule tests: the others are free, or 0. -/
theorem firstBad_fieldChecks_encode (p : Params) (i : Instr) :
    firstBad (fieldChecks p (encode i)) = firstBad (Instr.operandChecks p i) := by
  cases i with
  | csrw csr imm =>
    have ho : opcOf (encode (.csrw csr imm)) = opcCsrw := opcOf_wordI ..
    rw [fieldChecks_of_formatI (.inl ho), reservedClear_of_csrw ho, encode, zOf_wordI]
    rfl
  | posset x imm =>
    rw [fieldChecks_of_formatI (.inr (opcOf_encode_posset ..)), reservedClear_encode_posset]
    rfl
  | _ => exact (congrArg firstBad (fieldChecks_wordR p rfl ..)).trans rfl

/-- A command is well formed when its operand checks pass, PFRAC's two destinations being different. -/
theorem wellFormed_iff (p : Params) (i : Instr) :
    i.WellFormed p ↔ (∀ c ∈ Instr.operandChecks p i, c.2 = true) ∧ ¬ ∃ a ps, i = .pfrac a a ps := by
  cases i with
  | pfrac pa pb ps => simp [Instr.operandChecks, legal_preg, and_assoc, eq_comm (a := pa)]
  | _ => simp [Instr.operandChecks, legal_preg, legal_positive, legal_slot, legal_sqRow]

section Rule

variable {s : State} {f : FieldId}

/-- A rule whose operand checks fail ends there. -/
theorem checkOperands_raise {fields : List (FieldId × FieldKind × Field)}
    (h : firstBad (fields.map fun e => (e.1, e.2.1.legal s.params e.2.2)) = some f) (k : Unit → Run State) :
    (checkOperands s fields >>= k) = .error (.raise .badOperand (BitVec.ofNat 32 f.code)) := by
  rw [checkOperands, h, run_error_bind]

/-- EVERY RULE TESTS ITS OPERANDS FIRST, in field order (30_encoding.md R160 step 2). -/
theorem rule_operand_raise {i : Instr} (h : firstBad (Instr.operandChecks s.params i) = some f) :
    ruleOf i s = .error (.raise .badOperand (BitVec.ofNat 32 f.code)) := by
  cases i with
  | posset x imm =>
    cases himm : decide (imm.toNat < 2 ^ s.params.posW) with
    | true => simp [Instr.operandChecks, himm, firstBad] at h
    | false =>
      simp only [Instr.operandChecks, himm, firstBad] at h
      cases h
      rw [ruleOf, rulePosset, himm, require_false, run_error_bind]
  | nop | sync | csrw csr imm | dymul d a b | dyadd d a b | dyreg a | dyinv d a | matvec d mat v | gauss base
  | correct d c e | decode e syn => cases h
  | _ => exact checkOperands_raise (by exact h) _

/-- A command whose first illegal field is `f` faults with it. -/
theorem exec_operand_raise {i : Instr} (h : firstBad (Instr.operandChecks s.params i) = some f) :
    exec i s = .next (s.takeFault .badOperand (BitVec.ofNat 32 f.code) (encode i)) :=
  exec_of_raise (rule_operand_raise h)

/-- PFRAC with two equal legal destinations reports FB (44_decoder.md R344). -/
theorem exec_pfrac_equal {a ps : Field} (ha : isPreg a) (hps : isPreg ps) :
    exec (.pfrac a a ps) s = .next (s.takeFault .badOperand 2 (encode (.pfrac a a ps))) := by
  have hops : ∀ e ∈ [(FieldId.fa, FieldKind.preg, a), (.fb, .preg, a), (.fc, .preg, ps)],
      e.2.1.legal s.params e.2.2 = true := by
    simp [legal_preg, ha, hps]
  refine exec_of_raise ((checkOperands_bind hops _).trans ?_)
  rw [bne_self_eq_false, require_false, run_error_bind]
  rfl

end Rule

/-- A command that is not well formed has a first illegal field, or is PFRAC with equal legal destinations. -/
theorem firstBad_of_not_wellFormed {i : Instr} {p : Params} (h : ¬ i.WellFormed p) :
    (∃ f, firstBad (Instr.operandChecks p i) = some f) ∨
      (∀ c ∈ Instr.operandChecks p i, c.2 = true) ∧ ∃ a ps, i = .pfrac a a ps := by
  cases hb : firstBad (Instr.operandChecks p i) with
  | some f => exact .inl ⟨f, rfl⟩
  | none =>
    have hall := firstBad_eq_none.1 hb
    rw [wellFormed_iff, not_and_not_right] at h
    exact .inr ⟨hall, h hall⟩

/-- Whatever is not legal about a command's operands, it raises BAD_OPERAND. -/
theorem exec_of_not_wellFormed {i : Instr} {s : State} (h : ¬ i.WellFormed s.params) :
    ∃ f : FieldId, exec i s = .next (s.takeFault .badOperand (BitVec.ofNat 32 f.code) (encode i)) := by
  rcases firstBad_of_not_wellFormed h with ⟨f, hf⟩ | ⟨hall, a, ps, rfl⟩
  · exact ⟨f, exec_operand_raise hf⟩
  · simp only [Instr.operandChecks, List.forall_mem_cons] at hall
    obtain ⟨ha, -, hps, -⟩ := hall
    exact ⟨.fb, exec_pfrac_equal (legal_preg.1 ha) (legal_preg.1 hps)⟩

/-- Settles O49: `exec_operand_raise`, with the first failing field of each case. -/
theorem illegalOperandsRaise : Obligations.IllegalOperandsRaise := by
  refine ⟨fun i s before after f hf hb => ?_, fun i p hw => ?_, fun i s hw => exec_of_not_wellFormed hw,
    fun s a b c ha => ?_, fun s a b c ha _ hc hab => ?_, fun s a b => exec_operand_raise (f := .fc) rfl⟩
  · refine exec_operand_raise ?_
    rw [← firstBad_fieldChecks_encode]
    exact firstBad_eq_some.2 ⟨before, after, hf, hb⟩
  · refine (firstBad_of_not_wellFormed hw).imp (fun ⟨f, hf⟩ => ?_) And.right
    rw [← firstBad_fieldChecks_encode] at hf
    obtain ⟨before, after, h⟩ := firstBad_eq_some.1 hf
    exact ⟨before, f, after, h⟩
  · have hpreg : FieldKind.preg.legal s.params a = false := decide_eq_false (Nat.not_lt.2 ha)
    have first (i : Instr) (rest : List (FieldId × Bool))
        (hi : Instr.operandChecks s.params i = (.fa, FieldKind.preg.legal s.params a) :: rest) :
        exec i s = .next (s.takeFault .badOperand 1 (encode i)) :=
      exec_operand_raise (f := .fa) (by rw [hi, hpreg]; rfl)
    exact ⟨first _ _ rfl, first _ _ rfl, first _ _ rfl, first _ _ rfl⟩
  · subst hab
    exact exec_pfrac_equal ha hc

end Sys2Proof.Machine

/-! # The dyadic block commands

What a block read says of the port's lanes (20_memory.md R108, R126), and the commands DYMUL, DYADD, DYREG, DYINV and
BCOPY (40_dyadic.md R200 to R204): each rule's result when its checks pass and its sources are written, and the next
state that result gives. -/

namespace Sys2Proof.Machine

/-! ### The lanes of a block -/

/-- A word holds the first n lanes when each of them has been written. -/
theorem holds_firstLanes (w : BWord) {n : Nat} (hn : n ≤ 8) :
    w.holds (BitVec.ofNat 8 (2 ^ n - 1)) = true ↔ ∀ l, l < n → w.lanes.getLsbD l = true := by
  have hbit (l : Nat) : (BitVec.ofNat 8 (2 ^ n - 1)).getLsbD l = decide (l < n) := by
    rw [BitVec.getLsbD_ofNat, Nat.testBit_two_pow_sub_one, ← Bool.decide_and]
    exact decide_eq_decide.2 (by omega)
  rw [BWord.holds, beq_iff_eq]
  constructor
  · intro h l hl
    have hl' := congrArg (fun v => BitVec.getLsbD v l) h
    simpa [hbit, hl] using hl'
  · intro h
    refine BitVec.eq_of_getLsbD_eq fun l _ => ?_
    rw [BitVec.getLsbD_and, hbit]
    by_cases hl : l < n
    · rw [h l hl, Bool.true_and]
    · rw [decide_eq_false hl, Bool.and_false]

theorem isSome_cellRead_lane {s : State} {a : Nat} {w : BWord} (hget : cellGet s.bmem a = some w) (l : Nat) :
    (s.cellRead (.bmem a l)).isSome = w.lanes.getLsbD l := by
  simp only [State.cellRead, hget]
  cases w.lanes.getLsbD l <;> rfl

/-- The first n lanes of a block are defined exactly when its word has been written in all of them. -/
theorem firstLanes_defined_iff {s : State} {a n : Nat} (h1 : 1 ≤ n) (h8 : n ≤ 8) :
    (∀ l, l < n → (s.cellRead (.bmem a l)).isSome = true) ↔
      ∃ w, cellGet s.bmem a = some w ∧ w.holds (BitVec.ofNat 8 (2 ^ n - 1)) = true := by
  cases hget : cellGet s.bmem a with
  | none =>
    have hnone : s.cellRead (.bmem a 0) = none := by simp only [State.cellRead, hget]
    exact ⟨fun h => absurd (h 0 h1) (by simp [hnone]), by simp⟩
  | some w => simp [isSome_cellRead_lane hget, holds_firstLanes w h8]

/-- Each bit of a written lane is the bit the host reads there (20_memory.md R108). -/
theorem exists_cellRead_bit {s : State} {a j : Nat} {w : BWord} (hget : cellGet s.bmem a = some w)
    (hlane : w.lanes.getLsbD (j / 32) = true) :
    ∃ x, s.cellRead (.bmem a (j / 32)) = some x ∧ w.bits.getLsbD j = x.getLsbD (j % 32) := by
  refine ⟨w.bits.extractLsb' (32 * (j / 32)) 32, by simp only [State.cellRead, hget, hlane, if_true], ?_⟩
  rw [BitVec.getLsbD_extractLsb', decide_eq_true (Nat.mod_lt _ (by omega)), Bool.true_and, Nat.div_add_mod]

/-- Bit j of a block of 2^e bits stands in one of the block's lanes. -/
theorem div_lt_blockLanes {e j : Nat} (hj : j < 2 ^ e) : j / 32 < max 1 (2 ^ e / 32) := by
  rcases Nat.le_total e 5 with he | he
  · have : 2 ^ e ≤ 2 ^ 5 := Nat.pow_le_pow_right (by omega) he
    omega
  · obtain ⟨k, rfl⟩ := Nat.exists_eq_add_of_le he
    rw [Nat.pow_add] at hj ⊢
    omega

theorem State.Cfgv.logT_le_eight {s : State} (hp : s.params.Legal) (hc : s.Cfgv) : s.logT ≤ 8 :=
  Nat.le_trans hc.logT_le hp.1

theorem State.Cfgv.blockLanes_le {s : State} (hc : s.Cfgv) : max 1 (s.t / 32) ≤ s.params.lanes := by
  have ht : s.t ≤ s.params.tb := Nat.pow_le_pow_right (by omega) hc.logT_le
  have := Nat.div_le_div_right (c := 32) ht
  rw [Params.lanes]
  omega

section Lanes

variable {s : State} (hp : s.params.Legal) (hc : s.Cfgv)
include hp hc

theorem blockLanes_le_eight : max 1 (s.t / 32) ≤ 8 :=
  Nat.le_trans hc.blockLanes_le (lanes_bounds hp).2.1

/-- A block is defined exactly when the lanes of its t bits are (20_memory.md R126; log entry 3). -/
theorem isSome_block_iff (a : Nat) :
    (s.block a).isSome = true ↔ ∀ l, l < max 1 (s.t / 32) → (s.cellRead (.bmem a l)).isSome = true := by
  rw [firstLanes_defined_iff (Nat.le_max_left ..) (blockLanes_le_eight hp hc), Option.isSome_iff_exists]
  simp only [block_eq_some, lanesUsed]
  exact ⟨fun ⟨_, w, hget, hw, _⟩ => ⟨w, hget, hw⟩, fun ⟨w, hget, hw⟩ => ⟨_, w, hget, hw, rfl⟩⟩

/-- The bits of a block are those its lanes read. -/
theorem exists_cellRead_of_block {a : Nat} {v : Block} (hv : s.block a = some v) {j : Nat} (hj : j < s.t) :
    ∃ w, s.cellRead (.bmem a (j / 32)) = some w ∧ v.getLsbD j = w.getLsbD (j % 32) := by
  obtain ⟨w, hget, hw, rfl⟩ := block_eq_some.1 hv
  rw [getLsbD_lowBits, decide_eq_true hj, Bool.true_and]
  exact exists_cellRead_bit hget
    ((holds_firstLanes w (blockLanes_le_eight hp hc)).1 hw _ (div_lt_blockLanes hj))

/-- The block of a written word is its low t bits (00_scope.md R12). -/
theorem block_of_blockWord {a : Nat} {w : Block} (hw : s.blockWord a = some w) :
    s.block a = some (lowBits s.t w) := by
  obtain ⟨word, hget, hall, rfl⟩ := blockWord_eq_some.1 hw
  refine block_eq_some.2 ⟨word, hget, (holds_firstLanes word (blockLanes_le_eight hp hc)).2 fun l hl => ?_, rfl⟩
  exact (holds_firstLanes word (lanes_bounds hp).2.1).1 hall l (Nat.lt_of_lt_of_le hl hc.blockLanes_le)

end Lanes

/-- A whole word is defined exactly when all its lanes are (log entry 3). -/
theorem isSome_blockWord_iff {s : State} (hp : s.params.Legal) (a : Nat) :
    (s.blockWord a).isSome = true ↔ ∀ l, l < s.params.lanes → (s.cellRead (.bmem a l)).isSome = true := by
  obtain ⟨h1, h8, -⟩ := lanes_bounds hp
  rw [firstLanes_defined_iff h1 h8, Option.isSome_iff_exists]
  simp only [blockWord_eq_some, allLanes]
  exact ⟨fun ⟨_, w, hget, hw, _⟩ => ⟨w, hget, hw⟩, fun ⟨w, hget, hw⟩ => ⟨_, w, hget, hw, rfl⟩⟩

/-- The bits of a whole word are those its lanes read. -/
theorem exists_cellRead_of_blockWord {s : State} (hp : s.params.Legal) {a : Nat} {v : Block}
    (hv : s.blockWord a = some v) {j : Nat} (hj : j < s.params.tb) :
    ∃ w, s.cellRead (.bmem a (j / 32)) = some w ∧ v.getLsbD j = w.getLsbD (j % 32) := by
  obtain ⟨-, h8, -⟩ := lanes_bounds hp
  obtain ⟨w, hget, hall, rfl⟩ := blockWord_eq_some.1 hv
  exact exists_cellRead_bit hget ((holds_firstLanes w h8).1 hall _ (div_lt_blockLanes hj))

/-! ### Checks that pass and reads of written blocks -/

theorem checkRegion_bind {s : State} {f : FieldId} {last : Nat} (h : last < s.params.bmemLen)
    (k : Unit → Run State) : (checkRegion s f last >>= k) = k () := by
  rw [checkRegion_eq_ok.2 h, run_ok_bind]

theorem readBlock_bind {s : State} {a : Nat} {x : Block} (h : s.block a = some x) (k : Block → Run State) :
    (readBlock s a >>= k) = k x := by
  rw [readBlock_eq_ok.2 h, run_ok_bind]

/-! ### The products and sums of two blocks -/

/-- A command whose rule ends by writing the t-bit block v, in the state u, retires with v as block d's whole word and
every other word of u. -/
theorem exec_of_putBlock {i : Instr} {s u : State} {d : Nat} {v : Block} (hr : ruleOf i s = .ok (u.putBlock d v))
    (hv : lowBits u.t v = v) :
    ∃ t, exec i s = .next t ∧ t = { u.retire with bmem := t.bmem } ∧ t.blockWord d = some v ∧
      ∀ c, c ≠ d → cellGet t.bmem c = cellGet u.bmem c :=
  ⟨(u.putBlock d v).retire, exec_of_rule hr, rfl, (blockWord_putBlock u d v).trans (congrArg some hv),
    fun c hc => cellGet_putBlock_of_ne u d v c hc⟩

section TwoBlocks

variable {s : State} {d a b : Field} {x y : Block} (hc : s.Cfgv) (hd : d.toNat < s.params.bmemLen)
  (ha : a.toNat < s.params.bmemLen) (hb : b.toNat < s.params.bmemLen) (hx : s.block a.toNat = some x)
  (hy : s.block b.toNat = some y)
include hc hd ha hb hx hy

theorem ruleDymul_of_blocks : ruleDymul d a b s = .ok (s.putBlock d.toNat (dymul s.t x y)) := by
  rw [ruleDymul, checkCfgv_bind hc, checkRegion_bind hd, checkRegion_bind ha, checkRegion_bind hb, readBlock_bind hx,
    readBlock_bind hy, run_pure]

theorem ruleDyadd_of_blocks : ruleDyadd d a b s = .ok (s.putBlock d.toNat (x ^^^ y)) := by
  rw [ruleDyadd, checkCfgv_bind hc, checkRegion_bind hd, checkRegion_bind ha, checkRegion_bind hb, readBlock_bind hx,
    readBlock_bind hy, run_pure]

end TwoBlocks

/-- The sum of two t-bit blocks is one (40_dyadic.md R201: zeros above bit t − 1). -/
theorem lowBits_xor_blocks {s : State} {a b : Nat} {x y : Block} (hx : s.block a = some x) (hy : s.block b = some y) :
    lowBits s.t (x ^^^ y) = x ^^^ y := by
  rw [lowBits_xor, lowBits_of_block hx, lowBits_of_block hy]

/-- Settles O21: the lanes of a block and of a word, and `exec_of_putBlock` for the two rules' results. -/
theorem dymulAndDyaddWriteTheBlock : Obligations.DymulAndDyaddWriteTheBlock := by
  refine ⟨fun s a hp hc => ⟨isSome_block_iff hp hc a, fun v hv => ⟨(lowBits_of_block hv).symm, fun j hj => ?_⟩,
    isSome_blockWord_iff hp a, fun v hv j hj => exists_cellRead_of_blockWord hp hv hj⟩,
    fun s a w hp hc hw => block_of_blockWord hp hc hw, fun s d a b x y hc hd ha hb hx hy => ⟨?_, ?_⟩⟩
  · exact exists_cellRead_of_block hp hc hv hj
  · exact exec_of_putBlock (ruleDymul_of_blocks hc hd ha hb hx hy) (lowBits_bitsOf (Nat.le_refl s.t) _)
  · exact exec_of_putBlock (ruleDyadd_of_blocks hc hd ha hb hx hy) (lowBits_xor_blocks hx hy)

/-! ### The parity test -/

theorem ruleDyreg_of_block {s : State} {a : Field} {x : Block} (hc : s.Cfgv) (ha : a.toNat < s.params.bmemLen)
    (hx : s.block a.toNat = some x) : ruleDyreg a s = .ok (s.setOutcome (parity s.t x)) := by
  rw [ruleDyreg, checkCfgv_bind hc, checkRegion_bind ha, readBlock_bind hx, run_pure]

section OneBlock

variable {s : State} {d a : Field} {x : Block} (hc : s.Cfgv) (hd : d.toNat < s.params.bmemLen)
  (ha : a.toNat < s.params.bmemLen) (hx : s.block a.toNat = some x)
include hc hd ha hx

/-- DYINV of a regular block writes the block itself. -/
theorem ruleDyinv_of_regular (hr : parity s.t x = true) :
    ruleDyinv d a s = .ok ((s.setOutcome true).putBlock d.toNat x) := by
  rw [ruleDyinv, checkCfgv_bind hc, checkRegion_bind hd, checkRegion_bind ha, readBlock_bind hx, if_pos hr, run_pure]

/-- DYINV of a singular block writes FLAGS alone. -/
theorem ruleDyinv_of_singular (hr : parity s.t x = false) : ruleDyinv d a s = .ok (s.setOutcome false) := by
  rw [ruleDyinv, checkCfgv_bind hc, checkRegion_bind hd, checkRegion_bind ha, readBlock_bind hx,
    if_neg (Bool.eq_false_iff.1 hr), run_pure]

end OneBlock

/-- Settles O22: the rules' results for both parities; a regular block squares to e0 by `dymul_self`. -/
theorem dyregAndDyinvTestTheParity : Obligations.DyregAndDyinvTestTheParity := by
  refine ⟨fun s a x hc ha hx => exec_of_rule (i := .dyreg a) (ruleDyreg_of_block hc ha hx),
    fun s d a x hp hc hd ha hx => ⟨fun hr => ?_, fun hr =>
      exec_of_rule (i := .dyinv d a) (ruleDyinv_of_singular hc hd ha hx hr)⟩⟩
  have hsquare : dymul s.t x x = 1 := (dymul_self (hc.logT_le_eight hp) x).trans (if_pos hr)
  obtain ⟨t, hexec, hframe, hword, hrest⟩ :=
    exec_of_putBlock (i := .dyinv d a) (ruleDyinv_of_regular hc hd ha hx hr) (lowBits_of_block hx)
  exact ⟨t, hexec, hframe, hword, hsquare, hrest⟩

/-! ### The block copy -/

/-- BCOPY reads every source word before it writes. -/
theorem ruleBcopy_of_words {s : State} {d src count : Field} {f : Nat → Block} (hcount : 1 ≤ count.toNat)
    (hd : d.toNat + count.toNat - 1 < s.params.bmemLen) (hsrc : src.toNat + count.toNat - 1 < s.params.bmemLen)
    (hf : ∀ i, i < count.toNat → s.blockWord (src.toNat + i) = some (f i)) :
    ruleBcopy d src count s = .ok (s.putWords d.toNat (tabulate count.toNat f)) := by
  have hops : ∀ e ∈ [(FieldId.fc, FieldKind.positive, count)], e.2.1.legal s.params e.2.2 = true := by
    simpa [legal_positive] using hcount
  rw [ruleBcopy, checkOperands_bind hops, checkRegion_bind hd, checkRegion_bind hsrc,
    collect_of_ok fun i hi => readCell_eq_ok.2 (hf i hi), run_ok_bind, run_pure]

/-- Settles O23: the words read before the write are the words written. -/
theorem bcopyMovesWholeWords : Obligations.BcopyMovesWholeWords := by
  intro s d src count f hcount hd hsrc hf
  refine ⟨_, exec_of_rule (ruleBcopy_of_words hcount hd hsrc hf), rfl, fun i hi => ?_, fun c hc => ?_⟩
  · have hword := blockWord_putWords s d.toNat (tabulate count.toNat f) i (by simpa using hi)
    rwa [getElem_tabulate] at hword
  · exact cellGet_putWords_of_not s d.toNat _ c (by simpa using hc)

end Sys2Proof.Machine

/-! # Block matrices and their row operations

The entries of a block matrix after each row operation of the elimination (41_eliminator.md R251), and the span of its
rows in a representation of the blocks. -/

namespace Sys2Proof.Machine

/-! ### Products and sums of blocks, the zero block spelled as the model spells it -/

theorem block_xor_self (a : Block) : a ^^^ a = 0 := BitVec.xor_self

theorem block_xor_zero (a : Block) : a ^^^ 0 = a := BitVec.xor_zero

theorem dymul_zero (t : Nat) (a : Block) : dymul t a 0 = 0 := by
  refine BitVec.eq_of_getLsbD_eq fun k _ => ?_
  rw [dymul, getLsbD_bitsOf]
  simp

/-- The product with e0 on the right. -/
theorem dymul_one {e : Nat} (he : e ≤ 8) {b : Block} (hb : lowBits (2 ^ e) b = b) : dymul (2 ^ e) b 1 = b :=
  (dymul_comm he b 1).trans (one_dymul he hb)

theorem lowBits_dymul (t : Nat) (a b : Block) : lowBits t (dymul t a b) = dymul t a b :=
  lowBits_bitsOf (Nat.le_refl t) _

theorem parity_xor (t : Nat) (a b : Block) : parity t (a ^^^ b) = (parity t a ^^ parity t b) := by
  rw [parity, parity, parity, ← xorSum_xor]
  exact xorSum_congr fun i _ => BitVec.getLsbD_xor

theorem parity_one (e : Nat) : parity (2 ^ e) 1 = true := by
  rw [parity, xorSum_single (Nat.two_pow_pos e)]
  · simp
  · intro i _ hi
    simp [hi]

/-! ### Entries of rows -/

theorem getD_rowScale (t : Nat) (f : Block) (x : BlockRow) (k : Nat) :
    (rowScale t f x).getD k 0 = dymul t f (x.getD k 0) := by
  rw [rowScale, ← dymul_zero t f, List.getD_map, dymul_zero]

theorem getD_rowXor {x y : BlockRow} (h : x.length = y.length) (k : Nat) :
    (rowXor x y).getD k 0 = x.getD k 0 ^^^ y.getD k 0 := by
  simp only [rowXor, List.getD_eq_getElem?_getD, List.getElem?_zipWith]
  by_cases hk : k < x.length
  · have hy : k < y.length := by omega
    simp [hk, hy]
  · have hy : ¬ k < y.length := by omega
    simp [hk, hy]

theorem entryAt_set {w : List BlockRow} {r : Nat} (hr : r < w.length) (row : BlockRow) (j k : Nat) :
    entryAt (w.set r row) j k = if j = r then row.getD k 0 else entryAt w j k := by
  simp only [entryAt, rowAt, List.getD_eq_getElem?_getD, List.getElem?_set]
  by_cases hj : j = r
  · subst hj
    simp [hr]
  · rw [if_neg (Ne.symm hj), if_neg hj]

theorem entryAt_tabulate (m nb : Nat) (a : Nat → Nat → Block) {j k : Nat} (hj : j < m) (hk : k < nb) :
    entryAt (tabulate m fun j => tabulate nb (a j)) j k = a j k := by
  rw [entryAt, rowAt, getD_tabulate, if_pos hj, getD_tabulate, if_pos hk]

theorem isMatrix_tabulate (m nb : Nat) (a : Nat → Nat → Block) :
    IsMatrix m nb (tabulate m fun j => tabulate nb (a j)) :=
  ⟨length_tabulate _ _, fun row hrow => by obtain ⟨j, -, rfl⟩ := mem_tabulate.1 hrow; exact length_tabulate _ _⟩

/-! ### Entries after a row operation -/

/-- The first part of a Gaussian step: row i made regular in the pivot column by the regular row j
(41_eliminator.md R251). -/
def addPivot (i j : Nat) (w : List BlockRow) : List BlockRow :=
  if j = i then w else w.set i (rowXor (rowAt w i) (rowAt w j))

/-- The second part of a Gaussian step: row i times its pivot, which is the pivot's inverse (41_eliminator.md R251). -/
def scalePivot (t i c : Nat) (w : List BlockRow) : List BlockRow :=
  w.set i (rowScale t (entryAt w i c) (rowAt w i))

/-- A Gaussian step is its three parts, with the first regular row of the pivot column. -/
theorem gaussStep_eq_some {t m nb i : Nat} {w w' : List BlockRow} :
    gaussStep t m nb w i = some w' ↔ ∃ j, findPivot t m i (nb - m + i) w = some j ∧
      (List.range' (i + 1) (m - (i + 1))).foldl (eliminateRow t i (nb - m + i))
        (scalePivot t i (nb - m + i) (addPivot i j w)) = w' := by
  simp only [gaussStep]
  cases findPivot t m i (nb - m + i) w with
  | none => simp
  | some j => simp [addPivot, scalePivot]

theorem gaussStep_eq_none {t m nb i : Nat} {w : List BlockRow} :
    gaussStep t m nb w i = none ↔ findPivot t m i (nb - m + i) w = none := by
  simp only [gaussStep]
  cases findPivot t m i (nb - m + i) w <;> simp

section Entries

variable {t m nb i : Nat} {w : List BlockRow} (h : IsMatrix m nb w) (hi : i < m)
include h hi

theorem IsMatrix.addPivot {j : Nat} (hj : j < m) : IsMatrix m nb (addPivot i j w) := by
  unfold Machine.addPivot
  split
  · exact h
  · exact h.set i (by simp [rowXor, h.length_rowAt hi, h.length_rowAt hj])

theorem IsMatrix.scalePivot (t c : Nat) : IsMatrix m nb (scalePivot t i c w) :=
  h.set i (by simpa [rowScale] using h.length_rowAt hi)

theorem entryAt_addPivot {j : Nat} (hj : j < m) (hne : j ≠ i) (r k : Nat) :
    entryAt (addPivot i j w) r k = if r = i then entryAt w i k ^^^ entryAt w j k else entryAt w r k := by
  rw [addPivot, if_neg hne, entryAt_set (by rw [h.1]; exact hi),
    getD_rowXor ((h.length_rowAt hi).trans (h.length_rowAt hj).symm)]
  rfl

theorem entryAt_scalePivot (c r k : Nat) :
    entryAt (scalePivot t i c w) r k = if r = i then dymul t (entryAt w i c) (entryAt w i k) else entryAt w r k := by
  rw [scalePivot, entryAt_set (by rw [h.1]; exact hi), getD_rowScale]
  rfl

theorem entryAt_eliminateRow {r : Nat} (hr : r < m) (c j k : Nat) :
    entryAt (eliminateRow t i c w r) j k =
      if j = r then entryAt w r k ^^^ dymul t (entryAt w r c) (entryAt w i k) else entryAt w j k := by
  have hlen : (rowScale t (entryAt w r c) (rowAt w i)).length = nb := by simpa [rowScale] using h.length_rowAt hi
  rw [eliminateRow, entryAt_set (by rw [h.1]; exact hr), getD_rowXor ((h.length_rowAt hr).trans hlen.symm),
    getD_rowScale]
  rfl

end Entries

/-- Eliminating with row i in each row of a list that does not hold i. -/
theorem entryAt_foldl_eliminateRow {t m nb i c : Nat} {l : List Nat} (hi : i < m) (hl : ∀ r ∈ l, r < m) (hil : i ∉ l)
    (hd : l.Nodup) {w : List BlockRow} (h : IsMatrix m nb w) (j k : Nat) :
    entryAt (l.foldl (eliminateRow t i c) w) j k =
      if j ∈ l then entryAt w j k ^^^ dymul t (entryAt w j c) (entryAt w i k) else entryAt w j k := by
  induction l generalizing w with
  | nil => rfl
  | cons r l ih =>
    obtain ⟨hrl, hd⟩ := List.nodup_cons.1 hd
    obtain ⟨hir, hil⟩ := not_or.1 (mt List.mem_cons.2 hil)
    have hr : r < m := hl r List.mem_cons_self
    have hrow : ∀ j k, entryAt (eliminateRow t i c w r) j k =
        if j = r then entryAt w r k ^^^ dymul t (entryAt w r c) (entryAt w i k) else entryAt w j k :=
      entryAt_eliminateRow h hi hr c
    rw [List.foldl_cons, ih (fun q hq => hl q (List.mem_cons_of_mem _ hq)) hil hd (h.eliminateRow hi hr)]
    simp only [hrow, if_neg hir, List.mem_cons]
    by_cases hj : j = r
    · subst hj
      simp [hrl]
    · simp [hj]

/-! ### Representations of the blocks -/

/-- `φ` takes XOR to the sum and `dymul` to the product of a ring: a representation of the blocks. -/
structure IsRep (t : Nat) {R : Type} [Ring R] (φ : Block → R) : Prop where
  xor : ∀ a b, φ (a ^^^ b) = φ a + φ b
  mul : ∀ a b, φ (dymul t a b) = φ a * φ b
  one : φ 1 = 1

/-- The dyadic matrix of a block (00_scope.md R15), over the ring of Booleans, whose addition is XOR. -/
def dyadicMatrix (e : Nat) (a : Block) : Matrix (Fin (2 ^ e)) (Fin (2 ^ e)) Bool :=
  Matrix.of fun i j => dyadicEntry a i j

/-- The parity of a block (00_scope.md R17) as an element of GF(2). -/
def parityBit (e : Nat) (a : Block) : ZMod 2 := if parity (2 ^ e) a then 1 else 0

theorem isRep_dyadicMatrix {e : Nat} (he : e ≤ 8) : IsRep (2 ^ e) (dyadicMatrix e) where
  xor a b := by
    ext i j
    exact BitVec.getLsbD_xor
  mul a b := by
    ext i j
    rw [Matrix.mul_apply, dyadicMatrix, Matrix.of_apply, dyadicEntry_dymul he a b i.isLt j.isLt, xorSum_eq_sum,
      Finset.sum_range]
    rfl
  one := by
    ext i j
    have hentry : dyadicEntry 1 i j = decide (i = j) := by
      simp [dyadicEntry, Fin.ext_iff]
    rw [dyadicMatrix, Matrix.of_apply, hentry, Matrix.one_apply]
    split
    next hij => exact decide_eq_true hij
    next hij => exact decide_eq_false hij

/-- A block's bits are the first row of its dyadic matrix. -/
theorem dyadicMatrix_inj {e : Nat} {a b : Block} (ha : lowBits (2 ^ e) a = a) (hb : lowBits (2 ^ e) b = b)
    (h : dyadicMatrix e a = dyadicMatrix e b) : a = b := by
  refine BitVec.eq_of_getLsbD_eq fun k _ => ?_
  by_cases hk : k < 2 ^ e
  · have hbit : dyadicEntry a 0 k = dyadicEntry b 0 k := congrFun₂ h ⟨0, Nat.two_pow_pos e⟩ ⟨k, hk⟩
    simpa [dyadicEntry] using hbit
  · rw [high_of_lowBits ha (by omega), high_of_lowBits hb (by omega)]

theorem isRep_parityBit {e : Nat} (he : e ≤ 8) : IsRep (2 ^ e) (parityBit e) where
  xor a b := by
    rw [parityBit, parityBit, parityBit, parity_xor]
    cases parity (2 ^ e) a <;> cases parity (2 ^ e) b <;> decide
  mul a b := by
    rw [parityBit, parityBit, parityBit, parity_dymul he]
    cases parity (2 ^ e) a <;> simp
  one := if_pos (parity_one e)

/-! ### The span of the rows -/

section Span

variable {t m nb i : Nat} {R : Type} [Ring R] {φ : Block → R} {w w' : List BlockRow}

theorem IsRep.zero (hφ : IsRep t φ) : φ 0 = 0 := by
  have h := hφ.xor 0 0
  rw [block_xor_self] at h
  exact left_eq_add.1 h

theorem IsRep.blockSum (hφ : IsRep t φ) (n : Nat) (f : Nat → Block) :
    φ (blockSum n f) = ∑ i ∈ Finset.range n, φ (f i) := by
  induction n with
  | zero => exact hφ.zero
  | succ n ih =>
    have hsucc : Machine.blockSum (n + 1) f = Machine.blockSum n f ^^^ f n := by
      rw [Machine.blockSum, List.range_succ, List.foldl_append]
      rfl
    rw [hsucc, hφ.xor, ih, Finset.sum_range_succ]

/-- Row r of a block matrix, represented. -/
def rowVec (φ : Block → R) (w : List BlockRow) (r : Nat) : Nat → R := fun k => φ (entryAt w r k)

/-- The left span of the m represented rows. -/
def rowSpan (φ : Block → R) (m : Nat) (w : List BlockRow) : Submodule R (Nat → R) :=
  Submodule.span R (Set.range fun r : Fin m => rowVec φ w r)

theorem rowVec_mem {r : Nat} (hr : r < m) : rowVec φ w r ∈ rowSpan φ m w :=
  Submodule.subset_span ⟨⟨r, hr⟩, rfl⟩

theorem rowSpan_le (h : ∀ r, r < m → rowVec φ w r ∈ rowSpan φ m w') : rowSpan φ m w ≤ rowSpan φ m w' :=
  Submodule.span_le.2 fun _ ⟨r, hr⟩ => hr ▸ h r r.isLt

/-- A vector of the span is a combination of the rows. -/
theorem exists_of_mem_rowSpan {v : Nat → R} (h : v ∈ rowSpan φ m w) :
    ∃ c : Fin m → R, ∀ k, v k = ∑ i, c i * φ (entryAt w i k) := by
  obtain ⟨c, rfl⟩ := (Submodule.mem_span_range_iff_exists_fun R).1 h
  exact ⟨c, fun k => by simp [rowVec]⟩

/-- Changing row r alone keeps the span when each of the old and the new row is in the other's span. -/
theorem rowSpan_eq_of_row {r : Nat} (hsame : ∀ j, j < m → j ≠ r → rowVec φ w' j = rowVec φ w j)
    (hnew : rowVec φ w' r ∈ rowSpan φ m w) (hold : rowVec φ w r ∈ rowSpan φ m w') :
    rowSpan φ m w' = rowSpan φ m w := by
  refine le_antisymm (rowSpan_le fun j hj => ?_) (rowSpan_le fun j hj => ?_)
  · by_cases hjr : j = r
    · exact hjr ▸ hnew
    · exact hsame j hj hjr ▸ rowVec_mem hj
  · by_cases hjr : j = r
    · exact hjr ▸ hold
    · exact hsame j hj hjr ▸ rowVec_mem hj

/-- Adding a multiple of another row to row r keeps the span. -/
theorem rowSpan_add_row {r : Nat} {c : R} (hi : i < m) (hr : r < m) (hir : i ≠ r)
    (hsame : ∀ j, j ≠ r → rowVec φ w' j = rowVec φ w j) (hrow : rowVec φ w' r = rowVec φ w r + c • rowVec φ w i) :
    rowSpan φ m w' = rowSpan φ m w := by
  refine rowSpan_eq_of_row (fun j _ => hsame j) ?_ ?_
  · rw [hrow]
    exact add_mem (rowVec_mem hr) (Submodule.smul_mem _ c (rowVec_mem hi))
  · rw [eq_sub_of_add_eq hrow.symm, ← hsame i hir]
    exact sub_mem (rowVec_mem hr) (Submodule.smul_mem _ c (rowVec_mem hi))

variable (hφ : IsRep t φ) (h : IsMatrix m nb w) (hi : i < m)
include hφ h hi

theorem rowSpan_addPivot {j : Nat} (hj : j < m) : rowSpan φ m (addPivot i j w) = rowSpan φ m w := by
  by_cases hji : j = i
  · rw [addPivot, if_pos hji]
  · refine rowSpan_add_row (c := 1) hj hi hji (fun r hr => ?_) ?_
    · funext k
      rw [rowVec, entryAt_addPivot h hi hj hji, if_neg hr, rowVec]
    · funext k
      rw [rowVec, entryAt_addPivot h hi hj hji, if_pos rfl, hφ.xor, one_smul]
      rfl

/-- Scaling by a block that squares to e0 keeps the span. -/
theorem rowSpan_scalePivot {c : Nat} (hsq : dymul t (entryAt w i c) (entryAt w i c) = 1) :
    rowSpan φ m (scalePivot t i c w) = rowSpan φ m w := by
  have hunit : φ (entryAt w i c) * φ (entryAt w i c) = 1 := by rw [← hφ.mul, hsq, hφ.one]
  have hrow : rowVec φ (scalePivot t i c w) i = φ (entryAt w i c) • rowVec φ w i := by
    funext k
    rw [rowVec, entryAt_scalePivot h hi, if_pos rfl, hφ.mul]
    rfl
  refine rowSpan_eq_of_row (r := i) (fun j _ hj => ?_) ?_ ?_
  · funext k
    rw [rowVec, entryAt_scalePivot h hi, if_neg hj, rowVec]
  · rw [hrow]
    exact Submodule.smul_mem _ _ (rowVec_mem hi)
  · rw [← one_smul R (rowVec φ w i), ← hunit, mul_smul, ← hrow]
    exact Submodule.smul_mem _ _ (rowVec_mem hi)

theorem rowSpan_eliminateRow {r : Nat} (hr : r < m) (hir : i ≠ r) (c : Nat) :
    rowSpan φ m (eliminateRow t i c w r) = rowSpan φ m w := by
  refine rowSpan_add_row (c := φ (entryAt w r c)) hi hr hir (fun j hj => ?_) ?_
  · funext k
    rw [rowVec, entryAt_eliminateRow h hi hr, if_neg hj, rowVec]
  · funext k
    rw [rowVec, entryAt_eliminateRow h hi hr, if_pos rfl, hφ.xor, hφ.mul]
    rfl

theorem rowSpan_foldl_eliminateRow {l : List Nat} (hl : ∀ r ∈ l, r < m) (hil : i ∉ l) (c : Nat) :
    rowSpan φ m (l.foldl (eliminateRow t i c) w) = rowSpan φ m w := by
  refine (List.foldlRecOn (motive := fun v => IsMatrix m nb v ∧ rowSpan φ m v = rowSpan φ m w) l _ ⟨h, rfl⟩
    fun v ⟨hv, hs⟩ r hr => ⟨hv.eliminateRow hi (hl r hr), ?_⟩).2
  rw [rowSpan_eliminateRow hφ hv hi (hl r hr) (fun hir => hil (hir ▸ hr)), hs]

end Span

end Sys2Proof.Machine

/-! # The block Gauss-Jordan elimination

The Gaussian phase makes the last m block columns upper triangular with e0 on the diagonal, the Jordan phase clears them
above it, and both keep the span of the rows (41_eliminator.md R251, R252). -/

namespace Sys2Proof.Machine

/-! ### Matrices of t-bit blocks -/

/-- An m × nb matrix whose blocks have no bit at t or above. -/
structure IsBlockMatrix (t m nb : Nat) (w : List BlockRow) : Prop where
  shape : IsMatrix m nb w
  bits : ∀ r k, lowBits t (entryAt w r k) = entryAt w r k

theorem IsBlockMatrix.foldl_eliminateRow {t m nb i c : Nat} {w : List BlockRow} (h : IsBlockMatrix t m nb w)
    (hi : i < m) {l : List Nat} (hl : ∀ r ∈ l, r < m) :
    IsBlockMatrix t m nb (l.foldl (eliminateRow t i c) w) := by
  refine List.foldlRecOn l _ h fun v hv r hr => ⟨hv.shape.eliminateRow hi (hl r hr), fun j k => ?_⟩
  rw [entryAt_eliminateRow hv.shape hi (hl r hr)]
  split
  · rw [lowBits_xor, hv.bits, lowBits_dymul]
  · exact hv.bits j k

theorem IsBlockMatrix.addPivot {t m nb i j : Nat} {w : List BlockRow} (h : IsBlockMatrix t m nb w) (hi : i < m)
    (hj : j < m) : IsBlockMatrix t m nb (addPivot i j w) := by
  by_cases hji : j = i
  · rwa [Machine.addPivot, if_pos hji]
  · refine ⟨h.shape.addPivot hi hj, fun r k => ?_⟩
    rw [entryAt_addPivot h.shape hi hj hji]
    split
    · rw [lowBits_xor, h.bits, h.bits]
    · exact h.bits r k

theorem IsBlockMatrix.scalePivot {t m nb i : Nat} {w : List BlockRow} (h : IsBlockMatrix t m nb w) (hi : i < m)
    (c : Nat) : IsBlockMatrix t m nb (scalePivot t i c w) := by
  refine ⟨h.shape.scalePivot hi t c, fun r k => ?_⟩
  rw [entryAt_scalePivot h.shape hi]
  split
  · exact lowBits_dymul t _ _
  · exact h.bits r k

theorem isBlockMatrix_tabulate {t m nb : Nat} {a : Nat → Nat → Block}
    (ha : ∀ j k, j < m → k < nb → lowBits t (a j k) = a j k) :
    IsBlockMatrix t m nb (tabulate m fun j => tabulate nb (a j)) := by
  refine ⟨isMatrix_tabulate m nb a, fun j k => ?_⟩
  rw [entryAt, rowAt, getD_tabulate]
  by_cases hj : j < m
  · rw [if_pos hj, getD_tabulate]
    by_cases hk : k < nb
    · rw [if_pos hk, ha j k hj hk]
    · rw [if_neg hk]
      exact lowBits_zero t
  · rw [if_neg hj]
    exact lowBits_zero t

/-! ### The Gaussian phase -/

/-- The first i of the last m columns hold e0 on the diagonal and zero blocks below it. -/
structure Triangular (m nb i : Nat) (w : List BlockRow) : Prop where
  diag : ∀ j, j < i → entryAt w j (nb - m + j) = 1
  below : ∀ j r, j < i → j < r → r < m → entryAt w r (nb - m + j) = 0

theorem findPivot_eq_some {t m i c j : Nat} {w : List BlockRow} (h : findPivot t m i c w = some j) :
    parity t (entryAt w j c) = true ∧ i ≤ j ∧ j < m ∧ ∀ r, i ≤ r → r < j → parity t (entryAt w r c) = false := by
  obtain ⟨hj, hmem, hfirst⟩ := List.find?_range'_eq_some.1 h
  obtain ⟨hij, -⟩ := List.mem_range'_1.1 hmem
  exact ⟨hj, hij, findPivot_lt h, fun r hir hrj => by simpa using hfirst r hir hrj⟩

theorem findPivot_eq_none {t m i c : Nat} {w : List BlockRow} (h : findPivot t m i c w = none) {r : Nat} (hir : i ≤ r)
    (hr : r < m) : parity t (entryAt w r c) = false := by
  simpa using List.find?_eq_none.1 h r (List.mem_range'_1.2 (by omega))

/-- With the first regular row added, the pivot is regular: row i was singular there unless it is the first itself. -/
theorem parity_addPivot {t m nb i j c : Nat} {w : List BlockRow} (h : IsMatrix m nb w) (hi : i < m)
    (hj : findPivot t m i c w = some j) : parity t (entryAt (addPivot i j w) i c) = true := by
  obtain ⟨hreg, hij, hjm, hfirst⟩ := findPivot_eq_some hj
  by_cases hji : j = i
  · rw [addPivot, if_pos hji, ← hji, hreg]
  · rw [entryAt_addPivot h hi hjm hji, if_pos rfl, parity_xor, hreg, hfirst i (Nat.le_refl i) (by omega)]
    rfl

/-- The rows a Gaussian step eliminates are those below row i. -/
theorem mem_rowsBelow {m i r : Nat} : r ∈ List.range' (i + 1) (m - (i + 1)) ↔ i < r ∧ r < m := by
  rw [List.mem_range'_1]
  omega

section Step

variable {e m nb i : Nat} {w : List BlockRow}

/-- Adding a row from i on to row i keeps the columns before i. -/
theorem Triangular.addPivot (ht : Triangular m nb i w) (h : IsMatrix m nb w) (hi : i < m) {j : Nat} (hij : i ≤ j)
    (hj : j < m) : Triangular m nb i (addPivot i j w) := by
  by_cases hji : j = i
  · rwa [Machine.addPivot, if_pos hji]
  · refine ⟨fun q hq => ?_, fun q r hq hqr hr => ?_⟩
    · rw [entryAt_addPivot h hi hj hji, if_neg (by omega), ht.diag q hq]
    · rw [entryAt_addPivot h hi hj hji]
      split
      · rw [ht.below q i hq hq hi, ht.below q j hq (by omega) hj, block_xor_self]
      · exact ht.below q r hq hqr hr

theorem Triangular.scalePivot (ht : Triangular m nb i w) (h : IsMatrix m nb w) (hi : i < m) (t c : Nat) :
    Triangular m nb i (scalePivot t i c w) := by
  refine ⟨fun q hq => ?_, fun q r hq hqr hr => ?_⟩
  · rw [entryAt_scalePivot h hi, if_neg (by omega), ht.diag q hq]
  · rw [entryAt_scalePivot h hi]
    split
    · rw [ht.below q i hq hq hi, dymul_zero]
    · exact ht.below q r hq hqr hr

/-- Eliminating below a pivot of e0 makes one more column triangular. -/
theorem Triangular.eliminate (he : e ≤ 8) (ht : Triangular m nb i w) (h : IsBlockMatrix (2 ^ e) m nb w) (hi : i < m)
    (hpivot : entryAt w i (nb - m + i) = 1) :
    Triangular m nb (i + 1)
      ((List.range' (i + 1) (m - (i + 1))).foldl (eliminateRow (2 ^ e) i (nb - m + i)) w) := by
  have hentry := entryAt_foldl_eliminateRow (t := 2 ^ e) (c := nb - m + i) hi
    (fun _ hr => (mem_rowsBelow.1 hr).2) (fun hr => Nat.lt_irrefl i (mem_rowsBelow.1 hr).1) List.nodup_range' h.shape
  refine ⟨fun q hq => ?_, fun q r hq hqr hr => ?_⟩
  · rw [hentry, if_neg fun hr => by have := mem_rowsBelow.1 hr; omega]
    rcases Nat.lt_succ_iff_lt_or_eq.1 hq with hq | rfl
    · exact ht.diag q hq
    · exact hpivot
  · rw [hentry]
    rcases Nat.lt_succ_iff_lt_or_eq.1 hq with hq | rfl
    · rw [ht.below q i hq hq hi, ht.below q r hq hqr hr, dymul_zero, block_xor_self, ite_self]
    · rw [if_pos (mem_rowsBelow.2 ⟨hqr, hr⟩), hpivot, dymul_one he (h.bits r _), block_xor_self]

/-- What a Gaussian step keeps, and the column it adds to the triangle. -/
theorem gaussStep_triangular (he : e ≤ 8) {w' : List BlockRow} (h : IsBlockMatrix (2 ^ e) m nb w)
    (ht : Triangular m nb i w) (hi : i < m) (hs : gaussStep (2 ^ e) m nb w i = some w') :
    IsBlockMatrix (2 ^ e) m nb w' ∧ Triangular m nb (i + 1) w' := by
  obtain ⟨j, hj, rfl⟩ := gaussStep_eq_some.1 hs
  obtain ⟨-, hij, hjm, -⟩ := findPivot_eq_some hj
  have h1 := h.addPivot hi hjm
  have h2 := h1.scalePivot hi (nb - m + i)
  refine ⟨h2.foldl_eliminateRow hi fun _ hr => (mem_rowsBelow.1 hr).2,
    ((ht.addPivot h.shape hi hij hjm).scalePivot h1.shape hi _ _).eliminate he h2 hi ?_⟩
  rw [entryAt_scalePivot h1.shape hi, if_pos rfl, dymul_self he, if_pos (parity_addPivot h.shape hi hj)]

theorem gaussStep_rowSpan (he : e ≤ 8) {R : Type} [Ring R] {φ : Block → R} (hφ : IsRep (2 ^ e) φ) {w' : List BlockRow}
    (h : IsMatrix m nb w) (hi : i < m) (hs : gaussStep (2 ^ e) m nb w i = some w') :
    rowSpan φ m w' = rowSpan φ m w := by
  obtain ⟨j, hj, rfl⟩ := gaussStep_eq_some.1 hs
  obtain ⟨-, hij, hjm, -⟩ := findPivot_eq_some hj
  have h1 := h.addPivot hi hjm
  have hsq := (dymul_self he _).trans (if_pos (parity_addPivot h hi hj))
  rw [rowSpan_foldl_eliminateRow hφ (h1.scalePivot hi _ _) hi
      (fun _ hr => (mem_rowsBelow.1 hr).2) (fun hr => Nat.lt_irrefl i (mem_rowsBelow.1 hr).1),
    rowSpan_scalePivot hφ h1 hi hsq, rowSpan_addPivot hφ h hi hjm]

end Step

/-- The state of the Gaussian phase after i steps on `a`, as every representation sees it. -/
structure GaussInv (e m nb : Nat) (a : List BlockRow) (i : Nat) (w : List BlockRow) : Prop where
  matrix : IsBlockMatrix (2 ^ e) m nb w
  triangular : Triangular m nb i w
  span : ∀ {R : Type} [Ring R] {φ : Block → R}, IsRep (2 ^ e) φ → rowSpan φ m w = rowSpan φ m a

theorem GaussInv.init {e m nb : Nat} {a : List BlockRow} (h : IsBlockMatrix (2 ^ e) m nb a) :
    GaussInv e m nb a 0 a :=
  ⟨h, ⟨fun _ hj => absurd hj (Nat.not_lt_zero _), fun _ _ hj => absurd hj (Nat.not_lt_zero _)⟩, fun _ => rfl⟩

theorem GaussInv.step {e m nb i : Nat} (he : e ≤ 8) {a w w' : List BlockRow} (h : GaussInv e m nb a i w) (hi : i < m)
    (hs : gaussStep (2 ^ e) m nb w i = some w') : GaussInv e m nb a (i + 1) w' := by
  obtain ⟨hm, ht⟩ := gaussStep_triangular he h.matrix h.triangular hi hs
  exact ⟨hm, ht, fun hφ => (gaussStep_rowSpan he hφ h.matrix.shape hi hs).trans (h.span hφ)⟩

theorem gaussSteps_succ {t m nb : Nat} (a : List BlockRow) (i : Nat) :
    (List.range (i + 1)).foldlM (gaussStep t m nb) a =
      ((List.range i).foldlM (gaussStep t m nb) a).bind fun w => gaussStep t m nb w i := by
  rw [List.range_succ, List.foldlM_append]
  simp

/-- The invariant of the Gaussian phase holds as long as it goes. -/
theorem gaussSteps_inv {e m nb : Nat} (he : e ≤ 8) {a : List BlockRow} (h : IsBlockMatrix (2 ^ e) m nb a) {i : Nat}
    (hi : i ≤ m) {w : List BlockRow} (hw : (List.range i).foldlM (gaussStep (2 ^ e) m nb) a = some w) :
    GaussInv e m nb a i w := by
  induction i generalizing w with
  | zero => cases hw; exact .init h
  | succ i ih =>
    rw [gaussSteps_succ] at hw
    obtain ⟨u, hu, hs⟩ := Option.bind_eq_some_iff.1 hw
    exact (ih (by omega) hu).step he hi hs

/-! ### The Jordan phase -/

/-- The last m block columns are triangular, and cleared above the diagonal from column n on. -/
structure ClearedFrom (m nb n : Nat) (w : List BlockRow) : Prop where
  triangular : Triangular m nb m w
  above : ∀ j r, n ≤ j → j < m → r < j → entryAt w r (nb - m + j) = 0

/-- A Jordan step clears its column and leaves the other columns of the square part alone. -/
theorem ClearedFrom.jordanStep {e m nb n : Nat} {w : List BlockRow} (he : e ≤ 8) (h : IsBlockMatrix (2 ^ e) m nb w)
    (hn : n < m) (hc : ClearedFrom m nb (n + 1) w) : ClearedFrom m nb n (jordanStep (2 ^ e) m nb w n) := by
  have hentry : ∀ j k, entryAt (Machine.jordanStep (2 ^ e) m nb w n) j k = _ :=
    entryAt_foldl_eliminateRow hn (fun _ hr => (List.mem_range.1 hr).trans hn)
      (fun hr => absurd (List.mem_range.1 hr) (Nat.lt_irrefl n)) List.nodup_range h.shape
  have hrest : ∀ j r, j < m → j ≠ n →
      entryAt (Machine.jordanStep (2 ^ e) m nb w n) r (nb - m + j) = entryAt w r (nb - m + j) := by
    intro j r hj hjn
    have hzero : entryAt w n (nb - m + j) = 0 := by
      rcases Nat.lt_or_gt_of_ne hjn with hlt | hgt
      · exact hc.triangular.below j n hj hlt hn
      · exact hc.above j n hgt hj hgt
    rw [hentry, hzero, dymul_zero, block_xor_zero, ite_self]
  have hcol : ∀ r, n ≤ r → entryAt (Machine.jordanStep (2 ^ e) m nb w n) r (nb - m + n) = entryAt w r (nb - m + n) :=
    fun r hr => by rw [hentry, if_neg fun hm => by have := List.mem_range.1 hm; omega]
  refine ⟨⟨fun j hj => ?_, fun j r hj hjr hr => ?_⟩, fun j r hnj hj hr => ?_⟩
  · by_cases hjn : j = n
    · rw [hjn, hcol n (Nat.le_refl n), hc.triangular.diag n hn]
    · rw [hrest j j hj hjn, hc.triangular.diag j hj]
  · by_cases hjn : j = n
    · rw [hjn, hcol r (by omega), hc.triangular.below n r hn (by omega) hr]
    · rw [hrest j r hj hjn, hc.triangular.below j r hj hjr hr]
  · by_cases hjn : j = n
    · subst hjn
      rw [hentry, if_pos (List.mem_range.2 hr), hc.triangular.diag j hj, dymul_one he (h.bits r _), block_xor_self]
    · rw [hrest j r hj hjn, hc.above j r (by omega) hj hr]

/-- The end of the Gaussian phase is the start of the Jordan phase. -/
theorem Triangular.clearedFrom {m nb : Nat} {w : List BlockRow} (h : Triangular m nb m w) {n : Nat} (hn : m ≤ n) :
    ClearedFrom m nb n w := ⟨h, fun j r hnj hj _ => by omega⟩

/-- The Jordan steps n down to 1 keep the span and clear the columns above the diagonal. -/
theorem jordanSteps_inv {e m nb : Nat} (he : e ≤ 8) {a : List BlockRow} {n : Nat} (hn : n < m) {w : List BlockRow}
    (h : GaussInv e m nb a m w) (hc : ClearedFrom m nb (n + 1) w) :
    GaussInv e m nb a m ((List.range' 1 n).reverse.foldl (jordanStep (2 ^ e) m nb) w) ∧
      ClearedFrom m nb 1 ((List.range' 1 n).reverse.foldl (jordanStep (2 ^ e) m nb) w) := by
  induction n generalizing w with
  | zero => exact ⟨h, hc⟩
  | succ n ih =>
    have hl : ∀ r ∈ List.range (n + 1), r < m := fun r hr => (List.mem_range.1 hr).trans hn
    have hnext := hc.jordanStep he h.matrix hn
    have hinv : GaussInv e m nb a m (jordanStep (2 ^ e) m nb w (n + 1)) :=
      ⟨h.matrix.foldl_eliminateRow hn hl, hnext.triangular, fun hφ =>
        (rowSpan_foldl_eliminateRow hφ h.matrix.shape hn hl (by simp) _).trans (h.span hφ)⟩
    rw [List.range'_1_concat, List.reverse_append, Nat.add_comm 1 n]
    exact ih (by omega) hinv hnext

/-- What a successful elimination ends with: the invariant and the identity in the last m block columns. -/
theorem gaussJordan_inv {e m nb : Nat} (he : e ≤ 8) {a w : List BlockRow} (h : IsBlockMatrix (2 ^ e) m nb a)
    (hw : gaussJordan (2 ^ e) m nb a = some w) : GaussInv e m nb a m w ∧ ClearedFrom m nb 1 w := by
  obtain ⟨u, hu, rfl⟩ := Option.map_eq_some_iff.1 hw
  have hinv := gaussSteps_inv he h (Nat.le_refl m) hu
  rcases Nat.eq_zero_or_pos m with rfl | hm
  · exact ⟨hinv, hinv.triangular.clearedFrom (by omega)⟩
  · exact jordanSteps_inv he (by omega) hinv (hinv.triangular.clearedFrom (by omega))

theorem ClearedFrom.identity {m nb : Nat} {w : List BlockRow} (h : ClearedFrom m nb 1 w) {i j : Nat} (hi : i < m)
    (hj : j < m) : entryAt w i (nb - m + j) = if i = j then 1 else 0 := by
  rcases Nat.lt_trichotomy i j with hlt | rfl | hgt
  · rw [if_neg (by omega), h.above j i (by omega) hj hlt]
  · rw [if_pos rfl, h.triangular.diag i hi]
  · rw [if_neg (by omega), h.triangular.below j i hj hgt hi]

end Sys2Proof.Machine

/-! # GAUSS

What the elimination computes (41_eliminator.md R252) and what the command writes (R250, R251). -/

namespace Sys2Proof.Machine

/-! ### The result is the inverse of the square part times the matrix -/

/-- On success every represented block row of `a` is its last m blocks times the result: the coefficients of the row in
the span are read off at the identity columns. -/
theorem represented_row_eq {e m nb : Nat} (he : e ≤ 8) {R : Type} [Ring R] {φ : Block → R} (hφ : IsRep (2 ^ e) φ)
    {a w : List BlockRow} (h : IsBlockMatrix (2 ^ e) m nb a) (hw : gaussJordan (2 ^ e) m nb a = some w) {j : Nat}
    (hj : j < m) (k : Nat) :
    φ (entryAt a j k) = ∑ i : Fin m, φ (entryAt a j (nb - m + i)) * φ (entryAt w i k) := by
  obtain ⟨hinv, hclear⟩ := gaussJordan_inv he h hw
  have hmem : rowVec φ a j ∈ rowSpan φ m w := hinv.span hφ ▸ rowVec_mem hj
  obtain ⟨c, hc⟩ := exists_of_mem_rowSpan hmem
  have hcoeff : ∀ l : Fin m, φ (entryAt a j (nb - m + l)) = c l := fun l => by
    calc φ (entryAt a j (nb - m + l)) = ∑ i : Fin m, c i * φ (entryAt w i (nb - m + l)) := hc _
      _ = ∑ i : Fin m, if i = l then c i else 0 := by
        refine Finset.sum_congr rfl fun i _ => ?_
        rw [hclear.identity i.isLt l.isLt]
        by_cases hil : i = l
        · rw [if_pos (congrArg Fin.val hil), if_pos hil, hφ.one, mul_one]
        · rw [if_neg fun h => hil (Fin.ext h), if_neg hil, hφ.zero, mul_zero]
      _ = c l := by rw [Finset.sum_ite_eq' Finset.univ l c, if_pos (Finset.mem_univ l)]
  simp only [hcoeff]
  exact hc k

theorem lowBits_blockSum {t n : Nat} {f : Nat → Block} (h : ∀ i, lowBits t (f i) = f i) :
    lowBits t (blockSum n f) = blockSum n f := by
  refine List.foldlRecOn (motive := fun b => lowBits t b = b) _ _ (lowBits_zero t) fun b hb i _ => ?_
  rw [lowBits_xor, hb, h]

/-- Settles O26: the identity columns are `ClearedFrom.identity`; the product is `represented_row_eq` for the dyadic
matrices of the blocks, which determine the blocks. -/
theorem gaussReducesTheMatrix : Obligations.GaussReducesTheMatrix := by
  intro e m nb a w he hm ha hw
  have hA := isBlockMatrix_tabulate ha
  refine ⟨fun i j hi hj => (gaussJordan_inv he hA hw).2.identity hi hj, fun j k hj hk => ?_⟩
  have hD := isRep_dyadicMatrix he
  refine dyadicMatrix_inj (ha j k hj hk) (lowBits_blockSum fun i => lowBits_dymul _ _ _) ?_
  calc dyadicMatrix e (a j k)
      = ∑ i : Fin m, dyadicMatrix e (a j (nb - m + i)) * dyadicMatrix e (entryAt w i k) := by
        have hrow := represented_row_eq he hD hA hw hj k
        rw [entryAt_tabulate m nb a hj hk] at hrow
        rw [hrow]
        refine Finset.sum_congr rfl fun i _ => ?_
        rw [entryAt_tabulate m nb a hj (by omega)]
    _ = dyadicMatrix e (blockSum m fun i => dymul (2 ^ e) (a j (nb - m + i)) (entryAt w i k)) := by
        rw [hD.blockSum, Finset.sum_range]
        exact Finset.sum_congr rfl fun i _ => (hD.mul _ _).symm

/-! ### Success and the parity matrix -/

/-- The parities of the last m block columns (41_eliminator.md R252). -/
def parityMatrix (e m nb : Nat) (w : List BlockRow) : Matrix (Fin m) (Fin m) (ZMod 2) :=
  Matrix.of fun i j => parityBit e (entryAt w i (nb - m + j))

/-- Rows in the span of other rows: the parity matrix is a multiple of theirs. -/
theorem parityMatrix_eq_mul {e m nb : Nat} {v w : List BlockRow}
    (h : rowSpan (parityBit e) m v ≤ rowSpan (parityBit e) m w) :
    ∃ q, parityMatrix e m nb v = q * parityMatrix e m nb w := by
  choose c hc using fun i : Fin m => exists_of_mem_rowSpan (h (rowVec_mem i.isLt))
  refine ⟨Matrix.of c, ?_⟩
  ext i j
  rw [Matrix.mul_apply]
  exact hc i _

theorem ClearedFrom.parityMatrix_eq_one {e m nb : Nat} (he : e ≤ 8) {w : List BlockRow} (h : ClearedFrom m nb 1 w) :
    parityMatrix e m nb w = 1 := by
  have hrep := isRep_parityBit he
  ext i j
  rw [parityMatrix, Matrix.of_apply, h.identity i.isLt j.isLt]
  by_cases hij : i = j
  · rw [if_pos (congrArg Fin.val hij), hrep.one, hij, Matrix.one_apply_eq]
  · rw [if_neg fun h => hij (Fin.ext h), hrep.zero, Matrix.one_apply_ne hij]

/-- After i Gaussian steps, without a regular block from row i on in the next column: the rows from i on are zero in
the columns before i, and in column i too. -/
theorem Triangular.det_eq_zero {e m nb i : Nat} (he : e ≤ 8) {w : List BlockRow} (h : Triangular m nb i w) (hi : i < m)
    (hnone : findPivot (2 ^ e) m i (nb - m + i) w = none) : (parityMatrix e m nb w).det = 0 := by
  have hlower : ∀ r, ¬ (r : Fin m).val < i → ∀ c, (c : Fin m).val < i → parityMatrix e m nb w r c = 0 :=
    fun r hr c hc => by
      rw [parityMatrix, Matrix.of_apply, h.below c r hc (by omega) r.isLt, (isRep_parityBit he).zero]
  have hcolumn : ∀ r : Fin m, ¬ r.val < i → parityMatrix e m nb w r ⟨i, hi⟩ = 0 := fun r hr => by
    rw [parityMatrix, Matrix.of_apply, parityBit, findPivot_eq_none hnone (by omega) r.isLt, if_neg Bool.false_ne_true]
  have hblock : ((parityMatrix e m nb w).toSquareBlockProp fun r => ¬ r.val < i).det = 0 :=
    Matrix.det_eq_zero_of_column_eq_zero ⟨⟨i, hi⟩, Nat.lt_irrefl i⟩ fun r => hcolumn r r.2
  rw [Matrix.twoBlockTriangular_det _ (fun r => r.val < i) hlower, hblock, mul_zero]

section Success

variable {e m nb : Nat} (he : e ≤ 8) {a : List BlockRow} (h : IsBlockMatrix (2 ^ e) m nb a)
include he h

/-- On success the identity is a multiple of the parity matrix. -/
theorem isUnit_det_of_gaussJordan {w : List BlockRow} (hw : gaussJordan (2 ^ e) m nb a = some w) :
    IsUnit (parityMatrix e m nb a).det := by
  obtain ⟨hinv, hclear⟩ := gaussJordan_inv he h hw
  obtain ⟨q, hq⟩ := parityMatrix_eq_mul (nb := nb) (hinv.span (isRep_parityBit he)).le
  exact Matrix.isUnit_det_of_left_inverse (hq.symm.trans (hclear.parityMatrix_eq_one he))

/-- With an invertible parity matrix every Gaussian step finds its pivot. -/
theorem isSome_gaussSteps (hdet : IsUnit (parityMatrix e m nb a).det) {i : Nat} (hi : i ≤ m) :
    ((List.range i).foldlM (gaussStep (2 ^ e) m nb) a).isSome = true := by
  induction i with
  | zero => rfl
  | succ i ih =>
    obtain ⟨w, hw⟩ := Option.isSome_iff_exists.1 (ih (by omega))
    rw [gaussSteps_succ, hw, Option.bind_some]
    refine Option.isSome_iff_ne_none.2 fun hnone => ?_
    have hinv := gaussSteps_inv he h (by omega) hw
    obtain ⟨q, hq⟩ := parityMatrix_eq_mul (nb := nb) (hinv.span (isRep_parityBit he)).ge
    rw [hq, Matrix.det_mul, hinv.triangular.det_eq_zero he hi (gaussStep_eq_none.1 hnone), mul_zero] at hdet
    exact not_isUnit_zero hdet

theorem isSome_gaussJordan_iff :
    (gaussJordan (2 ^ e) m nb a).isSome = true ↔ IsUnit (parityMatrix e m nb a).det := by
  refine ⟨fun hsome => ?_, fun hdet => ?_⟩
  · obtain ⟨w, hw⟩ := Option.isSome_iff_exists.1 hsome
    exact isUnit_det_of_gaussJordan he h hw
  · rw [gaussJordan, Option.isSome_map]
    exact isSome_gaussSteps he h hdet (Nat.le_refl m)

end Success

/-- Settles O27: `isSome_gaussJordan_iff` for the matrix of the given blocks. -/
theorem gaussSucceedsIffParityInvertible : Obligations.GaussSucceedsIffParityInvertible := by
  intro e m nb a he hm ha
  have hparity : parityMatrix e m nb (tabulate m fun j => tabulate nb (a j)) =
      Matrix.of fun i j : Fin m => if parity (2 ^ e) (a i (nb - m + j)) then (1 : ZMod 2) else 0 := by
    ext i j
    rw [parityMatrix, Matrix.of_apply, entryAt_tabulate m nb a i.isLt (by omega)]
    rfl
  rw [← hparity]
  exact isSome_gaussJordan_iff he (isBlockMatrix_tabulate ha)

/-! ### The command -/

/-- Block (j, k) of a matrix stored row by row. -/
theorem IsMatrix.getElem?_flatten {m nb : Nat} {w : List BlockRow} (h : IsMatrix m nb w) {j k : Nat} (hj : j < m)
    (hk : k < nb) : w.flatten[j * nb + k]? = some (entryAt w j k) := by
  induction w generalizing m j with
  | nil => obtain ⟨hl, -⟩ := h; simp at hl; omega
  | cons row w ih =>
    obtain ⟨hl, hrow⟩ := h
    have hlen : row.length = nb := hrow row List.mem_cons_self
    rw [List.flatten_cons]
    cases j with
    | zero =>
      rw [Nat.zero_mul, Nat.zero_add, List.getElem?_append_left (by omega)]
      simp [entryAt, rowAt, hlen, hk]
    | succ j =>
      have hindex : (j + 1) * nb + k - row.length = j * nb + k := by rw [Nat.succ_mul]; omega
      rw [List.getElem?_append_right (by rw [Nat.succ_mul]; omega), hindex]
      have htail := ih (m := w.length) ⟨rfl, fun x hx => hrow x (List.mem_cons_of_mem _ hx)⟩ (j := j)
        (by rw [List.length_cons] at hl; omega)
      simpa [entryAt, rowAt] using htail

section Command

variable {s : State} {base : Field} {a : Nat → Nat → Block} (hc : s.Cfgv) (hnb : s.m ≤ s.nb)
  (hbase : base.toNat + s.m * s.nb - 1 < s.params.bmemLen)
  (ha : ∀ j k, j < s.m → k < s.nb → s.block (base.toNat + j * s.nb + k) = some (a j k))
include hc hnb hbase ha

/-- GAUSS of written blocks: past its checks and reads only the elimination's outcome decides. -/
theorem ruleGauss_of_blocks :
    ruleGauss base s = (gaussJordan s.t s.m s.nb (tabulate s.m fun j => tabulate s.nb (a j))).elim
      (.ok (s.setOutcome false)) fun w => .ok ((s.setOutcome true).putBlocks base.toNat w.flatten) := by
  rw [ruleGauss, checkCfgv_bind hc, decide_eq_true hnb, require_true, run_ok_bind, checkRegion_bind hbase,
    collect_of_ok fun j hj => readBlocks_of_some fun k hk => ha j k hj hk, run_ok_bind]
  cases gaussJordan s.t s.m s.nb (tabulate s.m fun j => tabulate s.nb (a j)) <;> rfl

end Command

/-- Settles O25: `ruleGauss_of_blocks`, and the words of `putBlocks` at the places of the matrix. -/
theorem gaussWritesBackOnSuccess : Obligations.GaussWritesBackOnSuccess := by
  intro s base a hc hnb hbase ha
  have hrule := ruleGauss_of_blocks hc hnb hbase ha
  refine ⟨fun w hw => ?_, fun hnone => ?_⟩
  · rw [hw] at hrule
    have hshape : IsMatrix s.m s.nb w := (isMatrix_tabulate s.m s.nb a).gaussJordan hw
    refine ⟨_, exec_of_rule (i := .gauss base) hrule, rfl, fun j k hj hk => ?_, fun q hq => ?_⟩
    · obtain ⟨hlt, hget⟩ := List.getElem?_eq_some_iff.1 (hshape.getElem?_flatten hj hk)
      have hword := blockWord_putBlocks (s.setOutcome true) base.toNat w.flatten _ hlt
      rw [hget, ← Nat.add_assoc] at hword
      exact hword
    · exact cellGet_putBlocks_of_not (s.setOutcome true) base.toNat w.flatten q (by rwa [hshape.length_flatten])
  · rw [hnone] at hrule
    exact exec_of_rule (i := .gauss base) hrule

end Sys2Proof.Machine

/-! # MATVEC

The product of a block matrix and a block vector (42_matvec.md R281) and what the command writes (R280). -/

namespace Sys2Proof.Machine

/-! ### The product of a row and a vector -/

theorem zipWith_tabulate {α β γ : Type} (h : α → β → γ) (n : Nat) (f : Nat → α) (g : Nat → β) :
    List.zipWith h (tabulate n f) (tabulate n g) = tabulate n fun i => h (f i) (g i) := by
  rw [tabulate, tabulate, tabulate, List.zipWith_map, List.zipWith_self]

/-- A row times a vector is the sum of the products of their blocks. -/
theorem rowProduct_tabulate (t n : Nat) (f g : Nat → Block) :
    rowProduct t (tabulate n f) (tabulate n g) = blockSum n fun i => dymul t (f i) (g i) := by
  rw [rowProduct, zipWith_tabulate, tabulate, List.foldl_map, blockSum]

/-! ### The command -/

/-- The blocks MATVEC writes: block j of the r × c matrix `a` times the vector `x`. -/
def matvecBlocks (t r c : Nat) (a : Nat → Nat → Block) (x : Nat → Block) : List Block :=
  tabulate r fun j => blockSum c fun i => dymul t (a j i) (x i)

@[simp] theorem length_matvecBlocks (t r c : Nat) (a : Nat → Nat → Block) (x : Nat → Block) :
    (matvecBlocks t r c a x).length = r :=
  length_tabulate r _

@[simp] theorem getElem_matvecBlocks (t r c : Nat) (a : Nat → Nat → Block) (x : Nat → Block) (j : Nat)
    (h : j < (matvecBlocks t r c a x).length) :
    (matvecBlocks t r c a x)[j] = blockSum c fun i => dymul t (a j i) (x i) :=
  getElem_tabulate r _ j h

section Command

variable {s : State} {d mat v : Field} {a : Nat → Nat → Block} {x : Nat → Block} (hcfg : s.Cfgv)
  (hr : 1 ≤ s.cfg.mvRows.toNat) (hc : 1 ≤ s.cfg.mvCols.toNat)
  (hd : d.toNat + s.cfg.mvRows.toNat - 1 < s.params.bmemLen)
  (hmat : mat.toNat + (s.cfg.mvRows.toNat - 1) * s.cfg.mvRs.toNat + (s.cfg.mvCols.toNat - 1) * s.cfg.mvCs.toNat <
    s.params.bmemLen)
  (hv : v.toNat + s.cfg.mvCols.toNat - 1 < s.params.bmemLen)
  (ha : ∀ j i, j < s.cfg.mvRows.toNat → i < s.cfg.mvCols.toNat →
    s.block (mat.toNat + j * s.cfg.mvRs.toNat + i * s.cfg.mvCs.toNat) = some (a j i))
  (hx : ∀ i, i < s.cfg.mvCols.toNat → s.block (v.toNat + i) = some (x i))
include hcfg hr hc hd hmat hv ha hx

/-- MATVEC of written blocks: past its checks, both reads come before the one write of the products. -/
theorem ruleMatvec_of_blocks :
    ruleMatvec d mat v s =
      .ok (s.putBlocks d.toNat (matvecBlocks s.t s.cfg.mvRows.toNat s.cfg.mvCols.toNat a x)) := by
  have hmatrix : (collect s.cfg.mvRows.toNat fun j => collect s.cfg.mvCols.toNat fun i =>
        readBlock s (mat.toNat + j * s.cfg.mvRs.toNat + i * s.cfg.mvCs.toNat)) =
      .ok (tabulate s.cfg.mvRows.toNat fun j => tabulate s.cfg.mvCols.toNat (a j)) :=
    collect_of_ok fun j hj => collect_of_ok fun i hi => readBlock_eq_ok.2 (ha j i hj hi)
  rw [ruleMatvec, checkCfgv_bind hcfg, decide_eq_true ⟨hr, hc⟩, require_true, run_ok_bind, checkRegion_bind hd,
    checkRegion_bind hmat, checkRegion_bind hv, hmatrix, run_ok_bind, readBlocks_of_some hx, run_ok_bind, run_pure,
    map_tabulate, matvecBlocks]
  simp only [rowProduct_tabulate]

end Command

/-- Settles O24: `ruleMatvec_of_blocks`, and the words of `putBlocks` at the places of the products, which are t-bit
blocks. -/
theorem matvecWritesTheProduct : Obligations.MatvecWritesTheProduct := by
  rintro s d mat v _ _ a x hcfg rfl rfl hr hc hd hmat hv ha hx
  have hrule := ruleMatvec_of_blocks hcfg hr hc hd hmat hv ha hx
  refine ⟨_, exec_of_rule (i := .matvec d mat v) hrule, rfl, fun j hj => ?_, fun q hq => ?_⟩
  · have hword := blockWord_putBlocks s d.toNat (matvecBlocks s.t s.cfg.mvRows.toNat s.cfg.mvCols.toNat a x) j
      (by rwa [length_matvecBlocks])
    rwa [getElem_matvecBlocks, lowBits_blockSum fun i => lowBits_dymul _ _ _] at hword
  · exact cellGet_putBlocks_of_not s d.toNat _ q (by rwa [length_matvecBlocks])

end Sys2Proof.Machine

/-! # The cotrace conversions and the register transfers

The bits of a polynomial and of its m bit planes (00_scope.md R21), and the commands COT2P, P2COT, PCLR, PMOV, PSETC,
GSET and SQSET (43_poly_transfer.md R300 to R306): each rule's result when its checks pass and its sources are written,
and the next state that result gives. -/

namespace Sys2Proof.Machine

/-! ### The bits of polynomials and planes -/

theorem getLsbD_ofPlanes (m t : Nat) (planes : List Block) (k i : Nat) :
    ((ofPlanes m t planes).getD k 0).getLsbD i =
      (decide (i < 16) && decide (k < t ∧ i < m) && (planes.getD i 0).getLsbD k) := by
  rw [ofPlanes, getD_tabulate]
  by_cases hk : k < t
  · simp [hk, planeElem]
  · simp [hk]

@[simp] theorem length_toPlanes (m t : Nat) (e : Poly) : (toPlanes m t e).length = m :=
  length_tabulate m _

theorem getLsbD_toPlanes {m t : Nat} {e : Poly} {i : Nat} (hi : i < (toPlanes m t e).length) (j : Nat) :
    (toPlanes m t e)[i].getLsbD j = (decide (j < 256) && decide (j < t) && (pcoeff e j).getLsbD i) := by
  simp only [toPlanes, getElem_tabulate, getLsbD_bitsOf]

/-! ### Tables and registers after a write -/

theorem cellGet_putG_of_not (s : State) (vs : List Elem) (q : Nat) (h : vs.length ≤ q) :
    cellGet (s.putG vs).g q = cellGet s.g q := by
  rw [State.putG_g, cellGet_cellPut_of_not _ _ _ _ (by omega)]

theorem cellGet_putSqRow_of_not (s : State) (i : Nat) (vs : List Elem) (q : Nat)
    (h : ¬ (sqKey i 0 ≤ q ∧ q < sqKey i 0 + vs.length)) : cellGet (s.putSqRow i vs).sq q = cellGet s.sq q := by
  rw [State.putSqRow_sq, cellGet_cellPut_of_not _ _ _ _ h]

/-- The word of a strided write at its place (43_poly_transfer.md R301). -/
theorem blockWord_putStrided (s : State) (a : Nat) {stride : Nat} (vs : List Block) (hs : 1 ≤ stride) {i : Nat}
    (h : i < vs.length) : (s.putStrided a stride vs).blockWord (a + i * stride) = some (lowBits s.t vs[i]) := by
  refine blockWord_eq_some.2 ⟨_, cellGet_putStrided s a stride vs hs i h, ?_, rfl⟩
  rw [putStrided_params]
  exact holds_all _ _

/-- A command whose rule ends by writing slots 0 .. n − 1 of register r retires with those slots of P written and every
other cell of the state kept. -/
theorem exec_of_putSlots {i : Instr} {s : State} {r n : Nat} {f : Nat → Elem}
    (hr : ruleOf i s = .ok (s.putSlots r 0 (tabulate n f))) :
    ∃ t, exec i s = .next t ∧ t = { s.retire with p := t.p } ∧ (∀ k, k < n → t.pSlot r k = some (f k)) ∧
      ∀ q, ¬ (pKey r 0 ≤ q ∧ q < pKey r 0 + n) → cellGet t.p q = cellGet s.p q := by
  refine ⟨_, exec_of_rule hr, rfl, fun k hk => ?_, fun q hq => ?_⟩
  · have hslot := pSlot_putSlots s r (tabulate n f) k (by simpa using hk)
    rwa [getElem_tabulate] at hslot
  · exact cellGet_putSlots_of_not s r (tabulate n f) q (by simpa using hq)

/-! ### COT2P and P2COT -/

section Cotrace

variable {s : State} {base stride : Field} (hstride : 1 ≤ stride.toNat) (hc : s.Cfgv)
  (hbase : base.toNat + (s.m - 1) * stride.toNat < s.params.bmemLen)
include hstride hc hbase

/-- COT2P reads its m planes and writes the polynomial they stand for. -/
theorem ruleCot2p_of_planes {pd : Field} {b : Nat → Block} (hpd : pd.toNat < 8)
    (hb : ∀ i, i < s.m → s.block (base.toNat + i * stride.toNat) = some (b i)) :
    ruleCot2p pd base stride s = .ok (s.putPoly pd.toNat (ofPlanes s.m s.t (tabulate s.m b))) := by
  have hops : ∀ e ∈ [(FieldId.fa, FieldKind.preg, pd), (.fc, .positive, stride)],
      e.2.1.legal s.params e.2.2 = true := by
    simpa [legal_preg, legal_positive] using ⟨hpd, hstride⟩
  rw [ruleCot2p, checkOperands_bind hops, checkCfgv_bind hc, checkRegion_bind hbase,
    collect_of_ok fun i hi => readBlock_eq_ok.2 (hb i hi), run_ok_bind, run_pure]

/-- P2COT reads its t coefficients before it writes their m planes. -/
theorem ruleP2cot_of_slots {ps : Field} {v : Nat → Elem} (hps : ps.toNat < 8)
    (hv : ∀ j, j < s.t → s.pSlot ps.toNat j = some (v j)) :
    ruleP2cot base ps stride s = .ok (s.putStrided base.toNat stride.toNat
      (toPlanes s.m s.t (tabulate s.t fun j => lowBits s.m (v j)))) := by
  have hops : ∀ e ∈ [(FieldId.fb, FieldKind.preg, ps), (.fc, .positive, stride)],
      e.2.1.legal s.params e.2.2 = true := by
    simpa [legal_preg, legal_positive] using ⟨hps, hstride⟩
  rw [ruleP2cot, checkOperands_bind hops, checkCfgv_bind hc, checkRegion_bind hbase, readPolyTo_of_some hv,
    run_ok_bind, run_pure]

end Cotrace

/-- The bits of coefficient k that COT2P stores, those of its element of GF(2^m) (10_state.md R45). -/
theorem getLsbD_cot2p_slot (m t : Nat) (b : Nat → Block) (k : Nat) {i : Nat} (hi : i < 16) :
    (lowBits m ((ofPlanes m t (tabulate m b)).getD k 0)).getLsbD i =
      (decide (k < t ∧ i < m) && (b i).getLsbD k) := by
  rw [getLsbD_lowBits, getLsbD_ofPlanes, getD_tabulate]
  by_cases hm : i < m
  · simp [hm, hi]
  · simp [hm]

/-- The bits of plane i that P2COT stores. -/
theorem getLsbD_p2cot_word {m t : Nat} (v : Nat → Elem) {i : Nat} (hi : i < m)
    (hlen : i < (toPlanes m t (tabulate t fun j => lowBits m (v j))).length) {j : Nat} (hj : j < 256) :
    (lowBits t (toPlanes m t (tabulate t fun j => lowBits m (v j)))[i]).getLsbD j =
      (decide (j < t) && (v j).getLsbD i) := by
  rw [getLsbD_lowBits, getLsbD_toPlanes hlen, pcoeff, getD_tabulate]
  by_cases ht : j < t
  · simp [ht, hj, hi]
  · simp [ht]

/-- Settles O28: `ruleCot2p_of_planes`, and the bits of the slots it writes. -/
theorem cot2pTransposes : Obligations.Cot2pTransposes := by
  intro s pd base stride b hpd hstride hc hbase hb
  obtain ⟨t, hexec, hframe, hslot, hrest⟩ :=
    exec_of_putSlots (i := .cot2p pd base stride) (ruleCot2p_of_planes hstride hc hbase hpd hb)
  exact ⟨t, hexec, hframe, fun k hk => ⟨_, hslot k hk, fun i hi => getLsbD_cot2p_slot s.m s.t b k hi⟩, hrest⟩

/-- Settles O29: `ruleP2cot_of_slots`, and the bits of the words the strided write leaves at its places. -/
theorem p2cotTransposes : Obligations.P2cotTransposes := by
  intro s base ps stride v hps hstride hc hbase hv
  refine ⟨_, exec_of_rule (i := .p2cot base ps stride) (ruleP2cot_of_slots hstride hc hbase hps hv),
    congrArg State.retire (putStrided_eq ..), fun i hi => ?_, fun q hq => ?_⟩
  · have hlen : i < (toPlanes s.m s.t (tabulate s.t fun j => lowBits s.m (v j))).length := by simpa using hi
    exact ⟨_, blockWord_putStrided s base.toNat _ hstride hlen, fun j hj => getLsbD_p2cot_word v hi hlen hj⟩
  · exact cellGet_putStrided_of_not s base.toNat stride.toNat _ q (by simpa using hq)

/-- Settles O30: P2COT leaves the configuration alone, so COT2P reads the t-bit planes that P2COT wrote; bit i of
coefficient k goes to bit k of plane i and comes back. -/
theorem cotraceRoundTrip : Obligations.CotraceRoundTrip := by
  intro s base ps pd stride v hp hps hpd hstride hc hbase hv
  obtain ⟨t, hexec, hframe, hwords, -⟩ := p2cotTransposes s base ps stride v hps hstride hc hbase hv
  have hparams : t.params = s.params := by rw [hframe]; rfl
  have hm : t.m = s.m := by rw [hframe]; rfl
  have ht : t.t = s.t := by rw [hframe]; rfl
  have hct : t.Cfgv := by rw [hframe]; exact hc
  choose! b hword hbit using hwords
  have hplanes : ∀ i, i < t.m → t.block (base.toNat + i * stride.toNat) = some (lowBits t.t (b i)) := fun i hi =>
    block_of_blockWord (hparams ▸ hp) hct (hword i (hm ▸ hi))
  obtain ⟨u, hexec', -, hslots, -⟩ :=
    cot2pTransposes t pd base stride _ hpd hstride hct (by rwa [hparams, hm]) hplanes
  refine ⟨t, u, hexec, hexec', fun k hk => ?_⟩
  obtain ⟨w, hw, hwbit⟩ := hslots k (by rwa [hparams])
  rw [hw]
  refine congrArg some (BitVec.eq_of_getLsbD_eq fun i hi => ?_)
  rw [hwbit i hi, hm, ht]
  by_cases hkt : k < s.t
  · have h256 : s.t ≤ 2 ^ 8 := Nat.pow_le_pow_right (by omega) (hc.logT_le_eight hp)
    by_cases him : i < s.m
    · simp [hkt, him, hbit i him k (by omega)]
    · simp [hkt, him]
  · simp [hkt]

/-! ### PCLR, PMOV and PSETC -/

theorem rulePclr_of_legal {s : State} {pd : Field} (hpd : pd.toNat < 8) :
    rulePclr pd s = .ok (s.putSlots pd.toNat 0 (tabulate s.params.plen fun _ => 0)) := by
  have hops : ∀ e ∈ [(FieldId.fa, FieldKind.preg, pd)], e.2.1.legal s.params e.2.2 = true := by
    simpa [legal_preg, Config.nPreg] using hpd
  rw [rulePclr, checkOperands_bind hops, run_pure, State.putPoly]
  simp

/-- PMOV reads every slot of Ps before it writes Pd. -/
theorem rulePmov_of_slots {s : State} {pd ps : Field} {v : Nat → Elem} (hpd : pd.toNat < 8) (hps : ps.toNat < 8)
    (hv : ∀ k, k < s.params.plen → s.pSlot ps.toNat k = some (v k)) :
    rulePmov pd ps s = .ok (s.putSlots pd.toNat 0 (tabulate s.params.plen v)) := by
  have hops : ∀ e ∈ [(FieldId.fa, FieldKind.preg, pd), (.fb, .preg, ps)], e.2.1.legal s.params e.2.2 = true := by
    simpa [legal_preg] using ⟨hpd, hps⟩
  rw [rulePmov, checkOperands_bind hops, readSlots_of_some hv, run_ok_bind, run_pure]

theorem rulePsetc_of_legal {s : State} {pd k value : Field} (hpd : pd.toNat < 8) (hk : k.toNat < s.params.plen) :
    rulePsetc pd k value s = .ok (s.putSlots pd.toNat k.toNat [lowBits s.params.mMax value]) := by
  have hops : ∀ e ∈ [(FieldId.fa, FieldKind.preg, pd), (.fb, .slot, k)], e.2.1.legal s.params e.2.2 = true := by
    simpa [legal_preg, legal_slot] using ⟨hpd, hk⟩
  rw [rulePsetc, checkOperands_bind hops, run_pure]

/-- Settles O31: PCLR and PMOV by `exec_of_putSlots`, PSETC by the write of one cell. -/
theorem registerTransfersWrite : Obligations.RegisterTransfersWrite := by
  refine ⟨fun s pd hpd => exec_of_putSlots (i := .pclr pd) (rulePclr_of_legal hpd),
    fun s pd ps v hpd hps hv => exec_of_putSlots (i := .pmov pd ps) (rulePmov_of_slots hpd hps hv),
    fun s pd k value hpd hk => ⟨_, exec_of_rule (i := .psetc pd k value) (rulePsetc_of_legal hpd hk), rfl, ?_,
      fun q hq => ?_⟩⟩
  · exact (cellGet_cellPut_one s.p _ _ _).trans (if_pos rfl)
  · exact (cellGet_cellPut_one s.p _ _ q).trans (if_neg hq)

/-! ### GSET and SQSET -/

theorem ruleGset_of_slots {s : State} {ps : Field} {v : Nat → Elem} (hps : ps.toNat < 8)
    (hv : ∀ k, k < s.params.glen → s.pSlot ps.toNat k = some (v k)) :
    ruleGset ps s = .ok (s.putG (tabulate s.params.glen v)) := by
  have hops : ∀ e ∈ [(FieldId.fb, FieldKind.preg, ps)], e.2.1.legal s.params e.2.2 = true := by
    simpa [legal_preg, Config.nPreg] using hps
  rw [ruleGset, checkOperands_bind hops, readSlots_of_some hv, run_ok_bind, run_pure]

theorem ruleSqset_of_slots {s : State} {i ps : Field} {v : Nat → Elem} (hi : i.toNat < s.params.tb)
    (hps : ps.toNat < 8) (hv : ∀ k, k < s.params.tb → s.pSlot ps.toNat k = some (v k)) :
    ruleSqset i ps s = .ok (s.putSqRow i.toNat (tabulate s.params.tb v)) := by
  have hops : ∀ e ∈ [(FieldId.fa, FieldKind.sqRow, i), (.fb, .preg, ps)], e.2.1.legal s.params e.2.2 = true := by
    simpa [legal_preg, legal_sqRow] using ⟨hi, hps⟩
  rw [ruleSqset, checkOperands_bind hops, readSlots_of_some hv, run_ok_bind, run_pure]

/-- Settles O32: the slots read are the slots written; GLEN = TB + 1, so slots 0 .. TB are all of G's. -/
theorem gsetAndSqsetLoadTheTables : Obligations.GsetAndSqsetLoadTheTables := by
  refine ⟨fun s ps v hps hv => ?_, fun s i ps v hi hps hv => ?_⟩
  · have hrule := ruleGset_of_slots hps fun k hk => hv k (Nat.lt_succ_iff.1 hk)
    refine ⟨_, exec_of_rule (i := .gset ps) hrule, rfl, fun k hk => ?_, fun q hq => ?_⟩
    · have hslot := gSlot_putG s (tabulate s.params.glen v) k (by rw [length_tabulate]; exact Nat.lt_succ_of_le hk)
      rwa [getElem_tabulate] at hslot
    · exact cellGet_putG_of_not s _ q (by rw [length_tabulate]; exact hq)
  · refine ⟨_, exec_of_rule (i := .sqset i ps) (ruleSqset_of_slots hi hps hv), rfl, fun k hk => ?_, fun q hq => ?_⟩
    · have hslot := sqSlot_putSqRow s i.toNat (tabulate s.params.tb v) k (by simpa using hk)
      rwa [getElem_tabulate] at hslot
    · exact cellGet_putSqRow_of_not s i.toNat _ q (by simpa using hq)

end Sys2Proof.Machine

/-! # The locator commands

PADDX, PLOC, PINV, PSQRT and PFRAC (44_decoder.md R341 to R345): each rule's result when its checks pass and its sources
are written, and the next state that result gives. -/

namespace Sys2Proof.Machine

/-! ### Checks that pass and the registers they leave -/

theorem legal_two_pregs {p : Params} {a b : Field} (ha : a.toNat < 8) (hb : b.toNat < 8) :
    ∀ e ∈ [(FieldId.fa, FieldKind.preg, a), (.fb, .preg, b)], e.2.1.legal p e.2.2 = true := by
  simpa [legal_preg] using ⟨ha, hb⟩

theorem legal_three_pregs {p : Params} {a b c : Field} (ha : a.toNat < 8) (hb : b.toNat < 8) (hc : c.toNat < 8) :
    ∀ e ∈ [(FieldId.fa, FieldKind.preg, a), (.fb, .preg, b), (.fc, .preg, c)], e.2.1.legal p e.2.2 = true := by
  simpa [legal_preg] using ⟨ha, hb, hc⟩

theorem checkGoppa_bind {s : State} (h : s.GoppaOk) (k : Unit → Run State) : (checkGoppa s >>= k) = k () := by
  rw [checkGoppa_eq_ok.2 h, run_ok_bind]

/-- A command whose rule ends by `P[r] <- q` retires with the coefficients of q in register r and every other cell of
the state kept. -/
theorem exec_of_putPoly {i : Instr} {s : State} {r : Nat} {q : Poly} (hr : ruleOf i s = .ok (s.putPoly r q)) :
    ∃ t, exec i s = .next t ∧ t = { s.retire with p := t.p } ∧
      (∀ k, k < s.params.plen → t.pSlot r k = some (lowBits s.m (pcoeff q k))) ∧
      ∀ q, ¬ (pKey r 0 ≤ q ∧ q < pKey r 0 + s.params.plen) → cellGet t.p q = cellGet s.p q :=
  exec_of_putSlots hr

/-! ### PADDX -/

theorem rulePaddx_of_slots {s : State} {pd ps : Field} {v : Nat → Elem} (hpd : pd.toNat < 8) (hps : ps.toNat < 8)
    (hc : s.Cfgv) (hv : ∀ k, k < s.params.plen → s.pSlot ps.toNat k = some (v k)) :
    rulePaddx pd ps s = .ok (s.putPoly pd.toNat (paddX (tabulate s.params.plen fun k => lowBits s.m (v k)))) := by
  rw [rulePaddx, checkOperands_bind (legal_two_pregs hpd hps), checkCfgv_bind hc, readPoly, readPolyTo_of_some hv,
    run_ok_bind, run_pure]

theorem pcoeff_paddX (p : Poly) (n : Nat) : pcoeff (paddX p) n = pcoeff p n ^^^ if n = 1 then 1 else 0 := by
  rw [paddX, pcoeff_padd]
  match n with
  | 0 => rfl
  | 1 => rfl
  | n + 2 => rfl

theorem pcoeff_tabulate (n : Nat) (f : Nat → Elem) (k : Nat) : pcoeff (tabulate n f) k = if k < n then f k else 0 :=
  getD_tabulate n f k 0

/-- The element 1 fits every field. -/
theorem lowBits_one {m : Nat} (h : 1 ≤ m) : lowBits m (1 : Elem) = 1 :=
  lowBits_eq_self (Nat.one_lt_two_pow (by omega))

/-- Settles O36: coefficient 1 of x is 1, an m-bit value, and the others are 0. -/
theorem paddxAddsX : Obligations.PaddxAddsX := by
  intro s pd ps v hpd hps hc hv
  obtain ⟨t, hexec, hframe, hslot, hrest⟩ := exec_of_putPoly (i := .paddx pd ps) (rulePaddx_of_slots hpd hps hc hv)
  refine ⟨t, hexec, hframe, fun k hk => ?_, hrest⟩
  rw [hslot k hk, pcoeff_paddX, pcoeff_tabulate, if_pos hk, lowBits_xor, lowBits_idem]
  by_cases h1 : k = 1
  · rw [if_pos h1, lowBits_one hc.one_le_m]
  · rw [if_neg h1]
    exact congrArg (fun x => some (lowBits s.m (v k) ^^^ x)) (lowBits_zero s.m)

/-! ### PLOC -/

/-- PLOC's locator of two polynomials that have t coefficients (44_decoder.md R345). -/
theorem locator_of_length {k : Gf} {t : Nat} {a b : Poly} (ha : a.length = t) (hb : b.length = t) :
    locator k t a b = pmonic k (padd (psq k a) (0 :: psq k b)) := by
  rw [locator, List.take_of_length_le ha.le, List.take_of_length_le hb.le]

theorem rulePloc_of_slots {s : State} {pd pa pb : Field} {u v : Nat → Elem} (hpd : pd.toNat < 8) (hpa : pa.toNat < 8)
    (hpb : pb.toNat < 8) (hc : s.Cfgv) (hu : ∀ k, k < s.t → s.pSlot pa.toNat k = some (u k))
    (hv : ∀ k, k < s.t → s.pSlot pb.toNat k = some (v k)) :
    rulePloc pd pa pb s = .ok (s.putPoly pd.toNat (locator s.gf s.t (tabulate s.t fun k => lowBits s.m (u k))
      (tabulate s.t fun k => lowBits s.m (v k)))) := by
  rw [rulePloc, checkOperands_bind (legal_three_pregs hpd hpa hpb), checkCfgv_bind hc, readPolyTo_of_some hu,
    run_ok_bind, readPolyTo_of_some hv, run_ok_bind, run_pure]

/-- Settles O37: PLOC reads t coefficients of each source, so its cut to t coefficients cuts nothing. -/
theorem plocWritesTheLocator : Obligations.PlocWritesTheLocator := by
  intro s pd pa pb u v hpd hpa hpb hc hu hv
  have hrule := rulePloc_of_slots hpd hpa hpb hc hu hv
  rw [locator_of_length (length_tabulate _ _) (length_tabulate _ _)] at hrule
  exact exec_of_putPoly (i := .ploc pd pa pb) hrule

/-! ### PINV, PSQRT and PFRAC -/

section Goppa

variable {s : State} {ps : Field} {v g : Nat → Elem} (hps : ps.toNat < 8) (hc : s.Cfgv) (ht : s.GoppaOk)
  (hv : ∀ k, k < s.params.plen → s.pSlot ps.toNat k = some (v k)) (hg : ∀ k, k ≤ s.t → s.gSlot k = some (g k))
include hps hc ht hv hg

/-- PINV past its checks and reads. -/
theorem rulePinv_of_slots {pd : Field} (hpd : pd.toNat < 8) :
    rulePinv pd ps s = underField s (s.putPoly pd.toNat (freePoly s 0))
      ((pinvMod s.gf (tabulate (s.t + 1) fun k => lowBits s.m (g k))
          (tabulate s.params.plen fun k => lowBits s.m (v k))).elim
        (.error (.raise .decodeFail 1)) fun u => .ok (s.putPoly pd.toNat u)) := by
  rw [rulePinv, checkOperands_bind (legal_two_pregs hpd hps), checkCfgv_bind hc, checkGoppa_bind ht, readPoly,
    readPolyTo_of_some hv, run_ok_bind, readG_of_some hg, run_ok_bind]
  congr 1
  cases pinvMod s.gf _ _ <;> rfl

/-- PSQRT past its checks and reads. -/
theorem rulePsqrt_of_slots {pd : Field} {r : Nat → Nat → Elem} (hpd : pd.toNat < 8)
    (hr : ∀ i k, i < s.t → k < s.t → s.sqSlot i k = some (r i k)) :
    rulePsqrt pd ps s = underField s (s.putPoly pd.toNat (freePoly s 0))
      (.ok (s.putPoly pd.toNat (psqrtMod s.gf s.t (tabulate (s.t + 1) fun k => lowBits s.m (g k))
        (tabulate s.t fun i => tabulate s.t fun k => lowBits s.m (r i k))
        (tabulate s.params.plen fun k => lowBits s.m (v k))))) := by
  rw [rulePsqrt, checkOperands_bind (legal_two_pregs hpd hps), checkCfgv_bind hc, checkGoppa_bind ht, readPoly,
    readPolyTo_of_some hv, run_ok_bind, readG_of_some hg, run_ok_bind, readSq_of_some hr, run_ok_bind]

/-- PFRAC past its checks and reads. -/
theorem rulePfrac_of_slots {pa pb : Field} (hpa : pa.toNat < 8) (hpb : pb.toNat < 8) (hne : pa ≠ pb) :
    rulePfrac pa pb ps s =
      underField s ((s.putPoly pa.toNat (freePoly s 0)).putPoly pb.toNat (freePoly s 1))
        (let ab := pfracMod s.gf s.t (tabulate (s.t + 1) fun k => lowBits s.m (g k))
          (tabulate s.params.plen fun k => lowBits s.m (v k))
        .ok ((s.putPoly pa.toNat ab.1).putPoly pb.toNat ab.2)) := by
  rw [rulePfrac, checkOperands_bind (legal_three_pregs hpa hpb hps), bne_iff_ne.2 hne, require_true, run_ok_bind,
    checkCfgv_bind hc, checkGoppa_bind ht, readPoly, readPolyTo_of_some hv, run_ok_bind, readG_of_some hg, run_ok_bind]

end Goppa

/-- Settles O38: with an irreducible F the rule ends as `pinvMod` answers. -/
theorem pinvWritesTheInverse : Obligations.PinvWritesTheInverse := by
  intro s pd ps v g hpd hps hc hirr hv hg hlead
  have hrule := rulePinv_of_slots hps hc ⟨_, hg s.t (Nat.le_refl _), hlead⟩ hv hg hpd
  rw [underField_of_irreducible hirr] at hrule
  constructor
  · intro u hu
    rw [hu] at hrule
    exact exec_of_putPoly (i := .pinv pd ps) hrule
  · intro hnone
    rw [hnone] at hrule
    exact exec_of_raise (i := .pinv pd ps) hrule

/-- Settles O40: with an irreducible F the rule writes `psqrtMod`. -/
theorem psqrtWritesTheRoot : Obligations.PsqrtWritesTheRoot := by
  intro s pd ps v g r hpd hps hc hirr hv hg hlead hr
  have hrule := rulePsqrt_of_slots hps hc ⟨_, hg s.t (Nat.le_refl _), hlead⟩ hv hg hpd hr
  rw [underField_of_irreducible hirr] at hrule
  exact exec_of_putPoly (i := .psqrt pd ps) hrule

/-- Slot k of a register is no slot of another one: PLEN ≤ 512. -/
theorem pKey_not_in_register {p : Params} (hp : p.Legal) {a b k : Nat} (hab : a ≠ b) (hk : k < p.plen) :
    ¬ (pKey b 0 ≤ pKey a k ∧ pKey a k < pKey b 0 + p.plen) := by
  have := plen_le hp
  simp only [pKey]
  omega

/-- Settles O42: the second register written is not the first, so both results stand afterwards. -/
theorem pfracWritesBothParts : Obligations.PfracWritesBothParts := by
  intro s pa pb ps v g hp hpa hpb hps hne hc hirr hv hg hlead
  have hrule := rulePfrac_of_slots hps hc ⟨_, hg s.t (Nat.le_refl _), hlead⟩ hv hg hpa hpb hne
  rw [underField_of_irreducible hirr] at hrule
  have hregs : pa.toNat ≠ pb.toNat := fun h => hne (BitVec.eq_of_toNat_eq h)
  refine ⟨_, exec_of_rule (i := .pfrac pa pb ps) hrule, rfl, fun k hk => ⟨?_, ?_⟩, fun q hqa hqb => ?_⟩
  · exact (cellGet_putPoly_of_not (s.putPoly pa.toNat _) _ _ _ (pKey_not_in_register hp hregs hk)).trans
      (pSlot_putPoly s _ _ k hk)
  · exact pSlot_putPoly _ _ _ k hk
  · exact (cellGet_putPoly_of_not (s.putPoly pa.toNat _) _ _ q hqb).trans (cellGet_putPoly_of_not s _ _ q hqa)

end Sys2Proof.Machine

/-! # Root finding

ROOTS (44_decoder.md R346) and the end it shares with DECODE (R349): the error vector of a polynomial's roots, written
when the polynomial splits. -/

namespace Sys2Proof.Machine

/-- How a command ends that writes the root vector of `sigma` to `e` (44_decoder.md R346): it marks exactly the roots
when there are deg(sigma) of them, and raises DECODE_FAIL 2 when there are not. -/
def MarksRoots (i : Instr) (s : State) (e : Nat) (sigma : Poly) : Prop :=
  ((countOf s.n fun x => peval s.gf sigma (BitVec.ofNat 16 x) == 0 : Int) = pdeg sigma →
    ∃ t, exec i s = .next t ∧ t = { s.retire with bmem := t.bmem } ∧
      (∀ b, b < s.n / s.t → ∃ w, t.blockWord (e + b) = some w ∧
        ∀ j, j < 256 → w.getLsbD j =
          (decide (j < s.t) && peval s.gf sigma (BitVec.ofNat 16 (b * s.t + j)) == 0)) ∧
      ∀ q, ¬ (e ≤ q ∧ q < e + s.n / s.t) → cellGet t.bmem q = cellGet s.bmem q) ∧
  ((countOf s.n fun x => peval s.gf sigma (BitVec.ofNat 16 x) == 0 : Int) ≠ pdeg sigma →
    exec i s = .next (s.takeFault .decodeFail 2 (encode i)))

/-- The polynomial has as many roots in the field as its degree. -/
theorem splits_iff (s : State) (sigma : Poly) :
    splits s.gf sigma = true ↔
      (countOf s.n fun x => peval s.gf sigma (BitVec.ofNat 16 x) == 0 : Int) = pdeg sigma :=
  beq_iff_eq

theorem rootVector_of_splits {s : State} {sigma : Poly} (h : splits s.gf sigma = true) :
    rootVector s sigma = .ok (rootBlocks s sigma) := by
  rw [rootVector, h, require_true, run_ok_bind, run_pure]

theorem rootVector_of_not_splits {s : State} {sigma : Poly} (h : splits s.gf sigma = false) :
    rootVector s sigma = .error (.raise .decodeFail 2) := by
  rw [rootVector, h, require_false, run_error_bind]

@[simp] theorem length_rootBlocks (s : State) (sigma : Poly) : (rootBlocks s sigma).length = s.n / s.t :=
  length_tabulate _ _

/-- Bit j of block b of the root vector. -/
theorem getLsbD_rootBlocks (s : State) (sigma : Poly) {b : Nat} (hb : b < (rootBlocks s sigma).length) {j : Nat}
    (hj : j < 256) : (lowBits s.t (rootBlocks s sigma)[b]).getLsbD j =
      (decide (j < s.t) && peval s.gf sigma (BitVec.ofNat 16 (b * s.t + j)) == 0) := by
  simp only [rootBlocks, getElem_tabulate, getLsbD_lowBits, getLsbD_bitsOf, isRoot, hj, decide_true, Bool.true_and,
    ← Bool.and_assoc, Bool.and_self]

/-- A rule that ends by writing the root vector of `sigma`. -/
theorem marksRoots_of_rule {i : Instr} {s : State} {e : Nat} {sigma : Poly}
    (hr : ruleOf i s = rootVector s sigma >>= fun ev => .ok (s.putBlocks e ev)) : MarksRoots i s e sigma := by
  constructor
  · intro hsplit
    rw [rootVector_of_splits ((splits_iff s sigma).2 hsplit), run_ok_bind] at hr
    refine ⟨_, exec_of_rule hr, rfl, fun b hb => ?_, fun q hq => ?_⟩
    · have hlen : b < (rootBlocks s sigma).length := by rwa [length_rootBlocks]
      exact ⟨_, blockWord_putBlocks s e _ b hlen, fun j hj => getLsbD_rootBlocks s sigma hlen hj⟩
    · exact cellGet_putBlocks_of_not s e _ q (by rwa [length_rootBlocks])
  · intro hsplit
    rw [rootVector_of_not_splits (Bool.eq_false_iff.2 fun h => hsplit ((splits_iff s sigma).1 h)),
      run_error_bind] at hr
    exact exec_of_raise hr

theorem ruleRoots_of_slots {s : State} {e ps : Field} {v : Nat → Elem} (hps : ps.toNat < 8) (hc : s.Cfgv)
    (he : e.toNat + s.n / s.t - 1 < s.params.bmemLen)
    (hv : ∀ k, k < s.params.plen → s.pSlot ps.toNat k = some (v k)) :
    ruleRoots e ps s = rootVector s (tabulate s.params.plen fun k => lowBits s.m (v k)) >>=
      fun ev => .ok (s.putBlocks e.toNat ev) := by
  have hops : ∀ f ∈ [(FieldId.fb, FieldKind.preg, ps)], f.2.1.legal s.params f.2.2 = true := by
    simpa [legal_preg, Config.nPreg] using hps
  rw [ruleRoots, checkOperands_bind hops, checkCfgv_bind hc, checkRegion_bind he, readPoly, readPolyTo_of_some hv,
    run_ok_bind]
  rfl

/-- Settles O44: ROOTS ends by writing the root vector of the polynomial it reads. -/
theorem rootsMarksTheRoots : Obligations.RootsMarksTheRoots := by
  rintro s e ps v _ hps hc he hv rfl
  exact marksRoots_of_rule (i := .roots e ps) (ruleRoots_of_slots hps hc he hv)

end Sys2Proof.Machine

/-! # The fused decoder

DECODE (44_decoder.md R348, R349) past its checks and its reads of the syndrome and of G. -/

namespace Sys2Proof.Machine

/-- The syndrome polynomial of planes, as the statements write it. -/
theorem ofPlanes_tabulate (m t : Nat) (b : Nat → Block) :
    ofPlanes m t (tabulate m b) = tabulate t fun j => bitsOf 16 m fun i => (b i).getLsbD j := by
  rw [ofPlanes]
  congr 1
  funext j
  exact bitsOf_congr fun i hi => by rw [getD_tabulate, if_pos hi]

/-- A list of t coefficients is the polynomial 0 exactly when all of them are 0. -/
theorem pzero_tabulate_iff (t : Nat) (f : Nat → Elem) :
    pzero (tabulate t f) = true ↔ tabulate t f = tabulate t fun _ => 0 := by
  have hzero : pzero (tabulate t f) = true ↔ ∀ i, pcoeff (tabulate t f) i = 0 := by
    rw [pzero, beq_iff_eq, ← Nat.le_zero, psize_le_iff]
    exact forall_congr' fun i => by simp
  rw [hzero]
  constructor
  · intro h
    refine List.ext_getElem (by simp) fun i hi _ => ?_
    have hcoeff := h i
    rw [pcoeff_tabulate, if_pos (by simpa using hi)] at hcoeff
    simpa using hcoeff
  · intro h i
    rw [h, pcoeff_tabulate, ite_self]

section Decode

variable {s : State} {e syn : Field} {b : Nat → Block} (hc : s.Cfgv) (ht : s.GoppaOk)
  (he : e.toNat + s.n / s.t - 1 < s.params.bmemLen) (hsyn : syn.toNat + s.m - 1 < s.params.bmemLen)
  (hb : ∀ i, i < s.m → s.block (syn.toNat + i) = some (b i))
include hc ht he hsyn hb

/-- DECODE past its checks and the read of its syndrome. -/
theorem ruleDecode_of_blocks : ruleDecode e syn s = (do
    let g ← readGFor s (ofPlanes s.m s.t (tabulate s.m b))
    underField s (s.putBlocks e.toNat (freeVector s)) (do
      let sigma ← locatorOf s g (ofPlanes s.m s.t (tabulate s.m b))
      let ev ← rootVector s sigma
      return s.putBlocks e.toNat ev)) := by
  rw [ruleDecode, checkCfgv_bind hc, checkGoppa_bind ht, checkRegion_bind he, checkRegion_bind hsyn,
    readBlocks_of_some hb, run_ok_bind]

/-- DECODE of a syndrome whose locator is `sigma`. -/
theorem ruleDecode_of_locator {g sigma : Poly} (hirr : s.gf.irreducible = true)
    (hg : readGFor s (ofPlanes s.m s.t (tabulate s.m b)) = .ok g)
    (hl : locatorOf s g (ofPlanes s.m s.t (tabulate s.m b)) = .ok sigma) :
    ruleDecode e syn s = rootVector s sigma >>= fun ev => .ok (s.putBlocks e.toNat ev) := by
  rw [ruleDecode_of_blocks hc ht he hsyn hb, hg, run_ok_bind, underField_of_irreducible hirr, hl, run_ok_bind]
  rfl

/-- DECODE of a syndrome whose locator fails. -/
theorem ruleDecode_of_locator_error {g : Poly} {f : Stop} (hirr : s.gf.irreducible = true)
    (hg : readGFor s (ofPlanes s.m s.t (tabulate s.m b)) = .ok g)
    (hl : locatorOf s g (ofPlanes s.m s.t (tabulate s.m b)) = .error f) :
    ruleDecode e syn s = .error f := by
  rw [ruleDecode_of_blocks hc ht he hsyn hb, hg, run_ok_bind, underField_of_irreducible hirr, hl, run_error_bind]

end Decode

/-- The locator of a zero syndrome needs neither G nor SQ (log entry 10). -/
theorem locatorOf_of_zero (s : State) (g : Poly) {syn : Poly} (h : pzero syn = true) : locatorOf s g syn = .ok [1] :=
  if_pos h

/-- A syndrome without an inverse fails before SQ is read (log entry 10). -/
theorem locatorOf_of_no_inverse {s : State} {g syn : Poly} (h0 : pzero syn = false) (h : pinvMod s.gf g syn = none) :
    locatorOf s g syn = .error (.raise .decodeFail 1) := by
  rw [locatorOf, h0, if_neg Bool.false_ne_true, h]

/-- The composition of 44_decoder.md R348. -/
theorem locatorOf_of_inverse {s : State} {g syn inv : Poly} {sq : List Poly} (h0 : pzero syn = false)
    (h : pinvMod s.gf g syn = some inv) (hsq : readSq s = .ok sq) :
    locatorOf s g syn = .ok (locator s.gf s.t (pfracMod s.gf s.t g (psqrtMod s.gf s.t g sq (paddX inv))).1
      (pfracMod s.gf s.t g (psqrtMod s.gf s.t g sq (paddX inv))).2) := by
  rw [locatorOf, h0, if_neg Bool.false_ne_true, h]
  simp only [hsq, run_ok_bind, run_pure]

theorem readGFor_of_nonzero (s : State) {syn : Poly} (h0 : pzero syn = false) : readGFor s syn = readG s := by
  rw [readGFor, h0, if_neg Bool.false_ne_true]

/-- Settles O46: the cases of `syndromeLocator`, each an end of `locatorOf`. -/
theorem decodeWritesTheErrorVector : Obligations.DecodeWritesTheErrorVector := by
  intro s e syn b g r S hc hirr ht he hsyn hb hS hread
  rw [← ofPlanes_tabulate] at hS
  cases h0 : pzero S with
  | true =>
    rw [syndromeLocator, if_pos h0]
    rw [hS] at h0
    exact marksRoots_of_rule (i := .decode e syn) (ruleDecode_of_locator hc ht he hsyn hb hirr
      (if_pos h0) (locatorOf_of_zero s [] h0))
  | false =>
    obtain ⟨hg, hr⟩ := hread fun hz => by
      rw [hS, ofPlanes_tabulate, ← pzero_tabulate_iff, ← ofPlanes_tabulate, ← hS, h0] at hz
      cases hz
    rw [syndromeLocator, if_neg (by rw [h0]; exact Bool.false_ne_true)]
    subst hS
    have hG := (readGFor_of_nonzero s h0).trans (readG_of_some hg)
    cases hinv : pinvMod s.gf (tabulate (s.t + 1) fun k => lowBits s.m (g k))
        (ofPlanes s.m s.t (tabulate s.m b)) with
    | none =>
      exact exec_of_raise (i := .decode e syn) (ruleDecode_of_locator_error hc ht he hsyn hb hirr hG
        (locatorOf_of_no_inverse h0 hinv))
    | some inv =>
      exact marksRoots_of_rule (i := .decode e syn) (ruleDecode_of_locator hc ht he hsyn hb hirr hG
        (locatorOf_of_inverse h0 hinv (readSq_of_some hr)))

end Sys2Proof.Machine

/-! # Correction

CORRECT (44_decoder.md R347): pass 1 collects the positions of the set elements or reports the smallest absent one, and
pass 2 flips the bit at each position inside the plaintext. -/

namespace Sys2Proof.Machine

/-! ### Pass 1 -/

/-- The positions of the set elements below n, in ascending order of the elements. -/
def setPositions (n : Nat) (set : Nat → Bool) (pos : Nat → Nat) : List Nat := ((List.range n).filter set).map pos

theorem setPositions_succ (n : Nat) (set : Nat → Bool) (pos : Nat → Nat) :
    setPositions (n + 1) set pos = setPositions n set pos ++ if set n then [pos n] else [] := by
  rw [setPositions, List.range_succ, List.filter_append, List.map_append, setPositions]
  by_cases h : set n <;> simp [h]

theorem readPos_of_some {s : State} {x : Nat} {v : PosEntry} (h : s.posEntry x = some v) :
    readPos s x = .ok v.toNat := by
  rw [readPos, readCell_eq_ok.2 h, run_ok_bind, run_pure]

section PassOne

variable {s : State} {ev : List Block} {pos : Nat → PosEntry}

/-- Every set element is present: pass 1 gives their positions. -/
theorem errorPositions_of_present {xs : List Nat}
    (h : ∀ x ∈ xs, vectorBit s.t ev x = true → s.posEntry x = some (pos x) ∧ (pos x).toNat < s.cipherBits) :
    errorPositions s ev xs = .ok ((xs.filter (vectorBit s.t ev)).map fun x => (pos x).toNat) := by
  induction xs with
  | nil => rfl
  | cons x xs ih =>
    have hrest := ih fun y hy => h y (List.mem_cons_of_mem x hy)
    rw [errorPositions]
    split
    next hx =>
      obtain ⟨hentry, hlt⟩ := h x List.mem_cons_self hx
      rw [readPos_of_some hentry, run_ok_bind, decide_eq_true hlt, require_true, run_ok_bind, hrest, run_ok_bind,
        run_pure, List.filter_cons_of_pos hx, List.map_cons]
    next hx => rw [hrest, List.filter_cons_of_neg hx]

/-- Pass 1 ends at the first set element that is absent. -/
theorem errorPositions_of_absent {before after : List Nat} {x : Nat}
    (h : ∀ y ∈ before, vectorBit s.t ev y = true → s.posEntry y = some (pos y) ∧ (pos y).toNat < s.cipherBits)
    (hx : vectorBit s.t ev x = true) (hentry : s.posEntry x = some (pos x))
    (habsent : s.cipherBits ≤ (pos x).toNat) :
    errorPositions s ev (before ++ x :: after) =
      .error (.raise .decodeFail (BitVec.ofNat 32 (3 + x * 65536))) := by
  induction before with
  | nil =>
    rw [List.nil_append, errorPositions, if_pos hx, readPos_of_some hentry, run_ok_bind,
      decide_eq_false (Nat.not_lt.2 habsent), require_false, run_error_bind]
  | cons y ys ih =>
    have hrest := ih fun z hz => h z (List.mem_cons_of_mem y hz)
    rw [List.cons_append, errorPositions]
    split
    next hy =>
      obtain ⟨hentry, hlt⟩ := h y List.mem_cons_self hy
      rw [readPos_of_some hentry, run_ok_bind, decide_eq_true hlt, require_true, run_ok_bind, hrest, run_error_bind]
    next => exact hrest

end PassOne

/-- The elements below n around one of them. -/
theorem range_split {n x : Nat} (hx : x < n) : ∃ after, List.range n = List.range x ++ x :: after := by
  obtain ⟨d, rfl⟩ := Nat.exists_eq_add_of_lt hx
  exact ⟨_, by rw [Nat.add_assoc, List.range_add, List.range_succ_eq_map, List.map_cons, Nat.add_zero]⟩

/-! ### Pass 2 -/

theorem getLsbD_one_shift_block {k j : Nat} (hj : j < 256) :
    (BitVec.ofNat 256 (1 <<< k)).getLsbD j = decide (j = k) := by
  rw [BitVec.getLsbD_ofNat, Nat.one_shiftLeft, Nat.testBit_two_pow, decide_eq_true hj, Bool.true_and]
  exact decide_eq_decide.2 eq_comm

/-- A flip changes the one bit it names. -/
theorem vectorBit_flipBit {t : Nat} (ht : 0 < t) (h256 : t ≤ 256) {v : List Block} {p q : Nat}
    (hq : q / t < v.length) : vectorBit t (flipBit t v p) q = (vectorBit t v q ^^ p == q) := by
  have hj : q % t < 256 := Nat.lt_of_lt_of_le (Nat.mod_lt q ht) h256
  have hsame : p = q ↔ p / t = q / t ∧ q % t = p % t := by
    constructor
    · rintro rfl; exact ⟨rfl, rfl⟩
    · rintro ⟨hd, hm⟩
      rw [← Nat.div_add_mod p t, ← Nat.div_add_mod q t, hd, hm]
  rw [vectorBit, flipBit, List.getD_eq_getElem?_getD, List.getElem?_set]
  by_cases hd : p / t = q / t
  · have hbit : decide (q % t = p % t) = (p == q) := by
      rw [Bool.beq_eq_decide_eq]
      exact decide_eq_decide.2 ⟨fun hm => hsame.2 ⟨hd, hm⟩, fun h => (hsame.1 h).2⟩
    rw [if_pos hd, if_pos (by rwa [hd]), Option.getD_some, BitVec.getLsbD_xor, getLsbD_one_shift_block hj, hbit, hd]
    rfl
  · have hne : (p == q) = false := beq_eq_false_iff_ne.2 fun h => hd (hsame.1 h).1
    rw [if_neg hd, hne, Bool.xor_false, ← List.getD_eq_getElem?_getD]
    rfl

theorem applyErrors_append (t plain : Nat) (w : List Block) (ps qs : List Nat) :
    applyErrors t plain w (ps ++ qs) = applyErrors t plain (applyErrors t plain w ps) qs :=
  List.foldl_append

/-- A plaintext bit after pass 2: flipped once for every set element with its position. -/
theorem vectorBit_applyErrors {t plain : Nat} (ht : 0 < t) (h256 : t ≤ 256) {w : List Block} {q : Nat}
    (hq : q / t < w.length) (hplain : q < plain) (n : Nat) (set : Nat → Bool) (pos : Nat → Nat) :
    vectorBit t (applyErrors t plain w (setPositions n set pos)) q =
      (vectorBit t w q ^^ xorSum n fun x => set x && pos x == q) := by
  induction n with
  | zero => exact (Bool.xor_false _).symm
  | succ n ih =>
    rw [setPositions_succ, applyErrors_append, xorSum, ← Bool.xor_assoc, ← ih]
    set v := applyErrors t plain w (setPositions n set pos) with hv
    have hlen : q / t < v.length := by rwa [hv, length_applyErrors]
    cases set n with
    | false => exact (Bool.xor_false _).symm
    | true =>
      show vectorBit t (if pos n < plain then flipBit t v (pos n) else v) q = _
      split
      · rw [vectorBit_flipBit ht h256 hlen, Bool.true_and]
      next hout =>
        have hne : (pos n == q) = false := beq_eq_false_iff_ne.2 fun h => hout (h ▸ hplain)
        rw [hne, Bool.and_false, Bool.xor_false]

/-! ### The command -/

/-- The info of DECODE_FAIL 3 for the element x (44_decoder.md R347). -/
theorem absent_info {x : Nat} (hx : x < 2 ^ 16) :
    BitVec.ofNat 32 (3 + x * 65536) = BitVec.ofNat 32 x <<< 16 ||| 3 := by
  refine BitVec.eq_of_toNat_eq ?_
  have hshift : (BitVec.ofNat 32 x <<< 16).toNat = x <<< 16 := by
    rw [BitVec.toNat_shiftLeft, BitVec.toNat_ofNat, Nat.mod_eq_of_lt (show x < 2 ^ 32 by omega), Nat.shiftLeft_eq,
      Nat.mod_eq_of_lt (by omega)]
  have hor : x <<< 16 ||| 3 = x <<< 16 + 3 := (Nat.shiftLeft_add_eq_or_of_lt (by omega) x).symm
  rw [BitVec.toNat_or, hshift, BitVec.toNat_ofNat, Nat.mod_eq_of_lt (by omega),
    show (3 : Word32).toNat = 3 from rfl, hor, Nat.shiftLeft_eq, Nat.add_comm]

section Correct

variable {s : State} {d c e : Field} {ev w : Nat → Block} (hc : s.Cfgv) (hm : s.m ≤ s.nb)
  (hn : s.cipherBits ≤ s.n / 2) (hd : s.m < s.nb → d.toNat + s.nb - s.m - 1 < s.params.bmemLen)
  (hcr : c.toNat + s.nb - 1 < s.params.bmemLen) (her : e.toNat + s.n / s.t - 1 < s.params.bmemLen)
  (hev : ∀ b, b < s.n / s.t → s.block (e.toNat + b) = some (ev b))
  (hw : ∀ k, k < s.nb - s.m → s.block (c.toNat + k) = some (w k))

include hc hm hn hd hcr her hev hw in
/-- CORRECT past its checks and its reads of the error vector and the ciphertext. -/
theorem ruleCorrect_of_blocks : ruleCorrect d c e s = (do
    let ps ← errorPositions s (tabulate (s.n / s.t) ev) (List.range s.n)
    return s.putBlocks d.toNat (applyErrors s.t s.plainBits (tabulate (s.nb - s.m) w) ps)) := by
  rw [ruleCorrect, checkCfgv_bind hc, decide_eq_true ⟨hm, hn⟩, require_true, run_ok_bind, decide_eq_true hd,
    require_true, run_ok_bind, checkRegion_bind hcr, checkRegion_bind her, readBlocks_of_some hev, run_ok_bind,
    readBlocks_of_some hw, run_ok_bind]

include hc in
/-- The error vector's bit of element x. -/
theorem vectorBit_tabulate {x : Nat} (hx : x < s.n) :
    vectorBit s.t (tabulate (s.n / s.t) ev) x = (ev (x / s.t)).getLsbD (x % s.t) := by
  rw [vectorBit, getD_tabulate, if_pos (block_index_lt hc hx)]

end Correct

/-- Bit j of block k of the plaintext that CORRECT writes. -/
theorem getLsbD_applyErrors {t nb n : Nat} (ht : 0 < t) (h256 : t ≤ 256) (w : Nat → Block) (set : Nat → Bool)
    (pos : Nat → Nat) {k : Nat} (hk : k < (applyErrors t (nb * t) (tabulate nb w) (setPositions n set pos)).length)
    (j : Nat) :
    (lowBits t (applyErrors t (nb * t) (tabulate nb w) (setPositions n set pos))[k]).getLsbD j =
      (decide (j < t) && ((w k).getLsbD j ^^ xorSum n fun x => set x && pos x == k * t + j)) := by
  rw [getLsbD_lowBits]
  by_cases hj : j < t
  · have hknb : k < nb := by rwa [length_applyErrors, length_tabulate] at hk
    have hdiv : (k * t + j) / t = k := by rw [Nat.mul_comm, Nat.mul_add_div ht, Nat.div_eq_of_lt hj, Nat.add_zero]
    have hmod : (k * t + j) % t = j := by rw [Nat.mul_comm, Nat.mul_add_mod, Nat.mod_eq_of_lt hj]
    have hplain : k * t + j < nb * t :=
      calc k * t + j < k * t + t := Nat.add_lt_add_left hj _
        _ = (k + 1) * t := (Nat.succ_mul k t).symm
        _ ≤ nb * t := Nat.mul_le_mul_right t hknb
    have hbit := vectorBit_applyErrors ht h256 (w := tabulate nb w) (q := k * t + j)
      (by rwa [hdiv, length_tabulate]) hplain n set pos
    rw [vectorBit, vectorBit, hdiv, hmod, getD_tabulate, if_pos hknb, List.getD_eq_getElem _ _ hk] at hbit
    rw [hbit]
  · rw [decide_eq_false hj, Bool.false_and, Bool.false_and]

/-- Settles O45: pass 1 by its two lemmas, and the bits after pass 2. -/
theorem correctFlipsTheErrors : Obligations.CorrectFlipsTheErrors := by
  intro s d c e ev w pos hp hc hm hn hd hcr her hev hw hpos
  have hrule := ruleCorrect_of_blocks hc hm hn hd hcr her hev hw
  have hbit {x : Nat} (hx : x < s.n) := vectorBit_tabulate (ev := ev) hc hx
  have ht : 0 < s.t := Nat.two_pow_pos _
  have h256 : s.t ≤ 256 := Nat.pow_le_pow_right (by omega) (hc.logT_le_eight hp)
  constructor
  · intro hpresent
    have hset : ∀ x ∈ List.range s.n, vectorBit s.t (tabulate (s.n / s.t) ev) x = true →
        s.posEntry x = some (pos x) ∧ (pos x).toNat < s.cipherBits := fun x hx hbx => by
      have hlt := List.mem_range.1 hx
      rw [hbit hlt] at hbx
      exact ⟨hpos x hlt hbx, hpresent x hlt hbx⟩
    rw [errorPositions_of_present hset, run_ok_bind, run_pure] at hrule
    refine ⟨_, exec_of_rule (i := .correct d c e) hrule, rfl, fun k hk => ?_, fun q hq => ?_⟩
    · have hlen : k < (applyErrors s.t s.plainBits (tabulate (s.nb - s.m) w)
          (setPositions s.n (vectorBit s.t (tabulate (s.n / s.t) ev)) fun x => (pos x).toNat)).length := by
        rwa [length_applyErrors, length_tabulate]
      refine ⟨_, blockWord_putBlocks s d.toNat _ k hlen, fun j _ => ?_⟩
      refine (getLsbD_applyErrors ht h256 w _ _ hlen j).trans ?_
      rw [xorSum_congr fun x hx => by rw [hbit hx]]
    · exact cellGet_putBlocks_of_not s d.toNat _ q (by rwa [length_applyErrors, length_tabulate])
  · intro x hx hbx habsent hfirst
    obtain ⟨after, hsplit⟩ := range_split hx
    have hbefore : ∀ y ∈ List.range x, vectorBit s.t (tabulate (s.n / s.t) ev) y = true →
        s.posEntry y = some (pos y) ∧ (pos y).toNat < s.cipherBits := fun y hy hby => by
      have hlt := List.mem_range.1 hy
      rw [hbit (hlt.trans hx)] at hby
      exact ⟨hpos y (hlt.trans hx) hby, hfirst y hlt hby⟩
    have hx16 : x < 2 ^ 16 := Nat.lt_of_lt_of_le hx (Nat.pow_le_pow_right (by omega) hc.m_le_sixteen)
    rw [hsplit, errorPositions_of_absent hbefore ((hbit hx).trans hbx) (hpos x hx hbx) habsent, run_error_bind,
      absent_info hx16] at hrule
    exact exec_of_raise (i := .correct d c e) hrule

end Sys2Proof.Machine

/-! # Congruences of polynomials

For an irreducible F the coefficient lists of m-bit elements are the polynomials over a field, and `pmod` gives the
remainders of that ring: equal remainders are congruence modulo the divisor (00_scope.md R20). -/

namespace Sys2Proof.Machine

open Polynomial

/-! ### Sizes -/

/-- A sum is as long as its longer term. -/
theorem psize_padd_of_lt {p q : Poly} (h : psize q < psize p) : psize (padd p q) = psize p := by
  refine Nat.le_antisymm (psize_le_iff.2 fun i hi => ?_) (Nat.le_of_not_lt fun hlt => ?_)
  · rw [pcoeff_padd, pcoeff_of_psize_le hi, pcoeff_of_psize_le (by omega)]
    rfl
  · have htop := pcoeff_of_psize_le (p := padd p q) (n := psize p - 1) (by omega)
    rw [pcoeff_padd, pcoeff_of_psize_le (p := q) (by omega)] at htop
    exact plead_ne_zero (p := p) (by omega) (BitVec.xor_zero.symm.trans htop)

/-- A remainder is shorter than the divisor, in every field. -/
theorem length_pdivmod_remainder (k : Gf) (a b : Poly) : (pdivmod k a b).2.length ≤ psize b - 1 := by
  rw [pdivmod]
  cases a with
  | nil => exact Nat.zero_le _
  | cons a0 a => exact List.length_take_le _ _

theorem psize_pdivmod_remainder (k : Gf) (a b : Poly) : psize (pdivmod k a b).2 ≤ psize b - 1 :=
  Nat.le_trans (psize_le_length _) (length_pdivmod_remainder k a b)

theorem psize_pmod_lt (k : Gf) {g : Poly} (hd : 0 ≤ pdeg g) (a : Poly) : psize (pmod k a g) < psize g := by
  have hpos := pdeg_nonneg.1 hd
  have := psize_pdivmod_remainder k a g
  rw [pmod]
  omega

/-! ### The constant 1 -/

theorem psize_one : psize [1] = 1 := by decide

theorem coeffs_one {k : Gf} (h : k.DegreeOk) : k.Coeffs [1] := coeffs_cons.2 ⟨h.one_lt, coeffs_nil k⟩

theorem Gf.poly_nil (k : Gf) : k.poly [] = 0 := rfl

theorem Gf.poly_one (k : Gf) : k.poly [1] = 1 := by
  rw [Gf.poly, Gf.val_one, C_1, Gf.poly_nil, mul_zero, add_zero]

/-! ### Degrees -/

section Field

variable {k : Gf} (h : k.DegreeOk)
include h

theorem Gf.coeff_poly_eq_zero {p : Poly} (hp : k.Coeffs p) (n : Nat) : (k.poly p).coeff n = 0 ↔ pcoeff p n = 0 := by
  rw [Gf.coeff_poly, Gf.val_eq_zero h (coeffs_iff.1 hp n)]

theorem Gf.degree_poly_lt_iff {p : Poly} (hp : k.Coeffs p) {n : Nat} : (k.poly p).degree < n ↔ psize p ≤ n := by
  rw [degree_lt_iff_coeff_zero, psize_le_iff]
  exact forall_congr' fun i => by rw [Gf.coeff_poly_eq_zero h hp]

theorem Gf.poly_eq_zero_iff {p : Poly} (hp : k.Coeffs p) : k.poly p = 0 ↔ psize p = 0 := by
  rw [← Nat.le_zero, psize_le_iff, Polynomial.ext_iff]
  exact ⟨fun hz i _ => (Gf.coeff_poly_eq_zero h hp i).1 (hz i), fun hz i =>
    (Gf.coeff_poly_eq_zero h hp i).2 (hz i (Nat.zero_le i))⟩

theorem Gf.degree_poly {p : Poly} (hp : k.Coeffs p) (hpos : 0 < psize p) :
    (k.poly p).degree = (psize p - 1 : Nat) := by
  refine le_antisymm ?_ (le_degree_of_ne_zero fun hz => ?_)
  · have hlt := (Gf.degree_poly_lt_iff h hp (n := psize p - 1 + 1)).2 (by omega)
    exact degree_le_of_natDegree_le (Nat.le_of_lt_succ ((natDegree_lt_iff_degree_lt
      (mt (Gf.poly_eq_zero_iff h hp).1 (by omega))).2 hlt))
  · exact plead_ne_zero hpos ((Gf.coeff_poly_eq_zero h hp _).1 hz)

theorem Gf.degree_poly_lt_degree_poly {p q : Poly} (hp : k.Coeffs p) (hq : k.Coeffs q) (hlt : psize p < psize q) :
    (k.poly p).degree < (k.poly q).degree := by
  rw [Gf.degree_poly h hq (by omega)]
  exact (Gf.degree_poly_lt_iff h hp).2 (by omega)

variable (hirr : k.irreducible = true)
include hirr

/-- The residue classes modulo an irreducible F are an integral domain. -/
theorem Gf.isDomain : IsDomain k.Ring :=
  have : Fact (Irreducible (bitPoly k.f.toNat)) := ⟨(Gf.irreducible_iff h).1 hirr⟩
  Field.isDomain

/-- Degrees add in a product. -/
theorem psize_pmul {p q : Poly} (hp : k.Coeffs p) (hq : k.Coeffs q) (hp0 : 0 < psize p) (hq0 : 0 < psize q) :
    psize (pmul k p q) = psize p + psize q - 1 := by
  have := Gf.isDomain h hirr
  have hpq := coeffs_pmul h hp q
  have hne : k.poly (pmul k p q) ≠ 0 := by
    rw [Gf.poly_pmul h hp hq]
    exact mul_ne_zero (mt (Gf.poly_eq_zero_iff h hp).1 (by omega)) (mt (Gf.poly_eq_zero_iff h hq).1 (by omega))
  have hpos : 0 < psize (pmul k p q) := Nat.pos_of_ne_zero (mt (Gf.poly_eq_zero_iff h hpq).2 hne)
  have hdeg := Gf.degree_poly h hpq hpos
  rw [Gf.poly_pmul h hp hq, degree_mul, Gf.degree_poly h hp hp0, Gf.degree_poly h hq hq0] at hdeg
  have hnat : psize p - 1 + (psize q - 1) = psize (pmul k p q) - 1 := by exact_mod_cast hdeg
  omega

/-! ### Remainders -/

section Modulus

variable {g : Poly} (hg : k.Coeffs g) (hd : 0 ≤ pdeg g)
include hg hd

theorem coeffs_pmod {a : Poly} (ha : k.Coeffs a) : k.Coeffs (pmod k a g) :=
  (pdivmod_divSpec h hirr ha hg hd).remainder

theorem poly_dvd_sub_pmod {a : Poly} (ha : k.Coeffs a) : k.poly g ∣ k.poly a - k.poly (pmod k a g) := by
  rw [(pdivmod_divSpec h hirr ha hg hd).eq, pmod, add_sub_cancel_right]
  exact dvd_mul_left _ _

/-- The remainder is the one polynomial shorter than the divisor that is congruent. -/
theorem pmod_eq_iff {a c : Poly} (ha : k.Coeffs a) (hc : k.Coeffs c) (hlt : psize c < psize g) :
    (∀ j, pcoeff (pmod k a g) j = pcoeff c j) ↔ k.poly g ∣ k.poly a - k.poly c := by
  have hdvd := poly_dvd_sub_pmod h hirr hg hd ha
  have hr := coeffs_pmod h hirr hg hd ha
  constructor
  · intro heq
    rwa [k.poly_congr heq] at hdvd
  · intro hac
    have hsub : k.poly g ∣ k.poly (pmod k a g) - k.poly c := by
      have := dvd_sub hac hdvd
      rwa [sub_sub_sub_cancel_left] at this
    have := Gf.isDomain h hirr
    have hdeg : (k.poly (pmod k a g) - k.poly c).degree < (k.poly g).degree :=
      lt_of_le_of_lt (degree_sub_le _ _) (max_lt
        (Gf.degree_poly_lt_degree_poly h hr hg (psize_pmod_lt k hd a))
        (Gf.degree_poly_lt_degree_poly h hc hg hlt))
    exact Gf.poly_inj h hr hc (sub_eq_zero.1 (eq_zero_of_dvd_of_degree_lt hsub hdeg))

/-- A polynomial shorter than the divisor is its own remainder. -/
theorem pmod_of_psize_lt {a : Poly} (ha : k.Coeffs a) (hlt : psize a < psize g) (j : Nat) :
    pcoeff (pmod k a g) j = pcoeff a j :=
  (pmod_eq_iff h hirr hg hd ha ha hlt).2 (by rw [sub_self]; exact dvd_zero _) j

/-- Congruent polynomials have the same remainder. -/
theorem pmod_eq_pmod {a b : Poly} (ha : k.Coeffs a) (hb : k.Coeffs b) (hab : k.poly g ∣ k.poly a - k.poly b) (j : Nat) :
    pcoeff (pmod k a g) j = pcoeff (pmod k b g) j := by
  refine (pmod_eq_iff h hirr hg hd ha (coeffs_pmod h hirr hg hd hb) (psize_pmod_lt k hd b)).2 ?_ j
  have := dvd_add hab (poly_dvd_sub_pmod h hirr hg hd hb)
  rwa [sub_add_sub_cancel] at this

end Modulus

/-- The degree of a quotient, of a longer polynomial by a shorter one. -/
theorem psize_quotient {a b : Poly} (ha : k.Coeffs a) (hb : k.Coeffs b) (hb0 : 0 < psize b) (hlt : psize b < psize a) :
    0 < psize (pdivmod k a b).1 ∧ psize a = psize (pdivmod k a b).1 + psize b - 1 := by
  obtain ⟨heq, -, hq, -⟩ := pdivmod_spec h hirr ha hb (pdeg_nonneg.2 hb0)
  have hr := psize_pdivmod_remainder k a b
  set q := (pdivmod k a b).1
  set r := (pdivmod k a b).2
  have hpos : 0 < psize q := by
    refine Nat.pos_of_ne_zero fun hq0 => ?_
    have hzero : ∀ i, pcoeff q i = 0 := fun i => pcoeff_of_psize_le (by omega)
    have hproduct (n : Nat) : pcoeff (pmul k q b) n = 0 := by
      simp only [pcoeff_pmul, hzero, zero_fmul, elemSum_zero]
    have hsame : psize a = psize r := psize_congr fun n => by
      rw [heq, hproduct]
      simp
    omega
  have hmul := psize_pmul h hirr hq hb hpos hb0
  refine ⟨hpos, ?_⟩
  rw [← hmul, ← psize_padd_of_lt (p := pmul k q b) (q := r) (by omega)]
  exact psize_congr fun n => by rw [pcoeff_padd, heq]

end Field

end Sys2Proof.Machine

/-! # The inverse modulo G

The extended Euclid of PINV (44_decoder.md R341): each remainder is its cofactor times p modulo G, and the last two
remainders have the common divisors of G and p. -/

namespace Sys2Proof.Machine

open Polynomial

/-- The two remainders and cofactors of the extended Euclid of `s` modulo `g`. -/
structure EuclidInv (k : Gf) (g s r0 r1 u0 u1 : Poly) : Prop where
  coeffs0 : k.Coeffs r0
  coeffs1 : k.Coeffs r1
  cofactor0 : k.Coeffs u0
  cofactor1 : k.Coeffs u1
  cong0 : k.poly g ∣ k.poly u0 * k.poly s - k.poly r0
  cong1 : k.poly g ∣ k.poly u1 * k.poly s - k.poly r1
  common : ∀ d, d ∣ k.poly r0 → d ∣ k.poly r1 → d ∣ k.poly g ∧ d ∣ k.poly s
  nonconst : psize r1 = 0 → 1 < psize r0

/-- What the extended Euclid answers: a constant `r`, its cofactor `u`, and, for r = 0, a common divisor that is no
unit. -/
structure EuclidEnd (k : Gf) (g s r u : Poly) : Prop where
  cofactor : k.Coeffs u
  remainder : k.Coeffs r
  const : psize r ≤ 1
  cong : k.poly g ∣ k.poly u * k.poly s - k.poly r
  common : psize r = 0 → ∃ d, ¬ IsUnit d ∧ d ∣ k.poly g ∧ d ∣ k.poly s

/-- A constant is its coefficient of x^0. -/
theorem Gf.poly_of_psize_le_one (k : Gf) {r : Poly} (hr : psize r ≤ 1) : k.poly r = C (k.val (pcoeff r 0)) := by
  have hone (n : Nat) : pcoeff r n = pcoeff [pcoeff r 0] n := by
    cases n with
    | zero => rfl
    | succ n => exact pcoeff_of_psize_le (by omega)
  rw [k.poly_congr hone, Gf.poly, Gf.poly, mul_zero, add_zero]

/-! ### The cases of PINV -/

theorem pinvMod_of_zero {k : Gf} {g p : Poly} (h0 : pzero (pmod k p g) = true) : pinvMod k g p = none := if_pos h0

/-- For a nonzero remainder PINV answers by what the loop ends at. -/
theorem pinvMod_of_nonzero {k : Gf} {g p : Poly} (h0 : pzero (pmod k p g) = false) :
    pinvMod k g p =
      if pzero (invLoop k (psize (pmod k p g)) g (pmod k p g) [] [1]).1 then none
      else some (pmod k (pscale k (finv k (pcoeff (invLoop k (psize (pmod k p g)) g (pmod k p g) [] [1]).1 0))
        (invLoop k (psize (pmod k p g)) g (pmod k p g) [] [1]).2) g) := by
  rw [pinvMod, h0]
  rfl

/-! ### The loop -/

section Field

variable {k : Gf} (h : k.DegreeOk) (hirr : k.irreducible = true)
include h hirr

/-- A polynomial of positive degree is no unit. -/
theorem not_isUnit_poly {p : Poly} (hp : k.Coeffs p) (hsize : 1 < psize p) : ¬ IsUnit (k.poly p) := by
  have := Gf.isDomain h hirr
  intro hunit
  have hdeg := degree_eq_zero_of_isUnit hunit
  rw [Gf.degree_poly h hp (by omega)] at hdeg
  have : psize p - 1 = 0 := by exact_mod_cast hdeg
  omega

omit hirr in
theorem EuclidInv.init {g s : Poly} (hg : k.Coeffs g) (hs : k.Coeffs s) (hs0 : 0 < psize s) :
    EuclidInv k g s g s [] [1] where
  coeffs0 := hg
  coeffs1 := hs
  cofactor0 := coeffs_nil k
  cofactor1 := coeffs_one h
  cong0 := by rw [Gf.poly_nil, zero_mul, zero_sub]; exact (dvd_refl _).neg_right
  cong1 := by rw [Gf.poly_one, one_mul, sub_self]; exact dvd_zero _
  common := fun _ h0 h1 => ⟨h0, h1⟩
  nonconst := fun h0 => by omega

theorem EuclidInv.step {g s r0 r1 u0 u1 : Poly} (hi : EuclidInv k g s r0 r1 u0 u1) (hdeg : 0 < pdeg r1) :
    EuclidInv k g s r1 (pdivmod k r0 r1).2 u1 (padd u0 (pmul k (pdivmod k r0 r1).1 u1)) := by
  obtain ⟨hq, hr, -, heq⟩ := pdivmod_divSpec h hirr hi.coeffs0 hi.coeffs1 hdeg.le
  have hmul := coeffs_pmul h hq u1
  refine ⟨hi.coeffs1, hr, hi.cofactor1, coeffs_padd hi.cofactor0 hmul, hi.cong1, ?_, fun d h1 hd => ?_, fun _ => ?_⟩
  · have hcomb := dvd_add hi.cong0 (dvd_mul_of_dvd_right hi.cong1 (k.poly (pdivmod k r0 r1).1))
    rw [Gf.poly_padd, Gf.poly_pmul h hq hi.cofactor1]
    convert hcomb using 1
    rw [heq]
    linear_combination (k.poly (pdivmod k r0 r1).1 * k.poly r1) * k.two_eq_zero
  · refine hi.common d ?_ h1
    rw [heq]
    exact dvd_add (dvd_mul_of_dvd_right h1 _) hd
  · rw [pdeg] at hdeg
    omega

/-- A constant remainder ends the Euclid. -/
theorem EuclidInv.done {g s r0 r1 u0 u1 : Poly} (hi : EuclidInv k g s r0 r1 u0 u1) (hconst : psize r1 ≤ 1) :
    EuclidEnd k g s r1 u1 := by
  refine ⟨hi.cofactor1, hi.coeffs1, hconst, hi.cong1, fun h0 => ?_⟩
  refine ⟨k.poly r0, not_isUnit_poly h hirr hi.coeffs0 (hi.nonconst h0), hi.common _ (dvd_refl _) ?_⟩
  rw [(Gf.poly_eq_zero_iff h hi.coeffs1).2 h0]
  exact dvd_zero _

/-- The loop ends at a constant remainder: its fuel, the size of r1, falls with every pass. -/
theorem EuclidInv.loop {g s : Poly} {n : Nat} {r0 r1 u0 u1 : Poly} (hi : EuclidInv k g s r0 r1 u0 u1)
    (hn : psize r1 ≤ n) :
    EuclidEnd k g s (invLoop k n r0 r1 u0 u1).1 (invLoop k n r0 r1 u0 u1).2 := by
  induction n generalizing r0 r1 u0 u1 with
  | zero =>
    have hconst : psize r1 ≤ 1 := by omega
    exact hi.done h hirr hconst
  | succ n ih =>
    rw [invLoop]
    split
    next hdeg =>
      have hr := psize_pdivmod_remainder k r0 r1
      have hfalls : psize (pdivmod k r0 r1).2 ≤ n := by rw [pdeg] at hdeg; omega
      exact ih (hi.step h hirr hdeg) hfalls
    next hdeg =>
      have hconst : psize r1 ≤ 1 := by rw [pdeg] at hdeg; omega
      exact hi.done h hirr hconst

/-- The extended Euclid of a nonzero remainder. -/
theorem euclidEnd_of_nonzero {g s : Poly} (hg : k.Coeffs g) (hs : k.Coeffs s) (h0 : pzero s = false) :
    EuclidEnd k g s (invLoop k (psize s) g s [] [1]).1 (invLoop k (psize s) g s [] [1]).2 := by
  have hpos : 0 < psize s := Nat.pos_of_ne_zero (beq_eq_false_iff_ne.1 h0)
  exact (EuclidInv.init h hg hs hpos).loop h hirr (Nat.le_refl _)

/-- The cofactor over the constant is an inverse modulo g. -/
theorem EuclidEnd.inverse {g s r u : Poly} (he : EuclidEnd k g s r u) (h0 : pzero r = false) :
    k.Coeffs (pscale k (finv k (pcoeff r 0)) u) ∧
      k.poly g ∣ k.poly (pscale k (finv k (pcoeff r 0)) u) * k.poly s - 1 := by
  have hc := coeffs_iff.1 he.remainder 0
  have hne : pcoeff r 0 ≠ 0 := by
    have hpos : psize r ≠ 0 := beq_eq_false_iff_ne.1 h0
    have hsize : psize r - 1 = 0 := by have := he.const; omega
    have hlead := plead_ne_zero (p := r) (by omega)
    rwa [plead, hsize] at hlead
  have hinv := finv_lt h hc
  refine ⟨coeffs_pscale h hinv u, ?_⟩
  have hone : C (k.val (finv k (pcoeff r 0))) * C (k.val (pcoeff r 0)) = 1 := by
    rw [← C_mul, mul_comm, ← Gf.val_fmul h hc hinv, fmul_finv h hirr hc hne, Gf.val_one, C_1]
  have hcong := dvd_mul_of_dvd_right he.cong (C (k.val (finv k (pcoeff r 0))))
  rw [k.poly_of_psize_le_one he.const, mul_sub, hone, ← mul_assoc] at hcong
  rwa [Gf.poly_pscale h hinv he.cofactor]

/-! ### The answer of PINV -/

section Answer

variable {g p : Poly} (hg : k.Coeffs g) (hp : k.Coeffs p) (hd : 1 ≤ pdeg g)
include hg hp hd

/-- The product u·p leaves the remainder 1 exactly when it is congruent to 1. -/
theorem pmod_eq_one_iff {u : Poly} (hu : k.Coeffs u) :
    (∀ j, pcoeff (pmod k (pmul k u p) g) j = if j = 0 then 1 else 0) ↔ k.poly g ∣ k.poly u * k.poly p - 1 := by
  have hcoeff (j : Nat) : pcoeff [1] j = if j = 0 then 1 else 0 := by cases j <;> rfl
  have hlt : psize [1] < psize g := by rw [psize_one]; rw [pdeg] at hd; omega
  rw [← Gf.poly_one, ← Gf.poly_pmul h hu hp, ← pmod_eq_iff h hirr hg (by omega) (coeffs_pmul h hu p)
    (coeffs_one h) hlt]
  exact forall_congr' fun j => by rw [hcoeff]

/-- The remainder of p modulo g has an inverse u modulo g exactly when p has. -/
theorem dvd_mul_pmod_sub_iff (u : k.Ring[X]) :
    k.poly g ∣ u * k.poly (pmod k p g) - 1 ↔ k.poly g ∣ u * k.poly p - 1 := by
  have hmod := dvd_mul_of_dvd_right (poly_dvd_sub_pmod h hirr hg (by omega) hp) u
  have hsplit : u * k.poly p - 1 = u * (k.poly p - k.poly (pmod k p g)) + (u * k.poly (pmod k p g) - 1) := by ring
  rw [hsplit]
  exact (dvd_add_right hmod).symm

theorem pinvMod_some {u : Poly} (hu : pinvMod k g p = some u) :
    k.Coeffs u ∧ psize u < psize g ∧ k.poly g ∣ k.poly u * k.poly p - 1 := by
  have hs := coeffs_pmod h hirr hg (by omega) hp
  cases hs0 : pzero (pmod k p g) with
  | true => rw [pinvMod_of_zero hs0] at hu; cases hu
  | false =>
    rw [pinvMod_of_nonzero hs0] at hu
    have hend := euclidEnd_of_nonzero h hirr hg hs hs0
    split at hu
    · cases hu
    next hr0 =>
      obtain ⟨hv, hinv⟩ := hend.inverse h hirr (Bool.eq_false_of_not_eq_true hr0)
      rw [dvd_mul_pmod_sub_iff h hirr hg hp hd] at hinv
      cases hu
      refine ⟨coeffs_pmod h hirr hg (by omega) hv, psize_pmod_lt k (by omega) _, ?_⟩
      have hmod := dvd_mul_of_dvd_left (poly_dvd_sub_pmod h hirr hg (by omega) hv) (k.poly p)
      convert dvd_sub hinv hmod using 1
      ring

/-- Without an answer G and p have a common divisor that is no unit. -/
theorem pinvMod_none (hn : pinvMod k g p = none) : ∃ d, ¬ IsUnit d ∧ d ∣ k.poly g ∧ d ∣ k.poly p := by
  have hs := coeffs_pmod h hirr hg (by omega) hp
  have hmod := poly_dvd_sub_pmod h hirr hg (by omega) hp
  have lift {d : k.Ring[X]} (hdg : d ∣ k.poly g) (hds : d ∣ k.poly (pmod k p g)) : d ∣ k.poly p :=
    (dvd_sub_left hds).1 (hdg.trans hmod)
  cases hs0 : pzero (pmod k p g) with
  | true =>
    have hzero := (Gf.poly_eq_zero_iff h hs).2 (beq_iff_eq.1 hs0)
    refine ⟨k.poly g, not_isUnit_poly h hirr hg (by rw [pdeg] at hd; omega), dvd_refl _, lift (dvd_refl _) ?_⟩
    rw [hzero]
    exact dvd_zero _
  | false =>
    rw [pinvMod_of_nonzero hs0] at hn
    have hend := euclidEnd_of_nonzero h hirr hg hs hs0
    split at hn
    next hr0 =>
      obtain ⟨d, hunit, hdg, hds⟩ := hend.common (beq_iff_eq.1 hr0)
      exact ⟨d, hunit, hdg, lift hdg hds⟩
    · cases hn

end Answer

end Field

/-- Settles O39: the answer is an inverse by the invariant `EuclidInv`; without one, a common divisor of G and p would
divide u·p and u·p − 1. -/
theorem inverseModuloGIsTheInverse : Obligations.InverseModuloGIsTheInverse := by
  intro k g p h hirr hg hp hd
  refine ⟨fun u hu => ?_, fun hn u hu hall => ?_⟩
  · obtain ⟨hcoeffs, hsize, hinv⟩ := pinvMod_some h hirr hg hp hd hu
    refine ⟨by rw [pdeg, pdeg]; omega, (pmod_eq_one_iff h hirr hg hp hd hcoeffs).2 hinv⟩
  · obtain ⟨d, hunit, hdg, hdp⟩ := pinvMod_none h hirr hg hp hd hn
    have hone := hdg.trans ((pmod_eq_one_iff h hirr hg hp hd hu).1 hall)
    exact hunit (isUnit_of_dvd_one ((dvd_sub_right (dvd_mul_of_dvd_right hdp _)).1 hone))

end Sys2Proof.Machine

/-! # The square root modulo G

PSQRT (44_decoder.md R343): a sum of rows of SQ, and the square root that the sum is when SQ holds those of the powers
of x, because squaring is additive. -/

namespace Sys2Proof.Machine

open Polynomial

/-- A coefficient of a sum of polynomials is the sum of the coefficients. -/
theorem pcoeff_foldl_padd (f : Nat → Poly) (n t : Nat) :
    pcoeff ((List.range t).foldl (fun r i => padd r (f i)) []) n = elemSum t fun i => pcoeff (f i) n := by
  induction t with
  | zero => rfl
  | succ t ih => rw [List.range_succ, List.foldl_append, elemSum_succ, ← ih]; exact pcoeff_padd _ _ n

theorem pcoeff_psqrtMod (k : Gf) (t n : Nat) (g p : Poly) (sq : List Poly) :
    pcoeff (psqrtMod k t g sq p) n =
      elemSum t fun i => fmul k (fsqrt k (pcoeff (pmod k p g) i)) (pcoeff (sq.getD i []) n) := by
  refine (pcoeff_foldl_padd (fun i => pscale k (fsqrt k (pcoeff (pmod k p g) i)) (sq.getD i [])) n t).trans ?_
  simp only [pcoeff_pscale]

section Field

variable {k : Gf} (h : k.DegreeOk)
include h

omit h in
theorem elemSum_lt {n : Nat} {f : Nat → Elem} (hf : ∀ i, i < n → (f i).toNat < 2 ^ k.m) :
    (elemSum n f).toNat < 2 ^ k.m := by
  induction n with
  | zero => exact Nat.two_pow_pos _
  | succ n ih =>
    rw [elemSum_succ]
    exact xor_toNat_lt (ih fun i hi => hf i (by omega)) (hf n (by omega))

omit h in
theorem Gf.val_elemSum (n : Nat) (f : Nat → Elem) : k.val (elemSum n f) = ∑ i ∈ Finset.range n, k.val (f i) := by
  induction n with
  | zero => exact k.val_zero
  | succ n ih => rw [elemSum_succ, Gf.val_xor, ih, Finset.sum_range_succ]

variable {t : Nat} {g p : Poly} {sq : List Poly} (hv : k.Coeffs (pmod k p g))
  (hsq : ∀ i, i < t → k.Coeffs (sq.getD i []))
include hv

theorem coeffs_psqrtMod : k.Coeffs (psqrtMod k t g sq p) := by
  refine coeffs_iff.2 fun n => ?_
  rw [pcoeff_psqrtMod]
  exact elemSum_lt fun i _ => fmul_lt h (fsqrt_lt h (coeffs_iff.1 hv i)) _

include hsq

/-- The polynomial that PSQRT's result stands for. -/
theorem Gf.poly_psqrtMod : k.poly (psqrtMod k t g sq p) =
    ∑ i ∈ Finset.range t, C (k.val (fsqrt k (pcoeff (pmod k p g) i))) * k.poly (sq.getD i []) := by
  ext n
  rw [Gf.coeff_poly, pcoeff_psqrtMod, Gf.val_elemSum, finsetSum_coeff]
  refine Finset.sum_congr rfl fun i hi => ?_
  rw [coeff_C_mul, Gf.coeff_poly, Gf.val_fmul h (fsqrt_lt h (coeffs_iff.1 hv i))
    (coeffs_iff.1 (hsq i (Finset.mem_range.1 hi)) n)]

/-- Squaring is additive in characteristic 2, and undoes the square roots of the coefficients. -/
theorem Gf.poly_psqrtMod_sq (hirr : k.irreducible = true) : k.poly (psqrtMod k t g sq p) ^ 2 =
    ∑ i ∈ Finset.range t, C (k.val (pcoeff (pmod k p g) i)) * k.poly (sq.getD i []) ^ 2 := by
  have : CharP k.Ring[X] 2 := CharTwo.of_one_ne_zero_of_two_eq_zero
    (by have := Gf.isDomain h hirr; exact one_ne_zero) k.two_eq_zero
  rw [Gf.poly_psqrtMod h hv hsq, CharTwo.sum_sq]
  refine Finset.sum_congr rfl fun i _ => ?_
  have hi := coeffs_iff.1 hv i
  rw [mul_pow, ← C_pow, pow_two (k.val _), ← Gf.val_fmul h (fsqrt_lt h hi) (fsqrt_lt h hi), fmul_fsqrt_self h hirr hi]

end Field

/-- Settles O41: the square of the sum is congruent to the sum of the v_i·x^i, which is v = p mod G. -/
theorem psqrtSquaresToItsArgument : Obligations.PsqrtSquaresToItsArgument := by
  refine ⟨pcoeff_psqrtMod, fun k t g p sq h hirr ht hdeg hg hp hsq hroot => ?_⟩
  have hd : 0 ≤ pdeg g := by omega
  have hv := coeffs_pmod h hirr hg hd hp
  have hpow (i : Nat) (hi : i < t) : k.poly g ∣ k.poly (sq.getD i []) ^ 2 - X ^ i := by
    have hX : k.poly (pmod k (psq k (sq.getD i [])) g) = X ^ i := by
      ext j
      rw [Gf.coeff_poly, hroot i j hi, coeff_X_pow]
      split
      · exact k.val_one
      · exact k.val_zero
    have hdvd := poly_dvd_sub_pmod h hirr hg hd (coeffs_psq h (hsq i hi))
    rwa [hX, Gf.poly_psq h (hsq i hi)] at hdvd
  have hsum : k.poly (pmod k p g) = ∑ i ∈ Finset.range t, C (k.val (pcoeff (pmod k p g) i)) * X ^ i := by
    have hlt : (k.poly (pmod k p g)).degree < t := (Gf.degree_poly_lt_iff h hv).2 (by
      have := psize_pmod_lt k hd p
      rw [pdeg] at hdeg
      omega)
    have hnat : (k.poly (pmod k p g)).natDegree < t := by
      by_cases h0 : k.poly (pmod k p g) = 0
      · rw [h0, natDegree_zero]; exact ht
      · exact (natDegree_lt_iff_degree_lt h0).2 hlt
    conv_lhs => rw [as_sum_range_C_mul_X_pow' _ hnat]
    simp only [Gf.coeff_poly]
  have hr := coeffs_psqrtMod (t := t) (sq := sq) h hv
  refine (pmod_eq_iff h hirr hg hd (coeffs_psq h hr) hv (psize_pmod_lt k hd p)).2 ?_
  rw [Gf.poly_psq h hr, Gf.poly_psqrtMod_sq h hv hsq hirr, hsum, ← Finset.sum_sub_distrib]
  refine Finset.dvd_sum fun i hi => ?_
  rw [← mul_sub]
  exact dvd_mul_of_dvd_right (hpow i (Finset.mem_range.1 hi)) _

end Sys2Proof.Machine

/-! # Rational reconstruction

The half extended Euclid of PFRAC (44_decoder.md R344), as the iteration of its step: where it ends for every field,
and, for an irreducible F, the degrees and congruences that its steps keep. -/

namespace Sys2Proof.Machine

/-! ### The loop as an iterated step -/

/-- The variables of the loop. -/
structure Frac where
  rp : Poly
  rc : Poly
  bp : Poly
  bc : Poly

/-- One pass of the loop. -/
def Frac.step (k : Gf) (g : Poly) (x : Frac) : Frac where
  rp := x.rc
  rc := (pdivmod k x.rp x.rc).2
  bp := x.bc
  bc := pmod k (padd (pmul k (pdivmod k x.rp x.rc).1 x.bc) x.bp) g

/-- The variables before the first pass. -/
def Frac.init (k : Gf) (g tau : Poly) : Frac where
  rp := pmonic k g
  rc := pmod k tau g
  bp := []
  bc := [1]

/-- With fuel for the size of rc the loop is the step iterated until deg rc ≤ d. -/
theorem fracLoop_eq_iterate (k : Gf) (g : Poly) (d : Nat) {n : Nat} {x : Frac} (hn : psize x.rc ≤ n) :
    ∃ j, (∀ i, i < j → (d : Int) < pdeg ((Frac.step k g)^[i] x).rc) ∧
      pdeg ((Frac.step k g)^[j] x).rc ≤ d ∧
      fracLoop k g d n x.rp x.rc x.bp x.bc = (((Frac.step k g)^[j] x).rc, ((Frac.step k g)^[j] x).bc) := by
  induction n generalizing x with
  | zero => exact ⟨0, fun i hi => by omega, by rw [Function.iterate_zero_apply, pdeg]; omega, rfl⟩
  | succ n ih =>
    rw [fracLoop]
    split
    next hdeg =>
      have hfalls : psize (x.step k g).rc ≤ n := by
        have hr := psize_pdivmod_remainder k x.rp x.rc
        have hnonneg : 0 ≤ pdeg x.rc := by omega
        have hpos := pdeg_nonneg.1 hnonneg
        show psize (pdivmod k x.rp x.rc).2 ≤ n
        omega
      obtain ⟨j, hbefore, hend, hloop⟩ := ih hfalls
      refine ⟨j + 1, fun i hi => ?_, hend, hloop⟩
      cases i with
      | zero => exact hdeg
      | succ i => exact hbefore i (by omega)
    next hdeg => exact ⟨0, fun i hi => by omega, by rw [Function.iterate_zero_apply]; omega, rfl⟩

/-- PFRAC's results, by the number of passes. -/
theorem pfracMod_eq_iterate (k : Gf) (t : Nat) (g tau : Poly) :
    ∃ j, (∀ i, i < j → ((t / 2 : Nat) : Int) < pdeg ((Frac.step k g)^[i] (.init k g tau)).rc) ∧
      pdeg ((Frac.step k g)^[j] (.init k g tau)).rc ≤ (t / 2 : Nat) ∧
      pfracMod k t g tau =
        (((Frac.step k g)^[j] (.init k g tau)).rc, ((Frac.step k g)^[j] (.init k g tau)).bc) :=
  fracLoop_eq_iterate k g (t / 2) (x := .init k g tau) (Nat.le_refl _)

/-- A τ whose remainder is already short takes no pass. -/
theorem pfracMod_of_short (k : Gf) {t : Nat} {g tau : Poly} (hshort : pdeg (pmod k tau g) ≤ (t / 2 : Nat)) :
    pfracMod k t g tau = (pmod k tau g, [1]) := by
  obtain ⟨j, hbefore, -, heq⟩ := pfracMod_eq_iterate k t g tau
  cases j with
  | zero => exact heq
  | succ j => exact absurd hshort (Int.not_le.2 (hbefore 0 (Nat.succ_pos j)))

/-! ### What the steps keep -/

/-- The remainders are the cofactors times τ modulo g; the remainders get shorter and the cofactors longer, deg bc being
t − deg rp (44_decoder.md R344, "Result"). -/
structure FracInv (k : Gf) (t : Nat) (g tau : Poly) (x : Frac) : Prop where
  rp : k.Coeffs x.rp
  rc : k.Coeffs x.rc
  bp : k.Coeffs x.bp
  bc : k.Coeffs x.bc
  congP : k.poly g ∣ k.poly x.bp * k.poly tau - k.poly x.rp
  congC : k.poly g ∣ k.poly x.bc * k.poly tau - k.poly x.rc
  shorter : psize x.rc < psize x.rp
  longer : psize x.bp < psize x.bc
  sizes : psize x.bc + psize x.rp = t + 2
  high : t / 2 + 1 < psize x.rp

section Field

variable {k : Gf} (h : k.DegreeOk) (hirr : k.irreducible = true) {t : Nat} {g tau : Poly} (ht : 1 ≤ t)
  (hdeg : pdeg g = t) (hg : k.Coeffs g) (htau : k.Coeffs tau)
include h hirr ht hdeg hg

/-- The cofactor before its reduction modulo g, which finds nothing to reduce. -/
theorem FracInv.cofactor {x : Frac} (hi : FracInv k t g tau x) (hgo : ((t / 2 : Nat) : Int) < pdeg x.rc) :
    k.Coeffs (padd (pmul k (pdivmod k x.rp x.rc).1 x.bc) x.bp) ∧
      psize (padd (pmul k (pdivmod k x.rp x.rc).1 x.bc) x.bp) + psize x.rc = t + 2 ∧
      ∀ j, pcoeff (x.step k g).bc j = pcoeff (padd (pmul k (pdivmod k x.rp x.rc).1 x.bc) x.bp) j := by
  have hrc0 : 0 < psize x.rc := pdeg_nonneg.1 (by omega)
  have hbc0 : 0 < psize x.bc := Nat.zero_lt_of_lt hi.longer
  obtain ⟨hq0, hsize⟩ := psize_quotient h hirr hi.rp hi.rc hrc0 hi.shorter
  have hq := (pdivmod_divSpec h hirr hi.rp hi.rc (pdeg_nonneg.2 hrc0)).quotient
  have hmul := psize_pmul h hirr hq hi.bc hq0 hbc0
  have hshorter := hi.shorter
  have hlonger := hi.longer
  have hsizes := hi.sizes
  have hsum := psize_padd_of_lt (p := pmul k (pdivmod k x.rp x.rc).1 x.bc) (q := x.bp) (by omega)
  have hcoeffs := coeffs_padd (coeffs_pmul h hq x.bc) hi.bp
  refine ⟨hcoeffs, by omega, pmod_of_psize_lt h hirr hg (by omega) hcoeffs ?_⟩
  rw [pdeg] at hdeg hgo
  omega

theorem FracInv.step {x : Frac} (hi : FracInv k t g tau x) (hgo : ((t / 2 : Nat) : Int) < pdeg x.rc) :
    FracInv k t g tau (x.step k g) := by
  obtain ⟨hcoeffs, hsize, hbc⟩ := hi.cofactor h hirr ht hdeg hg hgo
  obtain ⟨hq, hr, -, heq⟩ := pdivmod_divSpec h hirr hi.rp hi.rc (by omega)
  have hfalls := psize_pdivmod_remainder k x.rp x.rc
  have hbcsize : psize (x.step k g).bc = psize (padd (pmul k (pdivmod k x.rp x.rc).1 x.bc) x.bp) :=
    psize_congr fun j => by rw [hbc]
  have hshorter := hi.shorter
  have hsizes := hi.sizes
  have hgo' := hgo
  rw [pdeg] at hgo'
  refine ⟨hi.rc, hr, hi.bc, coeffs_pmod h hirr hg (by omega) hcoeffs, hi.congC, ?_, ?_, ?_, ?_, ?_⟩
  · have hcomb := dvd_add hi.congP (dvd_mul_of_dvd_right hi.congC (k.poly (pdivmod k x.rp x.rc).1))
    rw [k.poly_congr hbc, Gf.poly_padd, Gf.poly_pmul h hq hi.bc]
    convert hcomb using 1
    rw [heq]
    show _ - k.poly (pdivmod k x.rp x.rc).2 = _
    linear_combination (k.poly (pdivmod k x.rp x.rc).1 * k.poly x.rc) * k.two_eq_zero
  · show psize (pdivmod k x.rp x.rc).2 < psize x.rc
    omega
  · rw [hbcsize]
    show psize x.bc < _
    omega
  · rw [hbcsize]
    exact hsize
  · show t / 2 + 1 < psize x.rc
    omega

include htau in
theorem FracInv.init : FracInv k t g tau (.init k g tau) := by
  have hd : 0 ≤ pdeg g := by omega
  have hpos := pdeg_nonneg.1 hd
  have hlead : (plead g).toNat < 2 ^ k.m := coeffs_iff.1 hg _
  have hmonic : pmonic k g = pscale k (finv k (plead g)) g := if_neg (by rw [pzero_iff]; omega)
  have hcoeffs : k.Coeffs (pmonic k g) := by rw [hmonic]; exact coeffs_pscale h (finv_lt h hlead) g
  have hsize : psize (pmonic k g) = t + 1 := by
    have hsame := (pmonic_spec h hirr hg hd).1
    rw [hdeg, pdeg] at hsame
    omega
  have hfalls := psize_pmod_lt k hd tau
  rw [pdeg] at hdeg
  refine ⟨hcoeffs, coeffs_pmod h hirr hg hd htau, coeffs_nil k, coeffs_one h, ?_, ?_, ?_, Nat.zero_lt_one, ?_, ?_⟩
  · show k.poly g ∣ k.poly [] * k.poly tau - k.poly (pmonic k g)
    rw [Gf.poly_nil, zero_mul, zero_sub, hmonic, Gf.poly_pscale h (finv_lt h hlead) hg]
    exact (dvd_mul_left _ _).neg_right
  · show k.poly g ∣ k.poly [1] * k.poly tau - k.poly (pmod k tau g)
    rw [Gf.poly_one, one_mul]
    exact poly_dvd_sub_pmod h hirr hg hd htau
  · show psize (pmod k tau g) < psize (pmonic k g)
    omega
  · show psize [1] + psize (pmonic k g) = t + 2
    rw [psize_one, hsize]
    omega
  · show t / 2 + 1 < psize (pmonic k g)
    omega

include htau in
/-- The invariant holds after every pass. -/
theorem FracInv.iterate {j : Nat}
    (hgo : ∀ i, i < j → ((t / 2 : Nat) : Int) < pdeg ((Frac.step k g)^[i] (.init k g tau)).rc) :
    FracInv k t g tau ((Frac.step k g)^[j] (.init k g tau)) := by
  induction j with
  | zero => exact .init h hirr ht hdeg hg htau
  | succ j ih =>
    rw [Function.iterate_succ_apply']
    exact (ih fun i hi => hgo i (by omega)).step h hirr ht hdeg hg (hgo j (by omega))

end Field

/-- PFRAC's results are the last rc and bc of a loop that keeps the invariant. -/
theorem pfracMod_eq_of_inv {k : Gf} (h : k.DegreeOk) (hirr : k.irreducible = true) {t : Nat} {g tau : Poly}
    (ht : 1 ≤ t) (hdeg : pdeg g = t) (hg : k.Coeffs g) (htau : k.Coeffs tau) :
    ∃ x, FracInv k t g tau x ∧ pdeg x.rc ≤ (t / 2 : Nat) ∧ pfracMod k t g tau = (x.rc, x.bc) := by
  obtain ⟨j, hbefore, hend, heq⟩ := pfracMod_eq_iterate k t g tau
  exact ⟨_, FracInv.iterate h hirr ht hdeg hg htau hbefore, hend, heq⟩

/-- Settles O43: the chain is the iterated step, and the "Result" is the invariant `FracInv` where it ends. -/
theorem pfracGivesTheFraction : Obligations.PfracGivesTheFraction := by
  refine ⟨fun k t g tau => ⟨pfracMod_of_short k, ?_⟩, fun k t g tau h hirr ht hdeg hg htau => ?_⟩
  · obtain ⟨j, hbefore, hend, heq⟩ := pfracMod_eq_iterate k t g tau
    refine ⟨j, fun i => ((Frac.step k g)^[i] (.init k g tau)).rp, fun i => ((Frac.step k g)^[i] (.init k g tau)).rc,
      fun i => ((Frac.step k g)^[i] (.init k g tau)).bp, fun i => ((Frac.step k g)^[i] (.init k g tau)).bc,
      rfl, rfl, rfl, rfl, fun i hi => ?_, hend, heq⟩
    simp only [Function.iterate_succ_apply']
    exact ⟨hbefore i hi, rfl, rfl, rfl, rfl⟩
  · obtain ⟨x, hi, hend, heq⟩ := pfracMod_eq_of_inv h hirr ht hdeg hg htau
    obtain ⟨-, hrc, -, hbc, -, hcong, -, hlonger, hsizes, hhigh⟩ := hi
    rw [heq]
    refine ⟨fun n => ?_, hend, ?_, pdeg_nonneg.2 (Nat.zero_lt_of_lt hlonger)⟩
    · rw [← Gf.poly_pmul h hbc htau] at hcong
      exact (pmod_eq_pmod h hirr hg (by omega) (coeffs_pmul h hbc tau) hrc hcong n).symm
    · show pdeg x.bc ≤ _
      rw [pdeg]
      omega

end Sys2Proof.Machine

/-! # A reducible F

PINV, PSQRT, PFRAC and DECODE when F is reducible (44_decoder.md R340): past their checks and reads they take one of the
outcomes that R340 allows. -/

namespace Sys2Proof.Machine

/-- A command whose rule ends under a reducible F retires with the free write, or raises DECODE_FAIL 1 or 2. -/
theorem exec_of_reducible {i : Instr} {s w : State} {r : Run State} (hr : ruleOf i s = underField s w r)
    (hred : s.gf.irreducible = false) :
    ∃ t, exec i s = .next t ∧
      (t = w.drawn.retire ∨
        ∃ c, (c = 1 ∨ c = 2) ∧ t = { s.takeFault .decodeFail c (encode i) with draws := s.draws + 1 }) := by
  rw [underField, hred, if_neg Bool.false_ne_true] at hr
  rw [exec_eq_commit, hr]
  split
  · exact ⟨_, commit_freeRaise .., .inr ⟨1, .inl rfl, rfl⟩⟩
  · split
    · exact ⟨_, commit_freeRaise .., .inr ⟨2, .inr rfl, rfl⟩⟩
    · exact ⟨_, commit_ok .., .inl rfl⟩

/-- The same, when the free write is that of one register. -/
theorem exec_of_reducible_putPoly {i : Instr} {s : State} {pd : Nat} {q : Poly} {r : Run State}
    (hr : ruleOf i s = underField s (s.putPoly pd q) r) (hred : s.gf.irreducible = false) :
    ∃ t, exec i s = .next t ∧
      ((t = { s.retire with p := t.p, draws := s.draws + 1 } ∧
        ∀ q, ¬ (pKey pd 0 ≤ q ∧ q < pKey pd 0 + s.params.plen) → cellGet t.p q = cellGet s.p q) ∨
      ∃ c, (c = 1 ∨ c = 2) ∧ t = { s.takeFault .decodeFail c (encode i) with draws := s.draws + 1 }) := by
  obtain ⟨t, hexec, rfl | hfail⟩ := exec_of_reducible hr hred
  · exact ⟨_, hexec, .inl ⟨rfl, fun k hk => cellGet_putPoly_of_not s pd q k hk⟩⟩
  · exact ⟨t, hexec, .inr hfail⟩

theorem eq_some_getD {α : Type} {o : Option α} (h : o.isSome = true) (d : α) : o = some (o.getD d) := by
  cases o with
  | none => cases h
  | some a => rfl

/-- With CFGV a block is at most one storage word long. -/
theorem State.Cfgv.t_le_tb {s : State} (hc : s.Cfgv) : s.t ≤ s.params.tb :=
  Nat.pow_le_pow_right (by omega) hc.logT_le

section AllDefined

variable {s : State} (hall : s.AllDefined) (hc : s.Cfgv)
include hall

theorem State.AllDefined.pSlot_eq {i : Nat} (hi : i < 8) {k : Nat} (hk : k < s.params.plen) :
    s.pSlot i k = some ((s.pSlot i k).getD 0) :=
  eq_some_getD (hall.p i hi k hk) 0

include hc

theorem State.AllDefined.gSlot_eq {k : Nat} (hk : k ≤ s.t) : s.gSlot k = some ((s.gSlot k).getD 0) :=
  eq_some_getD (hall.g k (Nat.lt_succ_of_le (hk.trans hc.t_le_tb))) 0

theorem State.AllDefined.sqSlot_eq {i k : Nat} (hi : i < s.t) (hk : k < s.t) :
    s.sqSlot i k = some ((s.sqSlot i k).getD 0) :=
  eq_some_getD (hall.sq i (hi.trans_le hc.t_le_tb) k (hk.trans_le hc.t_le_tb)) 0

theorem State.AllDefined.block_eq (hp : s.params.Legal) {a : Nat} (ha : a < s.params.bmemLen) :
    s.block a = some ((s.block a).getD 0) := by
  obtain ⟨w, hw⟩ := Option.isSome_iff_exists.1 (hall.bmem a ha)
  rw [block_of_blockWord hp hc hw]
  rfl

end AllDefined

/-- Settles O48: past its checks and reads each of the four rules ends in `underField`. -/
theorem reducibleFieldOutcomes : Obligations.ReducibleFieldOutcomes := by
  intro i s hp hall hc ht hred hw hregs
  refine ⟨?_, ?_, ?_⟩
  · rintro pd ps (rfl | rfl)
    · obtain ⟨hpd, hps⟩ := hw
      exact exec_of_reducible_putPoly (i := .pinv pd ps) (rulePinv_of_slots hps hc ht
        (fun k hk => hall.pSlot_eq hps hk) (fun k hk => hall.gSlot_eq hc hk) hpd) hred
    · obtain ⟨hpd, hps⟩ := hw
      exact exec_of_reducible_putPoly (i := .psqrt pd ps) (rulePsqrt_of_slots hps hc ht
        (fun k hk => hall.pSlot_eq hps hk) (fun k hk => hall.gSlot_eq hc hk) hpd
        fun i k hi hk => hall.sqSlot_eq hc hi hk) hred
  · rintro pa pb ps rfl
    obtain ⟨hpa, hpb, hps, hne⟩ := hw
    have hrule := rulePfrac_of_slots hps hc ht (fun k hk => hall.pSlot_eq hps hk) (fun k hk => hall.gSlot_eq hc hk)
      hpa hpb hne
    obtain ⟨t, hexec, rfl | hfail⟩ := exec_of_reducible (i := .pfrac pa pb ps) hrule hred
    · refine ⟨_, hexec, .inl ⟨rfl, fun q hqa hqb => ?_⟩⟩
      exact (cellGet_putPoly_of_not (s.putPoly pa.toNat _) _ _ q hqb).trans (cellGet_putPoly_of_not s _ _ q hqa)
    · exact ⟨t, hexec, .inr hfail⟩
  · rintro e syn rfl
    have he : e.toNat + s.n / s.t - 1 < s.params.bmemLen := hregs (.fa, _) (by simp [Instr.regions])
    have hsyn : syn.toNat + s.m - 1 < s.params.bmemLen := hregs (.fb, _) (by simp [Instr.regions])
    have hblocks : ∀ i, i < s.m → s.block (syn.toNat + i) = some ((s.block (syn.toNat + i)).getD 0) := fun i hi =>
      hall.block_eq hc hp (by omega)
    have hG : ∃ g, readGFor s (ofPlanes s.m s.t (tabulate s.m fun i => (s.block (syn.toNat + i)).getD 0)) = .ok g := by
      rw [readGFor]
      split
      · exact ⟨_, rfl⟩
      · exact ⟨_, readG_of_some fun k hk => hall.gSlot_eq hc hk⟩
    obtain ⟨g, hg⟩ := hG
    have hrule := ruleDecode_of_blocks hc ht he hsyn hblocks
    rw [hg, run_ok_bind] at hrule
    obtain ⟨t, hexec, rfl | hfail⟩ := exec_of_reducible (i := .decode e syn) hrule hred
    · refine ⟨_, hexec, .inl ⟨rfl, fun q hq => cellGet_putBlocks_of_not s e.toNat (freeVector s) q ?_⟩⟩
      rwa [freeVector, length_tabulate]
    · exact ⟨t, hexec, .inr hfail⟩

end Sys2Proof.Machine

/-! # Zeros at the end of a polynomial

The decoder's polynomials are compared by their coefficients: a P register holds a polynomial with zeros up to PLEN
(10_state.md R45), and no operation of 00_scope.md R20 tells such lists apart. -/

namespace Sys2Proof.Machine

/-- The same coefficients: equal but for zeros at the end. -/
def SamePoly (p q : Poly) : Prop := ∀ n, pcoeff p n = pcoeff q n

theorem SamePoly.refl (p : Poly) : SamePoly p p := fun _ => rfl

theorem SamePoly.cons {p q : Poly} (h : SamePoly p q) (a : Elem) : SamePoly (a :: p) (a :: q) := fun n => by
  cases n with
  | zero => rfl
  | succ n => rw [pcoeff_cons_succ, pcoeff_cons_succ, h n]

theorem samePoly_cons {a b : Elem} {p q : Poly} : SamePoly (a :: p) (b :: q) ↔ a = b ∧ SamePoly p q := by
  constructor
  · intro h
    exact ⟨h 0, fun n => by simpa using h (n + 1)⟩
  · rintro ⟨rfl, h⟩
    exact h.cons a

theorem samePoly_cons_nil {a : Elem} {p : Poly} : SamePoly (a :: p) [] ↔ a = 0 ∧ SamePoly p [] := by
  constructor
  · intro h
    exact ⟨h 0, fun n => by simpa using h (n + 1)⟩
  · rintro ⟨rfl, h⟩ n
    cases n with
    | zero => rfl
    | succ n => simpa using h n

theorem SamePoly.symm {p q : Poly} (h : SamePoly p q) : SamePoly q p := fun n => (h n).symm

theorem SamePoly.trans {p q r : Poly} (hpq : SamePoly p q) (hqr : SamePoly q r) : SamePoly p r := fun n =>
  (hpq n).trans (hqr n)

section Same

variable {p p' q q' : Poly} (hp : SamePoly p p') (hq : SamePoly q q')
include hp

theorem SamePoly.psize_eq : psize p = psize p' := psize_congr fun n => by rw [hp n]

theorem SamePoly.pdeg_eq : pdeg p = pdeg p' := by rw [pdeg, pdeg, hp.psize_eq]

theorem SamePoly.pzero_eq : pzero p = pzero p' := by rw [pzero, pzero, hp.psize_eq]

theorem SamePoly.plead_eq : plead p = plead p' := by rw [plead, plead, hp.psize_eq, hp]

theorem SamePoly.pnorm_eq : pnorm p = pnorm p' := by
  refine List.ext_getElem hp.psize_eq fun n hn hn' => ?_
  have heq := hp n
  rwa [← pcoeff_pnorm p, ← pcoeff_pnorm p', pcoeff, pcoeff, List.getD_eq_getElem _ _ hn,
    List.getD_eq_getElem _ _ hn'] at heq

theorem SamePoly.pscale (k : Gf) (c : Elem) : SamePoly (pscale k c p) (pscale k c p') := fun n => by
  rw [pcoeff_pscale, pcoeff_pscale, hp n]

theorem SamePoly.pmonic (k : Gf) : SamePoly (pmonic k p) (pmonic k p') := fun n => by
  rw [pcoeff_pmonic, pcoeff_pmonic, hp.pdeg_eq, hp, hp]

theorem SamePoly.psq (k : Gf) : SamePoly (psq k p) (psq k p') := fun n => by
  obtain ⟨m, rfl | rfl⟩ := n.even_or_odd'
  · rw [(pcoeff_psq k p m).1, (pcoeff_psq k p' m).1, hp m]
  · rw [(pcoeff_psq k p m).2, (pcoeff_psq k p' m).2]

include hq

theorem SamePoly.padd : SamePoly (padd p q) (padd p' q') := fun n => by
  rw [pcoeff_padd, pcoeff_padd, hp n, hq n]

theorem SamePoly.pmul (k : Gf) : SamePoly (pmul k p q) (pmul k p' q') := fun n => by
  rw [pcoeff_pmul, pcoeff_pmul]
  simp only [hp _, hq _]

end Same

/-! ### Division -/

/-- The first d coefficients. -/
theorem pcoeff_take_eq (p : Poly) (d n : Nat) : pcoeff (p.take d) n = if n < d then pcoeff p n else 0 := by
  split
  next hn => simp [pcoeff, hn]
  next hn => exact pcoeff_of_length_le ((List.length_take_le _ _).trans (Nat.not_lt.1 hn))

theorem SamePoly.take {p p' : Poly} (hp : SamePoly p p') (d : Nat) : SamePoly (p.take d) (p'.take d) := fun n => by
  rw [pcoeff_take_eq, pcoeff_take_eq, hp n]

/-- One pass of the long division. -/
theorem pdivAux_cons_same {k : Gf} {b : Poly} {d : Nat} {li a0 : Elem} {a a' : Poly}
    (ih : SamePoly (pdivAux k b d li a).1 (pdivAux k b d li a').1 ∧
      SamePoly (pdivAux k b d li a).2 (pdivAux k b d li a').2) :
    SamePoly (pdivAux k b d li (a0 :: a)).1 (pdivAux k b d li (a0 :: a')).1 ∧
      SamePoly (pdivAux k b d li (a0 :: a)).2 (pdivAux k b d li (a0 :: a')).2 := by
  obtain ⟨hq, hr⟩ := ih
  have hr0 := hr.cons a0
  simp only [pdivAux]
  rw [hr0 d]
  exact ⟨hq.cons _, (hr0.padd (.refl _)).take d⟩

theorem pdivAux_zero_same (k : Gf) (b : Poly) (d : Nat) (li : Elem) :
    SamePoly (pdivAux k b d li [0]).1 [] ∧ SamePoly (pdivAux k b d li [0]).2 [] := by
  have hnil : SamePoly [0] [] := samePoly_cons_nil.2 ⟨rfl, .refl _⟩
  have hzero : SamePoly (padd [0] (pscale k 0 b)) [] := fun n => by
    rw [pcoeff_padd, pcoeff_pscale, zero_fmul, hnil n, pcoeff_nil]
    rfl
  simp only [pdivAux]
  rw [hnil d, pcoeff_nil, zero_fmul]
  exact ⟨hnil, fun n => by rw [pcoeff_take_eq, hzero n]; exact ite_self _⟩

theorem pdivAux_nil_same {k : Gf} {b : Poly} {d : Nat} {li : Elem} {a : Poly} (ha : SamePoly a []) :
    SamePoly (pdivAux k b d li a).1 [] ∧ SamePoly (pdivAux k b d li a).2 [] := by
  induction a with
  | nil => exact ⟨.refl _, .refl _⟩
  | cons a0 a ih =>
    obtain ⟨rfl, hrest⟩ := samePoly_cons_nil.1 ha
    obtain ⟨hq, hr⟩ := pdivAux_cons_same (a0 := 0) (a' := []) (ih hrest)
    obtain ⟨hq0, hr0⟩ := pdivAux_zero_same k b d li
    exact ⟨hq.trans hq0, hr.trans hr0⟩

theorem pdivAux_same {k : Gf} {b : Poly} {d : Nat} {li : Elem} {a a' : Poly} (ha : SamePoly a a') :
    SamePoly (pdivAux k b d li a).1 (pdivAux k b d li a').1 ∧
      SamePoly (pdivAux k b d li a).2 (pdivAux k b d li a').2 := by
  induction a generalizing a' with
  | nil =>
    obtain ⟨hq, hr⟩ := pdivAux_nil_same (k := k) (b := b) (d := d) (li := li) ha.symm
    exact ⟨hq.symm, hr.symm⟩
  | cons a0 a ih =>
    cases a' with
    | nil => exact pdivAux_nil_same ha
    | cons a0' a' =>
      obtain ⟨rfl, hrest⟩ := samePoly_cons.1 ha
      exact pdivAux_cons_same (ih hrest)

theorem pdivmod_same {k : Gf} {a a' b b' : Poly} (ha : SamePoly a a') (hb : SamePoly b b') :
    SamePoly (pdivmod k a b).1 (pdivmod k a' b').1 ∧ SamePoly (pdivmod k a b).2 (pdivmod k a' b').2 := by
  rw [pdivmod, pdivmod, hb.pnorm_eq, hb.psize_eq, hb.plead_eq]
  exact pdivAux_same ha

theorem SamePoly.pmod {a a' b b' : Poly} (ha : SamePoly a a') (hb : SamePoly b b') (k : Gf) :
    SamePoly (pmod k a b) (pmod k a' b') :=
  (pdivmod_same ha hb).2

/-! ### The decoder's steps -/

theorem invLoop_same {k : Gf} {n : Nat} {r0 r0' r1 r1' u0 u0' u1 u1' : Poly} (hr0 : SamePoly r0 r0')
    (hr1 : SamePoly r1 r1') (hu0 : SamePoly u0 u0') (hu1 : SamePoly u1 u1') :
    SamePoly (invLoop k n r0 r1 u0 u1).1 (invLoop k n r0' r1' u0' u1').1 ∧
      SamePoly (invLoop k n r0 r1 u0 u1).2 (invLoop k n r0' r1' u0' u1').2 := by
  induction n generalizing r0 r0' r1 r1' u0 u0' u1 u1' with
  | zero => exact ⟨hr1, hu1⟩
  | succ n ih =>
    obtain ⟨hq, hr⟩ := pdivmod_same (k := k) hr0 hr1
    simp only [invLoop, hr1.pdeg_eq]
    split
    · exact ih hr1 hr hu1 (hu0.padd (hq.pmul hu1 k))
    · exact ⟨hr1, hu1⟩

/-- PINV answers the same for the same polynomial. -/
theorem pinvMod_same {k : Gf} {g p p' : Poly} (hp : SamePoly p p') :
    Option.Rel SamePoly (pinvMod k g p) (pinvMod k g p') := by
  have hs := hp.pmod (.refl g) k
  cases h0 : pzero (pmod k p' g) with
  | true =>
    rw [pinvMod_of_zero (hs.pzero_eq.trans h0), pinvMod_of_zero h0]
    exact .none
  | false =>
    rw [pinvMod_of_nonzero (hs.pzero_eq.trans h0), pinvMod_of_nonzero h0, hs.psize_eq]
    obtain ⟨hr, hu⟩ := invLoop_same (k := k) (n := psize (pmod k p' g)) (.refl g) hs (.refl []) (.refl [1])
    rw [hr.pzero_eq, hr 0]
    split
    · exact .none
    · exact .some ((hu.pscale k _).pmod (.refl g) k)

theorem SamePoly.paddX {p p' : Poly} (hp : SamePoly p p') : SamePoly (paddX p) (paddX p') :=
  SamePoly.padd hp (.refl _)

theorem SamePoly.psqrtMod {p p' : Poly} (hp : SamePoly p p') (k : Gf) (t : Nat) (g : Poly) (sq : List Poly) :
    SamePoly (psqrtMod k t g sq p) (psqrtMod k t g sq p') := fun n => by
  have hv := hp.pmod (.refl g) k
  rw [pcoeff_psqrtMod, pcoeff_psqrtMod]
  simp only [hv _]

theorem fracLoop_same {k : Gf} {g : Poly} {d n : Nat} {rp rp' rc rc' bp bp' bc bc' : Poly} (hrp : SamePoly rp rp')
    (hrc : SamePoly rc rc') (hbp : SamePoly bp bp') (hbc : SamePoly bc bc') :
    SamePoly (fracLoop k g d n rp rc bp bc).1 (fracLoop k g d n rp' rc' bp' bc').1 ∧
      SamePoly (fracLoop k g d n rp rc bp bc).2 (fracLoop k g d n rp' rc' bp' bc').2 := by
  induction n generalizing rp rp' rc rc' bp bp' bc bc' with
  | zero => exact ⟨hrc, hbc⟩
  | succ n ih =>
    obtain ⟨hq, hr⟩ := pdivmod_same (k := k) hrp hrc
    simp only [fracLoop, hrc.pdeg_eq]
    split
    · exact ih hrc hr hbc (((hq.pmul hbc k).padd hbp).pmod (.refl g) k)
    · exact ⟨hrc, hbc⟩

theorem pfracMod_same {k : Gf} {t : Nat} {g tau tau' : Poly} (h : SamePoly tau tau') :
    SamePoly (pfracMod k t g tau).1 (pfracMod k t g tau').1 ∧
      SamePoly (pfracMod k t g tau).2 (pfracMod k t g tau').2 := by
  have hrc := h.pmod (.refl g) k
  rw [pfracMod, pfracMod, hrc.psize_eq]
  exact fracLoop_same (.refl _) hrc (.refl _) (.refl _)

/-- The locator takes t coefficients of its sources. -/
theorem locator_same {k : Gf} {t : Nat} {a a' b b' : Poly} (ha : SamePoly (a.take t) (a'.take t))
    (hb : SamePoly (b.take t) (b'.take t)) : SamePoly (locator k t a b) (locator k t a' b') :=
  ((ha.psq k).padd ((hb.psq k).cons 0)).pmonic k

theorem peval_of_same_nil {p : Poly} (hp : SamePoly p []) (k : Gf) (x : Elem) : peval k p x = 0 := by
  induction p with
  | nil => rfl
  | cons a p ih =>
    obtain ⟨rfl, hrest⟩ := samePoly_cons_nil.1 hp
    rw [peval, ih hrest, zero_fmul]
    rfl

theorem SamePoly.peval_eq {p p' : Poly} (hp : SamePoly p p') (k : Gf) (x : Elem) : peval k p x = peval k p' x := by
  induction p generalizing p' with
  | nil => exact (peval_of_same_nil hp.symm k x).symm
  | cons a p ih =>
    cases p' with
    | nil => exact peval_of_same_nil hp k x
    | cons a' p' =>
      obtain ⟨rfl, hrest⟩ := samePoly_cons.1 hp
      rw [peval, peval, ih hrest]

theorem SamePoly.isRoot_eq {p p' : Poly} (hp : SamePoly p p') (k : Gf) : isRoot k p = isRoot k p' := by
  funext x
  rw [isRoot, isRoot, hp.peval_eq]

theorem SamePoly.splits_eq {p p' : Poly} (hp : SamePoly p p') (k : Gf) : splits k p = splits k p' := by
  rw [splits, splits, hp.isRoot_eq, hp.pdeg_eq]

end Sys2Proof.Machine

/-! # The sequence of the locator's commands

COT2P, PINV, PADDX, PSQRT, PFRAC, PLOC and ROOTS in a row against DECODE (44_decoder.md R348, R349). The sequence
changes no table and no block before ROOTS, and each P register it reads holds the polynomial that DECODE computes
there. -/

namespace Sys2Proof.Machine

/-! ### Coefficients and sizes of the intermediate polynomials -/

theorem State.Cfgv.degreeOk {s : State} (hc : s.Cfgv) : s.gf.DegreeOk := by
  have h16 := hc.m_le_sixteen
  obtain ⟨hm, -, -, -, htop, hhigh⟩ := hc
  exact ⟨hm, h16, htop, hhigh⟩

theorem coeffs_tabulate_lowBits (s : State) (n : Nat) (f : Nat → Elem) :
    s.gf.Coeffs (tabulate n fun i => lowBits s.m (f i)) := fun c hc => by
  obtain ⟨i, -, rfl⟩ := mem_tabulate.1 hc
  exact toNat_lowBits_lt _ _

theorem psize_tabulate_le (n : Nat) (f : Nat → Elem) : psize (tabulate n f) ≤ n :=
  (psize_le_length _).trans (length_tabulate n f).le

/-- G has degree t when its coefficient of x^t is not 0 (10_state.md R48). -/
theorem pdeg_tabulate {t : Nat} {f : Nat → Elem} (htop : f t ≠ 0) : pdeg (tabulate (t + 1) f) = t := by
  have hle := psize_tabulate_le (t + 1) f
  have hlt : t < psize (tabulate (t + 1) f) := Nat.lt_of_not_le fun hle => by
    have hzero := pcoeff_of_psize_le hle
    rw [pcoeff_tabulate, if_pos (Nat.lt_succ_self t)] at hzero
    exact htop hzero
  rw [pdeg]
  omega

/-- A rebuilt polynomial has m-bit coefficients (00_scope.md R21). -/
theorem coeffs_ofPlanes (k : Gf) (t : Nat) (planes : List Block) : k.Coeffs (ofPlanes k.m t planes) := fun c hc => by
  obtain ⟨j, -, rfl⟩ := mem_tabulate.1 hc
  rw [planeElem, ← lowBits_bitsOf (Nat.le_refl k.m)]
  exact toNat_lowBits_lt _ _

theorem coeffs_paddX {k : Gf} (h : k.DegreeOk) {p : Poly} (hp : k.Coeffs p) : k.Coeffs (paddX p) :=
  coeffs_padd hp (coeffs_cons.2 ⟨Nat.two_pow_pos _, coeffs_one h⟩)

theorem psize_paddX_le {p : Poly} {n : Nat} (hp : psize p ≤ n) (hn : 2 ≤ n) : psize (paddX p) ≤ n :=
  psize_le_iff.2 fun i hi => by
    rw [pcoeff_paddX, pcoeff_of_psize_le (hp.trans hi), if_neg (by omega)]
    rfl

/-- A sum of rows of n coefficients has at most n. -/
theorem psize_psqrtMod_le (k : Gf) (t : Nat) (g p : Poly) {sq : List Poly} {n : Nat}
    (hsq : ∀ i, psize (sq.getD i []) ≤ n) : psize (psqrtMod k t g sq p) ≤ n :=
  psize_le_iff.2 fun j hj => by
    rw [pcoeff_psqrtMod]
    simp only [pcoeff_of_psize_le ((hsq _).trans hj), fmul_zero, elemSum_zero]

theorem pcoeff_psq_of_le (k : Gf) {p : Poly} {t : Nat} (hp : psize p ≤ t) {n : Nat} (hn : 2 * t ≤ n + 1) :
    pcoeff (psq k p) n = 0 := by
  obtain ⟨m, rfl | rfl⟩ := n.even_or_odd'
  · rw [(pcoeff_psq k p m).1, pcoeff_of_psize_le (by omega), fmul_zero]
  · exact (pcoeff_psq k p m).2

/-- deg σ ≤ 2t − 1 (44_decoder.md R345). -/
theorem psize_locator_le (k : Gf) (t : Nat) (a b : Poly) : psize (locator k t a b) ≤ 2 * t := by
  have htake (p : Poly) : psize (p.take t) ≤ t := (psize_le_length _).trans (List.length_take_le _ _)
  refine psize_le_iff.2 fun n hn => ?_
  have hsum : pcoeff (padd (psq k (a.take t)) (0 :: psq k (b.take t))) n = 0 := by
    rw [pcoeff_padd, pcoeff_psq_of_le k (htake a) (by omega)]
    cases n with
    | zero => rw [pcoeff_cons_zero]; rfl
    | succ n => rw [pcoeff_cons_succ, pcoeff_psq_of_le k (htake b) hn]; rfl
  rw [locator, pcoeff_pmonic, hsum, fmul_zero]

theorem coeffs_pmonic {k : Gf} (h : k.DegreeOk) {p : Poly} (hp : k.Coeffs p) : k.Coeffs (pmonic k p) :=
  coeffs_iff.2 fun n => by
    rw [pcoeff_pmonic]
    exact fmul_lt h (finv_lt h (coeffs_iff.1 hp _)) _

theorem coeffs_locator {k : Gf} (h : k.DegreeOk) (t : Nat) {a b : Poly} (ha : k.Coeffs a) (hb : k.Coeffs b) :
    k.Coeffs (locator k t a b) := by
  have htake {p : Poly} (hp : k.Coeffs p) : k.Coeffs (p.take t) := fun c hc => hp c (List.mem_of_mem_take hc)
  exact coeffs_pmonic h (coeffs_padd (coeffs_psq h (htake ha))
    (coeffs_cons.2 ⟨Nat.two_pow_pos _, coeffs_psq h (htake hb)⟩))

/-- Both results of PFRAC have at most t coefficients. -/
theorem pfracMod_bounds {k : Gf} (h : k.DegreeOk) (hirr : k.irreducible = true) {t : Nat} {g tau : Poly}
    (ht : 1 ≤ t) (hdeg : pdeg g = t) (hg : k.Coeffs g) (htau : k.Coeffs tau) :
    k.Coeffs (pfracMod k t g tau).1 ∧ k.Coeffs (pfracMod k t g tau).2 ∧ psize (pfracMod k t g tau).1 ≤ t ∧
      psize (pfracMod k t g tau).2 ≤ t := by
  obtain ⟨x, hi, -, heq⟩ := pfracMod_eq_of_inv h hirr ht hdeg hg htau
  obtain ⟨-, hrc, -, hbc, -, -, hshorter, hlonger, hsizes, hhigh⟩ := hi
  rw [heq]
  exact ⟨hrc, hbc, show psize x.rc ≤ t by omega, show psize x.bc ≤ t by omega⟩

/-! ### The states between the commands -/

/-- `s` with other contents of P, another CMD_COUNT and another DONE: all that the commands before ROOTS change. -/
def State.withWork (s : State) (p : Cells Elem) (count : Word32) (finished : Bool) : State :=
  { s with p := p, cmdCount := count, status := { s.status with finished := finished } }

/-- A state reached from `s` whose register r holds the polynomial q. -/
structure HoldsPoly (s u : State) (r : Nat) (q : Poly) : Prop where
  work : ∃ p count finished, u = s.withWork p count finished
  coeffs : s.gf.Coeffs q
  short : psize q ≤ s.params.plen
  slots : ∀ k, k < s.params.plen → u.pSlot r k = some (pcoeff q k)

/-- What a read of such a register gives. -/
theorem HoldsPoly.same {s u : State} {r : Nat} {q : Poly} (h : HoldsPoly s u r q) :
    SamePoly (tabulate s.params.plen fun k => lowBits s.m (pcoeff q k)) q := fun n => by
  rw [pcoeff_tabulate]
  split
  · exact lowBits_eq_self (coeffs_iff.1 h.coeffs n)
  next hn => exact (pcoeff_of_psize_le (h.short.trans (Nat.not_lt.1 hn))).symm

theorem HoldsPoly.err {s u : State} {r : Nat} {q : Poly} (h : HoldsPoly s u r q) : u.status.err = s.status.err := by
  obtain ⟨p, count, finished, rfl⟩ := h.work
  rfl

/-- Two next states agree in BMEM, STATUS.ERR, ERR_CAUSE and ERR_INFO. -/
def SameResult (u t : State) : Prop :=
  u.bmem = t.bmem ∧ u.status.err = t.status.err ∧ u.errRec.cause = t.errRec.cause ∧ u.errRec.info = t.errRec.info

theorem sameResult_takeFault {u t : State} (h : u.bmem = t.bmem) (cause : Cause) (info : Word32) (v w : Command) :
    SameResult (u.takeFault cause info v) (t.takeFault cause info w) :=
  ⟨h, rfl, rfl, rfl⟩

section Stages

variable {s w : State} {p : Cells Elem} {count : Word32} {finished : Bool}

/-- A command that retires with the coefficients of q, as a list with other zeros at its end, in register r. -/
theorem HoldsPoly.of_frame {r : Nat} {q q' : Poly}
    (hframe : w = { (s.withWork p count finished).retire with p := w.p })
    (hslots : ∀ k, k < s.params.plen → w.pSlot r k = some (lowBits s.m (pcoeff q' k))) (hsame : SamePoly q' q)
    (hq : s.gf.Coeffs q) (hshort : psize q ≤ s.params.plen) : HoldsPoly s w r q := by
  refine ⟨⟨w.p, _, _, hframe⟩, hq, hshort, fun k hk => ?_⟩
  rw [hslots k hk, hsame k]
  exact congrArg some (lowBits_eq_self (coeffs_iff.1 hq k))

theorem next_unique {i : Instr} {u v w : State} (hv : exec i u = .next v) (hw : exec i u = .next w) : v = w :=
  Host.Outcome.next.inj (hv.symm.trans hw)

section Configured

variable (hc : s.Cfgv)
include hc

theorem two_t_le_plen : 2 * s.t ≤ s.params.plen := Nat.mul_le_mul_left 2 hc.t_le_tb

theorem t_le_plen : s.t ≤ s.params.plen := by
  have := two_t_le_plen hc
  omega

theorem holdsPoly_cot2p {pd syn : Field} {b : Nat → Block} (hpd : pd.toNat < 8)
    (hsyn : syn.toNat + s.m - 1 < s.params.bmemLen) (hb : ∀ i, i < s.m → s.block (syn.toNat + i) = some (b i))
    (he : exec (.cot2p pd syn 1) s = .next w) : HoldsPoly s w pd.toNat (ofPlanes s.m s.t (tabulate s.m b)) := by
  have hone : (1 : Field).toNat = 1 := rfl
  have hrule := ruleCot2p_of_planes (s := s) (base := syn) (stride := 1) (b := b) (Nat.le_refl 1) hc
    (by have := hc.one_le_m; rw [hone]; omega) hpd (fun i hi => by rw [hone, Nat.mul_one]; exact hb i hi)
  obtain ⟨t, hexec, hframe, hslots, -⟩ := exec_of_putPoly (i := .cot2p pd syn 1) hrule
  obtain rfl := next_unique hexec he
  refine .of_frame (p := s.p) (count := s.cmdCount) (finished := s.status.finished) hframe hslots (.refl _)
    (coeffs_ofPlanes s.gf s.t _) ?_
  exact (psize_tabulate_le s.t _).trans (t_le_plen hc)

theorem HoldsPoly.paddx {u : State} {pd ps : Field} {q : Poly} (hq : HoldsPoly s u ps.toNat q) (hpd : pd.toNat < 8)
    (hps : ps.toNat < 8) (he : exec (.paddx pd ps) u = .next w) : HoldsPoly s w pd.toNat (paddX q) := by
  obtain ⟨p, count, finished, rfl⟩ := hq.work
  obtain ⟨t, hexec, hframe, hslots, -⟩ := exec_of_putPoly (i := .paddx pd ps)
    (rulePaddx_of_slots (s := s.withWork p count finished) hpd hps hc hq.slots)
  obtain rfl := next_unique hexec he
  have ht : 0 < s.t := Nat.two_pow_pos _
  have hplen := two_t_le_plen hc
  exact .of_frame hframe hslots hq.same.paddX (coeffs_paddX hc.degreeOk hq.coeffs) (psize_paddX_le hq.short (by omega))

theorem HoldsPoly.ploc {u : State} {pd pa pb : Field} {a b : Poly} (ha : HoldsPoly s u pa.toNat a)
    (hb : HoldsPoly s u pb.toNat b) (hpd : pd.toNat < 8) (hpa : pa.toNat < 8) (hpb : pb.toNat < 8)
    (he : exec (.ploc pd pa pb) u = .next w) : HoldsPoly s w pd.toNat (locator s.gf s.t a b) := by
  obtain ⟨p, count, finished, rfl⟩ := ha.work
  have htp := t_le_plen hc
  obtain ⟨t, hexec, hframe, hslots, -⟩ := exec_of_putPoly (i := .ploc pd pa pb)
    (rulePloc_of_slots (s := s.withWork p count finished) hpd hpa hpb hc
      (fun k hk => ha.slots k (Nat.lt_of_lt_of_le hk htp)) fun k hk => hb.slots k (Nat.lt_of_lt_of_le hk htp))
  obtain rfl := next_unique hexec he
  have htake {q : Poly} (hq : s.gf.Coeffs q) :
      SamePoly ((tabulate s.t fun k => lowBits s.m (pcoeff q k)).take s.t) (q.take s.t) := fun n => by
    rw [pcoeff_take_eq, pcoeff_take_eq, pcoeff_tabulate]
    split
    · exact lowBits_eq_self (coeffs_iff.1 hq n)
    · rfl
  exact .of_frame hframe hslots (locator_same (htake ha.coeffs) (htake hb.coeffs))
    (coeffs_locator hc.degreeOk s.t ha.coeffs hb.coeffs)
    ((psize_locator_le s.gf s.t a b).trans (two_t_le_plen hc))

/-! ### The commands that read G -/

section Goppa

variable (hirr : s.gf.irreducible = true) {g : Nat → Elem} (hg : ∀ k, k ≤ s.t → s.gSlot k = some (g k))
  (hlead : lowBits s.m (g s.t) ≠ 0)
include hirr hg hlead

/-- PINV in the sequence: it fails as DECODE's first step does, or leaves the inverse in its register. -/
theorem HoldsPoly.pinv {u : State} {pd ps : Field} {q : Poly} (hq : HoldsPoly s u ps.toNat q) (hpd : pd.toNat < 8)
    (hps : ps.toNat < 8) (he : exec (.pinv pd ps) u = .next w) :
    (pinvMod s.gf (tabulate (s.t + 1) fun k => lowBits s.m (g k)) q = none ∧
      w = u.takeFault .decodeFail 1 (encode (.pinv pd ps))) ∨
    ∃ inv, pinvMod s.gf (tabulate (s.t + 1) fun k => lowBits s.m (g k)) q = some inv ∧
      HoldsPoly s w pd.toNat inv := by
  obtain ⟨p, count, finished, rfl⟩ := hq.work
  obtain ⟨hsome, hnone⟩ := pinvWritesTheInverse (s.withWork p count finished) pd ps (pcoeff q) g hpd hps hc hirr
    hq.slots hg hlead
  have hrel := pinvMod_same (k := s.gf) (g := tabulate (s.t + 1) fun k => lowBits s.m (g k)) hq.same
  cases hinv : pinvMod s.gf (tabulate (s.t + 1) fun k => lowBits s.m (g k))
      (tabulate s.params.plen fun k => lowBits s.m (pcoeff q k)) with
  | none =>
    rw [hinv] at hrel
    generalize pinvMod s.gf _ q = answer at hrel ⊢
    cases hrel
    exact .inl ⟨rfl, next_unique he (hnone hinv)⟩
  | some inv' =>
    have hdeg := pdeg_tabulate (f := fun k => lowBits s.m (g k)) hlead
    have ht : 1 ≤ s.t := Nat.two_pow_pos _
    rw [hinv] at hrel
    cases hans : pinvMod s.gf (tabulate (s.t + 1) fun k => lowBits s.m (g k)) q with
    | none => rw [hans] at hrel; cases hrel
    | some inv =>
      rw [hans] at hrel
      obtain ⟨hcoeffs, hsize, -⟩ := pinvMod_some hc.degreeOk hirr (coeffs_tabulate_lowBits s (s.t + 1) g) hq.coeffs
        (by rw [hdeg]; exact_mod_cast ht) hans
      obtain ⟨t, hexec, hframe, hslots, -⟩ := hsome inv' hinv
      obtain rfl := next_unique hexec he
      have hplen := t_le_plen hc
      have hgsize := psize_tabulate_le (s.t + 1) fun k => lowBits s.m (g k)
      cases hrel with
      | some hsame => exact .inr ⟨inv, rfl, .of_frame hframe hslots hsame hcoeffs (by omega)⟩

theorem HoldsPoly.psqrt {u : State} {pd ps : Field} {q : Poly} {r : Nat → Nat → Elem}
    (hq : HoldsPoly s u ps.toNat q) (hpd : pd.toNat < 8) (hps : ps.toNat < 8)
    (hr : ∀ i k, i < s.t → k < s.t → s.sqSlot i k = some (r i k)) (he : exec (.psqrt pd ps) u = .next w) :
    HoldsPoly s w pd.toNat (psqrtMod s.gf s.t (tabulate (s.t + 1) fun k => lowBits s.m (g k))
      (tabulate s.t fun i => tabulate s.t fun k => lowBits s.m (r i k)) q) := by
  obtain ⟨p, count, finished, rfl⟩ := hq.work
  obtain ⟨t, hexec, hframe, hslots, -⟩ := psqrtWritesTheRoot (s.withWork p count finished) pd ps (pcoeff q) g r hpd hps
    hc hirr hq.slots hg hlead hr
  obtain rfl := next_unique hexec he
  have hd : 0 ≤ pdeg (tabulate (s.t + 1) fun k => lowBits s.m (g k)) := by
    rw [pdeg_tabulate (f := fun k => lowBits s.m (g k)) hlead]
    exact Int.natCast_nonneg _
  have hv := coeffs_pmod hc.degreeOk hirr (coeffs_tabulate_lowBits s (s.t + 1) g) hd hq.coeffs
  refine .of_frame hframe hslots (hq.same.psqrtMod s.gf s.t _ _) (coeffs_psqrtMod hc.degreeOk hv)
    (psize_psqrtMod_le s.gf s.t _ _ fun i => ?_)
  rw [getD_tabulate]
  split
  · exact (psize_tabulate_le s.t _).trans (t_le_plen hc)
  · exact Nat.zero_le _

theorem HoldsPoly.pfrac {u : State} {pa pb ps : Field} {q : Poly} (hp : s.params.Legal)
    (hq : HoldsPoly s u ps.toNat q) (hpa : pa.toNat < 8) (hpb : pb.toNat < 8) (hps : ps.toNat < 8) (hne : pa ≠ pb)
    (he : exec (.pfrac pa pb ps) u = .next w) :
    HoldsPoly s w pa.toNat (pfracMod s.gf s.t (tabulate (s.t + 1) fun k => lowBits s.m (g k)) q).1 ∧
      HoldsPoly s w pb.toNat (pfracMod s.gf s.t (tabulate (s.t + 1) fun k => lowBits s.m (g k)) q).2 := by
  obtain ⟨p, count, finished, rfl⟩ := hq.work
  obtain ⟨t, hexec, hframe, hslots, -⟩ := pfracWritesBothParts (s.withWork p count finished) pa pb ps (pcoeff q) g hp
    hpa hpb hps hne hc hirr hq.slots hg hlead
  obtain rfl := next_unique hexec he
  obtain ⟨hcoeffsA, hcoeffsB, hsizeA, hsizeB⟩ := pfracMod_bounds hc.degreeOk hirr (Nat.two_pow_pos s.logT)
    (pdeg_tabulate (f := fun k => lowBits s.m (g k)) hlead) (coeffs_tabulate_lowBits s (s.t + 1) g) hq.coeffs
  obtain ⟨hsameA, hsameB⟩ := pfracMod_same (k := s.gf) (t := s.t)
    (g := tabulate (s.t + 1) fun k => lowBits s.m (g k)) hq.same
  have hplen := t_le_plen hc
  exact ⟨.of_frame hframe (fun k hk => (hslots k hk).1) hsameA hcoeffsA (hsizeA.trans hplen),
    .of_frame hframe (fun k hk => (hslots k hk).2) hsameB hcoeffsB (hsizeB.trans hplen)⟩

end Goppa

/-! ### The last command -/

/-- ROOTS of a register that holds q ends as a command on `s` does that writes the root vector of q. -/
theorem HoldsPoly.roots {u : State} {i : Instr} {e ps : Field} {q : Poly} (hq : HoldsPoly s u ps.toNat q)
    (hps : ps.toNat < 8) (her : e.toNat + s.n / s.t - 1 < s.params.bmemLen)
    (hrule : ruleOf i s = rootVector s q >>= fun ev => .ok (s.putBlocks e.toNat ev))
    (he : exec (.roots e ps) u = .next w) : ∃ v, exec i s = .next v ∧ SameResult v w := by
  obtain ⟨p, count, finished, rfl⟩ := hq.work
  have hroots : ruleRoots e ps (s.withWork p count finished) =
      rootVector (s.withWork p count finished) (tabulate s.params.plen fun k => lowBits s.m (pcoeff q k)) >>=
        fun ev => .ok ((s.withWork p count finished).putBlocks e.toNat ev) :=
    ruleRoots_of_slots (s := s.withWork p count finished) hps hc her hq.slots
  have hsplits := hq.same.splits_eq s.gf
  cases hs : splits s.gf q with
  | true =>
    rw [rootVector_of_splits hs, run_ok_bind] at hrule
    rw [rootVector_of_splits (s := s.withWork p count finished) (hsplits.trans hs), run_ok_bind] at hroots
    obtain rfl := next_unique (exec_of_rule (i := .roots e ps) hroots) he
    refine ⟨_, exec_of_rule hrule, ?_, rfl, rfl, rfl⟩
    have hblocks : rootBlocks (s.withWork p count finished)
        (tabulate s.params.plen fun k => lowBits s.m (pcoeff q k)) = rootBlocks s q :=
      congrArg (fun root : Nat → Bool => tabulate (s.n / s.t) fun b => bitsOf 256 s.t fun j => root (b * s.t + j))
        (hq.same.isRoot_eq s.gf)
    exact congrArg (fun vs => (s.putBlocks e.toNat vs).bmem) hblocks.symm
  | false =>
    rw [rootVector_of_not_splits hs, run_error_bind] at hrule
    rw [rootVector_of_not_splits (s := s.withWork p count finished) (hsplits.trans hs), run_error_bind] at hroots
    obtain rfl := next_unique (exec_of_raise (i := .roots e ps) hroots) he
    exact ⟨_, exec_of_raise hrule, sameResult_takeFault (t := s.withWork p count finished) (u := s) rfl _ _ _ _⟩

end Configured

end Stages

/-! ### Commands in a row -/

/-- A sequence that ends has run its first command. -/
theorem execAll_cons {i : Instr} {rest : List Instr} {s t : State} (herr : s.status.err = false)
    (h : execAll (i :: rest) s = .next t) : ∃ u, exec i s = .next u ∧ execAll rest u = .next t := by
  rw [execAll, herr, if_neg Bool.false_ne_true] at h
  cases hexec : exec i s with
  | next u => rw [hexec] at h; exact ⟨u, rfl, h⟩
  | fault f => rw [hexec] at h; cases h
  | refused q => rw [hexec] at h; cases h

/-- A fault halts the rest. -/
theorem execAll_of_err {l : List Instr} {s t : State} (herr : s.status.err = true) (h : execAll l s = .next t) :
    t = s := by
  cases l with
  | nil => exact (Host.Outcome.next.inj h).symm
  | cons i rest => rw [execAll, herr, if_pos rfl] at h; exact (Host.Outcome.next.inj h).symm

/-- A command that answers a next state, and may not fail before it reads, has read defined cells. -/
theorem sourcesDefined_of_next {i : Instr} {s t : State} (hck : Instr.Checked s i) (hfirst : ¬ Instr.MayFailFirst i)
    (he : exec i s = .next t) : Instr.SourcesDefined s i := by
  by_contra hn
  rcases (rule_stops i s).stops hck hn with ⟨f, hf⟩ | ⟨hi, -⟩
  · rw [exec_of_stuck hf] at he
    cases he
  · exact hfirst hi

/-- A bit of a plane is a bit of the syndrome. -/
theorem pzero_ofPlanes_of_bit {m t : Nat} (hm : m ≤ 16) {b : Nat → Block} {i j : Nat} (hi : i < m) (hj : j < t)
    (hbit : (b i).getLsbD j = true) : pzero (ofPlanes m t (tabulate m b)) = false := by
  refine Bool.eq_false_iff.2 fun hz => ?_
  have hzero := plane_bit_of_pzero hm hz hi hj
  rw [getD_tabulate, if_pos hi, hbit] at hzero
  cases hzero

/-- Settles O47: each command of the sequence leaves what DECODE computes there in its register, or both fail. -/
theorem decodeIsTheSequence : Obligations.DecodeIsTheSequence := by
  intro s t e syn b hinv herr hc hirr ht her hsyn hb hnz hrun
  obtain ⟨i, j, hi, hj, hbit⟩ := hnz
  have h0 := pzero_ofPlanes_of_bit hc.m_le_sixteen hi hj hbit
  have hfirst (pd ps : Field) : ¬ Instr.MayFailFirst (.pinv pd ps) ∧ ¬ Instr.MayFailFirst (.psqrt pd ps) := by
    simp [Instr.MayFailFirst]
  obtain ⟨u1, hcot2p, hrun⟩ := execAll_cons herr hrun
  have hS := holdsPoly_cot2p hc (by decide) hsyn hb hcot2p
  obtain ⟨u2, hpinv, hrun⟩ := execAll_cons (hS.err.trans herr) hrun
  have hG : ∀ k, k ≤ s.t → (s.gSlot k).isSome = true := by
    obtain ⟨p, count, finished, rfl⟩ := hS.work
    exact (sourcesDefined_of_next (s := s.withWork p count finished) (i := .pinv 1 0)
      ⟨⟨by decide, by decide⟩, ⟨fun _ => hc, ht⟩, fun r hr => by cases hr⟩ (hfirst 1 0).1 hpinv).2
  have hg := fun k hk => eq_some_getD (hG k hk) 0
  have hlead : lowBits s.m ((s.gSlot s.t).getD 0) ≠ 0 := by
    obtain ⟨v, hv, hne⟩ := ht
    rwa [hv]
  have hreadG := (readGFor_of_nonzero s h0).trans (readG_of_some hg)
  rcases hS.pinv hc hirr hg hlead (by decide) (by decide) hpinv with ⟨hnone, rfl⟩ | ⟨inv, hsome, hT⟩
  · obtain rfl := execAll_of_err rfl hrun
    obtain ⟨p, count, finished, rfl⟩ := hS.work
    exact ⟨_, exec_of_raise (i := .decode e syn) (ruleDecode_of_locator_error hc ht her hsyn hb hirr hreadG
      (locatorOf_of_no_inverse h0 hnone)), sameResult_takeFault (t := s.withWork p count finished) (u := s) rfl _ _ _ _⟩
  · obtain ⟨u3, hpaddx, hrun⟩ := execAll_cons (hT.err.trans herr) hrun
    have hV := hT.paddx hc (by decide) (by decide) hpaddx
    obtain ⟨u4, hpsqrt, hrun⟩ := execAll_cons (hV.err.trans herr) hrun
    have hSQ : ∀ i k, i < s.t → k < s.t → (s.sqSlot i k).isSome = true := by
      obtain ⟨p, count, finished, rfl⟩ := hV.work
      exact (sourcesDefined_of_next (s := s.withWork p count finished) (i := .psqrt 3 2)
        ⟨⟨by decide, by decide⟩, ⟨fun _ => hc, ht⟩, fun r hr => by cases hr⟩ (hfirst 3 2).2 hpsqrt).2.2
    have hr := fun i k hi hk => eq_some_getD (hSQ i k hi hk) 0
    have htau := hV.psqrt hc hirr hg hlead (by decide) (by decide) hr hpsqrt
    obtain ⟨u5, hpfrac, hrun⟩ := execAll_cons (htau.err.trans herr) hrun
    obtain ⟨ha, hb'⟩ := htau.pfrac hc hirr hg hlead hinv.params (by decide) (by decide) (by decide) (by decide) hpfrac
    obtain ⟨u6, hploc, hrun⟩ := execAll_cons (ha.err.trans herr) hrun
    have hsigma := ha.ploc hc hb' (by decide) (by decide) (by decide) hploc
    obtain ⟨u7, hroots, hrun⟩ := execAll_cons (hsigma.err.trans herr) hrun
    obtain rfl := Host.Outcome.next.inj hrun
    exact hsigma.roots hc (by decide) her (i := .decode e syn) (ruleDecode_of_locator hc ht her hsyn hb hirr hreadG
      (locatorOf_of_inverse h0 hsome (readSq_of_some hr))) hroots

end Sys2Proof.Machine

/-! # Steps and control commands

The sequencer's turn in a step (45_control.md R400) and the control commands NOP, SYNC, CSRW and POSSET (R401 to R404). -/

namespace Sys2Proof.Machine

/-! ### One step -/

/-- The sequencer's turn runs the command its head decodes to (45_control.md R400). -/
theorem sequencerTurn_of_decode {s : State} {w : Command} {rest : List Command} {i : Instr} (hen : s.ctrlEn = true)
    (herr : s.status.err = false) (hf : s.fifo = w :: rest) (hd : decode s.params w = .ok i) :
    sequencerTurn s = exec i { s with fifo := rest } := by
  rw [sequencerTurn_of_head hen herr hf, runWord, hd]

/-- The sequencer's turn takes the fault of a head that decodes to no command (30_encoding.md R155). -/
theorem sequencerTurn_of_reject {s : State} {w : Command} {rest : List Command} {r : Reject} (hen : s.ctrlEn = true)
    (herr : s.status.err = false) (hf : s.fifo = w :: rest) (hd : decode s.params w = .error r) :
    sequencerTurn s = .next (({ s with fifo := rest } : State).takeFault (rejectFault r).1 (rejectFault r).2 w) := by
  rw [sequencerTurn_of_head hen herr hf, runWord, hd]

/-- Settles O6: the agenda gives the event, and the sequencer's event runs the decoded head. -/
theorem stepRunsTheDecodedCommand : Obligations.StepRunsTheDecodedCommand := by
  refine ⟨fun s w rest i hen herr hf hd => ⟨fun ha => ?_, fun es ha => ?_⟩, fun s addr data be es =>
    ⟨step_of_agenda_cons, step_of_agenda_cons⟩⟩
  · exact (step_of_agenda_nil ha).trans (sequencerTurn_of_decode hen herr hf hd)
  · exact (step_of_agenda_cons ha).trans (sequencerTurn_of_decode (s := { s with agenda := es }) hen herr hf hd)

/-- Settles O7: the sequencer's turn takes the fault `rejectFault` names, with the number of the field as info. -/
theorem stepFaultsOnARejectedWord : Obligations.StepFaultsOnARejectedWord := by
  intro s w rest es f hen herr hf ha hd
  rw [step_of_sequencer_next ha, sequencerTurn_of_reject (s := { s with agenda := es }) hen herr hf hd, takeFault_eq]
  cases f <;> rfl

/-! ### The control commands -/

/-- Settles O17: their rules make no check. -/
theorem nopAndSyncComplete : Obligations.NopAndSyncComplete := fun s =>
  ⟨exec_of_rule (i := .nop) (s' := s) rfl,
    exec_of_rule (i := .sync) (s' := { s with status := { s.status with mark := true } }) rfl⟩

/-- Retiring leaves the configuration registers and FLAGS alone. -/
theorem csrRead_retire_config (s : State) {k : Nat} (h1 : 0x020 ≤ k) (h2 : k ≤ 0x028) :
    s.retire.csrRead k = s.csrRead k := by
  interval_cases k <;> rfl

/-- A CSR that CSRW may not write raises CSR_ACCESS (45_control.md R403). -/
theorem exec_csrw_outside (s : State) {csr : Field} (h : csr.toNat < 0x020 ∨ 0x028 < csr.toNat) (v : Word32) :
    exec (.csrw csr v) s = .next (s.takeFault .csrAccess (csr.setWidth 32) (encode (.csrw csr v))) := by
  have hcsr : isConfigCsr csr.toNat = false := Bool.eq_false_iff.2 fun h' => by
    have := isConfigCsr_iff.1 h'
    omega
  refine exec_of_raise ?_
  rw [ruleOf, ruleCsrw, hcsr, require_false, run_error_bind]

/-- Settles O18: CSRW is `putConfig` of its register and then retires. -/
theorem csrwWritesOneRegister : Obligations.CsrwWritesOneRegister := by
  refine fun s csr imm => ⟨fun h1 h2 => ?_, fun h => exec_csrw_outside s h imm⟩
  refine ⟨_, exec_csrw_config s h1 h2 imm, congrArg State.retire (putConfig_eq s csr.toNat imm),
    fun k hk1 hk2 hne => ?_, ?_⟩
  · rw [csrRead_retire_config _ hk1 hk2, csrRead_putConfig_other s h1 h2 hne]
  · rw [csrRead_retire_config _ h1 h2, csrRead_putConfig_same s h1 h2]
    generalize csr.toNat = c at h1 h2
    interval_cases c <;> rfl

section Posset

variable {s : State} {x : Field} {imm : PosEntry} (himm : imm.toNat < 2 ^ s.params.posW)
include himm

/-- POSSET with a legal immediate and x inside POS (45_control.md R404). -/
theorem rulePosset_of_lt (hx : x.toNat < s.params.posLen) : rulePosset x imm s = .ok (s.putPos x.toNat imm) := by
  rw [rulePosset, require_eq_ok.2 (decide_eq_true himm), run_ok_bind, require_eq_ok.2 (decide_eq_true hx), run_ok_bind,
    run_pure]

/-- POSSET with a legal immediate and x outside POS. -/
theorem rulePosset_of_ge (hx : s.params.posLen ≤ x.toNat) : rulePosset x imm s = .error (.raise .addrRange 1) := by
  rw [rulePosset, require_eq_ok.2 (decide_eq_true himm), run_ok_bind, decide_eq_false (Nat.not_lt.2 hx), require_false,
    run_error_bind]
  rfl

end Posset

/-- Settles O19: the two outcomes of the rule, and a read of POS after the write. -/
theorem possetWritesOneEntry : Obligations.PossetWritesOneEntry := by
  refine fun s x imm himm => ⟨fun hx => ⟨_, exec_of_rule (i := .posset x imm) (rulePosset_of_lt himm hx), rfl, ?_,
    fun y hy => ?_⟩, fun hx => exec_of_raise (i := .posset x imm) (rulePosset_of_ge himm hx)⟩
  · exact (posEntry_putPos s x.toNat imm x.toNat).trans (if_pos rfl)
  · exact (posEntry_putPos s x.toNat imm y).trans (if_neg hy)

end Sys2Proof.Machine

/-! # Progress

Once every cell has been written no command stops the model, and every cell stays written (10_state.md R46, 20_memory.md
R126, 70_reset_and_hazards.md R603). -/

namespace Sys2Proof.Machine

/-! ### Writes keep cells written -/

/-- Every cell that is written in `s` is written in `t`, under the same parameters. -/
structure KeepsWritten (s t : State) : Prop where
  params : t.params = s.params
  p : ∀ k, (cellGet s.p k).isSome = true → (cellGet t.p k).isSome = true
  g : ∀ k, (cellGet s.g k).isSome = true → (cellGet t.g k).isSome = true
  sq : ∀ k, (cellGet s.sq k).isSome = true → (cellGet t.sq k).isSome = true
  pos : ∀ k, (cellGet s.pos k).isSome = true → (cellGet t.pos k).isSome = true
  bmem : ∀ a, (s.blockWord a).isSome = true → (t.blockWord a).isSome = true

theorem KeepsWritten.allDefined {s t : State} (h : KeepsWritten s t) (hall : s.AllDefined) : t.AllDefined where
  p i hi k hk := h.p _ (hall.p i hi k (h.params ▸ hk))
  g k hk := h.g _ (hall.g k (h.params ▸ hk))
  sq i hi k hk := h.sq _ (hall.sq i (h.params ▸ hi) k (h.params ▸ hk))
  pos x hx := h.pos _ (hall.pos x (h.params ▸ hx))
  bmem a ha := h.bmem a (hall.bmem a (h.params ▸ ha))

theorem KeepsWritten.refl (s : State) : KeepsWritten s s :=
  ⟨rfl, fun _ => id, fun _ => id, fun _ => id, fun _ => id, fun _ => id⟩

theorem KeepsWritten.trans {s t u : State} (h : KeepsWritten s t) (h' : KeepsWritten t u) : KeepsWritten s u :=
  ⟨h'.params.trans h.params, fun k hk => h'.p k (h.p k hk), fun k hk => h'.g k (h.g k hk),
    fun k hk => h'.sq k (h.sq k hk), fun k hk => h'.pos k (h.pos k hk), fun a ha => h'.bmem a (h.bmem a ha)⟩

/-- A write leaves no written cell unwritten. -/
theorem isSome_cellGet_cellPut {α : Type} {c : Cells α} {k : Nat} (h : (cellGet c k).isSome = true) (lo : Nat)
    (vs : List α) : (cellGet (cellPut c lo vs) k).isSome = true := by
  rw [cellGet_cellPut]
  split
  next hk => rw [List.getElem?_eq_getElem (by omega : k - lo < vs.length)]; rfl
  next => exact h

theorem keepsWritten_putSlots (s : State) (i k : Nat) (vs : List Elem) : KeepsWritten s (s.putSlots i k vs) :=
  { KeepsWritten.refl s with p := fun _ h => isSome_cellGet_cellPut h _ vs }

theorem keepsWritten_putPoly (s : State) (i : Nat) (q : Poly) : KeepsWritten s (s.putPoly i q) :=
  keepsWritten_putSlots s i 0 _

theorem keepsWritten_putG (s : State) (vs : List Elem) : KeepsWritten s (s.putG vs) :=
  { KeepsWritten.refl s with g := fun _ h => isSome_cellGet_cellPut h 0 vs }

theorem keepsWritten_putSqRow (s : State) (i : Nat) (vs : List Elem) : KeepsWritten s (s.putSqRow i vs) :=
  { KeepsWritten.refl s with sq := fun _ h => isSome_cellGet_cellPut h _ vs }

theorem keepsWritten_putPos (s : State) (x : Nat) (v : PosEntry) : KeepsWritten s (s.putPos x v) :=
  { KeepsWritten.refl s with pos := fun _ h => isSome_cellGet_cellPut h x [v] }

/-- Words to a, a + 1, .. are whole afterwards, and every other word is as it was (log entry 3). -/
theorem keepsWritten_putWords (s : State) (a : Nat) (vs : List Block) : KeepsWritten s (s.putWords a vs) :=
  { KeepsWritten.refl s with
    bmem := fun b hb => by
      by_cases h : a ≤ b ∧ b < a + vs.length
      · obtain ⟨j, rfl⟩ := Nat.exists_eq_add_of_le h.1
        rw [blockWord_putWords s a vs j (by omega)]
        rfl
      · rw [State.blockWord, cellGet_putWords_of_not s a vs b h]
        exact hb }

/-- `MemWrite` is a write of whole words, their bits at t and above 0 (00_scope.md R12). -/
theorem putBlocks_eq_putWords (s : State) (a : Nat) (vs : List Block) :
    s.putBlocks a vs = s.putWords a (vs.map (lowBits s.t)) := by
  rw [State.putBlocks, State.putWords, List.map_map]
  rfl

theorem keepsWritten_putBlocks (s : State) (a : Nat) (vs : List Block) : KeepsWritten s (s.putBlocks a vs) :=
  putBlocks_eq_putWords s a vs ▸ keepsWritten_putWords s a _

theorem keepsWritten_putStrided (s : State) (a stride : Nat) (vs : List Block) :
    KeepsWritten s (s.putStrided a stride vs) := by
  induction vs generalizing s a with
  | nil => exact .refl s
  | cons v vs ih => exact (keepsWritten_putBlocks s a [v]).trans (ih (s.putBlock a v) (a + stride))

theorem keepsWritten_setOutcome (s : State) (b : Bool) : KeepsWritten s (s.setOutcome b) := { KeepsWritten.refl s with }

theorem keepsWritten_putConfig (s : State) (k : Nat) (v : Word32) : KeepsWritten s (s.putConfig k v) := by
  rw [putConfig_eq]
  exact { KeepsWritten.refl s with }

theorem keepsWritten_drawn (s : State) : KeepsWritten s s.drawn := { KeepsWritten.refl s with }

theorem keepsWritten_retire (s : State) : KeepsWritten s s.retire := { KeepsWritten.refl s with }

theorem keepsWritten_takeFault (s : State) (c : Cause) (info : Word32) (w : Command) :
    KeepsWritten s (s.takeFault c info w) := { KeepsWritten.refl s with }

/-- The write of every command leaves no written cell unwritten. -/
theorem writes_keepsWritten {i : Instr} {s t : State} (h : Instr.Writes s i t) : KeepsWritten s t := by
  cases i with
  | nop => cases h; exact .refl s
  | sync => cases h; exact { KeepsWritten.refl s with }
  | csrw csr imm => cases h; exact keepsWritten_putConfig s _ imm
  | posset x imm => cases h; exact keepsWritten_putPos s _ imm
  | dyreg a => obtain ⟨b, rfl⟩ := h; exact keepsWritten_setOutcome s b
  | dyinv d a =>
    rcases h with rfl | ⟨v, rfl⟩
    · exact keepsWritten_setOutcome s false
    · exact (keepsWritten_setOutcome s true).trans (keepsWritten_putBlocks _ _ [v])
  | gauss base =>
    rcases h with rfl | ⟨vs, rfl⟩
    · exact keepsWritten_setOutcome s false
    · exact (keepsWritten_setOutcome s true).trans (keepsWritten_putBlocks _ _ vs)
  | dymul d a b | dyadd d a b => obtain ⟨v, rfl⟩ := h; exact keepsWritten_putBlocks s _ [v]
  | matvec d a b | roots d a | correct d a b => obtain ⟨vs, rfl⟩ := h; exact keepsWritten_putBlocks s _ vs
  | bcopy d src count => obtain ⟨vs, rfl⟩ := h; exact keepsWritten_putWords s _ vs
  | p2cot base ps stride => obtain ⟨vs, rfl⟩ := h; exact keepsWritten_putStrided s _ _ vs
  | cot2p pd a b | paddx pd a | ploc pd a b | pclr pd => obtain ⟨q, rfl⟩ := h; exact keepsWritten_putPoly s _ q
  | pinv pd ps | psqrt pd ps =>
    obtain ⟨q, rfl | rfl⟩ := h
    · exact keepsWritten_putPoly s _ q
    · exact (keepsWritten_putPoly s _ q).trans (keepsWritten_drawn _)
  | pfrac pa pb ps =>
    obtain ⟨a, b, h⟩ := h
    have hboth := (keepsWritten_putPoly s pa.toNat a).trans (keepsWritten_putPoly _ pb.toNat b)
    rcases h with rfl | rfl
    · exact hboth
    · exact hboth.trans (keepsWritten_drawn _)
  | decode e syn =>
    obtain ⟨vs, rfl | rfl⟩ := h
    · exact keepsWritten_putBlocks s _ vs
    · exact (keepsWritten_putBlocks s _ vs).trans (keepsWritten_drawn _)
  | pmov pd ps => obtain ⟨vs, rfl⟩ := h; exact keepsWritten_putSlots s _ _ vs
  | psetc pd k value => obtain ⟨v, rfl⟩ := h; exact keepsWritten_putSlots s _ _ [v]
  | gset ps => obtain ⟨vs, rfl⟩ := h; exact keepsWritten_putG s vs
  | sqset r ps => obtain ⟨vs, rfl⟩ := h; exact keepsWritten_putSqRow s _ vs

/-! ### Checks and what holds after them -/

section Checks

variable {s : State} {k : Unit → Run State}

/-- The rest of a rule is run only after its first part ended well. -/
theorem NeverStuck.bind_ok {α β : Type} {x : Run α} {f : α → Run β} (hx : NeverStuck x)
    (hf : ∀ a, x = .ok a → NeverStuck (f a)) : NeverStuck (x >>= f) := fun e h => by
  rcases run_bind_eq_error.1 h with hxe | ⟨a, hxo, hfe⟩
  · exact hx e hxe
  · exact hf a hxo e hfe

theorem NeverStuck.operands {fields : List (FieldId × FieldKind × Field)}
    (hk : (∀ e ∈ fields, e.2.1.legal s.params e.2.2 = true) → NeverStuck (k ())) :
    NeverStuck (checkOperands s fields >>= k) :=
  .bind_ok (neverStuck_checkOperands s fields) fun _ h => hk (checkOperands_eq_ok.1 h)

theorem NeverStuck.required {p : Prop} [Decidable p] {c : Cause} {info : Word32} (hk : p → NeverStuck (k ())) :
    NeverStuck (require (decide p) c info >>= k) :=
  .bind_ok (neverStuck_require _ c info) fun _ h => hk (of_decide_eq_true (require_eq_ok.1 h))

theorem NeverStuck.cfgv (hk : s.Cfgv → NeverStuck (k ())) : NeverStuck (checkCfgv s >>= k) := .required hk

theorem NeverStuck.region {f : FieldId} {last : Nat} (hk : last < s.params.bmemLen → NeverStuck (k ())) :
    NeverStuck (checkRegion s f last >>= k) := .required hk

end Checks

/-! ### Reads of written cells -/

theorem neverStuck_readCell {α : Type} {space : Space} {index : Nat} {v : Option α} (h : v.isSome = true) :
    NeverStuck (readCell space index v) := fun f hf => by
  rw [(readCell_eq_error.1 hf).1] at h
  cases h

theorem NeverStuck.collect {α : Type} {n : Nat} {f : Nat → Run α} (h : ∀ i, i < n → NeverStuck (f i)) :
    NeverStuck (collect n f) := fun e he => by
  obtain ⟨i, hi, hie⟩ := collect_eq_error he
  exact h i hi e hie

theorem tb_le_plen (p : Params) : p.tb ≤ p.plen := by
  rw [Params.plen]; omega

theorem glen_le_plen (p : Params) : p.glen ≤ p.plen := by
  have := Nat.two_pow_pos p.tMax
  rw [Params.plen, Params.glen, Params.tb]; omega

/-- The last block of MATVEC's matrix is its highest (20_memory.md R102, 42_matvec.md R281). -/
theorem matvec_block_lt {base r c rs cs i j len : Nat} (h : base + (r - 1) * rs + (c - 1) * cs < len) (hj : j < r)
    (hi : i < c) : base + j * rs + i * cs < len := by
  have hrow := Nat.mul_le_mul_right rs (Nat.le_sub_one_of_lt hj)
  have hcol := Nat.mul_le_mul_right cs (Nat.le_sub_one_of_lt hi)
  omega

/-- The last sub-block of COT2P's source is its highest (20_memory.md R102, 43_poly_transfer.md R300). -/
theorem strided_block_lt {base n stride i len : Nat} (h : base + (n - 1) * stride < len) (hi : i < n) :
    base + i * stride < len := by
  have := Nat.mul_le_mul_right stride (Nat.le_sub_one_of_lt hi)
  omega

/-- Every row of GAUSS's matrix ends inside its region (20_memory.md R102, 41_eliminator.md R250). -/
theorem gauss_row_le {base m nb j len : Nat} (h : base + m * nb - 1 < len) (hj : j < m) :
    base + j * nb + nb ≤ len := by
  have := Nat.mul_le_mul_right nb hj
  rw [Nat.succ_mul] at this
  omega

section Written

variable {s : State} (hall : s.AllDefined)
include hall

theorem State.AllDefined.neverStuck_readSlots {i n : Nat} (hi : i < Config.nPreg) (hn : n ≤ s.params.plen) :
    NeverStuck (readSlots s i n) :=
  .collect fun k hk => neverStuck_readCell (hall.p i hi k (hk.trans_le hn))

theorem State.AllDefined.neverStuck_readPolyTo {i n : Nat} (hi : i < Config.nPreg) (hn : n ≤ s.params.plen) :
    NeverStuck (readPolyTo s i n) :=
  .bind (hall.neverStuck_readSlots hi hn) fun _ => .ok

theorem State.AllDefined.neverStuck_readPoly {i : Nat} (hi : i < Config.nPreg) : NeverStuck (readPoly s i) :=
  hall.neverStuck_readPolyTo hi le_rfl

theorem State.AllDefined.neverStuck_readWords {a n : Nat} (ha : a + n ≤ s.params.bmemLen) :
    NeverStuck (collect n fun i => readCell .bmem (a + i) (s.blockWord (a + i))) :=
  .collect fun i _ => neverStuck_readCell (hall.bmem (a + i) (by omega))

section Configured

variable (hc : s.Cfgv)
include hc

theorem State.AllDefined.neverStuck_readG : NeverStuck (readG s) :=
  .bind (.collect fun _ hk => neverStuck_readCell <|
    Option.isSome_of_eq_some (hall.gSlot_eq hc (Nat.le_of_lt_succ hk))) fun _ => .ok

theorem State.AllDefined.neverStuck_readSq : NeverStuck (readSq s) :=
  .collect fun _ hi => .bind (.collect fun _ hk => neverStuck_readCell <|
    Option.isSome_of_eq_some (hall.sqSlot_eq hc hi hk)) fun _ => .ok

theorem State.AllDefined.neverStuck_checkGoppa : NeverStuck (checkGoppa s) :=
  .bind (neverStuck_readCell <| Option.isSome_of_eq_some (hall.gSlot_eq hc le_rfl)) fun _ => neverStuck_require _ _ _

/-- The first t slots of a P register are some of its PLEN. -/
theorem State.AllDefined.neverStuck_readPolyTo_t {i : Nat} (hi : i < Config.nPreg) :
    NeverStuck (readPolyTo s i s.t) :=
  hall.neverStuck_readPolyTo hi (hc.t_le_tb.trans (tb_le_plen _))

/-- POS has an entry for every element of the field (10_state.md R51), so pass 1 of CORRECT finds all it reads. -/
theorem State.AllDefined.neverStuck_errorPositions (ev : List Block) {xs : List Nat} (hxs : ∀ x ∈ xs, x < s.n) :
    NeverStuck (errorPositions s ev xs) := by
  induction xs with
  | nil => exact .ok
  | cons x xs ih =>
    have hx : x < s.params.posLen :=
      (hxs x List.mem_cons_self).trans_le (Nat.pow_le_pow_right (by omega) hc.m_le)
    have hrest := ih fun y hy => hxs y (List.mem_cons_of_mem _ hy)
    rw [errorPositions]
    split
    · exact .bind (.bind (neverStuck_readCell (hall.pos x hx)) fun _ => .ok) fun _ =>
        .bind (neverStuck_require _ _ _) fun _ => .bind hrest fun _ => .ok
    · exact hrest

theorem State.AllDefined.neverStuck_readGFor (syn : Poly) : NeverStuck (readGFor s syn) := by
  rw [readGFor]
  split
  · exact .ok
  · exact hall.neverStuck_readG hc

theorem State.AllDefined.neverStuck_locatorOf (g syn : Poly) : NeverStuck (locatorOf s g syn) := by
  rw [locatorOf]
  split
  · exact .ok
  · split
    · exact .raise
    · exact .bind (hall.neverStuck_readSq hc) fun _ => .ok

end Configured

variable (hp : s.params.Legal)
include hp

theorem State.AllDefined.neverStuck_readBlock (hc : s.Cfgv) {a : Nat} (ha : a < s.params.bmemLen) :
    NeverStuck (readBlock s a) :=
  neverStuck_readCell (Option.isSome_of_eq_some (hall.block_eq hc hp ha))

theorem State.AllDefined.neverStuck_readBlocks (hc : s.Cfgv) {a n : Nat} (ha : a + n ≤ s.params.bmemLen) :
    NeverStuck (readBlocks s a n) :=
  .collect fun i _ => hall.neverStuck_readBlock hp hc (by omega)

/-! ### No rule stops -/

theorem ruleDyinv_neverStuck (d a : Field) : NeverStuck (ruleDyinv d a s) := by
  refine .cfgv fun hc => .region fun _ => .region fun ha => .bind (hall.neverStuck_readBlock hp hc ha) fun _ => ?_
  split
  · exact .ok
  · exact .ok

theorem ruleMatvec_neverStuck (d mat v : Field) : NeverStuck (ruleMatvec d mat v s) := by
  refine .cfgv fun hc => .required fun _ => .region fun _ => .region fun hmat => .region fun hv => ?_
  refine .bind (.collect fun j hj => .collect fun i hi =>
    hall.neverStuck_readBlock hp hc (matvec_block_lt hmat hj hi)) fun _ => ?_
  exact .bind (hall.neverStuck_readBlocks hp hc (by omega)) fun _ => .ok

theorem ruleGauss_neverStuck (base : Field) : NeverStuck (ruleGauss base s) := by
  refine .cfgv fun hc => .required fun _ => .region fun hbase => ?_
  refine .bind (.collect fun j hj => hall.neverStuck_readBlocks hp hc (gauss_row_le hbase hj)) fun _ => ?_
  split
  · exact .ok
  · exact .ok

theorem ruleCorrect_neverStuck (d c e : Field) : NeverStuck (ruleCorrect d c e s) := by
  refine .cfgv fun hc => .required fun _ => .required fun _ => .region fun hcipher => .region fun hev => ?_
  have hm := hc.one_le_m
  have hblocks := vector_blocks_pos hc
  refine .bind (hall.neverStuck_readBlocks hp hc (by omega)) fun ev => ?_
  refine .bind (hall.neverStuck_readBlocks hp hc (by omega)) fun _ => ?_
  exact .bind (hall.neverStuck_errorPositions hc ev fun _ => List.mem_range.1) fun _ => .ok

theorem ruleDecode_neverStuck (e syn : Field) : NeverStuck (ruleDecode e syn s) := by
  refine .cfgv fun hc => .bind (hall.neverStuck_checkGoppa hc) fun _ => .region fun _ => .region fun hsyn => ?_
  have hm := hc.one_le_m
  refine .bind (hall.neverStuck_readBlocks hp hc (by omega)) fun _ => .bind (hall.neverStuck_readGFor hc _) fun _ =>
    neverStuck_underField fun _ => ?_
  exact .bind (hall.neverStuck_locatorOf hc _ _) fun _ => .bind (neverStuck_rootVector _ _) fun _ => .ok

/-- PROGRESS: with every cell written no rule stops the model; the checks keep each read inside its space. -/
theorem rule_neverStuck (i : Instr) : NeverStuck (ruleOf i s) := by
  cases i with
  | nop | sync => exact .ok
  | csrw csr imm => exact .bind (neverStuck_require _ _ _) fun _ => .ok
  | posset x imm => exact .bind (neverStuck_require _ _ _) fun _ => .bind (neverStuck_require _ _ _) fun _ => .ok
  | dymul d a b | dyadd d a b =>
    exact .cfgv fun hc => .region fun _ => .region fun ha => .region fun hb =>
      .bind (hall.neverStuck_readBlock hp hc ha) fun _ => .bind (hall.neverStuck_readBlock hp hc hb) fun _ => .ok
  | dyreg a => exact .cfgv fun hc => .region fun ha => .bind (hall.neverStuck_readBlock hp hc ha) fun _ => .ok
  | dyinv d a => exact ruleDyinv_neverStuck hall hp d a
  | bcopy d src count =>
    refine .operands fun hf => .region fun _ => .region fun hsrc => .bind (hall.neverStuck_readWords ?_) fun _ => .ok
    have hcount : 1 ≤ count.toNat := legal_positive.1 (hf (.fc, .positive, count) (by simp))
    omega
  | matvec d mat v => exact ruleMatvec_neverStuck hall hp d mat v
  | gauss base => exact ruleGauss_neverStuck hall hp base
  | cot2p pd base stride =>
    exact .operands fun _ => .cfgv fun hc => .region fun hbase =>
      .bind (.collect fun i hi => hall.neverStuck_readBlock hp hc (strided_block_lt hbase hi)) fun _ => .ok
  | p2cot base ps stride =>
    exact .operands fun hf => .cfgv fun hc => .region fun _ =>
      .bind (hall.neverStuck_readPolyTo_t hc (legal_preg.1 (hf (.fb, .preg, ps) (by simp)))) fun _ => .ok
  | pinv pd ps =>
    refine .operands fun hf => .cfgv fun hc => .bind (hall.neverStuck_checkGoppa hc) fun _ =>
      .bind (hall.neverStuck_readPoly (legal_preg.1 (hf (.fb, .preg, ps) (by simp)))) fun _ =>
        .bind (hall.neverStuck_readG hc) fun _ => neverStuck_underField fun _ => ?_
    split
    · exact .raise
    · exact .ok
  | paddx pd ps =>
    exact .operands fun hf => .cfgv fun _ =>
      .bind (hall.neverStuck_readPoly (legal_preg.1 (hf (.fb, .preg, ps) (by simp)))) fun _ => .ok
  | psqrt pd ps =>
    exact .operands fun hf => .cfgv fun hc => .bind (hall.neverStuck_checkGoppa hc) fun _ =>
      .bind (hall.neverStuck_readPoly (legal_preg.1 (hf (.fb, .preg, ps) (by simp)))) fun _ =>
        .bind (hall.neverStuck_readG hc) fun _ => .bind (hall.neverStuck_readSq hc) fun _ =>
          neverStuck_underField fun _ => .ok
  | pfrac pa pb ps =>
    exact .operands fun hf => .bind (neverStuck_require _ _ _) fun _ => .cfgv fun hc =>
      .bind (hall.neverStuck_checkGoppa hc) fun _ =>
        .bind (hall.neverStuck_readPoly (legal_preg.1 (hf (.fc, .preg, ps) (by simp)))) fun _ =>
          .bind (hall.neverStuck_readG hc) fun _ => neverStuck_underField fun _ => .ok
  | ploc pd pa pb =>
    exact .operands fun hf => .cfgv fun hc =>
      .bind (hall.neverStuck_readPolyTo_t hc (legal_preg.1 (hf (.fb, .preg, pa) (by simp)))) fun _ =>
        .bind (hall.neverStuck_readPolyTo_t hc (legal_preg.1 (hf (.fc, .preg, pb) (by simp)))) fun _ => .ok
  | roots e ps =>
    exact .operands fun hf => .cfgv fun _ => .region fun _ =>
      .bind (hall.neverStuck_readPoly (legal_preg.1 (hf (.fb, .preg, ps) (by simp)))) fun _ =>
        .bind (neverStuck_rootVector _ _) fun _ => .ok
  | correct d c e => exact ruleCorrect_neverStuck hall hp d c e
  | decode e syn => exact ruleDecode_neverStuck hall hp e syn
  | pclr pd | psetc pd k value => exact .bind (neverStuck_checkOperands _ _) fun _ => .ok
  | pmov pd ps =>
    exact .operands fun hf =>
      .bind (hall.neverStuck_readSlots (legal_preg.1 (hf (.fb, .preg, ps) (by simp))) le_rfl) fun _ => .ok
  | gset ps =>
    exact .operands fun hf =>
      .bind (hall.neverStuck_readSlots (legal_preg.1 (hf (.fb, .preg, ps) (by simp))) (glen_le_plen _)) fun _ => .ok
  | sqset r ps =>
    exact .operands fun hf =>
      .bind (hall.neverStuck_readSlots (legal_preg.1 (hf (.fb, .preg, ps) (by simp))) (tb_le_plen _)) fun _ => .ok

end Written

/-- However a command's rule ends, unless it stops the model, no written cell is unwritten after it. -/
theorem exec_keepsWritten {i : Instr} {s : State} (h : NeverStuck (ruleOf i s)) :
    ∃ t, exec i s = .next t ∧ KeepsWritten s t := by
  rw [exec_eq_commit]
  rcases hr : ruleOf i s with (⟨c, info⟩ | ⟨c, info⟩ | f) | s'
  · exact ⟨_, commit_raise .., keepsWritten_takeFault ..⟩
  · exact ⟨_, commit_freeRaise .., (keepsWritten_drawn s).trans (keepsWritten_takeFault ..)⟩
  · exact absurd hr (h f)
  · exact ⟨_, commit_ok .., (writes_keepsWritten (rule_writes i s s' hr)).trans (keepsWritten_retire s')⟩

/-- Settles O13: `rule_neverStuck` gives the next state, and `exec_keepsWritten` keeps its cells written. -/
theorem completesWhenAllDefined : Obligations.CompletesWhenAllDefined := fun i _ hp hall => by
  obtain ⟨t, hexec, hkeep⟩ := exec_keepsWritten (rule_neverStuck hall hp i)
  exact ⟨t, hexec, hkeep.params, hkeep.allDefined hall⟩

end Sys2Proof.Machine

/-! # Faults are precise

A fault records its cause, info and word, sets STATUS.ERR and changes nothing else (60_exceptions.md R501, R502, R505,
R506). -/

namespace Sys2Proof.Machine

/-- A next state with STATUS.ERR set, reached from one with it clear, is that of a command whose fault was taken: a rule
that ends well leaves STATUS.ERR alone. At most a free value was drawn before the fault (44_decoder.md R340). -/
theorem exec_faulted {i : Instr} {s t : State} (hs : s.status.err = false) (h : exec i s = .next t)
    (he : t.status.err = true) :
    ∃ c info n, t = State.takeFault { s with draws := n } c info (encode i) := by
  rw [exec_eq_commit] at h
  rcases commit_eq_next.1 h with ⟨s', hr, rfl⟩ | ⟨c, info, -, ht⟩ | ⟨c, info, -, ht⟩
  · have herr : s'.status.err = true := he
    rw [(rule_ok_same hr).err, hs] at herr
    cases herr
  · exact ⟨c, info, s.draws, ht⟩
  · exact ⟨c, info, s.draws + 1, ht⟩

theorem Cause.one_le_code (c : Cause) : 1 ≤ c.code.toNat := by
  cases c <;> decide

/-- Settles O9: `takeFault_eq` spells the record out for each cause, and a faulting command ends in `takeFault`
(`exec_faulted`). -/
theorem faultsArePrecise : Obligations.FaultsArePrecise := by
  refine ⟨fun s c info w => ?_, fun i s t hs h he => ?_⟩
  · cases c <;> exact takeFault_eq ..
  · obtain ⟨c, info, n, rfl⟩ := exec_faulted hs h he
    exact ⟨takeFault_eq .., c.one_le_code, c.code_bounds.1⟩

end Sys2Proof.Machine

/-! # The reset

The input RST and a write of CTRL with SRST are one function, `doReset` (70_reset_and_hazards.md R600, R601); a write
of CTRL reaches the other two bits of its word only without SRST (10_state.md R62). -/

namespace Sys2Proof.Machine

theorem writeCtrl_of_srst {s : State} {v : Word32} (h : v.getLsbD 2 = true) : s.writeCtrl v = s.doReset := if_pos h

theorem writeCtrl_of_not_srst {s : State} {v : Word32} (h : v.getLsbD 2 = false) :
    s.writeCtrl v = { s with ctrlEn := v.getLsbD 0, fifo := if v.getLsbD 1 then [] else s.fifo } :=
  if_neg (Bool.eq_false_iff.1 h)

theorem step_of_rst {s : State} {es : List Event} (h : s.agenda = .rst :: es) :
    step s = .next { s with agenda := es }.doReset := step_of_agenda_cons h

/-- CTRL is CSR 4, at byte address 0x10 (20_memory.md R104). -/
theorem step_of_ctrlWrite {s : State} {v : Word32} {es : List Event} (h : s.agenda = .write 0x10#32 v 0b1111#4 :: es) :
    step s = .next ({ s with agenda := es }.writeCtrl v) :=
  calc step s
    _ = runEvent { s with agenda := es } (.write 0x10#32 v 0b1111#4) := step_of_agenda_cons h
    _ = .next ({ s with agenda := es }.writeCtrl v) := congrArg _ (hostWrite_csr _ (k := 4) (by omega) v)

/-- Settles O58: RST steps to `doReset`, and a CTRL write to `writeCtrl`, whose two cases are the bit SRST. -/
theorem resetReplacesTheState : Obligations.ResetReplacesTheState := fun s v es => by
  refine ⟨fun ha => ?rst, fun ha hv => ?srst, fun ha hv => ?enFlush⟩
  case rst => exact step_of_rst ha
  case srst => rw [step_of_ctrlWrite ha, writeCtrl_of_srst hv, State.doReset]
  case enFlush => rw [step_of_ctrlWrite ha, writeCtrl_of_not_srst hv]

end Sys2Proof.Machine
